-- ==== Sys2Proof/Word.lean ====
section
/-! DEFINITION. The plain values of the station: bytes, samples, nibbles, frame counts, and the fixed vocabularies
(laws, modes, roles, kinds) that the manual names. -/

namespace Sys2Proof

/-- Eight bits of a parcel, of the configuration image or of a two-wire transfer. -/
abbrev Byte := BitVec 8

/-- One companded landline sample (0.1). -/
abbrev Sample := BitVec 8

/-- Four bits of a parcel lane. -/
abbrev Nibble := BitVec 4

/-- The free-running frame count, wrapping at 65536 (R74); window stamps, closing stamps, switch frames and
deadlines are frame counts too. -/
abbrev FrameCount := BitVec 16

/-- A 12-bit call tag. -/
abbrev CallTag := BitVec 12

/-- One of the 256 call positions. -/
abbrev Pos := Fin 256

/-- A station number 0 to 7. -/
abbrev Station := Fin 8

/-- A context number 0 to 63 (R1). -/
abbrev CtxNum := Fin 64

/-- An engine number 0 to 3 (R62). -/
abbrev EngineNum := Fin 4

/-- A speech mode 0 to 3 (R6). -/
abbrev Mode := Fin 4

/-- A mode set, bit m set when mode m is a member (11.1). -/
abbrev ModeSet := BitVec 4

/-- A block index, a phase φ or a marker phase, 0 to 159. -/
abbrev BlockIndex := Fin 160

/-- A numbered family of n things of which most stand at their resting value: the things that do not are listed,
with strictly rising numbers. What an unlisted number holds is said where the table is read. -/
abbrev Table (n : Nat) (α : Type) := List (Fin n × α)

/-- The companding law of a call. -/
inductive Law where
  | aLaw
  | muLaw
deriving DecidableEq, Repr, Inhabited

/-- The states of a channel context other than FREE (R1); a FREE context is one the context table does not list. -/
inductive CtxState where
  | warming
  | standby
  | primary
  | yielding
deriving DecidableEq, Repr

/-- The role of a standby copy (R5). -/
inductive Role where
  | shadow
  | taker
deriving DecidableEq, Repr

/-- The four roles of a BID (R96). -/
inductive BidRole where
  | offer
  | shadow
  | take
  | orphan
deriving DecidableEq, Repr

/-- The three causes of a TAKEN (11.1); code 3 is not admitted. -/
inductive TakenCause where
  | handOff
  | promotion
  | orphan
deriving DecidableEq, Repr

/-- The three valid kinds of a parcel (R19). -/
inductive ParcelKind where
  | speech
  | sid
  | noData
deriving DecidableEq, Repr

/-- Why a parcel is BAD (R24). -/
inductive BadReason where
  | marker
  | header
  | crc
  | mode
  | impaired
deriving DecidableEq, Repr

/-- The uplink quiet state (R36). -/
inductive QuietState where
  | speech
  | quiet
deriving DecidableEq, Repr

/-- The receiver states (R20 to R23). -/
inductive RxState where
  | hunt
  | confirm
  | synced
deriving DecidableEq, Repr

/-- The playout states (R31). -/
inductive PlayState where
  | priming
  | starting
  | running
deriving DecidableEq, Repr

/-- The direction of a job (R63). -/
inductive Direction where
  | encode
  | decodeSide
deriving DecidableEq, Repr

/-- The class of a job (R64). -/
inductive JobClass where
  | primary
  | standby
deriving DecidableEq, Repr

/-- The states of a position record (R109). -/
inductive PosState where
  | free
  | offered
  | held
  | shedding
  | orphaned
deriving DecidableEq, Repr

/-- The states of a roster entry (R129). -/
inductive RosterState where
  | unknown
  | present
  | lost
deriving DecidableEq, Repr

/-- The timing states of the Highway Interface (R74). -/
inductive Timing where
  | seek
  | prove
  | good
deriving DecidableEq, Repr

/-- The station states (R152). -/
inductive StationState where
  | start
  | listen
  | active
  | retreat
deriving DecidableEq, Repr

/-- The loader states (chapter 9). -/
inductive LoaderState where
  | idle
  | reading
  | pause
  | done
deriving DecidableEq, Repr

/-- The loader results (chapter 9). -/
inductive LoaderResult where
  | none
  | image
  | partialImage
  | bad
  | absent
deriving DecidableEq, Repr

/-- The causes of a retreat (R162). -/
inductive RetreatCause where
  | none
  | timing
  | declared
  | abandoned
  | duplicate
deriving DecidableEq, Repr

/-- The eight fault flags in their order (R167). -/
inductive FaultFlag where
  | configDefaulted
  | configBad
  | timingLost
  | declaredLost
  | noticeAbandoned
  | duplicateNumber
  | streamLost
  | overload
deriving DecidableEq, Repr

/-- The 32 station-wide counters in the order of their indexes 0x10 to 0x2F (R166). -/
inductive Counter where
  | noticesSent
  | arbitrationsLost
  | collisions
  | rejectsSeen
  | checkFailures
  | outboxDrops
  | misrouted
  | staleBids
  | strays
  | censusMismatches
  | offersOverHeld
  | clearsRefused
  | shedsRefused
  | offerLapses
  | shedLapses
  | orphanLapses
  | orphansDropped
  | takeovers
  | retreats
  | bridgedFrameMarkers
  | bridgedBlockMarkers
  | goodParcels
  | badParcels
  | missingParcels
  | ringDiscards
  | trims
  | syncLosses
  | falseMarkers
  | rateRequestsRefused
  | lateDecodes
  | lateEncodes
  | fillers
deriving DecidableEq, Repr

end Sys2Proof
end

