-- ==== Sys2Proof/Config.lean ====
section
/-! DEFINITION. What the manual fixes for one station (the configuration items with their defaults) and the free
values: what a codec engine computes. -/

namespace Sys2Proof

/-- The nine configuration items (9.5). -/
structure Settings where
  budget : Nat
  heartbeatPeriod : Nat
  claimLength : Nat
  warmUp : Nat
  shadowing : Bool
  shedHoldOff : Nat
  quietPeriod : Nat
  streamLostLimit : Nat
  shedGrace : Nat
deriving DecidableEq, Repr

/-- The defaults of the nine items (9.5, 11.4). -/
def Config.defaults : Settings :=
  { budget := 240, heartbeatPeriod := 4, claimLength := 32, warmUp := 2, shadowing := true,
    shedHoldOff := 8, quietPeriod := 16, streamLostLimit := 50, shedGrace := 4 }

/-- One half of the codec state of a context (R72). Its content is opaque to the manual: the token has no meaning but
that the engine's computations below depend on it. -/
structure CodecHalf where
  token : Nat
deriving DecidableEq, Repr, Inhabited

/-- What a decode-side job works on (R36): a speech payload, a silence descriptor, a concealment at a level, or comfort
noise from the last descriptor. -/
inductive DecodeWork where
  | speech (mode : Mode) (payload : List Byte)
  | sid (payload : List Byte)
  | conceal (level : Nat)
  | comfortNoise
deriving DecidableEq, Repr

/-- FREE VALUE (log 2): the encoder half made fresh at allocation (R72). -/
opaque Config.freshEncoder : Law → Mode → CodecHalf

/-- FREE VALUE (log 2): the decoder half made fresh at allocation (R72). -/
opaque Config.freshDecoder : Law → Mode → CodecHalf

/-- FREE VALUE (log 2): the activity outcome of an encode job (R52). -/
opaque Config.encodeActive : CodecHalf → List Sample → Mode → Bool

/-- FREE VALUE (log 2): byte i of the payload an encode job delivers (R52); how many bytes it delivers is fixed by R6. -/
opaque Config.encodeByte : CodecHalf → List Sample → Mode → Nat → Byte

/-- FREE VALUE (log 2): the encoder half as a completed encode job leaves it (R72). -/
opaque Config.encodeNext : CodecHalf → List Sample → Mode → CodecHalf

/-- FREE VALUE (log 2): sample i of the block a decode-side job delivers (R36, R37). A concealment is asked for at level
1 only, its extrapolation at full level; what R37 makes of it at the other levels is the model's text. -/
opaque Config.decodeSample : CodecHalf → Law → DecodeWork → Nat → Sample

/-- FREE VALUE (log 2): the decoder half as a completed decode-side job leaves it (R72). -/
opaque Config.decodeNext : CodecHalf → DecodeWork → CodecHalf

/-- FREE VALUE (log 2): a companded sample lowered by a further 3 dB (R38). -/
opaque Config.lower3dB : Law → Sample → Sample

end Sys2Proof
end

