-- ==== Sys2Proof/Syntax.lean ====
section
/-! DEFINITION. The commands of the block: one constructor of Instr for each row of spec/opcode_table.json, with the
content that the event brings from outside (lane samples, pin levels, durations) or the thing it happens to (a context,
a position, an engine). -/

namespace Sys2Proof

/-- How a cold start is caused (R153): power-on, or RESETN held low for some nanoseconds. -/
inductive ColdStartCause where
  | powerOn
  | resetLow (nanos : Nat)
deriving DecidableEq, Repr

/-- The strap pins as sampled at the release (R154). -/
structure Straps where
  stn2 : Bool
  stn1 : Bool
  stn0 : Bool
deriving DecidableEq, Repr

/-- Where an attempt of the configuration read fails (R156, R157): SDA still low after the ninth recovery clock, or no
acknowledge after one of the three bytes the loader sends. -/
inductive AckPoint where
  | recovery
  | addressWrite
  | offset
  | addressRead
deriving DecidableEq, Repr

/-- How far an attempt of the configuration read had come when SCL was held low (R157): the recovery clocks it made, the
bytes it reads, the conditions and bytes it has completed, and the bits of the byte in progress. -/
structure ReadCut where
  clocks : Nat
  image : List Byte
  acts : Nat
  bits : Nat
deriving DecidableEq, Repr

/-- SCL held low for some microseconds, and what the attempt had put on the port by then (R157). -/
structure ClockHold where
  micros : Nat
  cut : ReadCut
deriving DecidableEq, Repr

/-- No HCLK edge for some nanoseconds (R81), after the edge at which the HCLK count of the frame was edge. A pause that
falls inside a window brings the levels that the other parties drove on CL and the disturbances of the station's own
sample in the control bit-times before it; any other brings none. -/
structure ClockPause where
  nanos : Nat
  edge : Nat
  others : List Bool
  noise : List Bool
deriving DecidableEq, Repr

/-- The inward lane content sampled during the frame that ends (R76): one sample and one nibble for each position. -/
structure Lanes where
  si : List Sample
  pi : List Nibble
deriving DecidableEq, Repr

/-- Which of two things is taken first where the manual leaves both orders open within one block event: the ageing of
the roster before the loss examination (R151), and the entry to ACTIVE before the Pool Controller's decisions (R161). -/
structure BlockOrder where
  agesFirst : Bool
  entryFirst : Bool
deriving DecidableEq, Repr

/-- The steps of the part, one constructor for each row of the table of operations and events. A control window, and a
pause of HCLK that falls inside one, carry the levels that the other parties drive on CL and the disturbances of the
station's own sample, control bit-time by control bit-time from 0 on; a pause outside a window carries none. -/
inductive Instr where
  | coldStart (cause : ColdStartCause)
  | coldStartRelease (straps : Straps)
  | missingAcknowledge (clocks : Nat) (point : AckPoint)
  | loaderPauseEnd
  | sclHeldLow (hold : ClockHold)
  | configurationReadEnd (clocks : Nat) (image : List Byte)
  | frameReferenceSet (bsync : Bool)
  | frameEvent (bsync : Bool) (lanes : Lanes)
  | bridgedFrameEvent (bsync : Bool) (lanes : Lanes)
  | frameMarkerMiss
  | strayFsync (edge : Nat)
  | blockEvent (order : BlockOrder)
  | bridgedBlockEvent (order : BlockOrder)
  | timingGood
  | hclkGap (pause : ClockPause)
  | enterListen
  | quietPeriodEnd
  | mapComplete
  | controlWindow (others noise : List Bool)
  | applyEmptyMark
  | applyLost
  | applyTaken
  | applyClear
  | applyOffer
  | applyBid
  | applyShed
  | applyHold
  | applyPresent
  | applyReport
  | queryStationSummary
  | queryFaultFlags
  | queryClearFlags
  | queryCounter
  | queryPositionStatus
  | queryUnknownItem
  | sweepGroup
  | switchFrame (c : CtxNum)
  | recordSwitchFrame (p : Pos)
  | warmUpEnd (c : CtxNum)
  | shedDecision
  | declareLost
  | heartbeat
  | markerJudgement (c : CtxNum)
  | parcelCompletion (c : CtxNum)
  | need (c : CtxNum)
  | jobTakeUp
  | decodeCompletion (e : EngineNum)
  | encodeCompletion (e : EngineNum)
  | jobDropped (c : CtxNum) (d : Direction)
  | blockClose (c : CtxNum)
  | emissionStart (c : CtxNum)
  | fsyncAbsentInProve
deriving DecidableEq, Repr

end Sys2Proof
end

