-- ==== Sys2Proof/Decode.lean ====
section
/-! DEFINITION. Reading a command from a word. No row of spec/opcode_table.json gives bits, so no word spells a
command (log 20). -/

namespace Sys2Proof

/-- The command that the word w of nbits bits spells by the table's bits: none, since the table gives no row any. -/
def decodeTableWord (_nbits _w : Nat) : Option Instr := none

end Sys2Proof
end

