-- ==== Sys2Proof/Machine/State.lean ====
section
/-! DEFINITION. The state of one station: what each of its blocks holds, plain data throughout, with the values after
cold start, and the reasons a step could stop. -/

namespace Sys2Proof.Machine

/-- The faults of the station. There are none: the manual gives every event an effect (INVENTORY.md, Faults), so no
meaning ends in a fault. Nothing raises one, which is safe. -/
inductive Fault where
deriving DecidableEq, Repr

/-- The refusals. -/
inductive Refusal where
  /-- A command that has no meaning yet; raised by an arm of exec only. No arm raises it. Safe. -/
  | notModelled (mnemonic : String)
deriving DecidableEq, Repr

/-! ### Notices and records of the control lane -/

/-- A notice of one of the ten kinds with its body fields (R96, 11.1). -/
inductive Notice where
  | lost (s : Station) (age : BitVec 8)
  | taken (p : Pos) (tag : CallTag) (cause : TakenCause) (phase : BlockIndex)
  | clear (p : Pos) (tag : CallTag)
  | offer (p : Pos) (tag : CallTag) (law : Law) (modes : ModeSet) (mode : Mode)
  | bid (p : Pos) (tag : CallTag) (role : BidRole) (cost : BitVec 4)
  | shed (p : Pos) (tag : CallTag) (cost : BitVec 4)
  | hold (p : Pos) (tag : CallTag) (law : Law) (modes : ModeSet) (mode : Mode) (phase : BlockIndex)
      (shadow : Option Station)
  | present (load headroom : BitVec 8) (freeContexts : Fin 65) (fresh active : Bool)
  | query (argument : BitVec 8) (target : Station) (item : BitVec 8)
  | report (p : Pos) (item : BitVec 8) (value : BitVec 24)
deriving DecidableEq, Repr

/-- A notice as heard, with every field: its sender number (R96), its grade (R87, R88) and the own mark (R104). -/
structure Heard where
  sender : BitVec 4
  grade : BitVec 8
  notice : Notice
  own : Bool
deriving DecidableEq, Repr

/-- A record of the intake queue: a stamp, and a notice or an empty mark (R104). -/
structure Record where
  stamp : FrameCount
  heard : Option Heard
deriving DecidableEq, Repr

/-- An entry of the outbox (R99); its key is computed from the notice (R100). -/
structure OutEntry where
  notice : Notice
  age : Nat
  retries : Nat
deriving DecidableEq, Repr

/-- What a removal request names (R102): every notice for a position (R96), the LOST of a station, or the own BID for a
position that the Pool Controller withdraws. -/
inductive Removal where
  | forPosition (p : Pos)
  | lostOf (q : Station)
  | bidOf (p : Pos)
deriving DecidableEq, Repr

/-- A request that reaches the entry in its window (R103). -/
inductive OutRequest where
  | place (n : Notice)
  | remove (r : Removal)
deriving DecidableEq, Repr

/-- The entry in its window (R103): its key, and the requests that wait for it to leave its window, oldest first. -/
structure InWindow where
  key : Nat × Nat
  waiting : List OutRequest
deriving DecidableEq, Repr

/-! ### Parcels, jobs and contexts -/

/-- The result of a judged parcel (R24, R30). -/
inductive ParcelResult where
  | bad (reason : BadReason)
  | good (kind : ParcelKind) (mode : Mode) (payload : List Byte)
deriving DecidableEq, Repr

/-- An entry of the inbound ring (R30). -/
structure RingEntry where
  result : ParcelResult
  completed : FrameCount
deriving DecidableEq, Repr

/-- The ready entry of the outbound ring (R52). -/
structure ReadyEntry where
  kind : ParcelKind
  mode : Mode
  payload : List Byte
deriving DecidableEq, Repr

/-- The emitting entry of the outbound ring (R54): how many nibbles of it have been presented, and its 80 bytes once its
content is fixed (R55); until then the mode of the job that belongs to its emission start. -/
structure Emitting where
  sent : Nat
  content : Option (List Byte)
  mode : Mode
deriving DecidableEq, Repr

/-- A pending emission start (R51): its frame, whether its close posted a job, and the mode active at that close. -/
structure EmissionStart where
  frame : FrameCount
  jobPosted : Bool
  mode : Mode
deriving DecidableEq, Repr

/-- The per-context counters (R2), each 24 bits, saturating. -/
structure CtxCounters where
  good : BitVec 24
  bad : BitVec 24
  missing : BitVec 24
  discarded : BitVec 24
  trimmed : BitVec 24
  lateEncode : BitVec 24
  lateDecode : BitVec 24
deriving DecidableEq, Repr

/-- MODEL's own (log 1): which of the frame's steps of this context have fallen due at the frame event and have not been
taken yet. -/
structure Due where
  judgement : Bool
  completion : Bool
  need : Bool
  closeCheck : Bool
deriving DecidableEq, Repr

/-- A non-FREE channel context: the fields of R2, and what R19, R31, R38 and R58 imply beside them. -/
structure Context where
  state : CtxState
  role : Option Role
  position : Pos
  callTag : CallTag
  law : Law
  modeSet : ModeSet
  downMode : Mode
  pendingDownMode : Option Mode
  upMode : Mode
  phase : BlockIndex
  /-- Signed, -8 to +7, in two's complement as the advance request (R28, 11.2). -/
  pendingShift : BitVec 4
  /-- MODEL's own (log 27): the last close took a step toward later, so φ stands one above its block index and the frame
  after it is not the next close, which is 161 frames on (R46). -/
  steppedLater : Bool
  phaseLimit : Bool
  warmUp : Option Nat
  switchFrame : Option FrameCount
  quietState : QuietState
  concealLevel : Nat
  needsWithoutGood : Nat
  streamLost : Bool
  downQuietCount : Nat
  rxState : RxState
  markerPhase : BlockIndex
  markerWindow : List Nibble
  missCount : Nat
  /-- The parcel part-way through collection (R19, R23). -/
  collected : List Nibble
  ring : List RingEntry
  emitting : Option Emitting
  ready : Option ReadyEntry
  schedule : Option EmissionStart
  playout : List Sample
  playState : PlayState
  /-- The last block appended since allocation (R37, R38). -/
  lastBlock : Option (List Sample)
  sampleBlock : List Sample
  firstBlock : Bool
  encodeInFlight : Bool
  encoder : CodecHalf
  decoder : CodecHalf
  counters : CtxCounters
  /-- The sample presented for SO slot p in this frame (R31). -/
  presentedSample : Option Sample
  /-- The nibble presented for PO nibble p in this frame (R58). -/
  presentedNibble : Option Nibble
  due : Due
deriving DecidableEq, Repr

/-- What a context that was released in this frame drove in it (R84): the sample of its SO slot and the nibble of its PO
nibble, none where it did not drive them, and the first bit-time that it no longer drove. -/
structure ReleasedSlot where
  position : Pos
  sample : Option Sample
  nibble : Option Nibble
  bitTime : Nat
deriving DecidableEq, Repr

/-- A reservation (R8). -/
structure Reservation where
  position : Pos
  role : BidRole
  cost : Nat
deriving DecidableEq, Repr

/-- The kind of a job with the inputs it requires (R63). -/
inductive JobKind where
  | encode (block : List Sample) (mode : Mode)
  | decode (entry : ParcelResult) (quietState : QuietState) (level : Nat)
  | conceal (level : Nat)
  | comfortNoise
deriving DecidableEq, Repr

/-- A job record (R63). -/
structure Job where
  ctx : CtxNum
  dir : Direction
  kind : JobKind
  deadline : FrameCount
  service : Nat
  cls : JobClass
deriving DecidableEq, Repr

/-- A running job: with the codec half its engine read at take-up (R72) and the frame at which it completes (R67). -/
structure Running where
  job : Job
  half : CodecHalf
  doneAt : FrameCount
deriving DecidableEq, Repr

/-! ### Position map and roster -/

/-- The call fields of a record, present in every state but FREE (R109). -/
structure Call where
  tag : CallTag
  law : Law
  modeSet : ModeSet
  mode : Mode
  phase : BlockIndex
  /-- The offering line partner, 8 to 13; absent when the record was set up by a HOLD. -/
  offerer : Option (BitVec 4)
deriving DecidableEq, Repr

/-- A position record (R109). -/
structure PosRecord where
  state : PosState
  call : Option Call
  primary : Option Station
  yielding : Option Station
  switchFrame : Option FrameCount
  shadow : Option Station
  taker : Option Station
  closing : Option FrameCount
deriving DecidableEq, Repr

/-- The FREE record: every other field absent (R109). -/
def PosRecord.free : PosRecord :=
  { state := .free, call := none, primary := none, yielding := none, switchFrame := none, shadow := none,
    taker := none, closing := none }

/-- The last values a PRESENT brought (R127, R129). -/
structure LastValues where
  headroom : BitVec 8
  freeContexts : Fin 65
  active : Bool
deriving DecidableEq, Repr

/-- An entry of the peer roster (R129). -/
structure RosterEntry where
  state : RosterState
  age : Nat
  last : Option LastValues
deriving DecidableEq, Repr

/-- The entry after cold start and retreat (R129). -/
def RosterEntry.unknown : RosterEntry := { state := .unknown, age := 0, last := none }

/-- A sweep in progress (R112): the station it removes and the next group, 1 to 7. -/
structure Sweep where
  station : Station
  group : Nat
deriving DecidableEq, Repr

/-! ### The blocks -/

/-- The block event of a frame that is still to be taken: from BSYNC, or bridged (R77, R80). -/
inductive BlockMark where
  | marked
  | bridged
deriving DecidableEq, Repr

/-- The Highway Interface (R74). -/
structure Hwi where
  timing : Timing
  hclkCount : Nat
  frameCount : FrameCount
  blockIndex : Option BlockIndex
  provingRun : Nat
  frameMisses : Nat
  blockMisses : Nat
  /-- Nanoseconds since the last HCLK edge (R81). -/
  clockWatch : Nat
  /-- What the station put on CL in the last window, level by level (R85); true is released. -/
  clOut : List Bool
  /-- MODEL's own (log 1): the block event of this frame, not yet taken. -/
  blockDue : Option BlockMark
  /-- MODEL's own (log 1): the control window of this frame has been taken. -/
  windowTaken : Bool
deriving DecidableEq, Repr

/-- The Context Table (R1, R8): the non-FREE contexts and the reservations. -/
structure CtxTable where
  contexts : Table 64 Context
  reservations : List Reservation
deriving DecidableEq, Repr

/-- The Codec Engine Array (R62): the queue, the engines that run a job, and the late count of the block. -/
structure Engines where
  queue : List Job
  running : Table 4 Running
  lateCount : Nat
deriving DecidableEq, Repr

/-- The Notice Controller (chapter 6). -/
structure NoticeCtl where
  outbox : List OutEntry
  nextAge : Nat
  collisionRun : Nat
  /-- The entry in its window (R103); none between two commands, since a window is one command (log 6). -/
  inWindow : Option InWindow
deriving DecidableEq, Repr

/-- The Map Unit (R108). Records that are FREE and roster entries that are UNKNOWN without values are not listed. -/
structure MapUnit where
  intake : List Record
  map : Table 256 PosRecord
  roster : Table 8 RosterEntry
  sweep : Option Sweep
  listenCount : Nat
  mapComplete : Bool
  mapTime : FrameCount
  /-- MODEL's own (log 1): the Map Unit has not yet acted at this frame's event (R111, R112). -/
  turn : Bool
deriving DecidableEq, Repr

/-- MODEL's own (log 4): how far the Pool Controller's decisions of a block event have come (R133): all taken, or
waiting for the entry to ACTIVE, the shed decision, the loss declaration or the heartbeat. -/
inductive PoolStage where
  | idle
  | entry
  | shed
  | loss
  | heartbeat
deriving DecidableEq, Repr

/-- The Pool Controller (R132). -/
structure Pool where
  shedGrace : Nat
  holdOff : Nat
  shedding : Option Pos
  fill : Option Pos
  takenMarks : Table 256 Unit
  heartbeat : Nat
  freshPending : Bool
  cursor : Pos
  stage : PoolStage
  /-- MODEL's own (log 4): the ageing of R130 waits for the loss examination (R151). -/
  ageingDue : Bool
deriving DecidableEq, Repr

/-- What the loader puts on the two-wire port, in order (R156, R157). -/
inductive PortAct where
  | recoveryClock
  | startCondition
  | sendByte (b : Byte) (acknowledged : Bool)
  /-- The first bits of a byte that the loader was sending when the read was abandoned. -/
  | sendBits (bits : List Bool)
  | repeatedStart
  | receiveByte (b : Byte) (acknowledgeDriven : Bool)
  /-- The first bits of a byte that the loader was receiving when the read was abandoned. -/
  | receiveBits (bits : List Bool)
  | stopCondition
  /-- A clock that the memory held low: the level of SDA that the loader had set for it. -/
  | heldClock (sda : Bool)
  /-- The loader lets go of both lines while the memory holds SCL low. -/
  | releaseLines
deriving DecidableEq, Repr

/-- The station life cycle and the Configuration Loader (chapter 9). -/
structure Life where
  held : Bool
  station : StationState
  number : Station
  settings : Settings
  loader : LoaderState
  attempt : Nat
  result : LoaderResult
  port : List PortAct
  quietCount : Nat
  lastCause : RetreatCause
  /-- MODEL's own (log 1): the quiet count of this block event has not been judged yet (R164). -/
  quietJudge : Bool
deriving DecidableEq, Repr

/-- The Report Unit (chapter 10). Counters at 0 are not listed. -/
structure ReportUnit where
  counters : Table 32 (BitVec 24)
  flags : BitVec 8
  cursor : Option (Pos × Nat)
deriving DecidableEq, Repr

/-- The station, block by block, and the queue of commands that wait, first in, first out. -/
structure State where
  hwi : Hwi
  table : CtxTable
  engines : Engines
  notice : NoticeCtl
  mapu : MapUnit
  pool : Pool
  life : Life
  report : ReportUnit
  /-- What contexts released in this frame drove on SO and PO before their release, oldest first (R84, log 33). -/
  released : List ReleasedSlot
  pending : List Instr
deriving DecidableEq, Repr

/-- The Notice Controller after cold start and after a retreat (R90, R99). -/
def NoticeCtl.empty : NoticeCtl := { outbox := [], nextAge := 0, collisionRun := 0, inWindow := none }

/-- CL with every control bit-time released (R85). -/
def clReleased : List Bool := List.replicate 72 true

/-- The station held in cold start: every block at its values after cold start (R153; R18, R62, R74, R99, R105, R108,
R132, R166, R167, R172 and the table of chapter 9). The values the manual does not give are those of log 8. -/
def State.reset : State :=
  { hwi := { timing := .seek, hclkCount := 0, frameCount := 0, blockIndex := none, provingRun := 0,
             frameMisses := 0, blockMisses := 0, clockWatch := 0, clOut := clReleased, blockDue := none,
             windowTaken := true }
    table := { contexts := [], reservations := [] }
    engines := { queue := [], running := [], lateCount := 0 }
    notice := NoticeCtl.empty
    mapu := { intake := [], map := [], roster := [], sweep := none, listenCount := 0, mapComplete := false,
              mapTime := 0, turn := false }
    pool := { shedGrace := 0, holdOff := 0, shedding := none, fill := none, takenMarks := [], heartbeat := 0,
              freshPending := false, cursor := 255, stage := .idle, ageingDue := false }
    life := { held := true, station := .start, number := 0, settings := Config.defaults, loader := .idle,
              attempt := 0, result := .none, port := [], quietCount := 0, lastCause := .none, quietJudge := false }
    report := { counters := [], flags := 0, cursor := none }
    released := []
    pending := [] }

end Sys2Proof.Machine
end

