-- ==== Sys2Proof/Machine/Tables.lean ====
section
/-! DEFINITION. Reading and writing the numbered tables in which State holds contexts, engines, position records, roster
entries, counters and TAKEN marks: lists with strictly rising numbers. -/

namespace Sys2Proof.Machine

/-- What the table lists for number k. -/
def Table.lookup {n : Nat} {α : Type} : Table n α → Fin n → Option α
  | [], _ => none
  | (j, v) :: t, k => if j = k then some v else Table.lookup t k

/-- The table with v listed for number k, in its place. -/
def Table.insert {n : Nat} {α : Type} : Table n α → Fin n → α → Table n α
  | [], k, v => [(k, v)]
  | (j, w) :: t, k, v =>
    if k < j then (k, v) :: (j, w) :: t
    else if k = j then (k, v) :: t
    else (j, w) :: Table.insert t k v

/-- The table with nothing listed for number k. -/
def Table.erase {n : Nat} {α : Type} (t : Table n α) (k : Fin n) : Table n α :=
  t.filter (fun e => decide (e.1 ≠ k))

/-- The numbers the table lists, rising. -/
def Table.keys {n : Nat} {α : Type} (t : Table n α) : List (Fin n) := t.map Prod.fst

/-- The table with every listed value changed by f. -/
def Table.mapValues {n : Nat} {α : Type} (f : α → α) (t : Table n α) : Table n α :=
  t.map (fun e => (e.1, f e.2))

/-- The table with v for number k, listed only where it differs from the resting value d. -/
def Table.put {n : Nat} {α : Type} [DecidableEq α] (d : α) (t : Table n α) (k : Fin n) (v : α) : Table n α :=
  if v = d then Table.erase t k else Table.insert t k v

/-- The canonical form: strictly rising numbers. -/
def Table.rising {n : Nat} {α : Type} : Table n α → Bool
  | [] => true
  | [_] => true
  | (j, _) :: (k, w) :: t => decide (j < k) && Table.rising ((k, w) :: t)

/-- The lowest number the table does not list, if there is one. -/
def Table.lowestFree {n : Nat} {α : Type} (t : Table n α) : Option (Fin n) :=
  (List.finRange n).find? (fun k => (Table.lookup t k).isNone)

end Sys2Proof.Machine
end

