-- ==== Sys2Proof/Machine/Operands.lean ====
section
/-! DEFINITION. The formats visible outside the part (chapter 11): bits, the two checks, notices in the control window,
parcels, report values, and the costs and payload lengths of the modes (R6). -/

namespace Sys2Proof.Machine

/-! ### Bits, most significant first -/

/-- The w low bits of n, most significant first. -/
def bitsOf : Nat → Nat → List Bool
  | 0, _ => []
  | w + 1, n => n.testBit w :: bitsOf w n

/-- The number a list of bits spells, most significant first. -/
def ofBits (bits : List Bool) : Nat := bits.foldl (fun acc b => 2 * acc + b.toNat) 0

/-- The number in the w bits that begin at place off. -/
def bitField (bits : List Bool) (off w : Nat) : Nat := ofBits ((bits.drop off).take w)

/-- The bits of a field followed by zeros up to w bits (R174: bits marked zero are sent as 0). -/
def zeroPadded (w : Nat) (bits : List Bool) : List Bool :=
  bits ++ List.replicate (w - bits.length) false

/-! ### The two checks -/

/-- One bit of the CRC-8 of a window (R175). -/
def crc8Step (r : BitVec 8) (b : Bool) : BitVec 8 :=
  if b ^^ r.msb then (r <<< 1) ^^^ 0x07#8 else r <<< 1

/-- The CRC-8 over bits in the order sent: register 0 at the start, no final inversion (R175). -/
def crc8 (bits : List Bool) : BitVec 8 := bits.foldl crc8Step 0#8

/-- One bit of the CRC-16 of a parcel (R176). -/
def crc16Step (r : BitVec 16) (b : Bool) : BitVec 16 :=
  if b ^^ r.msb then (r <<< 1) ^^^ 0x8005#16 else r <<< 1

/-- The CRC-16 over bytes in rising order, each most significant bit first: register 0xFFFF at the start, no final
inversion (R176). -/
def crc16 (bytes : List Byte) : BitVec 16 :=
  bytes.foldl (fun r b => (bitsOf 8 b.toNat).foldl crc16Step r) 0xFFFF#16

/-! ### Modes -/

/-- The primary cost of a mode (R6). -/
def primaryCost (m : Mode) : Nat :=
  if m = 3 then 5 else if m = 2 then 4 else 3

/-- The standby cost of a mode (R6). -/
def standbyCost (m : Mode) : Nat :=
  if m = 3 then 3 else if m = 2 then 3 else 2

/-- The speech payload length of a mode in bytes (R6). -/
def speechLength (m : Mode) : Nat :=
  if m = 3 then 33 else if m = 2 then 25 else if m = 1 then 20 else 15

/-- The payload length L of a parcel (R19, 11.2). -/
def payloadLength (k : ParcelKind) (m : Mode) : Nat :=
  match k with
  | .speech => speechLength m
  | .sid => 5
  | .noData => 0

/-- Whether a mode is a member of a mode set (11.1). -/
def ModeSet.member (ms : ModeSet) (m : Mode) : Bool := ms.getLsbD m.val

/-- The lowest mode of a mode set (R56); mode 0 for the empty set, which no call has. -/
def ModeSet.lowest (ms : ModeSet) : Mode :=
  if ModeSet.member ms 0 then 0 else if ModeSet.member ms 1 then 1 else if ModeSet.member ms 2 then 2
  else if ModeSet.member ms 3 then 3 else 0

/-- The highest mode of a mode set (R56). -/
def ModeSet.highest (ms : ModeSet) : Mode :=
  if ModeSet.member ms 3 then 3 else if ModeSet.member ms 2 then 2 else if ModeSet.member ms 1 then 1 else 0

/-- The law's silence code (R31). -/
def silenceCode : Law → Sample
  | .aLaw => 0xD5#8
  | .muLaw => 0xFF#8

/-! ### Codes -/

def lawBit : Law → Bool
  | .aLaw => false
  | .muLaw => true

def lawOfBit : Bool → Law
  | false => .aLaw
  | true => .muLaw

def bidRoleCode : BidRole → Nat
  | .offer => 0
  | .shadow => 1
  | .take => 2
  | .orphan => 3

def bidRoleOfCode (n : Nat) : BidRole :=
  if n = 0 then .offer else if n = 1 then .shadow else if n = 2 then .take else .orphan

def causeCode : TakenCause → Nat
  | .handOff => 0
  | .promotion => 1
  | .orphan => 2

def causeOfCode (n : Nat) : Option TakenCause :=
  if n = 0 then some .handOff else if n = 1 then some .promotion else if n = 2 then some .orphan else none

/-- A φ field of eight bits as a phase; above 159 it is not admitted (R97). -/
def phaseOfCode (n : Nat) : Option BlockIndex := if h : n < 160 then some ⟨n, h⟩ else none

/-- A station field of four bits: 0 to 7. -/
def stationOfCode (n : Nat) : Option Station := if h : n < 8 then some ⟨n, h⟩ else none

/-- The shadow field of a HOLD: a station, 15 for none, 8 to 14 not admitted (R96, R97). -/
def shadowOfCode (n : Nat) : Option (Option Station) :=
  if n = 15 then some none else (stationOfCode n).map some

/-- A station, or 15 for none (11.1, R177). -/
def stationOrNoneCode : Option Station → Nat
  | some s => s.val
  | none => 15

/-! ### Notices (R87, R96, R97, R174) -/

/-- The kind code of a notice (R96). -/
def Notice.kindCode : Notice → Nat
  | .lost _ _ => 1
  | .taken _ _ _ _ => 2
  | .clear _ _ => 3
  | .offer _ _ _ _ _ => 4
  | .bid _ _ _ _ => 5
  | .shed _ _ _ => 6
  | .hold _ _ _ _ _ _ _ => 7
  | .present _ _ _ _ _ => 8
  | .query _ _ _ => 9
  | .report _ _ _ => 10

/-- The position field of a notice (R96). -/
def Notice.positionField : Notice → Nat
  | .lost s _ => s.val
  | .taken p _ _ _ => p.val
  | .clear p _ => p.val
  | .offer p _ _ _ _ => p.val
  | .bid p _ _ _ => p.val
  | .shed p _ _ => p.val
  | .hold p _ _ _ _ _ _ => p.val
  | .present _ _ _ _ _ => 0
  | .query a _ _ => a.toNat
  | .report p _ _ => p.val

/-- The key of a notice (R100): its kind together with its position field. -/
def Notice.key (n : Notice) : Nat × Nat := (n.kindCode, n.positionField)

/-- A notice for position p (R96): a BID, TAKEN, SHED or HOLD of p, or a REPORT of item 0x41 of p. -/
def Notice.isFor (p : Pos) : Notice → Bool
  | .bid q _ _ _ => decide (q = p)
  | .taken q _ _ _ => decide (q = p)
  | .shed q _ _ => decide (q = p)
  | .hold q _ _ _ _ _ _ => decide (q = p)
  | .report q item _ => decide (q = p) && decide (item = 0x41#8)
  | .lost _ _ => false
  | .clear _ _ => false
  | .offer _ _ _ _ _ => false
  | .present _ _ _ _ _ => false
  | .query _ _ _ => false

/-- The fields of a notice body in the order of 11.1, without the bits marked zero. -/
def Notice.bodyFields : Notice → List Bool
  | .lost _ age => bitsOf 8 age.toNat
  | .taken _ tag cause ph => bitsOf 12 tag.toNat ++ (bitsOf 2 (causeCode cause) ++ bitsOf 8 ph.val)
  | .clear _ tag => bitsOf 12 tag.toNat
  | .offer _ tag law ms m =>
    bitsOf 12 tag.toNat ++ (lawBit law :: (bitsOf 4 ms.toNat ++ bitsOf 2 m.val))
  | .bid _ tag role cost => bitsOf 12 tag.toNat ++ (bitsOf 2 (bidRoleCode role) ++ bitsOf 4 cost.toNat)
  | .shed _ tag cost => bitsOf 12 tag.toNat ++ bitsOf 4 cost.toNat
  | .hold _ tag law ms m ph sh =>
    bitsOf 12 tag.toNat ++ (lawBit law :: (bitsOf 4 ms.toNat ++ (bitsOf 2 m.val ++ (bitsOf 8 ph.val ++
      bitsOf 4 (stationOrNoneCode sh)))))
  | .present load headroom fc fresh active =>
    bitsOf 8 load.toNat ++ (bitsOf 8 headroom.toNat ++ (bitsOf 7 fc.val ++ [fresh, active]))
  | .query _ target item => bitsOf 4 target.val ++ bitsOf 8 item.toNat
  | .report _ item value => bitsOf 8 item.toNat ++ bitsOf 24 value.toNat

/-- The 32-bit body (11.1). -/
def Notice.body (n : Notice) : List Bool := zeroPadded 32 n.bodyFields

/-- Control bit-times 1 to 56 of a window (R87): kind, grade, sender number, position field, body. -/
def encodeNotice (n : Notice) (grade : BitVec 8) (sender : BitVec 4) : List Bool :=
  bitsOf 4 n.kindCode ++ (bitsOf 8 grade.toNat ++ (bitsOf 4 sender.toNat ++ (bitsOf 8 n.positionField ++ n.body)))

/-- Control bit-times 0 to 64 as a sender drives them (R87, R88): start, the 56 bits, the check. -/
def windowBits (bits56 : List Bool) : List Bool :=
  false :: (bits56 ++ bitsOf 8 (crc8 bits56).toNat)

/-- The position field as a position. -/
def posOfCode (n : Nat) : Pos := Fin.ofNat 256 n

/-- The notice of kind code k with position field pf in a 32-bit body, if it is of one of the ten kinds and not
malformed (R96, R97). -/
def decodeBody (k pf : Nat) (body : List Bool) : Option Notice :=
  let p := posOfCode pf
  let tag : CallTag := BitVec.ofNat 12 (bitField body 0 12)
  match k with
  | 1 => (stationOfCode pf).map (fun s => .lost s (BitVec.ofNat 8 (bitField body 0 8)))
  | 2 =>
    match causeOfCode (bitField body 12 2), phaseOfCode (bitField body 14 8) with
    | some c, some ph => some (.taken p tag c ph)
    | _, _ => none
  | 3 => some (.clear p tag)
  | 4 =>
    let ms : ModeSet := BitVec.ofNat 4 (bitField body 13 4)
    let m : Mode := Fin.ofNat 4 (bitField body 17 2)
    if ModeSet.member ms m then some (.offer p tag (lawOfBit (body.getD 12 false)) ms m) else none
  | 5 => some (.bid p tag (bidRoleOfCode (bitField body 12 2)) (BitVec.ofNat 4 (bitField body 14 4)))
  | 6 => some (.shed p tag (BitVec.ofNat 4 (bitField body 12 4)))
  | 7 =>
    let ms : ModeSet := BitVec.ofNat 4 (bitField body 13 4)
    let m : Mode := Fin.ofNat 4 (bitField body 17 2)
    match phaseOfCode (bitField body 19 8), shadowOfCode (bitField body 27 4) with
    | some ph, some sh =>
      if ModeSet.member ms m then some (.hold p tag (lawOfBit (body.getD 12 false)) ms m ph sh) else none
    | _, _ => none
  | 8 =>
    if h : bitField body 16 7 < 65 then
      some (.present (BitVec.ofNat 8 (bitField body 0 8)) (BitVec.ofNat 8 (bitField body 8 8))
        ⟨bitField body 16 7, h⟩ (body.getD 23 false) (body.getD 24 false))
    else none
  | 9 => (stationOfCode (bitField body 0 4)).map
      (fun t => .query (BitVec.ofNat 8 pf) t (BitVec.ofNat 8 (bitField body 4 8)))
  | 10 => some (.report p (BitVec.ofNat 8 (bitField body 0 8)) (BitVec.ofNat 24 (bitField body 8 24)))
  | _ => none

/-- Whether a kind's valid senders include a sender number (R96). -/
def validSender (k sender : Nat) : Bool :=
  if k = 3 ∨ k = 4 then decide (8 ≤ sender ∧ sender ≤ 13)
  else if k = 9 then decide (sender = 14)
  else decide (sender ≤ 7)

/-- What a passed notice's 56 bits are read as: the sender number and the notice, or nothing when the kind, the sender
or the body is one that R98 has ignored. -/
def decodeNotice (bits56 : List Bool) : Option (BitVec 4 × Notice) :=
  let k := bitField bits56 0 4
  let sender := bitField bits56 12 4
  if validSender k sender then
    (decodeBody k (bitField bits56 16 8) (bits56.drop 24)).map (fun n => (BitVec.ofNat 4 sender, n))
  else none

/-! ### Parcels (11.2) -/

/-- The marker nibbles A, 5, 3, C (R19). -/
def markerNibbles : List Nibble := [0xA#4, 0x5#4, 0x3#4, 0xC#4]

def kindCode : ParcelKind → Nat
  | .speech => 0
  | .sid => 1
  | .noData => 2

/-- Byte 2 of a parcel (11.2). -/
def headerByte (k : ParcelKind) (m rate : Mode) (impaired filler : Bool) : Byte :=
  BitVec.ofNat 8 (ofBits (bitsOf 2 (kindCode k) ++ (bitsOf 2 m.val ++ (bitsOf 2 rate.val ++ [impaired, filler]))))

/-- The 80 bytes of a parcel the Parcel Transmitter builds (R176): byte 3 is 0x00, padding is 0xFF. -/
def buildParcel (k : ParcelKind) (m rate : Mode) (impaired filler : Bool) (payload : List Byte) : List Byte :=
  let covered := headerByte k m rate impaired filler :: 0x00#8 :: payload
  let crc := crc16 covered
  let front := 0xA5#8 :: 0x3C#8 :: (covered ++ [crc.extractLsb' 8 8, crc.extractLsb' 0 8])
  front ++ List.replicate (80 - front.length) 0xFF#8

/-- Nibble k of a parcel (R58): the high half of byte k/2 for even k, its low half for odd k. -/
def parcelNibble (bytes : List Byte) (k : Nat) : Nibble :=
  let b := bytes.getD (k / 2) 0xFF#8
  if k % 2 = 0 then b.extractLsb' 4 4 else b.extractLsb' 0 4

/-- Byte j of a parcel as collected: nibble 2j is its high half, nibble 2j + 1 its low half (11.2). -/
def byteAt (nibbles : List Nibble) (j : Nat) : Byte :=
  (nibbles.getD (2 * j) 0#4).append (nibbles.getD (2 * j + 1) 0#4)

/-- What a GOOD parcel brings (R24, R27, R28). -/
structure GoodParcel where
  kind : ParcelKind
  mode : Mode
  payload : List Byte
  rateRequest : Mode
  advance : BitVec 4
deriving DecidableEq, Repr

/-- The judgement of a parcel (R24). -/
inductive Judged where
  | bad (reason : BadReason)
  | good (g : GoodParcel)
deriving DecidableEq, Repr

def parcelKindOfCode (n : Nat) : Option ParcelKind :=
  if n = 0 then some .speech else if n = 1 then some .sid else if n = 2 then some .noData else none

/-- The five checks of R24 in their order, over the nibbles collected; the check field is where R25 puts it. -/
def judgeParcel (modes : ModeSet) (nibbles : List Nibble) : Judged :=
  let h := byteAt nibbles 2
  let m : Mode := Fin.ofNat 4 (h.extractLsb' 4 2).toNat
  if nibbles.take 4 ≠ markerNibbles then .bad .marker
  else
    match parcelKindOfCode (h.extractLsb' 6 2).toNat with
    | none => .bad .header
    | some k =>
      let len := payloadLength k m
      let payload := (List.range len).map (fun i => byteAt nibbles (4 + i))
      let received := (byteAt nibbles (4 + len)).append (byteAt nibbles (5 + len))
      if crc16 (h :: byteAt nibbles 3 :: payload) ≠ received then .bad .crc
      else if k = .speech ∧ ModeSet.member modes m = false then .bad .mode
      else if h.getLsbD 1 then .bad .impaired
      else .good
        { kind := k, mode := m, payload := payload, rateRequest := Fin.ofNat 4 (h.extractLsb' 2 2).toNat,
          advance := (byteAt nibbles 3).extractLsb' 4 4 }

/-! ### Report values (R177) -/

/-- Fields, each a width and a value, from the most significant end of a word of w bits, the unused low bits zero. -/
def packFields (w : Nat) (fields : List (Nat × Nat)) : Nat :=
  ofBits (zeroPadded w (fields.flatMap (fun f => bitsOf f.1 f.2)))

/-- A word of item 0x01: the word number in bits 23 to 20, its fields in bits 19 to 0. -/
def summaryValue (word : Nat) (fields : List (Nat × Nat)) : BitVec 24 :=
  BitVec.ofNat 24 (word * 2 ^ 20 + packFields 20 fields)

/-- A word 0 to 9 of item 0x40: the word number in bits 23 to 19, its fields in bits 18 to 0. -/
def positionValue (word : Nat) (fields : List (Nat × Nat)) : BitVec 24 :=
  BitVec.ofNat 24 (word * 2 ^ 19 + packFields 19 fields)

/-- A word 10 to 16 of item 0x40: the word number less 5 in bits 23 to 20, the counter capped at 1,048,575 below. -/
def counterWordValue (word : Nat) (counter : BitVec 24) : BitVec 24 :=
  BitVec.ofNat 24 ((word - 5) * 2 ^ 20 + min counter.toNat 1048575)

def boolCode (b : Bool) : Nat := b.toNat

def stationStateCode : StationState → Nat
  | .start => 0
  | .listen => 1
  | .active => 2
  | .retreat => 3

def timingCode : Timing → Nat
  | .seek => 0
  | .prove => 1
  | .good => 2

def loaderResultCode : LoaderResult → Nat
  | .none => 0
  | .image => 1
  | .partialImage => 2
  | .bad => 3
  | .absent => 4

def retreatCauseCode : RetreatCause → Nat
  | .none => 0
  | .timing => 1
  | .declared => 2
  | .abandoned => 3
  | .duplicate => 4

def rosterStateCode : RosterState → Nat
  | .unknown => 0
  | .present => 1
  | .lost => 2

def posStateCode : PosState → Nat
  | .free => 0
  | .offered => 1
  | .held => 2
  | .shedding => 3
  | .orphaned => 4

def ctxStateCode : CtxState → Nat
  | .warming => 1
  | .standby => 2
  | .primary => 3
  | .yielding => 4

def roleCode : Option Role → Nat
  | none => 0
  | some .shadow => 1
  | some .taker => 2

def rxStateCode : RxState → Nat
  | .hunt => 0
  | .confirm => 1
  | .synced => 2

def playStateCode : PlayState → Nat
  | .priming => 0
  | .starting => 1
  | .running => 2

def quietCode : QuietState → Nat
  | .speech => 0
  | .quiet => 1

/-- Warm-up remaining, 15 for none (R177). -/
def warmUpCode : Option Nat → Nat
  | none => 15
  | some n => n

/-- A pending downlink mode, 7 for none (R177). -/
def modeOrNoneCode : Option Mode → Nat
  | none => 7
  | some m => m.val

end Sys2Proof.Machine
end

