-- ==== Sys2Proof/Machine/Flags.lean ====
section
/-! DEFINITION. The fault flags and the counters of the Report Unit (chapter 10), and the 24-bit saturating count that
the per-context counters share. -/

namespace Sys2Proof.Machine

/-- A 24-bit counter incremented by one, saturating at 16,777,215 (0.5, R166). -/
def countUp (x : BitVec 24) : BitVec 24 := if x = 0xFFFFFF#24 then x else x + 1#24

/-- The place of a counter among the 32: its index less 0x10 (R166). -/
def counterIndex : Counter → Fin 32
  | .noticesSent => 0
  | .arbitrationsLost => 1
  | .collisions => 2
  | .rejectsSeen => 3
  | .checkFailures => 4
  | .outboxDrops => 5
  | .misrouted => 6
  | .staleBids => 7
  | .strays => 8
  | .censusMismatches => 9
  | .offersOverHeld => 10
  | .clearsRefused => 11
  | .shedsRefused => 12
  | .offerLapses => 13
  | .shedLapses => 14
  | .orphanLapses => 15
  | .orphansDropped => 16
  | .takeovers => 17
  | .retreats => 18
  | .bridgedFrameMarkers => 19
  | .bridgedBlockMarkers => 20
  | .goodParcels => 21
  | .badParcels => 22
  | .missingParcels => 23
  | .ringDiscards => 24
  | .trims => 25
  | .syncLosses => 26
  | .falseMarkers => 27
  | .rateRequestsRefused => 28
  | .lateDecodes => 29
  | .lateEncodes => 30
  | .fillers => 31

/-- The value of the counter at place i. -/
def ReportUnit.counterAt (r : ReportUnit) (i : Fin 32) : BitVec 24 := (Table.lookup r.counters i).getD 0

/-- The value of a counter. -/
def ReportUnit.counter (r : ReportUnit) (k : Counter) : BitVec 24 := r.counterAt (counterIndex k)

/-- A request to count (R166). -/
def ReportUnit.counted (r : ReportUnit) (k : Counter) : ReportUnit :=
  { r with counters := Table.put 0 r.counters (counterIndex k) (countUp (r.counter k)) }

/-- The order of a flag in the flag set (R167), which is its bit in a REPORT of the flags (R177). -/
def flagOrder : FaultFlag → Nat
  | .configDefaulted => 0
  | .configBad => 1
  | .timingLost => 2
  | .declaredLost => 3
  | .noticeAbandoned => 4
  | .duplicateNumber => 5
  | .streamLost => 6
  | .overload => 7

/-- Whether a flag is set. -/
def ReportUnit.isSet (r : ReportUnit) (f : FaultFlag) : Bool := r.flags.getLsbD (flagOrder f)

/-- The flags with one flag set. -/
def ReportUnit.withFlag (r : ReportUnit) (f : FaultFlag) : ReportUnit :=
  { r with flags := r.flags ||| BitVec.twoPow 8 (flagOrder f) }

/-- The value of a REPORT of the flags (R177). -/
def ReportUnit.flagsValue (r : ReportUnit) : BitVec 24 := r.flags.setWidth 24

/-- The ALERTN output: pulled low exactly while a flag is set (R168). -/
def State.alertLow (s : State) : Bool := decide (s.report.flags ≠ 0)

end Sys2Proof.Machine
end

