-- ==== Sys2Proof/Machine/Ops.lean ====
section
/-! DEFINITION. The named operations that several commands share: each block's own update, contexts, cost and load,
reservations, the outbox, jobs, release and allocation, flags and reports, retreat and timing loss. -/

namespace Sys2Proof.Machine

/-! ### One block's update -/

def State.onHwi (f : Hwi → Hwi) (s : State) : State := { s with hwi := f s.hwi }
def State.onTable (f : CtxTable → CtxTable) (s : State) : State := { s with table := f s.table }
def State.onEngines (f : Engines → Engines) (s : State) : State := { s with engines := f s.engines }
def State.onNotice (f : NoticeCtl → NoticeCtl) (s : State) : State := { s with notice := f s.notice }
def State.onMap (f : MapUnit → MapUnit) (s : State) : State := { s with mapu := f s.mapu }
def State.onPool (f : Pool → Pool) (s : State) : State := { s with pool := f s.pool }
def State.onLife (f : Life → Life) (s : State) : State := { s with life := f s.life }
def State.onReport (f : ReportUnit → ReportUnit) (s : State) : State := { s with report := f s.report }

/-- What a command does unless the station is held in cold start, where every block keeps its values (R153). -/
def State.live (f : State → State) (s : State) : State := if s.life.held then s else f s

/-- The station takes part in the control lane: LISTEN or ACTIVE (R106, R152). -/
def State.participates (s : State) : Bool :=
  decide (s.life.station = .listen) || decide (s.life.station = .active)

def State.isActive (s : State) : Bool := decide (s.life.station = .active)

/-- The own station number (R154). -/
def State.own (s : State) : Station := s.life.number

/-- Counting an event in a station-wide counter (R166). -/
def State.count (k : Counter) (s : State) : State := s.onReport (fun r => r.counted k)

/-! ### Contexts -/

/-- The context with a number, if it is not FREE (R1). -/
def State.ctx (s : State) (c : CtxNum) : Option Context := Table.lookup s.table.contexts c

/-- The numbers of the non-FREE contexts, rising. -/
def State.ctxNums (s : State) : List CtxNum := Table.keys s.table.contexts

def State.putCtx (c : CtxNum) (x : Context) (s : State) : State :=
  s.onTable (fun t => { t with contexts := Table.insert t.contexts c x })

/-- A change of a context as it stands: none if it is FREE (R3). -/
def State.modCtx (c : CtxNum) (f : Context → Context) (s : State) : State :=
  match s.ctx c with
  | some x => s.putCtx c (f x)
  | none => s

/-- The non-FREE context for a position, with its number; there is at most one (R17). -/
def State.ctxFor (s : State) (p : Pos) : Option (CtxNum × Context) :=
  s.table.contexts.find? (fun e => decide (e.2.position = p))

/-- Whether the context drives SO slot p and PO nibble p (R4, R84). -/
def Context.drives (x : Context) : Bool := decide (x.state = .primary) || decide (x.state = .yielding)

/-- The sample driven in SO slot p in this frame, if the station drives it (R84). -/
def State.soSlot (s : State) (p : Pos) : Option Sample :=
  match s.ctxFor p with
  | some (_, x) => if x.drives then x.presentedSample else none
  | none => none

/-- The nibble driven in PO nibble p in this frame, if the station drives it (R84). -/
def State.poNibble (s : State) (p : Pos) : Option Nibble :=
  match s.ctxFor p with
  | some (_, x) => if x.drives then x.presentedNibble else none
  | none => none

/-- What a context drives, as it is released at bit-time n (R84). -/
def Context.releasedAt (n : Nat) (x : Context) : ReleasedSlot :=
  { position := x.position, sample := if x.drives then x.presentedSample else none,
    nibble := if x.drives then x.presentedNibble else none, bitTime := n }

/-- Contexts are released at bit-time n of the frame (R84): what they have driven until then stays on record. -/
def State.cutSlots (n : Nat) (xs : List Context) (s : State) : State :=
  { s with released := s.released ++ xs.map (Context.releasedAt n) }

/-- The contexts that are not FREE. -/
def State.allContexts (s : State) : List Context := s.table.contexts.map (fun e => e.2)

/-- What was driven for p earlier in this frame by a context that has been released since, up to a bit-time that the
release had not come to: the first release of p in the frame counts, since a context allocated later in it presents
nothing before the next frame event. -/
def State.drivenBefore (s : State) (p : Pos) (b : Nat) : Option ReleasedSlot :=
  (s.released.find? (fun r => decide (r.position = p))).filter (fun r => decide (b < r.bitTime))

/-- SO in bit-time b of the frame (R84): the 8 bits of the sample driven for p in bit-times 8p to 8p + 7, the most
significant first; none where the lane is released. Bit-times not yet reached are as the contexts stand. -/
def State.soLevel (s : State) (b : Nat) : Option Bool :=
  if b < 2048 then
    let p := posOfCode (b / 8)
    let sample := match s.drivenBefore p b with
      | some r => r.sample
      | none => s.soSlot p
    sample.map (fun v => v.getLsbD (7 - b % 8))
  else none

/-- PO in bit-time b of the frame (R84): the 4 bits of the nibble driven for p in bit-times 4p to 4p + 3, the most
significant first; none where the lane is released, as it is in bit-times 1024 to 2047. -/
def State.poLevel (s : State) (b : Nat) : Option Bool :=
  if b < 1024 then
    let p := posOfCode (b / 4)
    let nibble := match s.drivenBefore p b with
      | some r => r.nibble
      | none => s.poNibble p
    nibble.map (fun v => v.getLsbD (3 - b % 4))
  else none

/-- The cost of a context: the column of its state at the higher of its two modes (R6). -/
def Context.cost (x : Context) : Nat :=
  let m := max x.downMode x.upMode
  if x.drives then primaryCost m else standbyCost m

/-- The class of the jobs a context posts (R4, R64). -/
def Context.jobClass (x : Context) : JobClass := if x.drives then .primary else .standby

/-- Counting an event of a context: in a per-context counter, and station-wide only while it drives (R26). -/
def State.countDriven (c : CtxNum) (k : Counter) (s : State) : State :=
  match s.ctx c with
  | some x => if x.drives then s.count k else s
  | none => s

/-! ### Load (R7) -/

/-- The station's load: the costs of the contexts and of the reservations. -/
def State.load (s : State) : Nat :=
  (s.table.contexts.map (fun e => e.2.cost)).sum + (s.table.reservations.map (fun r => r.cost)).sum

def State.budget (s : State) : Nat := s.life.settings.budget

/-- Budget minus load, or 0 when the load exceeds the budget. -/
def State.headroom (s : State) : Nat := s.budget - s.load

/-- The FREE contexts less the reservations, 0 to 64 (R149). -/
def State.freeContexts (s : State) : Fin 65 :=
  Fin.ofNat 65 (64 - s.table.contexts.length - s.table.reservations.length)

/-- A figure capped at 255 (R7). -/
def capped255 (n : Nat) : BitVec 8 := BitVec.ofNat 8 (min n 255)

/-! ### Reservations (R8, R9) -/

def State.reservationFor (s : State) (p : Pos) : Option Reservation :=
  s.table.reservations.find? (fun r => decide (r.position = p))

def State.releaseReservation (p : Pos) (s : State) : State :=
  s.onTable (fun t => { t with reservations := t.reservations.filter (fun r => decide (r.position ≠ p)) })

/-- A kept offer BID's reservation takes the standby cost (R9, R136). -/
def State.recostReservation (p : Pos) (cost : Nat) (s : State) : State :=
  s.onTable (fun t =>
    { t with reservations := t.reservations.map (fun r => if r.position = p then { r with cost := cost } else r) })

/-- The grant of a reservation (R8): refused when the station holds one for the position, holds a non-FREE context for
it, or has 64 contexts and reservations in use. -/
def State.requestReservation (p : Pos) (role : BidRole) (cost : Nat) (s : State) : Option State :=
  if (s.reservationFor p).isSome ∨ (s.ctxFor p).isSome
      ∨ 64 ≤ s.table.contexts.length + s.table.reservations.length then none
  else some (s.onTable (fun t =>
    { t with reservations := t.reservations ++ [{ position := p, role := role, cost := cost }] }))

/-! ### Position records and roster -/

/-- The record of a position (R109). -/
def State.recAt (s : State) (p : Pos) : PosRecord := (Table.lookup s.mapu.map p).getD PosRecord.free

def State.putRec (p : Pos) (r : PosRecord) (s : State) : State :=
  s.onMap (fun m => { m with map := Table.put PosRecord.free m.map p r })

/-- The positions whose records are not FREE, rising. -/
def State.recordedPositions (s : State) : List Pos := Table.keys s.mapu.map

/-- Whether a record names a station (R17). -/
def PosRecord.names (r : PosRecord) (q : Station) : Bool :=
  decide (r.primary = some q) || decide (r.yielding = some q) || decide (r.shadow = some q)
    || decide (r.taker = some q)

def State.rosterAt (s : State) (q : Station) : RosterEntry :=
  (Table.lookup s.mapu.roster q).getD RosterEntry.unknown

def State.putRoster (q : Station) (e : RosterEntry) (s : State) : State :=
  s.onMap (fun m => { m with roster := Table.put RosterEntry.unknown m.roster q e })

def State.isPresent (s : State) (q : Station) : Bool := decide ((s.rosterAt q).state = .present)

/-- A stamp t at or before a stamp c, over the wrap (R110). -/
def atOrBefore (t c : FrameCount) : Bool := decide ((c - t).toNat < 32768)

/-! ### TAKEN marks (R148) -/

def State.takenMark (s : State) (p : Pos) : Bool := (Table.lookup s.pool.takenMarks p).isSome

def State.setTakenMark (p : Pos) (s : State) : State :=
  s.onPool (fun q => { q with takenMarks := Table.insert q.takenMarks p () })

def State.clearTakenMark (p : Pos) (s : State) : State :=
  s.onPool (fun q => { q with takenMarks := Table.erase q.takenMarks p })

/-! ### The outbox (R99 to R102) -/

/-- What follows when an own notice leaves the outbox unsent, by withdrawal, removal, eviction or drop at placing: a BID
releases its reservation (R9) and ends the shadow fill it stood for (R139), a SHED ends its shed in progress (R142), a
TAKEN clears its mark (R148). -/
def State.departed (n : Notice) (s : State) : State :=
  match n with
  | .bid p _ role _ =>
    let s := s.releaseReservation p
    if role = .shadow ∧ s.pool.fill = some p then s.onPool (fun q => { q with fill := none }) else s
  | .shed p _ _ => if s.pool.shedding = some p then s.onPool (fun q => { q with shedding := none }) else s
  | .taken p _ _ _ => s.clearTakenMark p
  | .lost _ _ => s
  | .clear _ _ => s
  | .offer _ _ _ _ _ => s
  | .hold _ _ _ _ _ _ _ => s
  | .present _ _ _ _ _ => s
  | .query _ _ _ => s
  | .report _ _ _ => s

/-- A new entry after every entry of its kind code and before every entry of a higher code (R99). -/
def insertEntry (e : OutEntry) : List OutEntry → List OutEntry
  | [] => [e]
  | x :: xs => if x.notice.kindCode ≤ e.notice.kindCode then x :: insertEntry e xs else e :: x :: xs

/-- A notice with a key the outbox holds replaces that entry's notice in place (R100). -/
def replaceEntry (n : Notice) (box : List OutEntry) : List OutEntry :=
  box.map (fun e => if e.notice.key = n.key then { e with notice := n } else e)

def holdsKey (n : Notice) (box : List OutEntry) : Bool := box.any (fun e => decide (e.notice.key = n.key))

/-- Joining of a new entry (R99); ages count up in the order of entry. -/
def State.joinOutbox (n : Notice) (s : State) : State :=
  s.onNotice (fun k =>
    { k with outbox := insertEntry { notice := n, age := k.nextAge, retries := 0 } k.outbox,
             nextAge := k.nextAge + 1 })

/-- The entry with the notice's key is in its window (R103). -/
def NoticeCtl.sends (k : NoticeCtl) (n : Notice) : Bool :=
  match k.inWindow with
  | some w => decide (n.key = w.key)
  | none => false

/-- A request waits for the entry in its window to leave it (R103); without one there is nothing to wait for. -/
def NoticeCtl.defer (k : NoticeCtl) (r : OutRequest) : NoticeCtl :=
  { k with inWindow := k.inWindow.map (fun w => { w with waiting := w.waiting ++ [r] }) }

/-- Placing a notice in the outbox: in place of the entry with its key (R100), or, when that is in its window, once it
has left it (R103); as a new entry (R99); or, at a full outbox, in place of the worst entry when its kind code is lower,
and otherwise dropped (R101). An entry in its window is never evicted (R101, R103): where it is the last of a full outbox,
the new notice is dropped (log 32). -/
def State.place (n : Notice) (s : State) : State :=
  if s.notice.sends n then s.onNotice (fun k => k.defer (.place n))
  else if holdsKey n s.notice.outbox then s.onNotice (fun k => { k with outbox := replaceEntry n k.outbox })
  else if s.notice.outbox.length < 16 then s.joinOutbox n
  else
    match s.notice.outbox.getLast? with
    | none => s.joinOutbox n
    | some worst =>
      if n.kindCode < worst.notice.kindCode ∧ s.notice.sends worst.notice = false then
        (((s.onNotice (fun k => { k with outbox := k.outbox.dropLast })).joinOutbox n).count .outboxDrops).departed
          worst.notice
      else (s.count .outboxDrops).departed n

/-- Removal from the outbox, at once, of every entry whose notice the test names, each leaving unsent (R102). -/
def State.removeNow (test : Notice → Bool) (s : State) : State :=
  let gone := s.notice.outbox.filter (fun e => test e.notice)
  gone.foldl (fun s e => s.departed e.notice)
    (s.onNotice (fun k => { k with outbox := k.outbox.filter (fun e => !(test e.notice)) }))

/-- The notices a removal request names (R102). -/
def Removal.names : Removal → Notice → Bool
  | .forPosition p, n => Notice.isFor p n
  | .lostOf q, .lost t _ => decide (t = q)
  | .bidOf p, .bid q _ _ _ => decide (q = p)
  | .lostOf _, _ => false
  | .bidOf _, _ => false

/-- A removal request (R102): the entries it names leave at once, but for the entry in its window, for which it waits
(R103). -/
def State.removeNotices (r : Removal) (s : State) : State :=
  (s.onNotice (fun k => k.defer (.remove r))).removeNow (fun n => r.names n && !(s.notice.sends n))

/-- Removal of LOST s (R102). -/
def State.removeLost (q : Station) (s : State) : State := s.removeNotices (.lostOf q)

/-- The window of an entry begins (R103). -/
def NoticeCtl.begins (k : NoticeCtl) (n : Notice) : NoticeCtl :=
  { k with inWindow := some { key := n.key, waiting := [] } }

/-- A request that has waited for the entry of a key takes effect (R103): a replacement is placed, and a removal takes
the entry of that key if it names it. -/
def State.takeRequest (key : Nat × Nat) (s : State) : OutRequest → State
  | .place n => s.place n
  | .remove r => s.removeNow (fun n => decide (n.key = key) && r.names n)

/-- The entry leaves its window (R103), in the outbox or, after success, gone from it: the requests that waited take
effect in the order they came (log 28). -/
def State.leavesWindow (s : State) : State :=
  match s.notice.inWindow with
  | none => s
  | some w => w.waiting.foldl (State.takeRequest w.key) (s.onNotice (fun k => { k with inWindow := none }))

/-- The own BID for p that waits in the outbox. -/
def State.waitingBid (s : State) (p : Pos) : Option (CallTag × BidRole) :=
  s.notice.outbox.findSome? (fun e => match e.notice with
    | .bid q tag role _ => if q = p then some (tag, role) else none
    | _ => none)

/-- Withdrawal of the own BID for p (R102, R136, R137). -/
def State.withdrawBid (p : Pos) (s : State) : State := s.removeNotices (.bidOf p)

/-! ### Flags and reports (R167, R173) -/

/-- Placing a REPORT. -/
def State.placeReport (p : Pos) (item : BitVec 8) (value : BitVec 24) (s : State) : State :=
  s.place (.report p item value)

/-- A request to raise a flag (R167): a flag that is clear is set and, in LISTEN or ACTIVE, a REPORT of item 0x02 with
the flags as the raise leaves them is placed (R173); a flag that is set stays as it is. -/
def State.raiseFlag (f : FaultFlag) (s : State) : State :=
  if s.report.isSet f then s
  else
    let s := s.onReport (fun r => r.withFlag f)
    if s.participates then s.placeReport 0 0x02#8 s.report.flagsValue else s

/-! ### Jobs (R63 to R66) -/

/-- Frames remaining to a deadline, over the wrap (R65). -/
def framesLeft (now deadline : FrameCount) : Nat := (deadline - now).toNat

def classRank : JobClass → Nat
  | .primary => 0
  | .standby => 1

def dirRank : Direction → Nat
  | .decodeSide => 0
  | .encode => 1

/-- Whether a job ranks before another by the four keys of R65. -/
def jobBefore (now : FrameCount) (a b : Job) : Bool :=
  if classRank a.cls ≠ classRank b.cls then decide (classRank a.cls < classRank b.cls)
  else if framesLeft now a.deadline ≠ framesLeft now b.deadline then
    decide (framesLeft now a.deadline < framesLeft now b.deadline)
  else if a.ctx ≠ b.ctx then decide (a.ctx < b.ctx)
  else decide (dirRank a.dir < dirRank b.dir)

/-- A newly posted job is placed where its keys put it, ahead of the waiting jobs that rank after it (R65). -/
def insertJob (now : FrameCount) (j : Job) : List Job → List Job
  | [] => [j]
  | x :: xs => if jobBefore now j x then j :: x :: xs else x :: insertJob now j xs

/-- The half an engine reads for a job (R72). -/
def Context.halfFor (x : Context) : Direction → CodecHalf
  | .encode => x.encoder
  | .decodeSide => x.decoder

/-- The lowest-numbered idle engine takes the head job (R66); it completes its service time later (R67). -/
def State.doJobTakeUp (s : State) : State :=
  match s.engines.queue, Table.lowestFree s.engines.running with
  | j :: rest, some e =>
    let half := match s.ctx j.ctx with
      | some x => x.halfFor j.dir
      | none => default
    s.onEngines (fun g => { g with
      queue := rest,
      running := Table.insert g.running e
        { job := j, half := half, doneAt := s.hwi.frameCount + BitVec.ofNat 16 j.service } })
  | _, _ => s

/-- Every take-up that is open (R66): after four of them the queue is empty or no engine is idle. -/
def State.takeUps (s : State) : State := s.doJobTakeUp.doJobTakeUp.doJobTakeUp.doJobTakeUp

/-- Posting a job: what was open before takes its engine first, from the queue as it stood (R66, log 1). -/
def State.postJob (j : Job) (s : State) : State :=
  s.takeUps.onEngines (fun e => { e with queue := insertJob s.hwi.frameCount j e.queue })

/-- Withdrawing the queued jobs and aborting the running jobs that a test names: no results, no drop (R70). -/
def State.withdrawJobs (test : Job → Bool) (s : State) : State :=
  s.onEngines (fun e =>
    { e with queue := e.queue.filter (fun j => !(test j)),
             running := e.running.filter (fun r => !(test r.2.job)) })

/-- A job of a context and direction, queued or running. -/
def isJobOf (c : CtxNum) (d : Direction) (j : Job) : Bool := decide (j.ctx = c) && decide (j.dir = d)

/-! ### Release (R16) -/

/-- The end of the shed in progress at p without a hold-off (R142). -/
def State.endShed (p : Pos) (s : State) : State :=
  if s.pool.shedding = some p then s.onPool (fun q => { q with shedding := none }) else s

/-- Releasing a context, as one change: its jobs are withdrawn or aborted, every notice for its position leaves the
outbox, it becomes FREE with all its fields, its TAKEN mark is cleared (R148) and a shed in progress for its position
ends (R142). It stops driving at once, at the HCLK count of the frame (R84, log 33). -/
def State.releaseCtx (c : CtxNum) (s : State) : State :=
  match s.ctx c with
  | none => s
  | some x =>
    let s := s.cutSlots s.hwi.hclkCount [x]
    let s := s.withdrawJobs (fun j => decide (j.ctx = c))
    let s := s.removeNotices (.forPosition x.position)
    let s := s.onTable (fun t => { t with contexts := Table.erase t.contexts c })
    (s.clearTakenMark x.position).endShed x.position

/-- A release requested for a position; without a non-FREE context for it, no effect (R16). -/
def State.releaseFor (p : Pos) (s : State) : State :=
  match s.ctxFor p with
  | some (c, _) => s.releaseCtx c
  | none => s

/-- Release of the own context for p when the record no longer names the own station (R17). -/
def State.releaseUnnamed (p : Pos) (s : State) : State :=
  if (s.recAt p).names s.own then s else s.releaseFor p

/-! ### Allocation (R2, R10) -/

def CtxCounters.zero : CtxCounters :=
  { good := 0, bad := 0, missing := 0, discarded := 0, trimmed := 0, lateEncode := 0, lateDecode := 0 }

def Due.none : Due := { judgement := false, completion := false, need := false, closeCheck := false }

/-- A context at allocation: the column "At allocation" of R2, from the map record's call. -/
def Context.fresh (st : CtxState) (role : Option Role) (p : Pos) (k : Call) (warmUp : Nat) : Context :=
  { state := st, role := role, position := p, callTag := k.tag, law := k.law, modeSet := k.modeSet,
    downMode := k.mode, pendingDownMode := none, upMode := k.mode, phase := k.phase, pendingShift := 0,
    steppedLater := false, phaseLimit := false, warmUp := if st = .warming then some warmUp else none, switchFrame := none,
    quietState := .speech, concealLevel := 0, needsWithoutGood := 0, streamLost := false, downQuietCount := 0,
    rxState := .hunt, markerPhase := 0, markerWindow := [], missCount := 0, collected := [], ring := [],
    emitting := none, ready := none, schedule := none, playout := [], playState := .priming, lastBlock := none,
    sampleBlock := [], firstBlock := true, encodeInFlight := false, encoder := Config.freshEncoder k.law k.mode,
    decoder := Config.freshDecoder k.law k.mode, counters := CtxCounters.zero, presentedSample := none,
    presentedNibble := none, due := Due.none }

/-- Allocation for the own station's valid BID: the lowest-numbered FREE context, consuming the reservation (R10). -/
def State.allocate (p : Pos) (st : CtxState) (role : Option Role) (s : State) : State :=
  let s := s.releaseReservation p
  match Table.lowestFree s.table.contexts, (s.recAt p).call with
  | some c, some k => s.putCtx c (Context.fresh st role p k s.life.settings.warmUp)
  | _, _ => s

/-! ### Retreat and timing loss -/

/-- Entry to RETREAT from LISTEN or ACTIVE, as one change (R162, R163; R18, R62, R107, R108, R132, R172); SO and PO are
released at the HCLK count of the frame (R84, R86, log 33). -/
def State.retreat (cause : RetreatCause) (s : State) : State :=
  if s.participates then
    let s := (s.cutSlots s.hwi.hclkCount s.allContexts).count .retreats
    { s with
      hwi := { s.hwi with clOut := clReleased }
      table := { contexts := [], reservations := [] }
      engines := { queue := [], running := [], lateCount := 0 }
      notice := NoticeCtl.empty
      mapu := { intake := [], map := [], roster := [], sweep := none, listenCount := 0, mapComplete := false,
                mapTime := s.mapu.mapTime, turn := false }
      pool := { shedGrace := 0, holdOff := 0, shedding := none, fill := none, takenMarks := [], heartbeat := 0,
                freshPending := false, cursor := 255, stage := .idle, ageingDue := false }
      life := { s.life with station := .retreat, quietCount := 0, lastCause := cause, quietJudge := false }
      report := { s.report with cursor := none } }
  else s

/-- Return to SEEK: both references are discarded, the block index becomes undefined, the run and the miss counts 0;
the frame count keeps its value (R78, R82). -/
def Hwi.toSeek (h : Hwi) : Hwi :=
  { h with timing := .seek, blockIndex := none, provingRun := 0, frameMisses := 0, blockMisses := 0,
           blockDue := none, windowTaken := true }

/-- Timing lost in GOOD (R82): SEEK, the lanes released, TIMING_LOST raised, and a retreat from LISTEN or ACTIVE. The
raise is taken before the retreat, which R173 leaves open (log 29). -/
def State.loseTiming (s : State) : State :=
  let s := s.onHwi (fun h => { h.toSeek with clOut := clReleased })
  (s.raiseFlag .timingLost).retreat .timing

/-- The rising edge of HCLK at which a loss is found: the clock watch begins anew (R81). -/
def State.atEdge (s : State) : State := s.onHwi (fun h => { h with clockWatch := 0 })

/-- Timing lost at the edge at which a frame event was expected (R79, R80): the frame before it has run to its end, so
that nothing that was driven in it is cut off (R84). -/
def State.loseTimingAtFrame (s : State) : State := (s.atEdge.cutSlots 2048 s.allContexts).loseTiming

/-- The proving run abandoned (R78): PROVE returns to SEEK; no flag and no count. -/
def State.abandonProving (s : State) : State := s.onHwi Hwi.toSeek

/-- The PRESENT the Pool Controller builds (R149). -/
def State.presentNotice (s : State) (fresh : Bool) : Notice :=
  .present (capped255 s.load) (capped255 s.headroom) s.freeContexts fresh s.isActive

/-- Entry to LISTEN (R160): the Notice Controller starts empty, the own roster entry becomes PRESENT and the listen
count 0, fresh pending is set, the first PRESENT is placed, the heartbeat count is 0, and with any flag set a REPORT of
item 0x02 follows. -/
def State.enterListen (s : State) : State :=
  let s := s.onLife (fun l => { l with station := .listen })
  let s := s.onNotice (fun _ => NoticeCtl.empty)
  let s := s.onMap (fun m => { m with intake := [], listenCount := 0 })
  let s := s.putRoster s.own { state := .present, age := 0, last := none }
  let s := s.onPool (fun q => { q with freshPending := true, heartbeat := 0 })
  let s := s.place (s.presentNotice true)
  if s.report.flags = 0 then s else s.placeReport 0 0x02#8 s.report.flagsValue

end Sys2Proof.Machine
end

