-- ==== Sys2Proof/Machine/PoolControl.lean ====
section
/-! DEFINITION. The Pool Controller's decisions (chapter 8): bids, TAKENs, shedding, the shadow fill, the census, loss
declarations and heartbeats, with the meanings of SHED_DECISION, DECLARE_LOST and HEARTBEAT. -/

namespace Sys2Proof.Machine

/-! ### How a BID is judged (R119 to R121) -/

/-- What a BID makes of its bidder (R119, R120), or that it is stale (R121). -/
inductive BidOutcome where
  | primary
  | shadow
  | taker
  | stale
deriving DecidableEq, Repr

/-- A stamp at or before the record's closing stamp. -/
def PosRecord.inWindow (r : PosRecord) (stamp : FrameCount) : Bool :=
  match r.closing with
  | some c => atOrBefore stamp c
  | none => false

def PosRecord.unfilled (r : PosRecord) : Bool := decide (r.shadow = none) && decide (r.taker = none)

/-- The judgement of a BID against a record (R119, R120); what fits nowhere is stale (R121). -/
def bidOutcome (r : PosRecord) (bidder : Station) (tag : CallTag) (role : BidRole) (stamp : FrameCount) : BidOutcome :=
  if r.call.map (fun k => k.tag) ≠ some tag then .stale
  else
    match role with
    | .offer =>
      if r.state = .offered ∧ r.inWindow stamp then .primary
      else if r.state = .held ∧ r.inWindow stamp ∧ r.shadow = none ∧ r.names bidder = false then .shadow
      else .stale
    | .shadow =>
      if r.state = .held ∧ r.shadow = none ∧ r.names bidder = false then .shadow else .stale
    | .take =>
      if r.state = .shedding ∧ r.unfilled ∧ r.inWindow stamp ∧ r.names bidder = false then .taker else .stale
    | .orphan =>
      if r.state = .orphaned ∧ r.unfilled ∧ r.inWindow stamp ∧ r.names bidder = false then .taker else .stale

/-! ### Placing bids, TAKENs and HOLDs -/

/-- The capacity test of R134. -/
def State.hasCapacity (s : State) (role : BidRole) (m : Mode) : Bool :=
  match role with
  | .offer => decide (s.load + primaryCost m ≤ s.budget)
  | .shadow => decide (s.load + standbyCost m ≤ s.budget / 2)
  | .take => decide (s.load + primaryCost m ≤ s.budget)
  | .orphan => decide (s.load + primaryCost m ≤ s.budget)

/-- The reserved cost, which the BID's cost field carries too (R134). -/
def bidCost (role : BidRole) (m : Mode) : Nat :=
  match role with
  | .offer => primaryCost m
  | .shadow => standbyCost m
  | .take => standbyCost m
  | .orphan => primaryCost m

/-- A decision to bid (R134): the capacity test, the reservation, and the BID with the record's call tag. A shadow BID
sets the shadow fill pending (R139). A BID dropped at placing releases its reservation (R101). -/
def State.placeBid (p : Pos) (role : BidRole) (s : State) : State :=
  match (s.recAt p).call with
  | none => s
  | some k =>
    if s.hasCapacity role k.mode then
      match s.requestReservation p role (bidCost role k.mode) with
      | none => s
      | some s =>
        let s := if role = .shadow then s.onPool (fun q => { q with fill := some p }) else s
        s.place (.bid p k.tag role (BitVec.ofNat 4 (bidCost role k.mode)))
    else s

/-- A decision to announce a takeover (R148): none while the mark is set or the context holds a switch frame. -/
def State.placeTaken (p : Pos) (cause : TakenCause) (s : State) : State :=
  match s.ctxFor p, (s.recAt p).call with
  | some (_, x), some k =>
    if s.takenMark p ∨ x.switchFrame.isSome then s
    else (s.setTakenMark p).place (.taken p k.tag cause x.phase)
  | _, _ => s

/-- Withdrawal of an own waiting BID for p that can no longer fit when it is applied (R137): it would be stale at the
present map time. -/
def State.withdrawUnfit (p : Pos) (s : State) : State :=
  match s.waitingBid p with
  | none => s
  | some (tag, role) =>
    if bidOutcome (s.recAt p) s.own tag role s.mapu.mapTime = .stale then s.withdrawBid p else s

/-- The own offer BID for p when another station's BID has become primary (R136): kept at the standby cost, or
withdrawn. -/
def State.keepOrWithdraw (p : Pos) (s : State) : State :=
  match s.waitingBid p, (s.recAt p).call with
  | some (_, .offer), some k =>
    let reserved := ((s.reservationFor p).map (fun r => r.cost)).getD 0
    if s.life.settings.shadowing ∧ (s.recAt p).shadow = none
        ∧ s.load - reserved + standbyCost k.mode ≤ s.budget then
      s.recostReservation p (standbyCost k.mode)
    else s.withdrawBid p
  | _, _ => s

/-- The HOLD the shedder places when a taker is set (R145): the record's call tag, the context's law, mode set, mode and
φ, shadow 15. -/
def State.placeShedderHold (p : Pos) (s : State) : State :=
  match s.ctxFor p, (s.recAt p).call with
  | some (_, x), some k => s.place (.hold p k.tag x.law x.modeSet x.downMode x.phase none)
  | _, _ => s

/-! ### Reactions to a changed record (R133) -/

/-- A record in which the own station stands as shadow (or taker). -/
def PosRecord.shadows (r : PosRecord) (q : Station) : Bool := decide (r.shadow = some q)
def PosRecord.takes (r : PosRecord) (q : Station) : Bool := decide (r.taker = some q)

/-- A claim window opened in a state by the change from old to new (R116, R124). -/
def windowOpened (st : PosState) (old new : PosRecord) : Bool :=
  decide (new.state = st) && new.unfilled && new.closing.isSome
    && (decide (old.state ≠ st) || decide (old.closing = none))

/-- The shed in progress ends when the taker is removed and the record returns to HELD, or when the own yielding context
becomes primary again (R142). -/
def State.shedEnds (p : Pos) (old new : PosRecord) (s : State) : State :=
  let takerRemoved := decide (old.state = .shedding) && old.taker.isSome && decide (new.state = .held)
    && decide (new.primary = old.primary)
  let reverted := decide (old.yielding = some s.own) && decide (new.primary = some s.own)
  if takerRemoved ∨ reverted then s.endShed p else s

/-- The own context for p, if it holds one, is STANDBY. -/
def State.standbyFor (s : State) (p : Pos) : Bool :=
  match s.ctxFor p with
  | some (_, x) => decide (x.state = .standby)
  | none => false

/-- The notices an ACTIVE station places on a change of p's record from old: the shedder's HOLD (R145), the TAKENs of
R143 and R146, and the bids of R144 and R147. -/
def State.answerChange (p : Pos) (old new : PosRecord) (s : State) : State :=
  let s := if new.state = .shedding ∧ new.taker.isSome ∧ old.taker = none ∧ new.primary = some s.own then
      s.placeShedderHold p else s
  let s := if new.state = .shedding ∧ old.state = .held ∧ new.shadows s.own ∧ s.standbyFor p then
      s.placeTaken p .handOff else s
  let s := if new.state = .orphaned ∧ new.shadows s.own then s.placeTaken p .promotion else s
  let s := if new.state = .orphaned ∧ new.takes s.own then s.placeTaken p .orphan else s
  let s := if windowOpened .shedding old new ∧ new.names s.own = false then s.placeBid p .take else s
  if windowOpened .orphaned old new ∧ s.mapu.mapComplete ∧ new.names s.own = false then s.placeBid p .orphan else s

/-- What the Pool Controller does when p's record has changed from old: the shed's end (R142), the withdrawal of an own
BID that no longer fits (R137), and, in ACTIVE only (R133), the notices the change calls for, in that order (log 13). -/
def State.poolReact (p : Pos) (old : PosRecord) (s : State) : State :=
  let new := s.recAt p
  if new = old then s
  else
    let s := (s.shedEnds p old new).withdrawUnfit p
    if s.isActive then s.answerChange p old new else s

/-! ### The decisions of a block event (R133) -/

/-- The shed grace count and the hold-off at a block event (R140). -/
def State.shedUpdate (s : State) : State :=
  s.onPool (fun q => { q with
    shedGrace := if s.budget < s.load then min (q.shedGrace + 1) s.life.settings.shedGrace else 0,
    holdOff := q.holdOff - 1 })

/-- The conditions of R141 on the Pool Controller's own figures. -/
def State.shedDue (s : State) : Bool :=
  decide (s.pool.shedGrace = s.life.settings.shedGrace) && decide (s.pool.holdOff = 0)
    && decide (s.pool.shedding = none)

/-- A context that may be shed: PRIMARY, its record HELD without a switch frame (R141). -/
def State.shedCandidate (s : State) (x : Context) : Bool :=
  decide (x.state = .primary) && decide ((s.recAt x.position).state = .held)
    && decide ((s.recAt x.position).switchFrame = none)

/-- Of two candidates the one with the higher cost; among equal costs the lower position (R141). -/
def costlier (a b : Context) : Bool :=
  decide (b.cost < a.cost) || (decide (a.cost = b.cost) && decide (a.position < b.position))

/-- The candidate R141 picks. -/
def State.shedChoice (s : State) : Option Context :=
  ((s.table.contexts.map (fun e => e.2)).filter s.shedCandidate).foldl
    (fun best x => match best with
      | none => some x
      | some b => if costlier x b then some x else some b) none

/-- Some other PRESENT peer is active with a free context and headroom for the cost (R141). -/
def State.peerHasRoom (s : State) (cost : Nat) : Bool :=
  (List.finRange 8).any (fun q =>
    decide (q ≠ s.own) && s.isPresent q &&
      (match (s.rosterAt q).last with
       | some v => v.active && decide (1 ≤ v.freeContexts.val) && decide (cost ≤ v.headroom.toNat)
       | none => false))

/-- The shed decision (R141). The shed in progress and the grace count are set before the SHED is placed, so that a
SHED dropped at placing ends the shed in progress (R142, log 12). -/
def State.decideShed (s : State) : State :=
  if s.shedDue then
    match s.shedChoice with
    | none => s
    | some x =>
      match (s.recAt x.position).call with
      | none => s
      | some k =>
        if (s.recAt x.position).shadow.isSome ∨ s.peerHasRoom x.cost then
          (s.onPool (fun q => { q with shedding := some x.position, shedGrace := 0 })).place
            (.shed x.position k.tag (BitVec.ofNat 4 x.cost))
        else s
  else s

/-- The TAKEN that is due for p, if one is (R148). -/
def State.takenDue (s : State) (p : Pos) : Option TakenCause :=
  let r := s.recAt p
  match s.ctxFor p with
  | none => none
  | some (_, x) =>
    if r.state = .shedding ∧ (r.shadows s.own ∨ r.takes s.own) ∧ x.state = .standby then some .handOff
    else if r.state = .orphaned ∧ r.shadows s.own then some .promotion
    else if r.state = .orphaned ∧ r.takes s.own then some .orphan
    else none

/-- The TAKENs due, in rising order of position (R133, R148). -/
def State.placeTakensDue (s : State) : State :=
  s.recordedPositions.foldl (fun s p => match s.takenDue p with
    | some cause => s.placeTaken p cause
    | none => s) s

/-- The shadow fill (R139): the lowest HELD position without a shadow that does not name the own station. -/
def State.shadowFill (s : State) : State :=
  if s.mapu.mapComplete ∧ s.life.settings.shadowing ∧ s.pool.fill = none then
    match s.recordedPositions.find? (fun p =>
        decide ((s.recAt p).state = .held) && decide ((s.recAt p).shadow = none)
          && !((s.recAt p).names s.own)) with
    | some p => s.placeBid p .shadow
    | none => s
  else s

def isHold : Notice → Bool
  | .hold _ _ _ _ _ _ _ => true
  | _ => false

/-- The i-th position after the census cursor, in cyclic order (R150). -/
def State.censusPosition (s : State) (i : Nat) : Pos := posOfCode ((s.pool.cursor.val + 1 + i) % 256)

/-- The census (R150): with no HOLD waiting, a HOLD of the next PRIMARY position after the cursor. -/
def State.census (s : State) : State :=
  if s.notice.outbox.any (fun e => isHold e.notice) then s
  else
    match ((List.range 256).map s.censusPosition).findSome? (fun p => match s.ctxFor p with
        | some (_, x) => if x.state = .primary then some x else none
        | none => none) with
    | none => s
    | some x =>
      (s.place (.hold x.position x.callTag x.law x.modeSet x.downMode x.phase (s.recAt x.position).shadow)).onPool
        (fun q => { q with cursor := x.position })

/-- The loss limit (R130). -/
def State.lossLimit (s : State) : Nat := 4 * s.life.settings.heartbeatPeriod + 2

def State.lostWaiting (s : State) (q : Station) : Bool :=
  s.notice.outbox.any (fun e => match e.notice with
    | .lost t _ => decide (t = q)
    | _ => false)

/-- The three conditions of R151 for a station. -/
def State.lossDue (s : State) (q : Station) : Bool :=
  decide (q ≠ s.own) && s.isPresent q && decide (s.lossLimit ≤ (s.rosterAt q).age) && !(s.lostWaiting q)

/-- The loss examination, in rising order of station number (R151). -/
def State.examineLosses (s : State) : State :=
  (List.finRange 8).foldl (fun s q =>
    if s.lossDue q then s.place (.lost q (BitVec.ofNat 8 (s.rosterAt q).age)) else s) s

/-- The ageing of the roster at a block event (R130). -/
def State.ageRoster (s : State) : State :=
  s.onMap (fun m => { m with roster := m.roster.map (fun e =>
    if e.2.state = .present ∧ e.1 ≠ s.own then (e.1, { e.2 with age := min (e.2.age + 1) 255 }) else e) })

/-- What follows the loss examination: the ageing if it was to come after it (R151), then the heartbeat count (R149);
when the count reaches the period the HEARTBEAT step follows. -/
def State.afterLoss (s : State) : State :=
  let s := if s.pool.ageingDue then (s.ageRoster).onPool (fun q => { q with ageingDue := false }) else s
  s.onPool (fun q => { q with
    heartbeat := q.heartbeat + 1,
    stage := if s.life.settings.heartbeatPeriod ≤ q.heartbeat + 1 then .heartbeat else .idle })

/-- What follows the shed decision: the TAKENs due, the shadow fill and the census, then the loss examination, which is
the DECLARE_LOST step when a peer is due (R133). -/
def State.afterShed (s : State) : State :=
  let s := ((s.placeTakensDue).shadowFill).census
  if (List.finRange 8).any s.lossDue then s.onPool (fun q => { q with stage := .loss }) else s.afterLoss

/-- The Pool Controller's own decisions at a block event, in the order of R133; the shed decision, the loss examination
and the heartbeat are the steps SHED_DECISION, DECLARE_LOST and HEARTBEAT when they have something to decide (log 4). In
LISTEN only the heartbeat runs. -/
def State.poolDecisions (s : State) : State :=
  if s.isActive then
    let s := s.shedUpdate
    if s.shedDue then s.onPool (fun q => { q with stage := .shed }) else s.afterShed
  else s.afterLoss

/-! ### The steps of their own -/

/-- SHED_DECISION's work. -/
def State.doShedDecision (s : State) : State :=
  if s.pool.stage = .shed then ((s.decideShed).onPool (fun q => { q with stage := .idle })).afterShed else s

/-- DECLARE_LOST's work. -/
def State.doDeclareLost (s : State) : State :=
  if s.pool.stage = .loss then ((s.examineLosses).onPool (fun q => { q with stage := .idle })).afterLoss else s

/-- HEARTBEAT's work (R149): a PRESENT with the values at placement; the count becomes 0. -/
def State.doHeartbeat (s : State) : State :=
  if s.pool.stage = .heartbeat then
    (s.place (s.presentNotice s.pool.freshPending)).onPool (fun q => { q with heartbeat := 0, stage := .idle })
  else s

/-- SHED_DECISION (R141). -/
def execShedDecision (s : State) : Host.Outcome State Fault Refusal := .next (s.live State.doShedDecision)

/-- DECLARE_LOST (R151). -/
def execDeclareLost (s : State) : Host.Outcome State Fault Refusal := .next (s.live State.doDeclareLost)

/-- HEARTBEAT (R149). -/
def execHeartbeat (s : State) : Host.Outcome State Fault Refusal := .next (s.live State.doHeartbeat)

end Sys2Proof.Machine
end

