-- ==== Sys2Proof/Machine/Contexts.lean ====
section
/-! DEFINITION. The Context Table's own frame and block events: the switch frame of a context (R14) and the end of its
warm-up (R11), with the meanings of SWITCH_FRAME and WARM_UP_END. -/

namespace Sys2Proof.Machine

/-- The frame count equals the context's switch frame (R14). -/
def State.switchDue (s : State) (x : Context) : Bool := decide (x.switchFrame = some s.hwi.frameCount)

/-- A context become PRIMARY: role, warm-up remaining and switch frame absent (R14). -/
def Context.promoted (x : Context) : Context :=
  { x with state := .primary, role := none, warmUp := none, switchFrame := none }

/-- The switch frame of context c (R14): a WARMING or STANDBY context becomes PRIMARY, a YIELDING context is released. -/
def State.doSwitchFrame (c : CtxNum) (s : State) : State :=
  match s.ctx c with
  | none => s
  | some x =>
    if s.switchDue x then
      match x.state with
      | .warming => s.putCtx c x.promoted
      | .standby => s.putCtx c x.promoted
      | .yielding => s.releaseCtx c
      | .primary => s
    else s

/-- Every context's switch frame, where it falls in this frame. -/
def State.switchContexts (s : State) : State := s.ctxNums.foldl (fun s c => s.doSwitchFrame c) s

/-- The warm-up of context c ends (R11). -/
def Context.warmUpOver (x : Context) : Bool := decide (x.state = .warming) && decide (x.warmUp = some 0)

/-- The end of a warm-up (R11): the context becomes STANDBY with its role kept, and the shadow or taker of a SHEDDING
position places its TAKEN (R143, R145). -/
def State.doWarmUpEnd (c : CtxNum) (s : State) : State :=
  match s.ctx c with
  | none => s
  | some x =>
    if x.warmUpOver then
      let s := s.putCtx c { x with state := .standby, warmUp := none }
      let r := s.recAt x.position
      if s.isActive ∧ r.state = .shedding ∧ (r.shadows s.own ∨ r.takes s.own) then
        s.placeTaken x.position .handOff
      else s
    else s

/-- SWITCH_FRAME (R14). -/
def execSwitchFrame (c : CtxNum) (s : State) : Host.Outcome State Fault Refusal :=
  .next (s.live (State.doSwitchFrame c))

/-- WARM_UP_END (R11). -/
def execWarmUpEnd (c : CtxNum) (s : State) : Host.Outcome State Fault Refusal :=
  .next (s.live (State.doWarmUpEnd c))

end Sys2Proof.Machine
end

