-- ==== Sys2Proof/Machine/Uplink.lean ====
section
/-! DEFINITION. The uplink of a context (chapter 2): nibbles, marker judgement, parcel completion, the inbound ring, the
playout buffer, needs and stream loss, with the meanings of MARKER_JUDGEMENT, PARCEL_COMPLETION and NEED. -/

namespace Sys2Proof.Machine

/-! ### Taking nibbles (R19, R20) -/

/-- A block index k frames on, modulo 160. -/
def BlockIndex.plus (b : BlockIndex) (k : Nat) : BlockIndex := Fin.ofNat 160 (b.val + k)

/-- The last four of a list of nibbles. -/
def lastFour (w : List Nibble) : List Nibble := w.drop (w.length - 4)

/-- The receiver takes the nibble of a frame with block index b (R19, R20): the window moves on; in HUNT a marker found
starts a parcel; in CONFIRM and SYNCED the parcel is collected, and the marker judgement and the completion fall due. -/
def Context.takeNibble (b : BlockIndex) (n : Nibble) (x : Context) : Context :=
  let window := lastFour (x.markerWindow ++ [n])
  if x.rxState = .hunt then
    if window = markerNibbles then
      { x with markerWindow := window, rxState := .confirm, markerPhase := BlockIndex.plus b 157,
               collected := markerNibbles }
    else { x with markerWindow := window }
  else
    { x with
      markerWindow := window
      collected := if b = x.markerPhase then [n] else x.collected ++ [n]
      due := { x.due with judgement := decide (b = BlockIndex.plus x.markerPhase 3),
                          completion := decide (b = BlockIndex.plus x.markerPhase 159) } }

/-! ### Counting (R26) -/

def Context.onCounters (f : CtxCounters → CtxCounters) (x : Context) : Context := { x with counters := f x.counters }

/-- A GOOD or BAD parcel counted in the per-context counter, and station-wide while the context drives (R26). -/
def State.countGood (c : CtxNum) (s : State) : State :=
  (s.modCtx c (Context.onCounters (fun k => { k with good := countUp k.good }))).countDriven c .goodParcels

def State.countBad (c : CtxNum) (s : State) : State :=
  (s.modCtx c (Context.onCounters (fun k => { k with bad := countUp k.bad }))).countDriven c .badParcels

def State.countMissing (c : CtxNum) (s : State) : State :=
  (s.modCtx c (Context.onCounters (fun k => { k with missing := countUp k.missing }))).countDriven c .missingParcels

def State.countDiscarded (c : CtxNum) (s : State) : State :=
  (s.modCtx c (Context.onCounters (fun k => { k with discarded := countUp k.discarded }))).countDriven c .ringDiscards

def State.countTrimmed (c : CtxNum) (s : State) : State :=
  (s.modCtx c (Context.onCounters (fun k => { k with trimmed := countUp k.trimmed }))).countDriven c .trims

/-! ### Decode-side jobs (R32, R34, R35) -/

/-- A decode-side job of context c as it stands (R35). -/
def Context.decodeJob (x : Context) (c : CtxNum) (kind : JobKind) (now : FrameCount) : Job :=
  { ctx := c, dir := .decodeSide, kind := kind, deadline := now + 70, service := x.cost, cls := x.jobClass }

def ParcelResult.isGood : ParcelResult → Bool
  | .good _ _ _ => true
  | .bad _ => false

/-- The end of a stream-lost episode by the posting of a decode job from a GOOD entry (R40). -/
def Context.servedGood (x : Context) : Context := { x with needsWithoutGood := 0, streamLost := false }

/-- Posting a decode job from a ring entry (R32, R34, R35); from a GOOD entry, needs without good becomes 0 (R40). -/
def State.postDecode (c : CtxNum) (x : Context) (r : ParcelResult) (s : State) : State :=
  let s := s.postJob (x.decodeJob c (.decode r x.quietState x.concealLevel) s.hwi.frameCount)
  if r.isGood then s.modCtx c Context.servedGood else s

/-- Needs without good increments, saturating (R40); in a PRIMARY context that reaches the limit with the episode flag
clear, the episode begins, STREAM_LOST is raised and a REPORT of item 0x41 is placed (R41, R173). -/
def State.bumpNeeds (c : CtxNum) (s : State) : State :=
  match s.ctx c with
  | none => s
  | some x =>
    let n := min (x.needsWithoutGood + 1) 65535
    let x' := { x with needsWithoutGood := n }
    if x.state = .primary ∧ s.life.settings.streamLostLimit ≤ n ∧ x.streamLost = false then
      ((s.putCtx c { x' with streamLost := true }).raiseFlag .streamLost).placeReport x.position 0x41#8
        (BitVec.ofNat 24 n)
    else s.putCtx c x'

/-! ### The inbound ring (R30) -/

/-- A result handed to the ring (R30): it joins as the newest entry, or is discarded from a full ring. In PRIMING the
first entry to join the empty ring is posted at once (R32); in STARTING an entry makes the playout RUNNING (R33). The end
of a job in the same frame may come before or after: at a ring of 3 the ring differs, against R39 (log 35). -/
def State.deliver (c : CtxNum) (r : ParcelResult) (s : State) : State :=
  match s.ctx c with
  | none => s
  | some x =>
    if x.ring.length < 3 then
      let x' := { x with ring := x.ring ++ [{ result := r, completed := s.hwi.frameCount }] }
      match x.playState with
      | .priming => if x.ring = [] then (s.putCtx c x').postDecode c x' r else s.putCtx c x'
      | .starting => s.putCtx c { x' with playState := .running }
      | .running => s.putCtx c x'
    else s.countDiscarded c

/-! ### What a GOOD parcel brings (R27 to R29) -/

/-- The rate request against the mode set and the downlink mode (R27); none where it is refused. -/
def Context.rateRequested (m : Mode) (x : Context) : Option Context :=
  if ModeSet.member x.modeSet m then
    some { x with pendingDownMode := if m = x.downMode then none else some m }
  else none

/-- The three effects of a GOOD parcel: rate request, advance request, uplink mode. -/
def State.goodEffects (c : CtxNum) (g : GoodParcel) (s : State) : State :=
  match s.ctx c with
  | none => s
  | some x =>
    let s := match x.rateRequested g.rateRequest with
      | some x' => s.putCtx c x'
      | none => s.countDriven c .rateRequestsRefused
    s.modCtx c (fun x => { x with pendingShift := g.advance, upMode := if g.kind = .speech then g.mode else x.upMode })

/-- A GOOD parcel: counted, its effects, and delivered (R26 to R30). -/
def State.completeGood (c : CtxNum) (g : GoodParcel) (s : State) : State :=
  ((s.countGood c).goodEffects c g).deliver c (.good g.kind g.mode g.payload)

/-! ### The steps -/

/-- HUNT, entered from CONFIRM or SYNCED: the window keeps its nibbles (R20). -/
def Context.toHunt (x : Context) : Context := { x with rxState := .hunt, missCount := 0, collected := [] }

/-- The marker judgement (R21, R22). -/
def State.doMarkerJudgement (c : CtxNum) (s : State) : State :=
  match s.ctx c with
  | none => s
  | some x =>
    if x.due.judgement then
      let x := { x with due := { x.due with judgement := false } }
      let found := decide (x.collected.take 4 = markerNibbles)
      match x.rxState with
      | .hunt => s.putCtx c x
      | .confirm =>
        if found then s.putCtx c { x with rxState := .synced, missCount := 0 }
        else (s.putCtx c x.toHunt).countDriven c .falseMarkers
      | .synced =>
        if found then s.putCtx c { x with missCount := 0 }
        else if x.missCount < 2 then s.putCtx c { x with missCount := x.missCount + 1 }
        else
          (((s.putCtx c x.toHunt).countBad c).countDriven c .syncLosses).deliver c (.bad .marker)
    else s

/-- The parcel completion (R21, R22, R24, R26): a BAD parcel in CONFIRM is counted and not delivered. -/
def State.doParcelCompletion (c : CtxNum) (s : State) : State :=
  match s.ctx c with
  | none => s
  | some x =>
    if x.due.completion then
      let s := s.putCtx c { x with due := { x.due with completion := false } }
      if x.rxState = .hunt then s
      else
        match judgeParcel x.modeSet x.collected with
        | .good g => s.completeGood c g
        | .bad reason =>
          let s := s.countBad c
          if x.rxState = .synced then s.deliver c (.bad reason) else s
    else s

/-- Step 1 of a need: a full ring loses its oldest entry (R34). -/
def State.trimRing (c : CtxNum) (s : State) : State :=
  match s.ctx c with
  | none => s
  | some x =>
    if x.ring.length = 3 then (s.putCtx c { x with ring := x.ring.tail }).countTrimmed c else s

/-- Steps 2 and 3 of a need: the job that is posted (R34), with needs without good (R40). -/
def State.postNeed (c : CtxNum) (s : State) : State :=
  match s.ctx c with
  | none => s
  | some x =>
    match x.ring with
    | e :: _ =>
      let s := s.postDecode c x e.result
      if e.result.isGood then s else s.bumpNeeds c
    | [] =>
      let kind := match x.quietState with
        | .speech => JobKind.conceal x.concealLevel
        | .quiet => JobKind.comfortNoise
      (s.postJob (x.decodeJob c kind s.hwi.frameCount)).bumpNeeds c

/-- The need (R34). -/
def State.doNeed (c : CtxNum) (s : State) : State :=
  match s.ctx c with
  | none => s
  | some x =>
    if x.due.need then ((s.putCtx c { x with due := { x.due with need := false } }).trimRing c).postNeed c else s

/-! ### Playout (R31, R33, R36 to R38) -/

/-- The sample presented for SO slot p at a frame event (R31); a RUNNING buffer brought to 80 samples is a need (R34). -/
def Context.presentSample (x : Context) : Context :=
  match x.playState with
  | .priming => { x with presentedSample := some (silenceCode x.law) }
  | .starting => { x with presentedSample := some (silenceCode x.law) }
  | .running =>
    match x.playout with
    | [] => { x with presentedSample := some (silenceCode x.law) }
    | v :: rest =>
      { x with presentedSample := some v, playout := rest,
               due := { x.due with need := decide (rest.length = 80) } }

/-- What a decode-side job works on (R36, R63). -/
def JobKind.work : JobKind → DecodeWork
  | .decode (.good .speech m payload) _ _ => .speech m payload
  | .decode (.good .sid _ payload) _ _ => .sid payload
  | .decode (.good .noData _ _) q level => if q = .speech then .conceal (min (level + 1) 16) else .comfortNoise
  | .decode (.bad _) q level => if q = .speech then .conceal (min (level + 1) 16) else .comfortNoise
  | .conceal level => .conceal (min (level + 1) 16)
  | .comfortNoise => .comfortNoise
  | .encode _ _ => .comfortNoise

/-- A job that is posted from a ring entry, which leaves the ring when the job ends (R30). -/
def JobKind.fromEntry : JobKind → Bool
  | .decode _ _ _ => true
  | .conceal _ => false
  | .comfortNoise => false
  | .encode _ _ => false

def silenceBlock (law : Law) : List Sample := List.replicate 160 (silenceCode law)

/-- A sample lowered by 3 dB n times. -/
def loweredBy (law : Law) : Nat → Sample → Sample
  | 0, v => v
  | n + 1, v => Config.lower3dB law (loweredBy law n v)

/-- A concealment block (R37): the silence code throughout at level 16 and with no earlier block since allocation; at the
levels below, the extrapolation at full level lowered by 3 dB for each level above 1. -/
def Context.concealBlock (x : Context) (half : CodecHalf) (level : Nat) : List Sample :=
  if 16 ≤ level ∨ x.lastBlock = none then silenceBlock x.law
  else (List.range 160).map (fun i => loweredBy x.law (level - 1) (Config.decodeSample half x.law (.conceal 1) i))

/-- The block a completed decode-side job delivers (R36, R37); what is not fixed by the rules is the engine's (log 2). -/
def Context.deliveredBlock (x : Context) (half : CodecHalf) (w : DecodeWork) : List Sample :=
  let computed := (List.range 160).map (Config.decodeSample half x.law w)
  match w with
  | .conceal level => x.concealBlock half level
  | .speech _ _ => computed
  | .sid _ => computed
  | .comfortNoise => computed

/-- The uplink quiet state and the concealment level after a decode-side job (R36). -/
def Context.withOutcome (w : DecodeWork) (x : Context) : Context :=
  match w with
  | .speech _ _ => { x with quietState := .speech, concealLevel := 0 }
  | .sid _ => { x with quietState := .quiet, concealLevel := 0 }
  | .conceal level => { x with quietState := .speech, concealLevel := level }
  | .comfortNoise => x

/-- The end of a decode-side job: its block joins the playout buffer and its entry leaves the ring; in PRIMING the state
becomes STARTING, and RUNNING at once when the ring holds an entry (R32, R33, R35). -/
def Context.appendBlock (block : List Sample) (kind : JobKind) (x : Context) : Context :=
  let ring := if kind.fromEntry then x.ring.tail else x.ring
  { x with
    playout := x.playout ++ block
    lastBlock := some block
    ring := ring
    playState := if x.playState = .priming then (if ring = [] then .starting else .running) else x.playState }

/-- The quick-conceal block of a dropped decode-side job (R38); level is the level after the drop. -/
def Context.quickBlock (x : Context) (level : Nat) : List Sample :=
  match x.lastBlock with
  | none => silenceBlock x.law
  | some b =>
    if x.quietState = .speech ∧ 16 ≤ level then silenceBlock x.law else b.map (Config.lower3dB x.law)

/-- The quick conceal (R38). -/
def Context.quickConceal (kind : JobKind) (x : Context) : Context :=
  let level := if x.quietState = .speech then min (x.concealLevel + 1) 16 else x.concealLevel
  Context.onCounters (fun k => { k with lateDecode := countUp k.lateDecode })
    (Context.appendBlock (x.quickBlock level) kind { x with concealLevel := level })

/-! ### Block events (R20, R40) -/

/-- What a block event brings to the uplink of context c: the missing parcel of HUNT, and a block of silence served in
PRIMING or STARTING. -/
def State.uplinkBlock (c : CtxNum) (s : State) : State :=
  match s.ctx c with
  | none => s
  | some x =>
    let s := if x.rxState = .hunt then s.countMissing c else s
    if x.playState = .running then s else s.bumpNeeds c

/-! ### The meanings -/

/-- MARKER_JUDGEMENT (R22). -/
def execMarkerJudgement (c : CtxNum) (s : State) : Host.Outcome State Fault Refusal :=
  .next (s.live (State.doMarkerJudgement c))

/-- PARCEL_COMPLETION (R24). -/
def execParcelCompletion (c : CtxNum) (s : State) : Host.Outcome State Fault Refusal :=
  .next (s.live (State.doParcelCompletion c))

/-- NEED (R34). -/
def execNeed (c : CtxNum) (s : State) : Host.Outcome State Fault Refusal := .next (s.live (State.doNeed c))

end Sys2Proof.Machine
end

