-- ==== Sys2Proof/Machine/Downlink.lean ====
section
/-! DEFINITION. The downlink of a context (chapter 3): the sample block, the close, shift steps and mode changes, the
outbound ring, the parcel content and its presentation, with the meanings of BLOCK_CLOSE and EMISSION_START. -/

namespace Sys2Proof.Machine

/-! ### Gathering samples (R43) and forming a block (R45) -/

/-- The SI sample of a frame joins the sample block, which holds at most 161 samples (R43). -/
def Context.appendSample (v : Sample) (x : Context) : Context :=
  let block := x.sampleBlock ++ [v]
  { x with sampleBlock := block.drop (block.length - 161) }

/-- The block of exactly 160 samples formed at a close (R45). -/
def Context.formBlock (x : Context) : List Sample :=
  let held := x.sampleBlock
  let missing := 160 - held.length
  if 160 ≤ held.length then held.drop (held.length - 160)
  else if x.firstBlock then List.replicate missing (silenceCode x.law) ++ held
  else held ++ List.replicate missing (held.getLastD (silenceCode x.law))

/-! ### The close (R44) -/

/-- One shift step, or the clip at the phase limit (R46, R47); none while the context holds a switch frame (R48). A step
toward later puts φ at the next frame's block index, at which the next block, of 161 samples, is not yet to close. -/
def Context.shiftStep (x : Context) : Context :=
  if x.switchFrame.isSome ∨ x.pendingShift = 0 then x
  else if x.pendingShift.msb then
    if h : x.phase.val + 1 < 160 then
      { x with phase := ⟨x.phase.val + 1, h⟩, pendingShift := x.pendingShift + 1, steppedLater := true }
    else { x with pendingShift := 0, phaseLimit := true }
  else if x.phase.val = 0 then { x with pendingShift := 0, phaseLimit := true }
  else { x with phase := ⟨x.phase.val - 1, by omega⟩, pendingShift := x.pendingShift - 1 }

/-- The pending downlink mode becomes the downlink mode (R49). -/
def Context.applyMode (x : Context) : Context :=
  match x.pendingDownMode with
  | some m => { x with downMode := m, pendingDownMode := none }
  | none => x

/-- The encode job of a close at frame now (R51). -/
def Context.encodeJob (x : Context) (c : CtxNum) (block : List Sample) (now : FrameCount) : Job :=
  { ctx := c, dir := .encode, kind := .encode block x.downMode, deadline := now + 40, service := x.cost,
    cls := x.jobClass }

/-- A pending emission start gives way to a later close: its job is withdrawn and the ready entry it placed is
discarded (R51). -/
def State.replaceStart (c : CtxNum) (s : State) : State :=
  (s.withdrawJobs (isJobOf c .encode)).modCtx c (fun x => { x with encodeInFlight := false, ready := none })

/-- Step 4 of a close (R51): the emission start is entered in the schedule, in place of a pending one, and the encode
job is posted unless the close found the encode-in-flight mark set. -/
def State.scheduleEncode (c : CtxNum) (block : List Sample) (s : State) : State :=
  match s.ctx c with
  | none => s
  | some x =>
    let now := s.hwi.frameCount
    let start := { frame := now + 40, jobPosted := !x.encodeInFlight, mode := x.downMode }
    let s := if x.schedule.isSome then s.replaceStart c else s
    if x.encodeInFlight then s.modCtx c (fun x => { x with schedule := some start })
    else
      (s.postJob (x.encodeJob c block now)).modCtx c
        (fun x => { x with schedule := some start, encodeInFlight := true })

/-- The block index equals the context's φ in a frame whose comparison has not been made (R44). -/
def State.closeDue (s : State) (x : Context) : Bool :=
  x.due.closeCheck && decide (s.hwi.blockIndex = some x.phase)

/-- The close of context c's block (R44 to R51). -/
def State.doBlockClose (c : CtxNum) (s : State) : State :=
  match s.ctx c with
  | none => s
  | some x =>
    if s.closeDue x then
      let block := x.formBlock
      let x' := { x with sampleBlock := [], firstBlock := false, due := { x.due with closeCheck := false } }
      (s.putCtx c x'.shiftStep.applyMode).scheduleEncode c block
    else s

/-! ### The outbound ring and the content of a parcel (R53 to R57) -/

/-- The rate request of a parcel whose content is fixed now (R56). -/
def State.rateRequest (s : State) (ms : ModeSet) : Mode :=
  if s.budget < s.load then ModeSet.lowest ms else ModeSet.highest ms

/-- The emitting entry waits for its content (R55). -/
def Context.awaitsContent (x : Context) : Bool :=
  match x.emitting with
  | some em => decide (em.content = none)
  | none => false

/-- The parcel of the ready entry, or a filler of mode m where there is none (R55 to R57). -/
def Context.parcelOf (x : Context) (rate m : Mode) : List Byte :=
  match x.ready with
  | some r => buildParcel r.kind r.mode rate x.phaseLimit false r.payload
  | none => buildParcel .noData m rate x.phaseLimit true []

/-- The late encode of a filler, in the per-context counter and, while the context drives, in the station-wide late
encodes and fillers (R57, R59). -/
def State.countFiller (c : CtxNum) (s : State) : State :=
  ((s.modCtx c (Context.onCounters (fun k => { k with lateEncode := countUp k.lateEncode }))).countDriven c
    .lateEncodes).countDriven c .fillers

/-- The content of the emitting entry is fixed (R55): from the ready entry, or as a filler; the phase-limit flag is taken
and cleared (R47). -/
def State.fixContent (c : CtxNum) (s : State) : State :=
  match s.ctx c with
  | none => s
  | some x =>
    match x.emitting with
    | none => s
    | some em =>
      let parcel := x.parcelOf (s.rateRequest x.modeSet) em.mode
      let filler := x.ready.isNone
      let s := s.putCtx c { x with emitting := some { em with content := some parcel }, ready := none,
                                   phaseLimit := false }
      if filler then s.countFiller c else s

/-- An emission start of context c falls in this frame (R51, R55). -/
def State.emissionDue (s : State) (x : Context) : Bool :=
  match x.schedule with
  | some e => decide (e.frame = s.hwi.frameCount)
  | none => false

/-- The new parcel of an emission start (R55): it replaces the emitting entry and its first marker nibble is presented;
its content is fixed at once, unless the job that belongs to it has not ended yet. -/
def State.beginEmission (c : CtxNum) (s : State) : State :=
  match s.ctx c with
  | none => s
  | some x =>
    match x.schedule with
    | none => s
    | some e =>
      let s := s.putCtx c { x with
        schedule := none
        emitting := some { sent := 1, content := none, mode := e.mode }
        presentedNibble := some 0xA#4 }
      if x.ready.isNone ∧ e.jobPosted ∧ x.encodeInFlight then s else s.fixContent c

/-- The emission start (R55). A switch frame of the context in this frame comes first, since the change applies to the
switch frame itself (R14, R71): a new primary begins its emission as PRIMARY, and a released context begins none. -/
def State.doEmissionStart (c : CtxNum) (s : State) : State :=
  match s.ctx c with
  | none => s
  | some x => if s.emissionDue x then (s.doSwitchFrame c).beginEmission c else s

/-- Nibble k of the emitting entry (R55, R58): the marker, whatever the content, and then the content's nibbles. -/
def Emitting.nibble (em : Emitting) : Nibble :=
  if em.sent < 4 then markerNibbles.getD em.sent 0xF#4
  else
    match em.content with
    | some bytes => parcelNibble bytes em.sent
    | none => 0xF#4

/-- The nibble presented at a frame event (R58); the emitting entry leaves after its 160th (R54). -/
def Context.presentNibble (x : Context) : Context :=
  match x.emitting with
  | none => { x with presentedNibble := some 0xF#4 }
  | some em =>
    { x with presentedNibble := some em.nibble,
             emitting := if 159 ≤ em.sent then none else some { em with sent := em.sent + 1 } }

/-! ### The encode job's end (R52, R53) -/

/-- The parcel kind and the quiet count after a completion (R53). -/
def quietStep (active : Bool) (count : Nat) : ParcelKind × Nat :=
  if active then (.speech, 0)
  else if count = 0 then (.sid, 1)
  else (.noData, if 7 ≤ count then 0 else count + 1)

/-- The payload of a ready entry: L bytes of what the engine delivers (R6, R52). -/
def encodedPayload (half : CodecHalf) (block : List Sample) (m : Mode) (k : ParcelKind) : List Byte :=
  (List.range (payloadLength k m)).map (Config.encodeByte half block m)

/-- The completion of an encode job with a half read at take-up (R52, R53, R72). -/
def Context.encoded (half : CodecHalf) (block : List Sample) (m : Mode) (x : Context) : Context :=
  let step := quietStep (Config.encodeActive half block m) x.downQuietCount
  { x with
    encodeInFlight := false
    encoder := Config.encodeNext half block m
    downQuietCount := step.2
    ready := some { kind := step.1, mode := m, payload := encodedPayload half block m step.1 } }

/-- What follows the end of an encode job whose emission start has been taken: the content is fixed (R55). -/
def State.contentAfterJob (c : CtxNum) (s : State) : State :=
  match s.ctx c with
  | none => s
  | some x => if x.awaitsContent then s.fixContent c else s

/-! ### The meanings -/

/-- BLOCK_CLOSE (R44). -/
def execBlockClose (c : CtxNum) (s : State) : Host.Outcome State Fault Refusal :=
  .next (s.live (State.doBlockClose c))

/-- EMISSION_START (R55). -/
def execEmissionStart (c : CtxNum) (s : State) : Host.Outcome State Fault Refusal :=
  .next (s.live (State.doEmissionStart c))

end Sys2Proof.Machine
end

