-- ==== Sys2Proof/Machine/Engines.lean ====
section
/-! DEFINITION. The Codec Engine Array (chapter 4): completions and drops, with the meanings of JOB_TAKE_UP,
DECODE_COMPLETION, ENCODE_COMPLETION and JOB_DROPPED. -/

namespace Sys2Proof.Machine

/-! ### Completions (R67) -/

/-- The engine's job completes in this frame. -/
def State.completes (s : State) (r : Running) : Bool := decide (r.doneAt = s.hwi.frameCount)

/-- Engine e becomes idle. -/
def State.freeEngine (e : EngineNum) (s : State) : State :=
  s.onEngines (fun g => { g with running := Table.erase g.running e })

/-- The results of a decode-side job with the half its take-up read (R35, R36, R72). -/
def Context.decoded (half : CodecHalf) (kind : JobKind) (x : Context) : Context :=
  let w := kind.work
  { Context.appendBlock (x.deliveredBlock half w) kind (x.withOutcome w) with decoder := Config.decodeNext half w }

/-- A completion of engine e's decode-side job. -/
def State.doDecodeCompletion (e : EngineNum) (s : State) : State :=
  match Table.lookup s.engines.running e with
  | none => s
  | some r =>
    if s.completes r ∧ r.job.dir = .decodeSide then
      (s.freeEngine e).modCtx r.job.ctx (Context.decoded r.half r.job.kind)
    else s

/-- A completion of engine e's encode job (R52, R53), and the content of an emission start already taken (R55). -/
def State.doEncodeCompletion (e : EngineNum) (s : State) : State :=
  match Table.lookup s.engines.running e with
  | none => s
  | some r =>
    match r.job.kind with
    | .encode block m =>
      if s.completes r ∧ r.job.dir = .encode then
        ((s.freeEngine e).modCtx r.job.ctx (Context.encoded r.half block m)).contentAfterJob r.job.ctx
      else s
    | .decode _ _ _ => s
    | .conceal _ => s
    | .comfortNoise => s

/-! ### Deadlines (R68) -/

/-- A queued job is dropped at its deadline frame. -/
def dropsQueued (now : FrameCount) (c : CtxNum) (d : Direction) (j : Job) : Bool :=
  isJobOf c d j && decide (j.deadline = now)

/-- A running job is dropped at its deadline frame, unless it completes in it. -/
def dropsRunning (now : FrameCount) (c : CtxNum) (d : Direction) (r : Running) : Bool :=
  isJobOf c d r.job && decide (r.job.deadline = now) && decide (r.doneAt ≠ now)

/-- The job of context c and direction d that is dropped in this frame, if there is one. -/
def State.droppedJob (s : State) (c : CtxNum) (d : Direction) : Option Job :=
  match s.engines.queue.find? (dropsQueued s.hwi.frameCount c d) with
  | some j => some j
  | none => (s.engines.running.find? (fun e => dropsRunning s.hwi.frameCount c d e.2)).map (fun e => e.2.job)

/-- The drop leaves the queue and the engines, and adds one to the late count (R68); the drop that brings it from 8 to 9
asks for OVERLOAD (R73). -/
def State.dropJob (c : CtxNum) (d : Direction) (s : State) : State :=
  let now := s.hwi.frameCount
  let late := s.engines.lateCount
  let s := s.onEngines (fun g => {
    queue := g.queue.filter (fun j => !(dropsQueued now c d j)),
    running := g.running.filter (fun e => !(dropsRunning now c d e.2)),
    lateCount := late + 1 })
  if late = 8 then s.raiseFlag .overload else s

/-- What the posting block does at a drop (R68): a quick conceal (R38), or the end of the encode job (R52, R55). -/
def State.tellDrop (j : Job) (s : State) : State :=
  match j.dir with
  | .decodeSide => (s.modCtx j.ctx (Context.quickConceal j.kind)).countDriven j.ctx .lateDecodes
  | .encode => (s.modCtx j.ctx (fun x => { x with encodeInFlight := false })).contentAfterJob j.ctx

/-- The drop of context c's job of direction d at its deadline (R68). -/
def State.doJobDropped (c : CtxNum) (d : Direction) (s : State) : State :=
  match s.droppedJob c d with
  | none => s
  | some j => (s.dropJob c d).tellDrop j

/-! ### The meanings -/

/-- JOB_TAKE_UP (R66). -/
def execJobTakeUp (s : State) : Host.Outcome State Fault Refusal := .next (s.live State.doJobTakeUp)

/-- DECODE_COMPLETION (R36). -/
def execDecodeCompletion (e : EngineNum) (s : State) : Host.Outcome State Fault Refusal :=
  .next (s.live (State.doDecodeCompletion e))

/-- ENCODE_COMPLETION (R52). -/
def execEncodeCompletion (e : EngineNum) (s : State) : Host.Outcome State Fault Refusal :=
  .next (s.live (State.doEncodeCompletion e))

/-- JOB_DROPPED (R68). -/
def execJobDropped (c : CtxNum) (d : Direction) (s : State) : Host.Outcome State Fault Refusal :=
  .next (s.live (State.doJobDropped c d))

end Sys2Proof.Machine
end

