-- ==== Sys2Proof/Machine/Queries.lean ====
section
/-! DEFINITION. What the Report Unit answers to a QUERY with the own station as target (chapter 10): the words of the
station summary and of the position status, and the answer to each item. -/

namespace Sys2Proof.Machine

/-- The age a roster entry reports: 0 for an UNKNOWN entry (R171). -/
def State.reportedAge (s : State) (q : Station) : Nat :=
  if (s.rosterAt q).state = .unknown then 0 else (s.rosterAt q).age

/-- The fields of a word of the station summary, each a width and a value (R171, R177). Word 7 has no position to carry
while no shed is in progress: those bits are unused and 0 (R177, log 3). -/
def State.summaryFields (s : State) (word : Nat) : List (Nat × Nat) :=
  match word with
  | 0 => [(2, stationStateCode s.life.station), (2, timingCode s.hwi.timing), (3, s.life.number.val),
      (3, loaderResultCode s.life.result), (3, retreatCauseCode s.life.lastCause), (1, boolCode s.mapu.mapComplete)]
  | 1 => [(8, (capped255 s.load).toNat), (8, (capped255 s.headroom).toNat)]
  | 2 => [(7, s.freeContexts.val), (7, s.table.reservations.length)]
  | 3 => [(8, s.engines.queue.length), (3, s.engines.running.length), (8, min s.engines.lateCount 255)]
  | 4 => [(5, s.notice.outbox.length), (4, s.mapu.intake.length), (7, s.mapu.listenCount)]
  | 5 => [(8, s.life.quietCount), (5, if s.hwi.timing = .prove then s.hwi.provingRun else 0)]
  | 6 => [(5, s.pool.shedGrace), (7, s.pool.holdOff)]
  | 7 => [(1, boolCode s.pool.shedding.isSome),
      (8, match s.pool.shedding with
        | some p => p.val
        | none => 0)]
  | 8 => (List.finRange 8).map (fun q => (2, rosterStateCode (s.rosterAt q).state))
  | 9 => [(8, s.reportedAge 0), (8, s.reportedAge 1)]
  | 10 => [(8, s.reportedAge 2), (8, s.reportedAge 3)]
  | 11 => [(8, s.reportedAge 4), (8, s.reportedAge 5)]
  | 12 => [(8, s.reportedAge 6), (8, s.reportedAge 7)]
  | _ => []

/-- The value of a stamp or switch frame, or 0 when absent (R172). -/
def frameOrZero : Option FrameCount → Nat
  | some f => f.toNat
  | none => 0

/-- The fields of words 0 to 4 of the position status, from the record of p (R172, R177). A FREE record has no call: the
bits of its call fields are unused and 0 (R177, log 3). -/
def State.recordFields (s : State) (p : Pos) (word : Nat) : List (Nat × Nat) :=
  let r := s.recAt p
  let callField (f : Call → Nat) : Nat :=
    match r.call with
    | some c => f c
    | none => 0
  match word with
  | 0 => [(3, posStateCode r.state), (4, stationOrNoneCode r.primary), (4, stationOrNoneCode r.shadow),
      (4, stationOrNoneCode r.taker), (4, stationOrNoneCode r.yielding)]
  | 1 => [(12, callField (fun c => c.tag.toNat)), (1, callField (fun c => boolCode (lawBit c.law))),
      (4, callField (fun c => c.modeSet.toNat)), (2, callField (fun c => c.mode.val))]
  | 2 => [(8, callField (fun c => c.phase.val)),
      (4, match r.call with
        | some c => (c.offerer.map (fun o => o.toNat)).getD 15
        | none => 15),
      (1, boolCode r.closing.isSome), (1, boolCode r.switchFrame.isSome)]
  | 3 => [(16, frameOrZero r.switchFrame)]
  | 4 => [(16, frameOrZero r.closing)]
  | _ => []

/-- The fields of words 5 to 9 of the position status, from the context for p (R172, R177). -/
def Context.statusFields (c : CtxNum) (x : Context) (word : Nat) : List (Nat × Nat) :=
  match word with
  | 5 => [(6, c.val), (3, ctxStateCode x.state), (2, roleCode x.role), (4, warmUpCode x.warmUp)]
  | 6 => [(2, x.downMode.val), (3, modeOrNoneCode x.pendingDownMode), (2, x.upMode.val), (8, x.phase.val),
      (4, x.pendingShift.toNat)]
  | 7 => [(2, rxStateCode x.rxState), (8, x.markerPhase.val), (2, x.missCount), (2, x.ring.length),
      (1, boolCode x.phaseLimit), (1, boolCode x.emitting.isSome), (1, boolCode x.ready.isSome)]
  | 8 => [(2, playStateCode x.playState), (8, x.playout.length), (1, quietCode x.quietState), (5, x.concealLevel),
      (1, boolCode x.streamLost)]
  | 9 => [(16, x.needsWithoutGood)]
  | _ => []

/-- The counters of words 10 to 16, in the order of R172. -/
def CtxCounters.word (k : CtxCounters) (word : Nat) : BitVec 24 :=
  match word with
  | 10 => k.good
  | 11 => k.bad
  | 12 => k.missing
  | 13 => k.discarded
  | 14 => k.trimmed
  | 15 => k.lateEncode
  | 16 => k.lateDecode
  | _ => 0

/-- The value of a word of the position status of p (R172, R177). -/
def State.positionWord (s : State) (p : Pos) (word : Nat) : BitVec 24 :=
  if word ≤ 4 then positionValue word (s.recordFields p word)
  else
    match s.ctxFor p with
    | none => 0
    | some (c, x) =>
      if word ≤ 9 then positionValue word (x.statusFields c word) else counterWordValue word (x.counters.word word)

/-- The last word available for p: 16 while the station holds a non-FREE context for p, and 4 otherwise (R172). -/
def State.lastWord (s : State) (p : Pos) : Nat := if (s.ctxFor p).isSome then 16 else 4

/-- The word the status cursor chooses for p (R172). -/
def State.cursorWord (s : State) (p : Pos) : Nat :=
  match s.report.cursor with
  | some (q, w) => if q = p ∧ w ≤ s.lastWord p then w else 0
  | none => 0

/-- A REPORT of item 0xFF echoing the item and the argument (R170, R177). -/
def State.answerUnknown (item argument : BitVec 8) (s : State) : State :=
  s.placeReport 0 0xFF#8 ((0#8).append (item.append argument))

/-- The answer to item 0x01 (R171); an argument above 12 is answered as an unknown item. -/
def State.answerSummary (argument : BitVec 8) (s : State) : State :=
  if argument.toNat ≤ 12 then
    s.placeReport 0 0x01#8 (summaryValue argument.toNat (s.summaryFields argument.toNat))
  else s.answerUnknown 0x01#8 argument

/-- The answer to item 0x02 (R170). -/
def State.answerFlags (s : State) : State := s.placeReport 0 0x02#8 s.report.flagsValue

/-- The answer to item 0x03: the flags as they stand, and then every flag cleared (R170). -/
def State.answerClearFlags (s : State) : State :=
  (s.placeReport 0 0x03#8 s.report.flagsValue).onReport (fun r => { r with flags := 0 })

/-- An item 0x10 to 0x2F as the place of its counter (R170). -/
def counterOfItem (item : BitVec 8) : Option (Fin 32) :=
  if h : 16 ≤ item.toNat ∧ item.toNat < 48 then some ⟨item.toNat - 16, by omega⟩ else none

/-- The answer to an item 0x10 to 0x2F (R170). -/
def State.answerCounter (item : BitVec 8) (i : Fin 32) (s : State) : State :=
  s.placeReport 0 item (s.report.counterAt i)

/-- The answer to item 0x40 (R172): the word the cursor chooses, with the cursor moved on. -/
def State.answerPosition (argument : BitVec 8) (s : State) : State :=
  let p := posOfCode argument.toNat
  let w := s.cursorWord p
  let next := if w = s.lastWord p then 0 else w + 1
  (s.placeReport p 0x40#8 (s.positionWord p w)).onReport (fun r => { r with cursor := some (p, next) })

end Sys2Proof.Machine
end

