-- ==== Sys2Proof/Machine/MapUnit.lean ====
section
/-! DEFINITION. The Map Unit (chapter 7): how a record is taken from the intake, the closure of claim windows, the removal
of a station, the rule of each kind of notice, the sweep and the switch frame of a record, with the meanings of the
APPLY and QUERY commands, SWEEP_GROUP and RECORD_SWITCH_FRAME. -/

namespace Sys2Proof.Machine

/-! ### Switch frames of records (R115) -/

/-- The record without its switch frame and yielding station; the primary stays (R115). -/
def PosRecord.switched (r : PosRecord) : PosRecord := { r with switchFrame := none, yielding := none }

/-- The switch frame of p's record (R115). -/
def State.doRecordSwitchFrame (p : Pos) (s : State) : State :=
  if (s.recAt p).switchFrame = some s.hwi.frameCount then s.putRec p (s.recAt p).switched else s

/-- Every record's switch frame, where it falls in this frame. -/
def State.switchRecords (s : State) : State := s.recordedPositions.foldl (fun s p => s.doRecordSwitchFrame p) s

/-- Every switch frame that falls in this frame, in contexts and records; an application or a sweep step finds them taken
(R14, R115). -/
def State.takeSwitchFrames (s : State) : State := s.switchContexts.switchRecords

/-! ### Closures (R113) -/

/-- The end of the shed in progress at a shed lapse: the hold-off is set (R142). -/
def State.shedLapse (p : Pos) (s : State) : State :=
  if s.pool.shedding = some p then
    s.onPool (fun q => { q with shedding := none, holdOff := s.life.settings.shedHoldOff })
  else s

/-- A claim window of p whose closing stamp is before the map time. -/
def State.windowPassed (s : State) (p : Pos) : Bool :=
  match (s.recAt p).closing with
  | some c => !(atOrBefore s.mapu.mapTime c)
  | none => false

/-- The closure of p's claim window, by the record's state (R113). -/
def State.closeWindow (p : Pos) (s : State) : State :=
  let r := s.recAt p
  match r.state with
  | .offered => (s.putRec p PosRecord.free).count .offerLapses
  | .held => s.putRec p { r with closing := none }
  | .shedding => ((s.putRec p { r with state := .held, closing := none }).count .shedLapses).shedLapse p
  | .orphaned => (s.putRec p PosRecord.free).count .orphanLapses
  | .free => s

/-- The closures before a record is applied, in rising order of position, each told to the Pool Controller. -/
def State.closeWindows (s : State) : State :=
  s.recordedPositions.foldl (fun s p =>
    if s.windowPassed p then (s.closeWindow p).poolReact p (s.recAt p) else s) s

/-! ### Taking a record (R111, R112, R114) -/

/-- The Map Unit may act at this frame's event: LISTEN or ACTIVE, and it has not acted yet (R111). -/
def State.mapActs (s : State) : Bool := s.participates && s.mapu.turn

/-- The own claim length. -/
def State.claimLength (s : State) : FrameCount := BitVec.ofNat 16 s.life.settings.claimLength

/-- What comes before the head record is applied: the frame's switch frames, the map time, the closures (R111, R113). -/
def State.beginRecord (r : Record) (s : State) : State :=
  let s := s.takeSwitchFrames.onMap (fun m => { m with mapTime := r.stamp, turn := false })
  s.closeWindows

/-- The record leaves the intake, unless it has started a sweep (R111, R112). -/
def State.endRecord (s : State) : State :=
  if s.mapu.sweep.isSome then s else s.onMap (fun m => { m with intake := m.intake.tail })

/-- Taking the head record of the intake at the Map Unit's turn, when the kind asked for is the head's: pick gives what
its application does. -/
def State.onHead (pick : Record → Option (State → State)) (s : State) : State :=
  if s.mapActs ∧ s.mapu.sweep = none then
    match s.mapu.intake.head? with
    | none => s
    | some r =>
      match pick r with
      | none => s
      | some apply => (apply (s.beginRecord r)).endRecord
  else s

/-- The station that sent a notice, 0 to 7. -/
def Heard.station (h : Heard) : Option Station := stationOfCode h.sender.toNat

/-- Steps 1 and 2 of R114: the sender's entry becomes PRESENT with age 0, and LOST of it leaves the outbox. -/
def State.hearStation (q : Station) (s : State) : State :=
  let s := if q = s.own then s else s.putRoster q { s.rosterAt q with state := .present, age := 0 }
  s.removeLost q

/-- Taking a notice of a station: f gives the rule of its kind from the notice, its sender and its own mark. A notice
of a station kind always has a station as sender (R98). -/
def State.onStationNotice (f : Notice → Station → Bool → Option (State → State)) (s : State) : State :=
  s.onHead (fun r =>
    match r.heard with
    | none => none
    | some h =>
      match h.station with
      | none => none
      | some q => (f h.notice q h.own).map (fun apply s => apply (s.hearStation q)))

/-! ### Removal of a station (R116) -/

/-- The record without station q (R116). -/
def PosRecord.without (r : PosRecord) (q : Station) (mapTime claim : FrameCount) : PosRecord :=
  if r.primary = some q then
    match r.yielding with
    | some y => { r with primary := some y, yielding := none, switchFrame := none, state := .held }
    | none =>
      { r with state := .orphaned, primary := none, switchFrame := none,
               closing := if r.unfilled then some (mapTime + claim) else none }
  else if r.shadow = some q then
    { r with shadow := none,
             closing := if r.state = .shedding ∨ r.state = .orphaned then some (mapTime + claim) else r.closing }
  else if r.taker = some q then
    if r.state = .shedding then { r with taker := none, state := .held } else PosRecord.free
  else if r.yielding = some q then { r with yielding := none }
  else r

/-- An orphan is dropped by the removal of q: q is the taker of an ORPHANED record (R116). -/
def PosRecord.orphanDropped (r : PosRecord) (q : Station) : Bool :=
  decide (r.state = .orphaned) && decide (r.taker = some q)

/-- The own YIELDING context becomes PRIMARY again without a switch frame (R15). -/
def Context.reverted (x : Context) : Context :=
  if x.state = .yielding then { x with state := .primary, switchFrame := none } else x

/-- A change of the own context for p, if there is one. -/
def State.modCtxFor (p : Pos) (f : Context → Context) (s : State) : State :=
  match s.ctxFor p with
  | some (c, x) => s.putCtx c (f x)
  | none => s

/-- The removal of station q from position p (R116), with the own contexts following (R15, R17) and the Pool Controller
told. -/
def State.removeStation (q : Station) (p : Pos) (s : State) : State :=
  let old := s.recAt p
  let s := s.putRec p (old.without q s.mapu.mapTime s.claimLength)
  let s := if old.orphanDropped q then s.count .orphansDropped else s
  let s := if old.primary = some q ∧ old.yielding = some s.own then s.modCtxFor p Context.reverted else s
  (s.releaseUnnamed p).poolReact p old

/-- Removal of station q from the 32 positions of group g, in rising order (R112). -/
def State.sweepPositions (q : Station) (g : Nat) (s : State) : State :=
  (s.recordedPositions.filter (fun p => decide (p.val / 32 = g))).foldl (fun s p => s.removeStation q p) s

/-- The start of a sweep: group 0 at the frame event at which the record is taken (R112). -/
def State.startSweep (q : Station) (s : State) : State :=
  (s.onMap (fun m => { m with sweep := some { station := q, group := 1 } })).sweepPositions q 0

/-! ### The rule of each kind -/

/-- LOST q (R128). DECLARED_LOST is raised before the retreat, which R173 leaves open (log 29). -/
def State.applyLostTo (q : Station) (s : State) : State :=
  if q = s.own then (s.raiseFlag .declaredLost).retreat .declared
  else
    let e := s.rosterAt q
    let s := (s.putRoster q { e with state := .lost }).removeLost q
    if e.state = .present then s.startSweep q else s

/-- A TAKEN is valid (R122). -/
def PosRecord.takenValid (r : PosRecord) (t : Station) (tag : CallTag) : Bool :=
  decide (r.call.map (fun k => k.tag) = some tag) && (r.shadows t || r.takes t) && decide (r.switchFrame = none)

/-- The block index of a stamped frame, from the present frame count and block index (R122). Block index 0 is read where
no block reference is held, which no run in LISTEN or ACTIVE reaches (log 21). -/
def State.blockIndexOf (s : State) (stamp : FrameCount) : Nat :=
  let b := match s.hwi.blockIndex with
    | some b => b.val
    | none => 0
  (b + 160 - (s.hwi.frameCount - stamp).toNat % 160) % 160

/-- The switch frame of a TAKEN with a stamp and a phase (R122). -/
def State.switchFrameOf (s : State) (stamp : FrameCount) (phase : BlockIndex) : FrameCount :=
  stamp + BitVec.ofNat 16 (160 + (phase.val + 40 + 160 - s.blockIndexOf stamp) % 160)

/-- The old primary becomes yielding when it is the own station or PRESENT (R122). -/
def State.yieldingOf (s : State) (r : PosRecord) : Option Station :=
  match r.primary with
  | some y => if y = s.own ∨ s.isPresent y then some y else none
  | none => none

/-- The record after a valid TAKEN of station t (R122). -/
def PosRecord.takenBy (r : PosRecord) (t : Station) (yielding : Option Station) (phase : BlockIndex)
    (switchFrame : FrameCount) : PosRecord :=
  { r with state := .held, closing := none, primary := some t, yielding := yielding,
           shadow := if r.shadow = some t then none else r.shadow,
           taker := if r.taker = some t then none else r.taker,
           call := r.call.map (fun k => { k with phase := phase }), switchFrame := some switchFrame }

/-- The own context of a valid own TAKEN: the switch frame and the TAKEN's φ (R13). A φ equal to the context's own changes
nothing, so that a step toward later just taken still makes its block 161 frames long (R13, R46); another φ is compared
with the block index from the next frame event on (R50, log 27). -/
def Context.given (phase : BlockIndex) (switchFrame : FrameCount) (x : Context) : Context :=
  { x with
    phase := phase
    switchFrame := some switchFrame
    steppedLater := x.steppedLater && decide (phase = x.phase)
    due := { x.due with closeCheck := x.due.closeCheck && decide (phase = x.phase) } }

/-- The own PRIMARY context becomes YIELDING with the switch frame (R12). -/
def Context.yields (switchFrame : FrameCount) (x : Context) : Context :=
  if x.state = .primary then { x with state := .yielding, switchFrame := some switchFrame } else x

/-- A valid TAKEN (R122, R12, R13, R148). -/
def State.takeOver (t : Station) (p : Pos) (phase : BlockIndex) (s : State) : State :=
  let old := s.recAt p
  let sf := s.switchFrameOf s.mapu.mapTime phase
  let y := s.yieldingOf old
  let s := (s.putRec p (old.takenBy t y phase sf)).count .takeovers
  let s := if t = s.own then s.modCtxFor p (Context.given phase sf) else s
  let s := if y = some s.own then s.modCtxFor p (Context.yields sf) else s
  (s.releaseUnnamed p).poolReact p old

/-- A stray TAKEN (R123): counted, and a sender named in p is removed; the own station's context for p is released. -/
def State.strayTaken (t : Station) (p : Pos) (own : Bool) (s : State) : State :=
  let s := s.count .strays
  let s := if (s.recAt p).names t then s.removeStation t p else s
  if own then s.releaseFor p else s

/-- TAKEN p from station t (R122, R123); the own TAKEN's application clears its mark (R148). -/
def State.applyTakenTo (p : Pos) (tag : CallTag) (phase : BlockIndex) (t : Station) (own : Bool) (s : State) : State :=
  let s := if own then s.clearTakenMark p else s
  if (s.recAt p).takenValid t tag then s.takeOver t p phase else s.strayTaken t p own

/-- The changes of a fitting CLEAR (R117): FREE, the own context released, every notice for p out of the outbox. A
reservation whose BID is in its window or has passed the lane stays until that BID is applied (R9, R137, log 28). -/
def State.clearPosition (p : Pos) (s : State) : State :=
  let old := s.recAt p
  (((s.putRec p PosRecord.free).releaseFor p).removeNotices (.forPosition p)).poolReact p old

/-- CLEAR p (R117). -/
def State.applyClearTo (p : Pos) (tag : CallTag) (s : State) : State :=
  if (s.recAt p).state ≠ .free ∧ (s.recAt p).call.map (fun k => k.tag) = some tag then s.clearPosition p
  else s.count .clearsRefused

/-- The record an OFFER sets up (R118). -/
def PosRecord.offer (tag : CallTag) (law : Law) (ms : ModeSet) (m : Mode) (offerer : BitVec 4) (closing : FrameCount) :
    PosRecord :=
  { PosRecord.free with
    state := .offered
    call := some { tag := tag, law := law, modeSet := ms, mode := m, phase := 0, offerer := some offerer }
    closing := some closing }

/-- OFFER p from a line partner (R118, R135). -/
def State.applyOfferTo (p : Pos) (tag : CallTag) (law : Law) (ms : ModeSet) (m : Mode) (offerer : BitVec 4)
    (s : State) : State :=
  let s := if (s.recAt p).state ≠ .free then (s.clearPosition p).count .offersOverHeld else s
  let old := s.recAt p
  let s := s.putRec p (PosRecord.offer tag law ms m offerer (s.mapu.mapTime + s.claimLength))
  let s := s.poolReact p old
  if s.isActive then s.placeBid p .offer else s

/-- The record after a BID that fits (R119, R120). -/
def PosRecord.bidTaken (r : PosRecord) (bidder : Station) : BidOutcome → PosRecord
  | .primary => { r with state := .held, primary := some bidder }
  | .shadow => { r with shadow := some bidder, closing := none }
  | .taker => { r with taker := some bidder, closing := none }
  | .stale => r

/-- The shadow fill pending for p is decided (R138). -/
def State.endFill (p : Pos) (s : State) : State :=
  if s.pool.fill = some p then s.onPool (fun q => { q with fill := none }) else s

/-- The own context of the own BID's outcome (R10); contexts are allocated in ACTIVE only (R18, R152). -/
def State.allocateFor (p : Pos) (o : BidOutcome) (s : State) : State :=
  if s.isActive then
    match o with
    | .primary => s.allocate p .primary none
    | .shadow => s.allocate p .warming (some .shadow)
    | .taker => s.allocate p .warming (some .taker)
    | .stale => s
  else s

/-- A BID that fits (R119, R120, R10, R136, R138). -/
def State.bidFits (p : Pos) (bidder : Station) (o : BidOutcome) (own : Bool) (s : State) : State :=
  let old := s.recAt p
  let s := s.putRec p (old.bidTaken bidder o)
  let s := if own then (s.allocateFor p o).endFill p
    else if o = .primary then s.keepOrWithdraw p else s
  s.poolReact p old

/-- A stale BID (R121, R138). -/
def State.bidStale (p : Pos) (own : Bool) (s : State) : State :=
  let s := s.count .staleBids
  if own then (s.releaseReservation p).endFill p else s

/-- BID p (R119 to R121). -/
def State.applyBidTo (p : Pos) (tag : CallTag) (role : BidRole) (bidder : Station) (own : Bool) (s : State) : State :=
  match bidOutcome (s.recAt p) bidder tag role s.mapu.mapTime with
  | .stale => s.bidStale p own
  | o => s.bidFits p bidder o own

/-- A SHED fits (R124). -/
def PosRecord.shedFits (r : PosRecord) (q : Station) (tag : CallTag) : Bool :=
  decide (r.state = .held) && decide (r.primary = some q) && decide (r.call.map (fun k => k.tag) = some tag)
    && decide (r.switchFrame = none)

/-- The record after a fitting SHED (R124). -/
def PosRecord.shed (r : PosRecord) (closing : FrameCount) : PosRecord :=
  { r with state := .shedding, closing := if r.shadow.isSome then none else some closing }

/-- SHED p (R124, R142). -/
def State.applyShedTo (p : Pos) (tag : CallTag) (q : Station) (own : Bool) (s : State) : State :=
  let old := s.recAt p
  if old.shedFits q tag then
    (s.putRec p (old.shed (s.mapu.mapTime + s.claimLength))).poolReact p old
  else
    let s := s.count .shedsRefused
    if own then s.endShed p else s

/-- A station that a HOLD names as shadow is adopted: PRESENT, not the own station, not named in p (R125). -/
def State.adopts (s : State) (r : PosRecord) (x : Station) : Bool :=
  s.isPresent x && decide (x ≠ s.own) && !(r.names x)

/-- The shadow field of a primary's HOLD against the record (R125): whether a census mismatch is counted, and the
record. -/
def State.holdShadow (s : State) (r : PosRecord) (sh : Option Station) : Bool × PosRecord :=
  match r.shadow, sh with
  | some x, _ => (decide (sh ≠ some x), r)
  | none, none => (false, r)
  | none, some x =>
    if r.state = .held ∧ s.adopts r x then (false, { r with shadow := some x, closing := none }) else (true, r)

/-- A HOLD of the primary (R125). -/
def State.holdRestates (p : Pos) (tag : CallTag) (law : Law) (ms : ModeSet) (m : Mode) (phase : BlockIndex)
    (sh : Option Station) (s : State) : State :=
  let old := s.recAt p
  let call := { tag := tag, law := law, modeSet := ms, mode := m, phase := phase,
                offerer := old.call.bind (fun k => k.offerer) }
  let judged := s.holdShadow { old with call := some call } sh
  let s := s.putRec p judged.2
  let s := if old.call.map (fun k => k.tag) ≠ some tag then s.count .censusMismatches else s
  let s := if judged.1 then s.count .censusMismatches else s
  s.poolReact p old

/-- The record another station's HOLD teaches a FREE record (R126). -/
def State.holdTeaches (p : Pos) (tag : CallTag) (law : Law) (ms : ModeSet) (m : Mode) (phase : BlockIndex)
    (sh : Option Station) (q : Station) (s : State) : State :=
  let old := s.recAt p
  let new : PosRecord := { PosRecord.free with
    state := .held
    call := some { tag := tag, law := law, modeSet := ms, mode := m, phase := phase, offerer := none }
    primary := some q }
  let shadow := match sh with
    | some x => if s.adopts new x then some x else none
    | none => none
  (s.putRec p { new with shadow := shadow }).poolReact p old

/-- A conflicting HOLD (R126). -/
def State.holdConflicts (p : Pos) (q : Station) (own : Bool) (s : State) : State :=
  let r := s.recAt p
  let s := s.count .censusMismatches
  let s := if r.shadows q ∨ r.takes q then s.removeStation q p else s
  if own then s.releaseFor p else s

/-- HOLD p (R125, R126). -/
def State.applyHoldTo (p : Pos) (tag : CallTag) (law : Law) (ms : ModeSet) (m : Mode) (phase : BlockIndex)
    (sh : Option Station) (q : Station) (own : Bool) (s : State) : State :=
  let r := s.recAt p
  if r.primary = some q then s.holdRestates p tag law ms m phase sh
  else if r.state = .free then
    if own then s.count .censusMismatches else s.holdTeaches p tag law ms m phase sh q
  else if r.state = .held ∧ r.yielding = some q then s.count .censusMismatches
  else s.holdConflicts p q own

/-- PRESENT (R127): the roster, and a sweep of a fresh PRESENT of a peer that was PRESENT when the record was taken. -/
def State.applyPresentTo (v : LastValues) (fresh : Bool) (q : Station) (wasPresent : Bool) (s : State) : State :=
  let s := s.putRoster q { state := .present, age := 0, last := some v }
  if fresh ∧ q ≠ s.own ∧ wasPresent then s.startSweep q else s

/-! ### APPLY commands -/

/-- APPLY_EMPTY_MARK's work (R111). -/
def State.doApplyEmptyMark (s : State) : State :=
  s.onHead (fun r => match r.heard with
    | none => some id
    | some _ => none)

/-- APPLY_LOST's work. -/
def State.doApplyLost (s : State) : State :=
  s.onStationNotice (fun n _ _ => match n with
    | .lost q _ => some (State.applyLostTo q)
    | _ => none)

/-- APPLY_TAKEN's work. -/
def State.doApplyTaken (s : State) : State :=
  s.onStationNotice (fun n t own => match n with
    | .taken p tag _ phase => some (State.applyTakenTo p tag phase t own)
    | _ => none)

/-- APPLY_CLEAR's work: a line partner's notice, steps 3 and 4 of R114 only. -/
def State.doApplyClear (s : State) : State :=
  s.onHead (fun r => match r.heard with
    | some { notice := .clear p tag, .. } => some (State.applyClearTo p tag)
    | _ => none)

/-- APPLY_OFFER's work. -/
def State.doApplyOffer (s : State) : State :=
  s.onHead (fun r => match r.heard with
    | some { sender := q, notice := .offer p tag law ms m, .. } => some (State.applyOfferTo p tag law ms m q)
    | _ => none)

/-- APPLY_BID's work. -/
def State.doApplyBid (s : State) : State :=
  s.onStationNotice (fun n q own => match n with
    | .bid p tag role _ => some (State.applyBidTo p tag role q own)
    | _ => none)

/-- APPLY_SHED's work. -/
def State.doApplyShed (s : State) : State :=
  s.onStationNotice (fun n q own => match n with
    | .shed p tag _ => some (State.applyShedTo p tag q own)
    | _ => none)

/-- APPLY_HOLD's work. -/
def State.doApplyHold (s : State) : State :=
  s.onStationNotice (fun n q own => match n with
    | .hold p tag law ms m phase sh => some (State.applyHoldTo p tag law ms m phase sh q own)
    | _ => none)

/-- APPLY_PRESENT's work: whether the sender was PRESENT is judged on the entry as the record is taken (log 14). -/
def State.doApplyPresent (s : State) : State :=
  s.onStationNotice (fun n q _ => match n with
    | .present _ headroom fc fresh active =>
      some (State.applyPresentTo { headroom := headroom, freeContexts := fc, active := active } fresh q (s.isPresent q))
    | _ => none)

/-- APPLY_REPORT's work: the roster only (R127). -/
def State.doApplyReport (s : State) : State :=
  s.onStationNotice (fun n _ _ => match n with
    | .report _ _ _ => some id
    | _ => none)

/-! ### QUERY commands (R127, R169) -/

/-- Taking a QUERY whose item is one that the command answers; a QUERY for another station has no further effect
(log 15). -/
def State.onQuery (answer : BitVec 8 → BitVec 8 → Option (State → State)) (s : State) : State :=
  s.onHead (fun r => match r.heard with
    | some { notice := .query argument target item, .. } =>
      (answer item argument).map (fun f s => if target = s.own then f s else s)
    | _ => none)

/-- The answer to item 0x01 shows the engines and the queue, so the take-ups that are open come before it: no engine is
idle beside a waiting job (R66, R171). -/
def State.doQueryStationSummary (s : State) : State :=
  s.onQuery (fun item argument =>
    if item = 0x01#8 then some (fun s => s.takeUps.answerSummary argument) else none)

def State.doQueryFaultFlags (s : State) : State :=
  s.onQuery (fun item _ => if item = 0x02#8 then some State.answerFlags else none)

def State.doQueryClearFlags (s : State) : State :=
  s.onQuery (fun item _ => if item = 0x03#8 then some State.answerClearFlags else none)

def State.doQueryCounter (s : State) : State :=
  s.onQuery (fun item _ => (counterOfItem item).map (State.answerCounter item))

def State.doQueryPositionStatus (s : State) : State :=
  s.onQuery (fun item argument => if item = 0x40#8 then some (State.answerPosition argument) else none)

/-- The items R170 answers by a value, or R171 and R172 by a word. -/
def knownItem (item : BitVec 8) : Bool :=
  decide (item = 0x01#8) || decide (item = 0x02#8) || decide (item = 0x03#8) || decide (item = 0x40#8)
    || (counterOfItem item).isSome

def State.doQueryUnknownItem (s : State) : State :=
  s.onQuery (fun item argument => if knownItem item then none else some (State.answerUnknown item argument))

/-! ### The sweep (R112) -/

/-- SWEEP_GROUP's work: the next group; after the eighth the record leaves the intake. -/
def State.doSweepGroup (s : State) : State :=
  if s.mapActs then
    match s.mapu.sweep with
    | none => s
    | some w =>
      let s := (s.takeSwitchFrames.onMap (fun m => { m with turn := false })).sweepPositions w.station w.group
      if w.group < 7 then s.onMap (fun m => { m with sweep := some { w with group := w.group + 1 } })
      else s.onMap (fun m => { m with sweep := none, intake := m.intake.tail })
  else s

/-! ### The meanings -/

/-- APPLY_EMPTY_MARK (R111). -/
def execApplyEmptyMark (s : State) : Host.Outcome State Fault Refusal := .next (s.live State.doApplyEmptyMark)

/-- APPLY_LOST (R128). -/
def execApplyLost (s : State) : Host.Outcome State Fault Refusal := .next (s.live State.doApplyLost)

/-- APPLY_TAKEN (R122, R123). -/
def execApplyTaken (s : State) : Host.Outcome State Fault Refusal := .next (s.live State.doApplyTaken)

/-- APPLY_CLEAR (R117). -/
def execApplyClear (s : State) : Host.Outcome State Fault Refusal := .next (s.live State.doApplyClear)

/-- APPLY_OFFER (R118). -/
def execApplyOffer (s : State) : Host.Outcome State Fault Refusal := .next (s.live State.doApplyOffer)

/-- APPLY_BID (R119 to R121). -/
def execApplyBid (s : State) : Host.Outcome State Fault Refusal := .next (s.live State.doApplyBid)

/-- APPLY_SHED (R124). -/
def execApplyShed (s : State) : Host.Outcome State Fault Refusal := .next (s.live State.doApplyShed)

/-- APPLY_HOLD (R125, R126). -/
def execApplyHold (s : State) : Host.Outcome State Fault Refusal := .next (s.live State.doApplyHold)

/-- APPLY_PRESENT (R127). -/
def execApplyPresent (s : State) : Host.Outcome State Fault Refusal := .next (s.live State.doApplyPresent)

/-- APPLY_REPORT (R127). -/
def execApplyReport (s : State) : Host.Outcome State Fault Refusal := .next (s.live State.doApplyReport)

/-- QUERY_STATION_SUMMARY (R171). -/
def execQueryStationSummary (s : State) : Host.Outcome State Fault Refusal :=
  .next (s.live State.doQueryStationSummary)

/-- QUERY_FAULT_FLAGS (R170). -/
def execQueryFaultFlags (s : State) : Host.Outcome State Fault Refusal := .next (s.live State.doQueryFaultFlags)

/-- QUERY_CLEAR_FLAGS (R170). -/
def execQueryClearFlags (s : State) : Host.Outcome State Fault Refusal := .next (s.live State.doQueryClearFlags)

/-- QUERY_COUNTER (R170). -/
def execQueryCounter (s : State) : Host.Outcome State Fault Refusal := .next (s.live State.doQueryCounter)

/-- QUERY_POSITION_STATUS (R172). -/
def execQueryPositionStatus (s : State) : Host.Outcome State Fault Refusal :=
  .next (s.live State.doQueryPositionStatus)

/-- QUERY_UNKNOWN_ITEM (R170). -/
def execQueryUnknownItem (s : State) : Host.Outcome State Fault Refusal := .next (s.live State.doQueryUnknownItem)

/-- SWEEP_GROUP (R112). -/
def execSweepGroup (s : State) : Host.Outcome State Fault Refusal := .next (s.live State.doSweepGroup)

/-- RECORD_SWITCH_FRAME (R115). -/
def execRecordSwitchFrame (p : Pos) (s : State) : Host.Outcome State Fault Refusal :=
  .next (s.live (State.doRecordSwitchFrame p))

end Sys2Proof.Machine
end

