-- ==== Sys2Proof/Machine/LifeCycle.lean ====
section
/-! DEFINITION. The station life cycle (chapter 9) and what happens at a block event: cold start, the configuration read,
the entries to LISTEN and ACTIVE, the quiet period and timing good, with the meanings of the commands of those steps. -/

namespace Sys2Proof.Machine

/-! ### Cold start (R153, R154) -/

/-- A low level of 1 µs or more starts a cold start; power-on always does (R153). -/
def ColdStartCause.starts : ColdStartCause → Bool
  | .powerOn => true
  | .resetLow nanos => decide (1000 ≤ nanos)

/-- Every block at its values after cold start; the queue is no part of the station. -/
def State.doColdStart (cause : ColdStartCause) (s : State) : State :=
  if ColdStartCause.starts cause then { State.reset with pending := s.pending } else s

/-- The station number of the straps, STN2 the most significant (R154). -/
def Straps.number (x : Straps) : Station := Fin.ofNat 8 (4 * x.stn2.toNat + 2 * x.stn1.toNat + x.stn0.toNat)

/-- The release from cold start (R153, R154, R156): START, the straps taken, and the first attempt of the read. -/
def State.doColdStartRelease (straps : Straps) (s : State) : State :=
  if s.life.held then
    s.onLife (fun l => { l with held := false, station := .start, number := Straps.number straps, loader := .reading,
                                attempt := 1 })
  else s

/-! ### The configuration read (R156 to R159) -/

/-- Up to nine recovery clocks (R156, step 1). -/
def recoveryActs (clocks : Nat) : List PortAct := List.replicate (min clocks 9) .recoveryClock

/-- What an attempt that fails at a point has put on the port, with the STOP that ends it (R156, R157). -/
def failedActs (clocks : Nat) (point : AckPoint) : List PortAct :=
  recoveryActs clocks ++
    (match point with
     | .recovery => []
     | .addressWrite => [.startCondition, .sendByte 0xA0#8 false]
     | .offset => [.startCondition, .sendByte 0xA0#8 true, .sendByte 0x00#8 false]
     | .addressRead =>
       [.startCondition, .sendByte 0xA0#8 true, .sendByte 0x00#8 true, .repeatedStart, .sendByte 0xA1#8 false])
    ++ [.stopCondition]

/-- Byte n of the image; a byte that the memory does not drive reads 0xFF on the released line. -/
def imageByte (image : List Byte) (n : Nat) : Byte := image.getD n 0xFF#8

/-- What a complete attempt has put on the port: an acknowledge after each of the first ten bytes and none after the
eleventh (R156). -/
def completeActs (clocks : Nat) (image : List Byte) : List PortAct :=
  recoveryActs clocks ++
    ([.startCondition, .sendByte 0xA0#8 true, .sendByte 0x00#8 true, .repeatedStart, .sendByte 0xA1#8 true] ++
      ((List.range 11).map (fun n => .receiveByte (imageByte image n) (decide (n < 10))) ++ [.stopCondition]))

/-- Stage 1 (R158): the tag, and the sum of all 11 bytes modulo 256. -/
def imagePasses (image : List Byte) : Bool :=
  decide (imageByte image 0 = 0x6C#8)
    && decide (((List.range 11).map (fun n => (imageByte image n).toNat)).sum % 256 = 0)

/-- Stage 2 for one item (R158): as read within its range, and otherwise its default; the flag says whether it was taken
as read. -/
def takenItem (image : List Byte) (n low high dflt : Nat) : Nat × Bool :=
  let v := (imageByte image n).toNat
  if low ≤ v ∧ v ≤ high then (v, true) else (dflt, false)

/-- The nine items of an image that passes stage 1, and whether every one was taken as read (9.5, 11.4). -/
def judgeItems (image : List Byte) : Settings × Bool :=
  let d := Config.defaults
  let budget := takenItem image 1 64 255 d.budget
  let heartbeat := takenItem image 2 1 16 d.heartbeatPeriod
  let claim := takenItem image 3 8 128 d.claimLength
  let warm := takenItem image 4 1 8 d.warmUp
  let shadowing := takenItem image 5 0 1 d.shadowing.toNat
  let holdOff := takenItem image 6 4 64 d.shedHoldOff
  let quiet := takenItem image 7 8 255 d.quietPeriod
  let lost := takenItem image 8 10 250 d.streamLostLimit
  let grace := takenItem image 9 1 16 d.shedGrace
  ({ budget := budget.1, heartbeatPeriod := heartbeat.1, claimLength := claim.1, warmUp := warm.1,
     shadowing := decide (shadowing.1 = 1), shedHoldOff := holdOff.1, quietPeriod := quiet.1,
     streamLostLimit := lost.1, shedGrace := grace.1 },
   budget.2 && heartbeat.2 && claim.2 && warm.2 && shadowing.2 && holdOff.2 && quiet.2 && lost.2 && grace.2)

/-- The judgement of the image (R158): the values the blocks use and the loader result. -/
def judgeImage (image : List Byte) : Settings × LoaderResult :=
  if imagePasses image then
    let judged := judgeItems image
    (judged.1, if judged.2 then .image else .partialImage)
  else (Config.defaults, .bad)

/-- The end of the read: the values, the result, and what the port has seen (R156, R157, R158). -/
def Life.readEnded (l : Life) (settings : Settings) (result : LoaderResult) (acts : List PortAct) : Life :=
  { l with settings := settings, loader := .done, result := result, port := l.port ++ acts }

/-- The read given up: every item takes its default, ABSENT, CONFIG_DEFAULTED (R157). -/
def State.readAbandoned (acts : List PortAct) (s : State) : State :=
  (s.onLife (fun l => l.readEnded Config.defaults .absent acts)).raiseFlag .configDefaulted

/-- A missing acknowledge, or SDA low after recovery (R157). -/
def State.doMissingAcknowledge (clocks : Nat) (point : AckPoint) (s : State) : State :=
  if s.life.loader = .reading then
    if s.life.attempt ≤ 1 then
      s.onLife (fun l => { l with loader := .pause, port := l.port ++ failedActs clocks point })
    else s.readAbandoned (failedActs clocks point)
  else s

/-- The end of the 5 ms PAUSE (R157): the second attempt. -/
def State.doLoaderPauseEnd (s : State) : State :=
  if s.life.loader = .pause then s.onLife (fun l => { l with loader := .reading, attempt := 2 }) else s

/-- The first bits of a byte, most significant first (R156), as the port shows a byte that was cut off; none of a
condition, and none of a byte of which no bit was clocked. -/
def PortAct.cutOff (bits : Nat) : PortAct → List PortAct
  | .sendByte b _ => if bits = 0 then [] else [.sendBits ((bitsOf 8 b.toNat).take bits)]
  | .receiveByte b _ => if bits = 0 then [] else [.receiveBits ((bitsOf 8 b.toNat).take bits)]
  | .recoveryClock => []
  | .startCondition => []
  | .sendBits _ => []
  | .repeatedStart => []
  | .receiveBits _ => []
  | .stopCondition => []
  | .heldClock _ => []
  | .releaseLines => []

/-- The level of SDA that the loader sets while SCL is low, before the clock that comes after the first bits of a byte or
that begins a condition (R156): of a byte sent the next bit, of one received the acknowledge after eight bits, and of a
STOP the low level. -/
def PortAct.nextSda (bits : Nat) : PortAct → Bool
  | .sendByte b _ => (bitsOf 8 b.toNat).getD bits true
  | .receiveByte _ ack => decide (bits < 8) || !ack
  | .recoveryClock => true
  | .startCondition => true
  | .sendBits _ => true
  | .repeatedStart => true
  | .receiveBits _ => true
  | .stopCondition => false
  | .heldClock sda => sda
  | .releaseLines => true

/-- What an attempt that is abandoned at a held clock has put on the port (R156, R157): its conditions and bytes up to
there, the bits of the byte in progress, the held clock, and both lines released while SCL is low, with no STOP. -/
def cutActs (x : ReadCut) : List PortAct :=
  let all := completeActs x.clocks x.image
  let act := (all.drop x.acts).headD .stopCondition
  all.take x.acts ++ (act.cutOff x.bits ++ [.heldClock (act.nextSda x.bits), .releaseLines])

/-- SCL held low for more than 10 ms (R157). -/
def State.doSclHeldLow (micros : Nat) (cut : ReadCut) (s : State) : State :=
  if s.life.loader = .reading ∧ 10000 < micros then s.readAbandoned (cutActs cut) else s

/-- One bit on the port, a level of SCL as it stands on the line and one of SDA as the loader drives it at a time, true
released: SDA takes its level while SCL is low and is read at SCL's rise (R156). -/
def bitLevels (sda : Bool) : List (Bool × Bool) := [(false, sda), (true, sda)]

/-- SCL and SDA for each thing the loader puts on the port (R156, R157): a byte sent is its eight bits,
most significant first, and a ninth clock with SDA released; a byte received is eight clocks with SDA released and the
acknowledge; a START is a fall of SDA and a STOP a rise of SDA while SCL is high. A held clock stays in its low phase; the
loader releases SDA there, and SCL rises when the memory lets go of it. -/
def PortAct.levels : PortAct → List (Bool × Bool)
  | .recoveryClock => bitLevels true
  | .startCondition => [(true, true), (true, false)]
  | .sendByte b _ => (bitsOf 8 b.toNat).flatMap bitLevels ++ bitLevels true
  | .sendBits bits => bits.flatMap bitLevels
  | .repeatedStart => [(false, true), (true, true), (true, false)]
  | .receiveByte _ ack => (List.replicate 8 true).flatMap bitLevels ++ bitLevels (!ack)
  | .receiveBits bits => (bits.map (fun _ => true)).flatMap bitLevels
  | .stopCondition => [(false, false), (true, false), (true, true)]
  | .heldClock sda => [(false, sda)]
  | .releaseLines => [(false, true), (true, true)]

/-- SCL and SDA over the configuration read. -/
def Life.portLevels (l : Life) : List (Bool × Bool) := l.port.flatMap PortAct.levels

/-- The end of a complete attempt (R158). -/
def State.doConfigurationReadEnd (clocks : Nat) (image : List Byte) (s : State) : State :=
  if s.life.loader = .reading then
    let judged := judgeImage image
    let s := s.onLife (fun l => l.readEnded judged.1 judged.2 (completeActs clocks image))
    if judged.2 = .image then s else s.raiseFlag .configBad
  else s

/-! ### The entries to LISTEN and ACTIVE (R155, R160, R161, R164) -/

/-- Entry to LISTEN is due in START: timing good and the read ended, and the frame's block event taken (R155). -/
def State.listenDue (s : State) : Bool :=
  decide (s.life.station = .start) && decide (s.hwi.timing = .good) && decide (s.life.loader = .done)
    && decide (s.hwi.blockDue = none)

def State.doEnterListen (s : State) : State := if s.listenDue then s.enterListen else s

/-- The quiet-count judgement of a block event in RETREAT (R164). -/
def State.doQuietPeriodEnd (s : State) : State :=
  if s.life.station = .retreat ∧ s.life.quietJudge then
    let s := s.onLife (fun l => { l with quietJudge := false })
    if s.life.settings.quietPeriod ≤ s.life.quietCount ∧ s.hwi.timing = .good then s.enterListen else s
  else s

/-- A waiting fresh PRESENT as the entry to ACTIVE leaves it: fresh clear, active set (R149). -/
def Notice.activated : Notice → Notice
  | .present load headroom fc true _ => .present load headroom fc false true
  | n => n

/-- A PRESENT with the fresh flag. -/
def Notice.isFresh : Notice → Bool
  | .present _ _ _ fresh _ => fresh
  | .lost _ _ => false
  | .taken _ _ _ _ => false
  | .clear _ _ => false
  | .offer _ _ _ _ _ => false
  | .bid _ _ _ _ => false
  | .shed _ _ _ => false
  | .hold _ _ _ _ _ _ _ => false
  | .query _ _ _ => false
  | .report _ _ _ => false

def OutRequest.activated : OutRequest → OutRequest
  | .place n => .place n.activated
  | .remove r => .remove r

/-- A fresh PRESENT in the outbox is replaced by the same one as the PRESENT of ACTIVE (R149). One that is in its window
is sent as it stands there, and the replacing one waits for it to leave the window (R103, log 28). -/
def NoticeCtl.activated (k : NoticeCtl) : NoticeCtl :=
  let replacing := (k.outbox.filter (fun e => k.sends e.notice && e.notice.isFresh)).map
    (fun e => OutRequest.place e.notice.activated)
  { k with
    outbox := k.outbox.map (fun e => if k.sends e.notice then e else { e with notice := e.notice.activated })
    inWindow := k.inWindow.map (fun w => { w with waiting := replacing ++ w.waiting.map OutRequest.activated }) }

/-- Entry to ACTIVE (R161, R149). -/
def State.enterActive (s : State) : State :=
  ((s.onLife (fun l => { l with station := .active })).onPool (fun q => { q with freshPending := false })).onNotice
    NoticeCtl.activated

/-- The Pool Controller's decisions of the block event have all been taken, or wait for the entry to ACTIVE (R161). -/
def Pool.entryOpen (q : Pool) : Bool := decide (q.stage = .idle) || decide (q.stage = .entry)

/-- The entry to ACTIVE is due (R131, R161): the listen count has reached 72, the map-complete flag is still clear, and
the decisions of the block event do not stand part-way, as taken in LISTEN. -/
def State.mapDue (s : State) : Bool :=
  decide (s.life.station = .listen) && decide (s.mapu.listenCount = 72) && !s.mapu.mapComplete && s.pool.entryOpen

/-- The map is complete (R131): the flag is set and the station enters ACTIVE; the block event's decisions follow where
they waited for the entry (R161, log 4). -/
def State.doMapComplete (s : State) : State :=
  if s.mapDue then
    let s := (s.onMap (fun m => { m with mapComplete := true })).enterActive
    if s.pool.stage = .entry then (s.onPool (fun q => { q with stage := .idle })).poolDecisions else s
  else s

/-! ### Timing good (R78) -/

/-- The proving run has reached 16 and the frame's block event has been taken. -/
def Hwi.provedDue (h : Hwi) : Bool :=
  decide (h.timing = .prove) && decide (h.provingRun = 16) && decide (h.blockDue = none)

def State.doTimingGood (s : State) : State :=
  if s.hwi.provedDue then s.onHwi (fun h => { h with timing := .good }) else s

/-! ### Block events (R77, R80) -/

/-- The warm-up of a WARMING context at a block event (R11). -/
def Context.warmUpStep (x : Context) : Context :=
  if x.state = .warming then { x with warmUp := x.warmUp.map (fun n => n - 1) } else x

/-- What a block event brings to the contexts: the warm-ups, and the uplink's counts (R11, R20, R40), context by context
in rising order of number, so that where several begin a stream-lost episode their REPORTs are placed in that order; R41
gives none (log 34). -/
def State.contextBlocks (s : State) : State :=
  let s := s.onTable (fun t => { t with contexts := Table.mapValues Context.warmUpStep t.contexts })
  s.ctxNums.foldl (fun s c => s.uplinkBlock c) s

/-- The quiet count of RETREAT, whose judgement follows (R164). -/
def State.quietBlock (s : State) : State :=
  if s.life.station = .retreat then
    s.onLife (fun l => { l with quietCount := min (l.quietCount + 1) 255, quietJudge := true })
  else s

/-- The listen count of LISTEN (R131). -/
def State.listenBlock (s : State) : State :=
  if s.life.station = .listen then s.onMap (fun m => { m with listenCount := min (m.listenCount + 1) 72 }) else s

/-- The roster's ageing, before the loss examination or left for after it (R130, R151), and the Pool Controller's
decisions, or their wait for the entry to ACTIVE (R133, R161). -/
def State.poolBlock (order : BlockOrder) (s : State) : State :=
  if s.participates then
    let s := if order.agesFirst then s.ageRoster else s.onPool (fun q => { q with ageingDue := true })
    if s.mapDue ∧ order.entryFirst then s.onPool (fun q => { q with stage := .entry }) else s.poolDecisions
  else s

/-- A block event in every block that counts blocks (R77): the late count (R73), the contexts, the quiet count, the
listen count, the roster and the Pool Controller. The Pool Controller's decisions come before the change to STANDBY of a
context whose warm-up this block event ends (WARM_UP_END), which R11 and R133 leave open (log 31). -/
def State.blockEvent (order : BlockOrder) (s : State) : State :=
  ((((s.onEngines (fun g => { g with lateCount := 0 })).contextBlocks).quietBlock).listenBlock).poolBlock order

/-- The block event of this frame is of a kind and has not been taken. -/
def State.takesBlock (s : State) (k : BlockMark) : Bool := decide (s.hwi.blockDue = some k)

def State.doBlockEvent (order : BlockOrder) (s : State) : State :=
  if s.takesBlock .marked then (s.onHwi (fun h => { h with blockDue := none })).blockEvent order else s

/-- A bridged block event is a block event for every block, and is counted (R80). -/
def State.doBridgedBlockEvent (order : BlockOrder) (s : State) : State :=
  if s.takesBlock .bridged then
    ((s.onHwi (fun h => { h with blockDue := none })).count .bridgedBlockMarkers).blockEvent order
  else s

/-! ### The meanings -/

/-- COLD_START (R153). -/
def execColdStart (cause : ColdStartCause) (s : State) : Host.Outcome State Fault Refusal :=
  .next (s.doColdStart cause)

/-- COLD_START_RELEASE (R153, R154, R156). -/
def execColdStartRelease (straps : Straps) (s : State) : Host.Outcome State Fault Refusal :=
  .next (s.doColdStartRelease straps)

/-- MISSING_ACKNOWLEDGE (R157). -/
def execMissingAcknowledge (clocks : Nat) (point : AckPoint) (s : State) : Host.Outcome State Fault Refusal :=
  .next (s.live (State.doMissingAcknowledge clocks point))

/-- LOADER_PAUSE_END (R157). -/
def execLoaderPauseEnd (s : State) : Host.Outcome State Fault Refusal := .next (s.live State.doLoaderPauseEnd)

/-- SCL_HELD_LOW (R157). -/
def execSclHeldLow (hold : ClockHold) (s : State) : Host.Outcome State Fault Refusal :=
  .next (s.live (State.doSclHeldLow hold.micros hold.cut))

/-- CONFIGURATION_READ_END (R158). -/
def execConfigurationReadEnd (clocks : Nat) (image : List Byte) (s : State) : Host.Outcome State Fault Refusal :=
  .next (s.live (State.doConfigurationReadEnd clocks image))

/-- TIMING_GOOD (R78). -/
def execTimingGood (s : State) : Host.Outcome State Fault Refusal := .next (s.live State.doTimingGood)

/-- ENTER_LISTEN (R155, R160). -/
def execEnterListen (s : State) : Host.Outcome State Fault Refusal := .next (s.live State.doEnterListen)

/-- QUIET_PERIOD_END (R164, R160). -/
def execQuietPeriodEnd (s : State) : Host.Outcome State Fault Refusal := .next (s.live State.doQuietPeriodEnd)

/-- MAP_COMPLETE (R131, R161). -/
def execMapComplete (s : State) : Host.Outcome State Fault Refusal := .next (s.live State.doMapComplete)

/-- BLOCK_EVENT (R77). -/
def execBlockEvent (order : BlockOrder) (s : State) : Host.Outcome State Fault Refusal :=
  .next (s.live (State.doBlockEvent order))

/-- BRIDGED_BLOCK_EVENT (R80). -/
def execBridgedBlockEvent (order : BlockOrder) (s : State) : Host.Outcome State Fault Refusal :=
  .next (s.live (State.doBridgedBlockEvent order))

end Sys2Proof.Machine
end

