-- ==== Sys2Proof/Machine/Window.lean ====
section
/-! DEFINITION. The control window (chapter 6, R85 to R98, R103, R104): contention bit by bit, the check and the reply
bits, the judgement, and its effects on the outbox, the collision run and the intake. -/

namespace Sys2Proof.Machine

/-! ### The lane (R85, R87) -/

/-- The value the station samples in control bit-time k when it drives a level (true is released): the wired-AND of the
own and the others' levels, inverted where the station's own sample is disturbed (R90). -/
def laneSample (others noise : List Bool) (k : Nat) (own : Bool) : Bool :=
  (own && others.getD k true) ^^ noise.getD k false

/-- The samples of n control bit-times from k on with the lane released by the station. -/
def listenFrom (others noise : List Bool) (k n : Nat) : List Bool :=
  (List.range n).map (fun i => laneSample others noise (k + i) true)

/-- What a sender meets while it sends (R88 to R90): the samples, the levels it put on the lane, and the control bit-time
of its first mismatch. -/
structure Contention where
  heard : List Bool
  out : List Bool
  mismatch : Option Nat
deriving DecidableEq, Repr

/-- Sending bits from control bit-time k on: at the first mismatch the sender releases the lane and goes on listening. The
start bit is driven and not compared (R88). -/
def contend (others noise : List Bool) : Nat → List Bool → Contention
  | _, [] => { heard := [], out := [], mismatch := none }
  | k, b :: bs =>
    let v := laneSample others noise k b
    if v = b ∨ k = 0 then
      let rest := contend others noise (k + 1) bs
      { heard := v :: rest.heard, out := b :: rest.out, mismatch := rest.mismatch }
    else
      { heard := v :: listenFrom others noise (k + 1) bs.length,
        out := b :: List.replicate bs.length true, mismatch := some k }

/-- The grade of a notice in its window (R88): a BID's is the load, capped at 255; any other's is 0. -/
def State.grade (s : State) : Notice → BitVec 8
  | .bid _ _ _ _ => capped255 s.load
  | .lost _ _ => 0
  | .taken _ _ _ _ => 0
  | .clear _ _ => 0
  | .offer _ _ _ _ _ => 0
  | .shed _ _ _ => 0
  | .hold _ _ _ _ _ _ _ => 0
  | .present _ _ _ _ _ => 0
  | .query _ _ _ => 0
  | .report _ _ _ => 0

/-- The own station number as a sender number (R154). -/
def State.ownSender (s : State) : BitVec 4 := BitVec.ofNat 4 s.own.val

/-- The head entry of the outbox (R88). -/
def State.headEntry (s : State) : Option OutEntry := s.notice.outbox.head?

/-- Control bit-times 0 to 64 of the window as the station meets them: it sends its head entry, or listens. -/
def State.meetWindow (s : State) (others noise : List Bool) : Contention :=
  match s.headEntry with
  | some e => contend others noise 0 (windowBits (encodeNotice e.notice (s.grade e.notice) s.ownSender))
  | none => { heard := listenFrom others noise 0 65, out := List.replicate 65 true, mismatch := none }

/-! ### The judgement (R91 to R93) -/

/-- How a window ends (R93). -/
inductive Judgement where
  | idle
  | passed
  | rejected
  | held
deriving DecidableEq, Repr

/-- A window as the station has met and judged it. -/
structure Window where
  /-- The samples of control bit-times 1 to 56. -/
  bits : List Bool
  mismatch : Option Nat
  /-- The station carried the window (R88). -/
  carried : Bool
  /-- The check failed at the station as a receiver (R91). -/
  checkFailed : Bool
  holdDriven : Bool
  judgement : Judgement
  out : List Bool
deriving DecidableEq, Repr

/-- A mismatch in the arbitration field (R89). -/
def Window.lostArbitration (w : Window) : Bool :=
  match w.mismatch with
  | some k => decide (1 ≤ k) && decide (k ≤ 16)
  | none => false

/-- A mismatch after the arbitration field (R90). -/
def Window.collided (w : Window) : Bool :=
  match w.mismatch with
  | some k => decide (17 ≤ k)
  | none => false

/-- R93, from the start bit and the reply field as sampled. -/
def judgeReply (start reject hold : Bool) : Judgement :=
  if start then .idle else if reject = false then .rejected else if hold = false then .held else .passed

/-- The window as met with the lane, the intake holding n records at control bit-time 66. -/
def State.window (s : State) (n : Nat) (others noise : List Bool) : Window :=
  let met := s.meetWindow others noise
  let start := met.heard.getD 0 true
  let bits := (met.heard.drop 1).take 56
  let carried := s.headEntry.isSome && decide (met.mismatch = none)
  let checkFailed := !start && !carried && decide ((met.heard.drop 57).take 8 ≠ bitsOf 8 (crc8 bits).toNat)
  let holdDriven := decide (8 ≤ n)
  { bits := bits, mismatch := met.mismatch, carried := carried, checkFailed := checkFailed, holdDriven := holdDriven,
    judgement := judgeReply start (laneSample others noise 65 (!checkFailed)) (laneSample others noise 66 (!holdDriven)),
    out := met.out ++ ([!checkFailed, !holdDriven] ++ List.replicate 5 true) }

/-! ### What a passed notice is (R98, R104) -/

/-- The sender number heard. -/
def Window.sender (w : Window) : BitVec 4 := BitVec.ofNat 4 (bitField w.bits 12 4)

/-- A passed notice with the own sender number that the station did not carry (R98). -/
def Window.foreignOwn (w : Window) (own : BitVec 4) : Bool :=
  decide (w.judgement = .passed) && !w.carried && decide (w.sender = own)

/-- The notice a passed window brings; nothing for one that R98 has ignored. -/
def Window.heard (w : Window) (own : BitVec 4) : Option Heard :=
  if w.judgement = .passed ∧ w.foreignOwn own = false then
    (decodeNotice w.bits).map (fun n =>
      { sender := n.1, grade := BitVec.ofNat 8 (bitField w.bits 4 8), notice := n.2, own := w.carried })
  else none

/-- A passed notice that yields an empty mark (R98). -/
def Window.misrouted (w : Window) (own : BitVec 4) : Bool :=
  decide (w.judgement = .passed) && decide (w.heard own = none)

/-! ### Effects -/

/-- The collision run as the collision of this window leaves it (R90). -/
def State.runAfterCollision (s : State) (w : Window) : Nat := s.notice.collisionRun + w.collided.toNat

/-- The third collision, counted with own-number notices, at the mismatch (R90). -/
def State.duplicateEarly (s : State) (w : Window) : Bool := w.collided && decide (3 ≤ s.runAfterCollision w)

/-- The third such event at the judgement, an own-number notice (R98). -/
def State.duplicateLate (s : State) (w : Window) : Bool :=
  w.foreignOwn s.ownSender && decide (3 ≤ s.runAfterCollision w + 1)

/-- The carried notice was rejected or held (R94). -/
def Window.refused (w : Window) : Bool :=
  w.carried && (decide (w.judgement = .rejected) || decide (w.judgement = .held))

/-- The rejection brings the head's retry count to 32 (R95). -/
def State.abandons (s : State) (w : Window) : Bool :=
  w.refused && (match s.headEntry with
    | some e => decide (32 ≤ e.retries + 1)
    | none => false)

/-- The entry in its window, which the outbox holds until its outcome (R103). -/
def NoticeCtl.sentEntry (k : NoticeCtl) : Option OutEntry := k.outbox.find? (fun e => k.sends e.notice)

/-- The entry in its window leaves the outbox. -/
def NoticeCtl.dropSent (k : NoticeCtl) : NoticeCtl :=
  { k with outbox := k.outbox.filter (fun e => !(k.sends e.notice)) }

/-- The retry count of the entry in its window increments. -/
def NoticeCtl.retrySent (k : NoticeCtl) : NoticeCtl :=
  { k with outbox := k.outbox.map (fun e => if k.sends e.notice then { e with retries := e.retries + 1 } else e) }

/-- The carried notice succeeds (R94): the entry leaves, the collision run becomes 0, and a fresh PRESENT clears fresh
pending (R149). -/
def State.noticeSucceeds (s : State) : State :=
  match s.notice.sentEntry with
  | none => s
  | some e =>
    let s := (s.onNotice (fun k => { k.dropSent with collisionRun := 0 })).count .noticesSent
    if e.notice.isFresh then s.onPool (fun q => { q with freshPending := false }) else s

/-- The carried notice is rejected or held (R94, R95). -/
def State.noticeRefused (s : State) : State :=
  match s.notice.sentEntry with
  | none => s
  | some e =>
    let s := s.count .rejectsSeen
    if 32 ≤ e.retries + 1 then (s.onNotice NoticeCtl.dropSent).departed e.notice else s.onNotice NoticeCtl.retrySent

/-- A change made only where a condition holds. -/
def State.onlyIf (c : Bool) (f : State → State) (s : State) : State := if c then f s else s

/-- One more event of the collision run (R90, R98). -/
def State.runOn (s : State) : State := s.onNotice (fun k => { k with collisionRun := k.collisionRun + 1 })

/-- The HCLK count at the sample of a window's first mismatch (R85). -/
def Window.mismatchCount (w : Window) : Nat :=
  match w.mismatch with
  | some k => 16 * k + 12
  | none => 0

/-- What the window does to the outbox, the collision run and the counters (R89 to R91, R94, R95, R98), before its entry
leaves it; the retreat of a third collision releases SO and PO at its mismatch (R84, R90). -/
def State.windowEffect (w : Window) (s : State) : State :=
  let own := s.ownSender
  if s.duplicateEarly w then (s.cutSlots w.mismatchCount s.allContexts).count .collisions
  else
    (((((((s.onlyIf w.lostArbitration (State.count .arbitrationsLost)).onlyIf w.collided (State.count .collisions)).onlyIf
      w.collided State.runOn).onlyIf w.checkFailed (State.count .checkFailures)).onlyIf (w.misrouted own)
      (State.count .misrouted)).onlyIf (w.foreignOwn own) State.runOn).onlyIf w.refused State.noticeRefused).onlyIf
      (w.carried && decide (w.judgement = .passed)) State.noticeSucceeds

/-- The levels the station put on the lane in the window (R85): a station that retreats at a mismatch drives no reply. -/
def State.windowOut (s : State) (w : Window) : List Bool :=
  if s.duplicateEarly w then w.out.take 65 ++ List.replicate 7 true else w.out

/-- The window begins (R88, R103): the head entry is in its window. -/
def State.beginWindow (s : State) : State :=
  match s.headEntry with
  | some e => s.onNotice (fun k => k.begins e.notice)
  | none => s

/-- A window of which only the first n control bit-times came about (R107): what they brought, with no judgement. -/
def Window.cutAt (w : Window) (n : Nat) : Window :=
  { w with
    mismatch := w.mismatch.filter (fun k => decide (k < n))
    carried := false
    checkFailed := w.checkFailed && decide (65 ≤ n)
    judgement := .idle
    out := w.out.take n ++ List.replicate (72 - n) true }

/-- The record of the window joins the tail of the intake, unless the station drove hold (R104), which it does when
the intake holds 8 records (R92), or has retreated before the end of the window (R107). -/
def State.enterRecord (w : Window) (s : State) : State :=
  if w.holdDriven ∨ 8 ≤ s.mapu.intake.length ∨ s.participates = false then s
  else
    s.onMap (fun m =>
      { m with intake := m.intake ++ [{ stamp := s.hwi.frameCount, heard := w.heard s.ownSender }] })

/-- The end of the window (R90, R95, R98, R104): a retreat, or the record. The flag of the retreat's cause is raised
before the retreat, so that its REPORT meets the outbox and a full one counts an outbox drop; R173 leaves open which is
taken first (log 29). -/
def State.endWindow (dup abandoned : Bool) (w : Window) (s : State) : State :=
  if dup then (s.raiseFlag .duplicateNumber).retreat .duplicate
  else if abandoned then (s.raiseFlag .noticeAbandoned).retreat .abandoned
  else s.enterRecord w

/-- The HCLK count at the sample of control bit-time 66: bit-time 16 × 66 + 12 (R85). -/
def judgementCount : Nat := 1068

/-- The window of this frame is over, at the edge of its last sample (R85), where the clock watch began anew (R81). -/
def State.closeWindowOfFrame (out : List Bool) (s : State) : State :=
  (s.onHwi (fun h =>
    { h with clOut := out, windowTaken := true, hclkCount := judgementCount, clockWatch := 0 })).onMap
    (fun m => { m with turn := false })

end Sys2Proof.Machine
end

