-- ==== Sys2Proof/Machine/Frame.lean ====
section
/-! DEFINITION. The timing lines (chapter 5): settling the steps of a frame that fell due, frame events, bridged frame
events, the losses of timing, and the control window of the frame, with the meanings of those commands. -/

namespace Sys2Proof.Machine

/-! ### The steps that are due in a frame (log 1) -/

/-- No step of context e is due. -/
def State.ctxQuiet (s : State) (e : CtxNum × Context) : Bool :=
  !(s.switchDue e.2) && !e.2.warmUpOver && !e.2.due.judgement && !e.2.due.completion && !e.2.due.need
    && !(s.closeDue e.2) && !(s.emissionDue e.2)

/-- The record's switch frame does not fall in this frame. -/
def State.recQuiet (s : State) (e : Pos × PosRecord) : Bool := decide (e.2.switchFrame ≠ some s.hwi.frameCount)

/-- Running job e neither completes nor is dropped in this frame. -/
def State.engineQuiet (s : State) (e : EngineNum × Running) : Bool :=
  decide (e.2.doneAt ≠ s.hwi.frameCount) && decide (e.2.job.deadline ≠ s.hwi.frameCount)

/-- Nothing of the engines is due: no completion, no drop, no take-up. -/
def State.enginesQuiet (s : State) : Bool :=
  s.engines.running.all s.engineQuiet && s.engines.queue.all (fun j => decide (j.deadline ≠ s.hwi.frameCount))
    && (decide (s.engines.queue = []) || decide (Table.lowestFree s.engines.running = none))

/-- The Map Unit has nothing to act on in this frame. -/
def State.mapQuiet (s : State) : Bool :=
  !s.mapActs || (decide (s.mapu.sweep = none) && decide (s.mapu.intake = []))

/-- No judgement of the quiet count is due. -/
def State.quietJudged (s : State) : Bool := !(decide (s.life.station = .retreat) && s.life.quietJudge)

/-- No step of the frame is due. -/
def State.quiet (s : State) : Bool :=
  s.table.contexts.all s.ctxQuiet && s.mapu.map.all s.recQuiet && s.enginesQuiet && decide (s.hwi.blockDue = none)
    && !s.hwi.provedDue && !s.listenDue && s.quietJudged && !s.mapDue && decide (s.pool.stage = .idle) && s.mapQuiet

/-! ### Taking the steps that are due, in one order of the permitted ones (log 1) -/

/-- A step of each context that is not FREE. -/
def State.forCtxs (f : CtxNum → State → State) (s : State) : State := s.ctxNums.foldl (fun s c => f c s) s

def State.completeEngines (s : State) : State :=
  (List.finRange 4).foldl (fun s e => (s.doDecodeCompletion e).doEncodeCompletion e) s

def State.dropLate (s : State) : State :=
  s.forCtxs (fun c s => (s.doJobDropped c .decodeSide).doJobDropped c .encode)

def State.receive (s : State) : State :=
  s.forCtxs (fun c s => ((s.doMarkerJudgement c).doParcelCompletion c).doNeed c)

def State.emit (s : State) : State :=
  (s.forCtxs (fun c s => s.doEmissionStart c)).forCtxs (fun c s => s.doBlockClose c)

/-- The order taken where the queue names none: ageing before the examination, entry before the decisions. -/
def BlockOrder.canonical : BlockOrder := { agesFirst := true, entryFirst := true }

def State.takeBlock (s : State) : State :=
  (s.doBlockEvent BlockOrder.canonical).doBridgedBlockEvent BlockOrder.canonical

def State.takeLife (s : State) : State :=
  (((s.doTimingGood.forCtxs (fun c s => s.doWarmUpEnd c)).doEnterListen).doQuietPeriodEnd).doMapComplete

/-- The decisions of the block event that the Pool Controller still has to take; where they came before the entry to
ACTIVE, the entry follows them (R161). -/
def State.takePool (s : State) : State := s.doShedDecision.doDeclareLost.doHeartbeat.doMapComplete

/-- The Map Unit's turn: the rule of the head record's kind, or the next group of a sweep. -/
def State.mapTurn (s : State) : State :=
  if s.mapu.sweep.isSome then s.doSweepGroup
  else
    match s.mapu.intake.head? with
    | none => s
    | some r =>
      match r.heard with
      | none => s.doApplyEmptyMark
      | some h =>
        match h.notice with
        | .lost _ _ => s.doApplyLost
        | .taken _ _ _ _ => s.doApplyTaken
        | .clear _ _ => s.doApplyClear
        | .offer _ _ _ _ _ => s.doApplyOffer
        | .bid _ _ _ _ => s.doApplyBid
        | .shed _ _ _ => s.doApplyShed
        | .hold _ _ _ _ _ _ _ => s.doApplyHold
        | .present _ _ _ _ _ => s.doApplyPresent
        | .report _ _ _ => s.doApplyReport
        | .query _ _ item =>
          if item = 0x01#8 then s.doQueryStationSummary
          else if item = 0x02#8 then s.doQueryFaultFlags
          else if item = 0x03#8 then s.doQueryClearFlags
          else if item = 0x40#8 then s.doQueryPositionStatus
          else if (counterOfItem item).isSome then s.doQueryCounter
          else s.doQueryUnknownItem

/-- Every step of the frame that is due. A take-up that is still open comes before the next job is posted (postJob), before
the Map Unit's turn, and after it for an engine that a release has left idle (R66, R70). -/
def State.settleAll (s : State) : State :=
  (((((((((s.takeSwitchFrames).completeEngines).dropLate).receive).emit).takeBlock).takeLife).takePool).takeUps).mapTurn.takeUps

/-- The frame's steps that the queue has not named are taken; nothing is to take in a quiet state. -/
def State.settle (s : State) : State := if s.quiet then s else s.settleAll

/-- A command of the timing lines: the steps still due in the frame that ends are taken, and then, where its condition
holds, its own work is done. -/
def State.atTiming (ok : Hwi → Bool) (f : State → State) (s : State) : State :=
  if ok s.settle.hwi then f s.settle else s

/-! ### Frame events (R75 to R80, R83) -/

/-- The content of SI slot p and PI nibble p; a lane that is not driven reads 0xFF and 0xF (5.7). -/
def Lanes.sample (l : Lanes) (p : Pos) : Sample := l.si.getD p.val 0xFF#8
def Lanes.nibble (l : Lanes) (p : Pos) : Nibble := l.pi.getD p.val 0xF#4

/-- What a frame event with block index b brings to a context (R19, R43, R31, R58): the inward nibble and sample are
handed over, the outward sample and nibble presented, and the block index is to be compared with φ (R44), but for the
frame after a step toward later, whose block closes 161 frames after its predecessor (R46). -/
def Context.frameStep (b : BlockIndex) (l : Lanes) (x : Context) : Context :=
  let x := { x with due := { Due.none with closeCheck := !x.steppedLater }, steppedLater := false }
  Context.presentNibble (Context.presentSample
    (Context.appendSample (Lanes.sample l x.position) (Context.takeNibble b (Lanes.nibble l x.position) x)))

/-- The block index that a frame event reads for its contexts; no context exists while it is undefined (log 21). -/
def Hwi.index (h : Hwi) : BlockIndex := h.blockIndex.getD 0

/-- The frame event in every block: the contexts, the Map Unit's turn and the control window of the frame. Each receiver
takes its nibble with the frame event, before the block event of a frame of block index 0, so a marker found there is
not counted missing at that block event; R20 leaves the order open (log 30). What contexts drove before their release is
of the frame that ends. -/
def State.frameBegins (l : Lanes) (s : State) : State :=
  let b := s.hwi.index
  let s := { s with released := [] }
  (s.onTable (fun t => { t with contexts := Table.mapValues (Context.frameStep b l) t.contexts })).onMap
    (fun m => { m with turn := true })

/-- What BSYNC does at a frame event (R77, R78, R80). -/
inductive BsyncVerdict where
  /-- The block index after it, whether the proving run counts a block, and the block event it makes. -/
  | goes (index : Option BlockIndex) (regular : Bool) (mark : Option BlockMark)
  /-- The proving run is abandoned, or timing is lost. -/
  | fault
deriving DecidableEq, Repr

/-- BSYNC judged at a frame event in GOOD (R80). -/
def Hwi.bsyncGood (h : Hwi) (bsync : Bool) : BsyncVerdict :=
  let due := decide (h.index = 159)
  if bsync then (if due then .goes (some 0) false (some .marked) else .fault)
  else if due then (if h.blockMisses = 0 then .goes (some 0) false (some .bridged) else .fault)
  else .goes (some (BlockIndex.plus h.index 1)) false none

/-- BSYNC judged at a frame event in PROVE (R77, R78). -/
def Hwi.bsyncProve (h : Hwi) (bsync : Bool) : BsyncVerdict :=
  match h.blockIndex with
  | none => if bsync then .goes (some 0) false (some .marked) else .goes none false none
  | some b =>
    if bsync then (if b = 159 then .goes (some 0) true (some .marked) else .fault)
    else if b = 159 then .fault
    else .goes (some (BlockIndex.plus b 1)) false none

def Hwi.bsyncVerdict (h : Hwi) (bsync : Bool) : BsyncVerdict :=
  if h.timing = .good then h.bsyncGood bsync else h.bsyncProve bsync

/-- The block marker misses after a frame event in GOOD (R80). -/
def blockMissesAfter (mark : Option BlockMark) (misses : Nat) : Nat :=
  match mark with
  | some .marked => 0
  | some .bridged => misses + 1
  | none => misses

/-- The HWI at a frame event (R75, R77, R78, R80): misses is the number of frame marker misses after it. -/
def Hwi.advance (h : Hwi) (misses : Nat) (index : Option BlockIndex) (regular : Bool) (mark : Option BlockMark) : Hwi :=
  { h with
    hclkCount := 0
    clockWatch := 0
    frameCount := h.frameCount + 1
    blockIndex := index
    provingRun := if regular then h.provingRun + 1 else h.provingRun
    frameMisses := misses
    blockMisses := blockMissesAfter mark h.blockMisses
    blockDue := mark
    windowTaken := false }

/-- A frame event with a verdict on BSYNC that is no fault. -/
def State.produceFrame (misses : Nat) (index : Option BlockIndex) (regular : Bool) (mark : Option BlockMark)
    (l : Lanes) (s : State) : State :=
  (s.onHwi (fun h => h.advance misses index regular mark)).frameBegins l

/-- FSYNC at the expected count (R75): a frame event, unless BSYNC ends GOOD there (R80). In PROVE a wrong BSYNC comes
with the frame event that FSYNC makes, so the frame count advances and the reference is then discarded (log 10). -/
def State.markedFrame (bsync : Bool) (l : Lanes) (s : State) : State :=
  match s.hwi.bsyncVerdict bsync with
  | .goes index regular mark => s.produceFrame 0 index regular mark l
  | .fault =>
    if s.hwi.timing = .good then s.loseTimingAtFrame
    else (s.onHwi (fun h => { h with frameCount := h.frameCount + 1, hclkCount := 0, clockWatch := 0 })).abandonProving

def State.doFrameEvent (bsync : Bool) (l : Lanes) (s : State) : State :=
  s.atTiming (fun h => decide (h.timing ≠ .seek)) (State.markedFrame bsync l)

/-- FSYNC absent in GOOD for the first or second time in a row (R79): a bridged frame event, counted, unless BSYNC ends
GOOD there (R80, log 11). -/
def State.bridgedFrame (bsync : Bool) (l : Lanes) (s : State) : State :=
  match s.hwi.bsyncVerdict bsync with
  | .goes index regular mark =>
    (s.produceFrame (s.hwi.frameMisses + 1) index regular mark l).count .bridgedFrameMarkers
  | .fault => s.loseTimingAtFrame

def State.doBridgedFrameEvent (bsync : Bool) (l : Lanes) (s : State) : State :=
  s.atTiming (fun h => decide (h.timing = .good) && decide (h.frameMisses < 2)) (State.bridgedFrame bsync l)

/-- The third consecutive FSYNC absent (R79). -/
def State.doFrameMarkerMiss (s : State) : State :=
  s.atTiming (fun h => decide (h.timing = .good) && decide (2 ≤ h.frameMisses)) State.loseTimingAtFrame

/-- The first FSYNC sampled in SEEK (R75, R77, R78): the frame reference, a frame event, PROVE. -/
def Hwi.refer (h : Hwi) (bsync : Bool) : Hwi :=
  { h with
    timing := .prove
    hclkCount := 0
    clockWatch := 0
    frameCount := h.frameCount + 1
    blockIndex := if bsync then some 0 else none
    provingRun := 0
    frameMisses := 0
    blockMisses := 0
    blockDue := if bsync then some .marked else none
    windowTaken := false }

def State.doFrameReferenceSet (bsync : Bool) (s : State) : State :=
  s.atTiming (fun h => decide (h.timing = .seek))
    (fun s => ({ s with released := [] }.onHwi (fun h => h.refer bsync)).onMap (fun m => { m with turn := true }))

/-! ### Losses (R78, R79, R81, R82) -/

/-- FSYNC absent at the expected count in PROVE (R78). -/
def State.doFsyncAbsentInProve (s : State) : State :=
  s.atTiming (fun h => decide (h.timing = .prove)) (fun s => s.atEdge.abandonProving)

/-- An FSYNC sampled at edge e, other than the expected count (R75, R78): PROVE is abandoned, GOOD disregards it. -/
def State.doStrayFsync (e : Nat) (s : State) : State :=
  if 1 ≤ e ∧ e ≤ 2047 then
    s.atTiming (fun h => decide (h.timing ≠ .seek)) (fun s =>
      let s := s.onHwi (fun h => { h with hclkCount := e, clockWatch := 0 })
      if s.hwi.timing = .prove then s.abandonProving else s)
  else s

/-! ### The control window of the frame (R93, R103, log 6) -/

/-- A window is to come in this frame: there is a frame reference, and it has not been taken. -/
def Hwi.windowAhead (h : Hwi) : Bool := decide (h.timing ≠ .seek) && !h.windowTaken

/-- The state at control bit-time 0: a station that does not take part in the control lane takes the steps of the frame
first, since an entry to LISTEN at the frame event comes before the window (R86, R160). -/
def State.atWindow (s : State) : State := if s.participates then s else s.settle

/-- The frame's steps that are still due, with the head entry in its window, so that a request that reaches it waits
(R103); s is the state at control bit-time 0. -/
def State.inWindow (s : State) : State := s.beginWindow.settle

/-- The window of a station that takes part in it, as it meets and judges it. -/
def State.metWindow (others noise : List Bool) (s : State) : Window :=
  s.window s.inWindow.mapu.intake.length others noise

/-- The window of a station that takes part in it: its outcome reaches the entry in its window, which then leaves it. -/
def State.takeWindow (others noise : List Bool) (s : State) : State :=
  let w := s.metWindow others noise
  let dup := s.duplicateEarly w || s.duplicateLate w
  let out := s.windowOut w
  ((((s.inWindow.windowEffect w).leavesWindow).closeWindowOfFrame out).endWindow dup (s.abandons w) w).onHwi
    (fun h => { h with clOut := out })

/-- A station in LISTEN or ACTIVE at control bit-time 0 that is still so once the frame's steps are taken; any other
disregards the window (R106, R107). -/
def State.takesPart (s : State) : Bool := s.participates && s.inWindow.participates

/-- CONTROL_WINDOW's work. -/
def State.doControlWindow (others noise : List Bool) (s : State) : State :=
  if s.hwi.windowAhead then
    if s.atWindow.takesPart then s.atWindow.takeWindow others noise
    else s.atWindow.settle.closeWindowOfFrame clReleased
  else s

/-! ### A pause of HCLK (R81, R107) -/

/-- The number of control bit-times from which on a window is judged: bit-times 0 to 66 have been sampled (R93). -/
def judgedFrom : Nat := 67

/-- A window that ends after its first n control bit-times, before its judgement: what they brought, a retreat at a third
collision among them, which releases the lane from the mismatch on, and no record (R90, R107). -/
def State.cutWindow (n : Nat) (others noise : List Bool) (s : State) : State :=
  let w := (s.metWindow others noise).cutAt n
  let dup := s.duplicateEarly w
  let t := ((s.inWindow.windowEffect w).leavesWindow).onHwi (fun h => { h with windowTaken := true })
  (if dup then (t.raiseFlag .duplicateNumber).retreat .duplicate else t).onHwi (fun h => { h with clOut := s.windowOut w })

/-- The frame up to a pause of HCLK: its steps that are due and, where the pause falls inside its window, the control
bit-times before the pause. -/
def State.untilGap (others noise : List Bool) (s : State) : State :=
  if others ≠ [] ∧ s.hwi.windowAhead = true ∧ s.atWindow.takesPart = true then
    if judgedFrom ≤ others.length then s.atWindow.takeWindow others noise
    else s.atWindow.cutWindow others.length others noise
  else s.settle

/-- The levels the station put on CL in the window that a pause cut off; every bit-time not yet reached is released
(R82). -/
def State.gapOut (others noise : List Bool) (s : State) : List Bool :=
  if others ≠ [] ∧ s.hwi.windowAhead = true ∧ s.atWindow.takesPart = true then
    (s.untilGap others noise).hwi.clOut
  else clReleased

/-- No HCLK edge for some nanoseconds (R81): more than 10 µs loses timing in GOOD and returns PROVE to SEEK, anywhere in a
frame; CL shows what was driven before, and SO and PO are released at the HCLK count of the last edge (R84). -/
def State.doHclkGap (nanos edge : Nat) (others noise : List Bool) (s : State) : State :=
  if 10000 < nanos then
    let t := (s.untilGap others noise).onHwi (fun h => { h with clockWatch := nanos })
    match t.hwi.timing with
    | .good => (t.onHwi (fun h => { h with hclkCount := edge })).loseTiming.onHwi (fun h => { h with clOut := s.gapOut others noise })
    | .prove => t.abandonProving
    | .seek => t
  else s.onHwi (fun h => { h with clockWatch := nanos })

/-! ### The meanings -/

/-- FRAME_REFERENCE_SET (R75). -/
def execFrameReferenceSet (bsync : Bool) (s : State) : Host.Outcome State Fault Refusal :=
  .next (s.live (State.doFrameReferenceSet bsync))

/-- FRAME_EVENT (R75). -/
def execFrameEvent (bsync : Bool) (lanes : Lanes) (s : State) : Host.Outcome State Fault Refusal :=
  .next (s.live (State.doFrameEvent bsync lanes))

/-- BRIDGED_FRAME_EVENT (R79). -/
def execBridgedFrameEvent (bsync : Bool) (lanes : Lanes) (s : State) : Host.Outcome State Fault Refusal :=
  .next (s.live (State.doBridgedFrameEvent bsync lanes))

/-- FRAME_MARKER_MISS (R79). -/
def execFrameMarkerMiss (s : State) : Host.Outcome State Fault Refusal := .next (s.live State.doFrameMarkerMiss)

/-- STRAY_FSYNC (R78). -/
def execStrayFsync (edge : Nat) (s : State) : Host.Outcome State Fault Refusal :=
  .next (s.live (State.doStrayFsync edge))

/-- FSYNC_ABSENT_IN_PROVE (R78). -/
def execFsyncAbsentInProve (s : State) : Host.Outcome State Fault Refusal :=
  .next (s.live State.doFsyncAbsentInProve)

/-- HCLK_GAP (R81). -/
def execHclkGap (pause : ClockPause) (s : State) : Host.Outcome State Fault Refusal :=
  .next (s.live (State.doHclkGap pause.nanos pause.edge pause.others pause.noise))

/-- CONTROL_WINDOW (R93). -/
def execControlWindow (others noise : List Bool) (s : State) : Host.Outcome State Fault Refusal :=
  .next (s.live (State.doControlWindow others noise))

end Sys2Proof.Machine
end

