-- ==== Sys2Proof/Machine/Dispatch.lean ====
section
/-! DEFINITION. Which meaning each command has. -/

namespace Sys2Proof.Machine

def exec (i : Instr) (s : State) : Host.Outcome State Fault Refusal :=
  match i with
  | .coldStart cause => Sys2Proof.Machine.execColdStart cause s
  | .coldStartRelease straps => Sys2Proof.Machine.execColdStartRelease straps s
  | .missingAcknowledge clocks point => Sys2Proof.Machine.execMissingAcknowledge clocks point s
  | .loaderPauseEnd => Sys2Proof.Machine.execLoaderPauseEnd s
  | .sclHeldLow hold => Sys2Proof.Machine.execSclHeldLow hold s
  | .configurationReadEnd clocks image => Sys2Proof.Machine.execConfigurationReadEnd clocks image s
  | .frameReferenceSet bsync => Sys2Proof.Machine.execFrameReferenceSet bsync s
  | .frameEvent bsync lanes => Sys2Proof.Machine.execFrameEvent bsync lanes s
  | .bridgedFrameEvent bsync lanes => Sys2Proof.Machine.execBridgedFrameEvent bsync lanes s
  | .frameMarkerMiss => Sys2Proof.Machine.execFrameMarkerMiss s
  | .strayFsync edge => Sys2Proof.Machine.execStrayFsync edge s
  | .blockEvent order => Sys2Proof.Machine.execBlockEvent order s
  | .bridgedBlockEvent order => Sys2Proof.Machine.execBridgedBlockEvent order s
  | .timingGood => Sys2Proof.Machine.execTimingGood s
  | .hclkGap pause => Sys2Proof.Machine.execHclkGap pause s
  | .enterListen => Sys2Proof.Machine.execEnterListen s
  | .quietPeriodEnd => Sys2Proof.Machine.execQuietPeriodEnd s
  | .mapComplete => Sys2Proof.Machine.execMapComplete s
  | .controlWindow others noise => Sys2Proof.Machine.execControlWindow others noise s
  | .applyEmptyMark => Sys2Proof.Machine.execApplyEmptyMark s
  | .applyLost => Sys2Proof.Machine.execApplyLost s
  | .applyTaken => Sys2Proof.Machine.execApplyTaken s
  | .applyClear => Sys2Proof.Machine.execApplyClear s
  | .applyOffer => Sys2Proof.Machine.execApplyOffer s
  | .applyBid => Sys2Proof.Machine.execApplyBid s
  | .applyShed => Sys2Proof.Machine.execApplyShed s
  | .applyHold => Sys2Proof.Machine.execApplyHold s
  | .applyPresent => Sys2Proof.Machine.execApplyPresent s
  | .applyReport => Sys2Proof.Machine.execApplyReport s
  | .queryStationSummary => Sys2Proof.Machine.execQueryStationSummary s
  | .queryFaultFlags => Sys2Proof.Machine.execQueryFaultFlags s
  | .queryClearFlags => Sys2Proof.Machine.execQueryClearFlags s
  | .queryCounter => Sys2Proof.Machine.execQueryCounter s
  | .queryPositionStatus => Sys2Proof.Machine.execQueryPositionStatus s
  | .queryUnknownItem => Sys2Proof.Machine.execQueryUnknownItem s
  | .sweepGroup => Sys2Proof.Machine.execSweepGroup s
  | .switchFrame c => Sys2Proof.Machine.execSwitchFrame c s
  | .recordSwitchFrame p => Sys2Proof.Machine.execRecordSwitchFrame p s
  | .warmUpEnd c => Sys2Proof.Machine.execWarmUpEnd c s
  | .shedDecision => Sys2Proof.Machine.execShedDecision s
  | .declareLost => Sys2Proof.Machine.execDeclareLost s
  | .heartbeat => Sys2Proof.Machine.execHeartbeat s
  | .markerJudgement c => Sys2Proof.Machine.execMarkerJudgement c s
  | .parcelCompletion c => Sys2Proof.Machine.execParcelCompletion c s
  | .need c => Sys2Proof.Machine.execNeed c s
  | .jobTakeUp => Sys2Proof.Machine.execJobTakeUp s
  | .decodeCompletion e => Sys2Proof.Machine.execDecodeCompletion e s
  | .encodeCompletion e => Sys2Proof.Machine.execEncodeCompletion e s
  | .jobDropped c d => Sys2Proof.Machine.execJobDropped c d s
  | .blockClose c => Sys2Proof.Machine.execBlockClose c s
  | .emissionStart c => Sys2Proof.Machine.execEmissionStart c s
  | .fsyncAbsentInProve => Sys2Proof.Machine.execFsyncAbsentInProve s

end Sys2Proof.Machine
end

