-- ==== Sys2Proof/Machine/Step.lean ====
section
/-! DEFINITION. One step of the station: the command at the front of the queue. -/

namespace Sys2Proof.Machine

/-- The command at the front of the queue is taken and run on the state with the queue's rest; on an empty queue the
station idles (log 19). -/
def step (s : State) : Host.Outcome State Fault Refusal :=
  match s.pending with
  | [] => .next s
  | c :: rest => exec c { s with pending := rest }

/-- The state with the command that a word spells put at the front of its queue; no word spells one (log 20). -/
def State.withFetchWord (s : State) (nbits w : Nat) : State :=
  match decodeTableWord nbits w with
  | some c => { s with pending := c :: s.pending }
  | none => s

end Sys2Proof.Machine
end

