-- ==== Sys2Proof/Safety.lean ====
section
/-! DEFINITION. What counts as a sound state of the station: the order of the outbox, the canonical form of the tables,
and what each station state permits. No command stops the station, so a run is safe when these hold throughout it. -/

namespace Sys2Proof.Machine

/-- Entry a stands before entry b in the order of R99: a lower kind code, or the same kind code and an older age. -/
def OutEntry.before (a b : OutEntry) : Prop :=
  a.notice.kindCode < b.notice.kindCode ∨ (a.notice.kindCode = b.notice.kindCode ∧ a.age < b.age)

/-- The outbox as R99 keeps it: at most 16 entries, in order of kind code and age, at most one entry per key, every age
given out before the next one, and retry counts 0 to 31. -/
def NoticeCtl.ordered (k : NoticeCtl) : Prop :=
  k.outbox.length ≤ 16 ∧ k.outbox.Pairwise OutEntry.before ∧ (k.outbox.map (fun e => e.notice.key)).Nodup ∧
    ∀ e ∈ k.outbox, e.age < k.nextAge ∧ e.retries ≤ 31

/-- The Notice Controller between two commands: the outbox as R99 keeps it, and no entry in its window. -/
def NoticeCtl.sound (k : NoticeCtl) : Prop := k.ordered ∧ k.inWindow = none

/-- A table in canonical form: rising numbers, and nothing listed at its resting value d. -/
def Table.canonical {n : Nat} {α : Type} (d : α) (t : Table n α) : Prop := Table.rising t = true ∧ ∀ e ∈ t, e.2 ≠ d

/-- Every table of the state in its canonical form, so that equal contents are equal data. -/
def State.canonical (s : State) : Prop :=
  Table.rising s.table.contexts = true ∧ Table.rising s.engines.running = true ∧
    Table.canonical PosRecord.free s.mapu.map ∧ Table.canonical RosterEntry.unknown s.mapu.roster ∧
    Table.rising s.pool.takenMarks = true ∧ Table.canonical 0 s.report.counters

/-- What the station state permits (R18, R74, R104, R106, R133, R152): timing is GOOD in LISTEN and ACTIVE; contexts,
reservations and the decisions about them exist in ACTIVE only; the outbox and the intake hold something, and the Pool
Controller decides something, in LISTEN and ACTIVE only; the intake holds at most 8 records. -/
def State.permitted (s : State) : Prop :=
  (s.participates = true → s.hwi.timing = .good) ∧
    (s.isActive = false →
      s.table.contexts = [] ∧ s.table.reservations = [] ∧ s.pool.stage ≠ .shed ∧ s.pool.stage ≠ .loss) ∧
    (s.participates = false → s.notice.outbox = [] ∧ s.mapu.intake = [] ∧ s.pool.stage = .idle) ∧
    s.mapu.intake.length ≤ 8

/-- The Map Unit's turn has come with record r at the head of the intake (R111). -/
abbrev State.atTurn (s : State) (r : Record) : Prop :=
  s.life.held = false ∧ s.participates = true ∧ s.mapu.turn = true ∧ s.mapu.sweep = none ∧
    s.mapu.intake.head? = some r ∧ s.notice.inWindow = none

/-- A notice that is not malformed (R97): the mode of an OFFER or a HOLD is a member of its mode set. -/
def Notice.admitted : Notice → Bool
  | .offer _ _ _ ms m => ModeSet.member ms m
  | .hold _ _ _ ms m _ _ => ModeSet.member ms m
  | .lost _ _ => true
  | .taken _ _ _ _ => true
  | .clear _ _ => true
  | .bid _ _ _ _ => true
  | .shed _ _ _ => true
  | .present _ _ _ _ _ => true
  | .query _ _ _ => true
  | .report _ _ _ => true

/-- The arbitration field of a notice in a window (R87): kind × 4096 + grade × 16 + sender number. -/
def Notice.arbitrationField (n : Notice) (grade : BitVec 8) (sender : BitVec 4) : Nat :=
  n.kindCode * 4096 + grade.toNat * 16 + sender.toNat

/-- A station that takes part in a window to come, with no step of the frame left to take. -/
abbrev State.atQuietWindow (s : State) : Prop :=
  s.life.held = false ∧ s.participates = true ∧ s.hwi.windowAhead = true ∧ s.quiet = true ∧ s.notice.inWindow = none

/-- A STOP on the port (R156): SDA rises between two levels with SCL high. -/
def sendsStop (levels : List (Bool × Bool)) : Bool :=
  (levels.zip levels.tail).any (fun x => decide (x = ((true, false), (true, true))))

/-- What t puts on SO and PO in the bit-times of the frame is what s puts there before bit-time n, and nothing from n
on (R84). -/
def State.releasedFrom (n : Nat) (s t : State) : Prop :=
  ∀ b, t.soLevel b = (if b < n then s.soLevel b else none) ∧ t.poLevel b = (if b < n then s.poLevel b else none)

end Sys2Proof.Machine
end

