-- ==== Sys2Proof/WellFormed.lean ====
section
/-! DEFINITION. The checks on a command's own content: what an event of the given kind can bring from outside. -/

namespace Sys2Proof

/-- Recovery clocks of one attempt: up to nine (R156). -/
def Instr.clocksOk (clocks : Nat) : Bool := decide (clocks ≤ 9)

/-- One sample and one nibble for each of the 256 positions (R83). -/
def Lanes.complete (l : Lanes) : Bool := decide (l.si.length = 256) && decide (l.pi.length = 256)

/-- A window has control bit-times 0 to 71 (R87). -/
def Instr.windowOk (others noise : List Bool) : Bool :=
  decide (others.length = 72) && decide (noise.length = 72)

/-- An attempt makes at most nine recovery clocks (R156), reads 11 bytes and completes at most its 14 bytes, START and
repeated START before its STOP; of a byte in progress at most eight bits have been clocked. -/
def ReadCut.within (x : ReadCut) : Bool :=
  Instr.clocksOk x.clocks && decide (x.image.length = 11) && decide (x.acts ≤ min x.clocks 9 + 16) && decide (x.bits ≤ 8)

/-- A pause follows an edge of the frame, at HCLK count 0 to 2047 (R75, R81); the control bit-times it brings are those
whose sample, at HCLK count 16k + 12, has been taken by that edge (R85), of the window's 72. -/
def ClockPause.ok (p : ClockPause) : Bool :=
  let n := p.others.length
  decide (p.edge ≤ 2047) && decide (n ≤ 72) && decide (p.noise.length = n) &&
    (decide (n = 0) || decide (16 * n ≤ p.edge + 4) && (decide (n = 72) || decide (p.edge < 16 * n + 12)))

/-- Whether a command's content is one that its event can bring. The meanings are total: they read a lane, a window or
an image that is too short as the shelf's idle level, so an ill-formed command stops nothing. -/
def Instr.wellFormed : Instr → Bool
  | .coldStart _ => true
  | .coldStartRelease _ => true
  | .missingAcknowledge clocks point => Instr.clocksOk clocks && (decide (point ≠ .recovery) || decide (clocks = 9))
  | .loaderPauseEnd => true
  | .sclHeldLow hold => hold.cut.within
  | .configurationReadEnd clocks image => Instr.clocksOk clocks && decide (image.length = 11)
  | .frameReferenceSet _ => true
  | .frameEvent _ lanes => lanes.complete
  | .bridgedFrameEvent _ lanes => lanes.complete
  | .frameMarkerMiss => true
  | .strayFsync edge => decide (1 ≤ edge) && decide (edge ≤ 2047)
  | .blockEvent _ => true
  | .bridgedBlockEvent _ => true
  | .timingGood => true
  | .hclkGap pause => ClockPause.ok pause
  | .enterListen => true
  | .quietPeriodEnd => true
  | .mapComplete => true
  | .controlWindow others noise => Instr.windowOk others noise
  | .applyEmptyMark => true
  | .applyLost => true
  | .applyTaken => true
  | .applyClear => true
  | .applyOffer => true
  | .applyBid => true
  | .applyShed => true
  | .applyHold => true
  | .applyPresent => true
  | .applyReport => true
  | .queryStationSummary => true
  | .queryFaultFlags => true
  | .queryClearFlags => true
  | .queryCounter => true
  | .queryPositionStatus => true
  | .queryUnknownItem => true
  | .sweepGroup => true
  | .switchFrame _ => true
  | .recordSwitchFrame _ => true
  | .warmUpEnd _ => true
  | .shedDecision => true
  | .declareLost => true
  | .heartbeat => true
  | .markerJudgement _ => true
  | .parcelCompletion _ => true
  | .need _ => true
  | .jobTakeUp => true
  | .decodeCompletion _ => true
  | .encodeCompletion _ => true
  | .jobDropped _ _ => true
  | .blockClose _ => true
  | .emissionStart _ => true
  | .fsyncAbsentInProve => true

end Sys2Proof
end

