-- ==== Sys2Proof/Certificates/Slice0/Obligations.lean ====
section
/-! DEFINITION. The statements about the station that are to be proved. -/

section
open Sys2Proof Sys2Proof.Machine

/-! ### The queue -/

/-- The step takes the command at the front of the queue and runs it on the state with the queue's rest; on an empty
queue the station idles (the model's choice, log 19). -/
def Obligations.StepTakesTheFront : Prop :=
  (∀ (c : Instr) (rest : List Instr) (s : State),
      step { s with pending := c :: rest } = exec c { s with pending := rest }) ∧
  (∀ s : State, s.pending = [] → step s = .next s)

/-- Every command ends in a next state, in every state, and leaves the queue as it is. (The model's own part of it: log
5.) -/
def Obligations.EveryCommandCompletes : Prop :=
  ∀ (c : Instr) (s : State), ∃ t, exec c s = .next t ∧ t.pending = s.pending

/-! ### Cold start and the life cycle -/

/-- Power-on, and RESETN low for 1 µs or more, bring every block to its values after cold start, and a shorter low
level changes nothing; a station held in cold start keeps every value, whatever else happens (R153). (The model's own
part of it: logs 5, 8.) -/
def Obligations.ColdStartAndHolding : Prop :=
  (∀ (c : Instr) (s : State), s.life.held = true → (∀ x, c ≠ .coldStart x) → (∀ x, c ≠ .coldStartRelease x) →
      exec c s = .next s) ∧
  (∀ s : State,
      exec (.coldStart .powerOn) s = .next { State.reset with pending := s.pending } ∧
        ∀ n : Nat, (1000 ≤ n → exec (.coldStart (.resetLow n)) s = .next { State.reset with pending := s.pending }) ∧
          (n < 1000 → exec (.coldStart (.resetLow n)) s = .next s))

/-- The values after cold start that the rules give (R18, R62, R74, R77 to R80, R85, R90, R99, R105, R108, R109, R129,
R131, R132, R153, R166, R167, R172). (The model's own part of it: log 17.) -/
def Obligations.ResetValues : Prop :=
  let s := State.reset
  s.life.station = .start ∧ s.life.settings = Config.defaults ∧ s.life.loader = .idle ∧ s.life.result = .none ∧
    s.life.quietCount = 0 ∧ s.life.lastCause = .none ∧ s.life.port = [] ∧
    s.hwi.timing = .seek ∧ s.hwi.hclkCount = 0 ∧ s.hwi.frameCount = 0 ∧ s.hwi.blockIndex = none ∧
    s.hwi.provingRun = 0 ∧ s.hwi.frameMisses = 0 ∧ s.hwi.blockMisses = 0 ∧ s.hwi.clockWatch = 0 ∧
    s.hwi.clOut = List.replicate 72 true ∧
    (∀ c, s.ctx c = none) ∧ s.table.reservations = [] ∧ s.load = 0 ∧
    s.engines.queue = [] ∧ s.engines.running = [] ∧ s.engines.lateCount = 0 ∧
    s.notice.outbox = [] ∧ s.notice.collisionRun = 0 ∧ s.mapu.intake = [] ∧
    (∀ p, s.recAt p = PosRecord.free) ∧ (∀ q, s.rosterAt q = RosterEntry.unknown) ∧ s.mapu.sweep = none ∧
    s.mapu.listenCount = 0 ∧ s.mapu.mapComplete = false ∧
    s.pool.shedGrace = 0 ∧ s.pool.holdOff = 0 ∧ s.pool.shedding = none ∧ s.pool.fill = none ∧
    (∀ p, s.takenMark p = false) ∧ s.pool.heartbeat = 0 ∧ s.pool.freshPending = false ∧ s.pool.cursor = 255 ∧
    (∀ k, s.report.counter k = 0) ∧ (∀ f, s.report.isSet f = false) ∧ s.report.cursor = none ∧ s.alertLow = false ∧
    s.released = [] ∧ (∀ p, s.soSlot p = none ∧ s.poNibble p = none) ∧ ∀ b, s.soLevel b = none ∧ s.poLevel b = none

/-- The release takes the straps as the station number, STN2 the most significant, and begins the first attempt of the
configuration read (R153, R154, R156). (The model's own part of it: log 5.) -/
def Obligations.ReleaseTakesStraps : Prop :=
  ∀ (x : Straps) (s : State),
    (s.life.held = true →
      exec (.coldStartRelease x) s = .next { s with life := { s.life with
        held := false, station := .start, number := Straps.number x, loader := .reading, attempt := 1 } }) ∧
    (s.life.held = false → exec (.coldStartRelease x) s = .next s) ∧
    (Straps.number x).val = 4 * x.stn2.toNat + 2 * x.stn1.toNat + x.stn0.toNat

/-- The configuration read. Failures (R157): the first missing acknowledge ends in PAUSE, whose end begins the second
attempt; the second one, and SCL held low for more than 10 ms, abandon the read with the defaults, ABSENT and
CONFIG_DEFAULTED; an abandoned attempt leaves on the port what it has done until then, ends in the low phase of the
clock that is held, with SDA at the level of the next bit, and releases both lines there, so that the port shows no
STOP; any other attempt ends with one. The end of a complete attempt (R158): the judged values and result are taken,
and CONFIG_BAD is raised unless the result is IMAGE. On the port (R156) a byte is its eight bits, most significant
first, each set while SCL is low and taken at its rise, and a ninth clock for the acknowledge, which the side that
receives the byte drives. (The model's own part of it: logs 5, 17.) -/
def Obligations.ConfigurationReads : Prop :=
  (∀ (clocks : Nat) (point : AckPoint) (micros : Nat) (cut : ReadCut) (s : State),
      s.life.held = false → s.participates = false →
      (s.life.loader = .reading → s.life.attempt = 1 →
        exec (.missingAcknowledge clocks point) s = .next { s with life := { s.life with
          loader := .pause, port := s.life.port ++ failedActs clocks point } }) ∧
      (s.life.loader = .pause →
        exec .loaderPauseEnd s = .next { s with life := { s.life with loader := .reading, attempt := 2 } }) ∧
      (s.life.loader = .reading → s.life.attempt = 2 →
        exec (.missingAcknowledge clocks point) s = .next { s with
          life := { s.life with settings := Config.defaults, loader := .done, result := .absent,
                                port := s.life.port ++ failedActs clocks point }
          report := s.report.withFlag .configDefaulted }) ∧
      (s.life.loader = .reading → 10000 < micros →
        ∃ acts sda, exec (.sclHeldLow ⟨micros, cut⟩) s = .next { s with
            life := { s.life with settings := Config.defaults, loader := .done, result := .absent,
                                  port := s.life.port ++ (acts ++ [.heldClock sda, .releaseLines]) }
            report := s.report.withFlag .configDefaulted } ∧
          (cut.within = true → PortAct.stopCondition ∉ acts ∧
            sendsStop ((acts ++ [PortAct.heldClock sda, PortAct.releaseLines]).flatMap PortAct.levels) = false) ∧
          (cut.bits = 0 → acts = (completeActs cut.clocks cut.image).take cut.acts) ∧
          (∀ b ack, (completeActs cut.clocks cut.image)[cut.acts]? = some (.sendByte b ack) →
            sda = if cut.bits < 8 then b.getLsbD (7 - cut.bits) else true) ∧
          (∀ b ack, (completeActs cut.clocks cut.image)[cut.acts]? = some (.receiveByte b ack) →
            sda = if cut.bits < 8 then true else !ack)) ∧
      (micros ≤ 10000 → exec (.sclHeldLow ⟨micros, cut⟩) s = .next s)) ∧
  (∀ (clocks : Nat) (image : List Byte) (s : State), s.life.held = false → s.participates = false →
      s.life.loader = .reading →
      exec (.configurationReadEnd clocks image) s = .next { s with
        life := { s.life with settings := (judgeImage image).1, loader := .done, result := (judgeImage image).2,
                              port := s.life.port ++ completeActs clocks image }
        report := if (judgeImage image).2 = .image then s.report else s.report.withFlag .configBad }) ∧
  (∀ (b : Byte) (ack : Bool),
      PortAct.levels (.sendByte b ack) =
        (List.range 8).flatMap (fun i => [(false, b.getLsbD (7 - i)), (true, b.getLsbD (7 - i))]) ++
          [(false, true), (true, true)] ∧
      PortAct.levels (.receiveByte b ack) =
        (List.range 8).flatMap (fun _ => [(false, true), (true, true)]) ++ [(false, !ack), (true, !ack)]) ∧
  (∀ sda : Bool, PortAct.levels (.heldClock sda) = [(false, sda)] ∧
      PortAct.levels .releaseLines = [(false, true), (true, true)]) ∧
  (∀ (clocks : Nat) (point : AckPoint) (image : List Byte),
      sendsStop ((failedActs clocks point).flatMap PortAct.levels) = true ∧
        sendsStop ((completeActs clocks image).flatMap PortAct.levels) = true)

/-- The judgement of an image (R158, 9.5, 11.4): without the tag 0x6C or with a sum that is not 0 modulo 256 it is BAD
with every default; otherwise each item that is within its range is taken as read and any other takes its default, with
IMAGE when every item was taken and PARTIAL otherwise. -/
def Obligations.ImageJudgement : Prop :=
  ∀ image : List Byte, image.length = 11 →
    let v (n : Nat) : Nat := (image.getD n 0).toNat
    let item (n low high dflt : Nat) : Nat := if low ≤ v n ∧ v n ≤ high then v n else dflt
    let good := v 0 = 0x6C ∧ (image.map (fun b => b.toNat)).sum % 256 = 0
    let all := (64 ≤ v 1 ∧ v 1 ≤ 255) ∧ (1 ≤ v 2 ∧ v 2 ≤ 16) ∧ (8 ≤ v 3 ∧ v 3 ≤ 128) ∧ (1 ≤ v 4 ∧ v 4 ≤ 8) ∧
      v 5 ≤ 1 ∧ (4 ≤ v 6 ∧ v 6 ≤ 64) ∧ (8 ≤ v 7 ∧ v 7 ≤ 255) ∧ (10 ≤ v 8 ∧ v 8 ≤ 250) ∧ (1 ≤ v 9 ∧ v 9 ≤ 16)
    (¬good → judgeImage image = (Config.defaults, .bad)) ∧
      (good → (judgeImage image).1 =
          { budget := item 1 64 255 240, heartbeatPeriod := item 2 1 16 4, claimLength := item 3 8 128 32,
            warmUp := item 4 1 8 2, shadowing := decide (item 5 0 1 1 = 1), shedHoldOff := item 6 4 64 8,
            quietPeriod := item 7 8 255 16, streamLostLimit := item 8 10 250 50, shedGrace := item 9 1 16 4 } ∧
        (all → (judgeImage image).2 = .image) ∧ (¬all → (judgeImage image).2 = .partialImage))

/-- Entry to LISTEN, from START or from RETREAT (R155, R160, R164): the outbox holds the first PRESENT, fresh, and a
REPORT of the flags when any is set; the intake is empty; the own roster entry is PRESENT; everything else stands. (The
model's own part of it: log 1.) -/
def Obligations.EntryToListen : Prop :=
  ∀ s : State, s.life.held = false → s.hwi.timing = .good →
    let present : OutEntry :=
      { notice := .present (capped255 s.load) (capped255 s.headroom) s.freeContexts true false, age := 0, retries := 0 }
    let flags : OutEntry := { notice := .report 0 0x02#8 s.report.flagsValue, age := 1, retries := 0 }
    let entered (l : Life) (t : State) : Prop :=
      t.hwi = s.hwi ∧ t.table = s.table ∧ t.engines = s.engines ∧ t.report = s.report ∧ t.released = s.released ∧
        t.pending = s.pending ∧
        t.life = { l with station := .listen } ∧
        t.notice.outbox = (if s.report.flags = 0 then [present] else [present, flags]) ∧ t.notice.collisionRun = 0 ∧
        t.mapu.intake = [] ∧ t.mapu.listenCount = 0 ∧ t.mapu.map = s.mapu.map ∧ t.mapu.sweep = s.mapu.sweep ∧
        t.mapu.mapComplete = s.mapu.mapComplete ∧
        t.rosterAt s.own = { state := .present, age := 0, last := none } ∧
        (∀ q, q ≠ s.own → t.rosterAt q = s.rosterAt q) ∧
        t.pool = { s.pool with freshPending := true, heartbeat := 0 }
    (s.life.station = .start → s.life.loader = .done → s.hwi.blockDue = none →
      ∃ t, exec .enterListen s = .next t ∧ entered s.life t) ∧
    (s.life.station = .retreat → s.life.quietJudge = true → s.life.settings.quietPeriod ≤ s.life.quietCount →
      ∃ t, exec .quietPeriodEnd s = .next t ∧ entered { s.life with quietJudge := false } t) ∧
    (s.life.station = .retreat → s.life.quietJudge = true → s.life.quietCount < s.life.settings.quietPeriod →
      exec .quietPeriodEnd s = .next { s with life := { s.life with quietJudge := false } })

/-- The map is complete at listen count 72 (R131, R161, R149): ACTIVE, fresh pending clear, and a waiting fresh PRESENT
becomes one with fresh clear and active set; the block event's decisions follow where they waited for the entry, and
the entry waits where they stand part-way. (The model's own part of it: logs 4, 28.) -/
def Obligations.MapCompletes : Prop :=
  ∀ s : State, s.life.held = false → s.life.station = .listen → s.mapu.listenCount = 72 → s.mapu.mapComplete = false →
    s.notice.inWindow = none →
    let entered : State := { s with
      life := { s.life with station := .active }
      mapu := { s.mapu with mapComplete := true }
      pool := { s.pool with freshPending := false }
      notice := { s.notice with outbox := s.notice.outbox.map (fun e => { e with notice :=
        match e.notice with
        | .present load headroom fc true _ => .present load headroom fc false true
        | n => n }) } }
    (s.pool.stage = .idle → exec .mapComplete s = .next entered) ∧
    (s.pool.stage = .entry →
      exec .mapComplete s = .next ({ entered with pool := { entered.pool with stage := .idle } } : State).poolDecisions) ∧
    (s.pool.stage ≠ .idle → s.pool.stage ≠ .entry → exec .mapComplete s = .next s)

/-! ### The timing lines -/

/-- BSYNC at a frame event (R77, R78, R80): what becomes of the block index, and when the reference is at fault. -/
def Obligations.BsyncTable : Prop :=
  ∀ (h : Hwi) (b : BlockIndex), h.blockIndex = some b →
    (h.timing = .good →
      (b.val = 159 → h.bsyncVerdict true = .goes (some 0) false (some .marked)) ∧
      (b.val = 159 → h.blockMisses = 0 → h.bsyncVerdict false = .goes (some 0) false (some .bridged)) ∧
      (b.val = 159 → h.blockMisses ≠ 0 → h.bsyncVerdict false = .fault) ∧
      (b.val < 159 → h.bsyncVerdict true = .fault) ∧
      (b.val < 159 → ∃ n : BlockIndex, n.val = b.val + 1 ∧ h.bsyncVerdict false = .goes (some n) false none)) ∧
    (h.timing = .prove →
      (b.val = 159 → h.bsyncVerdict true = .goes (some 0) true (some .marked)) ∧
      (b.val = 159 → h.bsyncVerdict false = .fault) ∧
      (b.val < 159 → h.bsyncVerdict true = .fault) ∧
      (b.val < 159 → ∃ n : BlockIndex, n.val = b.val + 1 ∧ h.bsyncVerdict false = .goes (some n) false none)) ∧
    (h.timing = .prove →
      ({ h with blockIndex := none } : Hwi).bsyncVerdict true = .goes (some 0) false (some .marked) ∧
      ({ h with blockIndex := none } : Hwi).bsyncVerdict false = .goes none false none)

/-- The first FSYNC in SEEK sets the frame reference, makes a frame event and begins PROVE (R75, R77, R78); in PROVE
and GOOD there is a reference already and the command finds nothing to do. Timing is good when the proving run has
reached 16 and the block event of the frame has been taken (R78). u is the state once the frame's steps that are due
have been taken; the record of what released contexts drove begins anew with the frame. (The model's own part of it:
logs 1, 5, 9.) -/
def Obligations.ReferenceAndTimingGood : Prop :=
  (∀ (bsync : Bool) (s : State), s.life.held = false →
      let u := s.settle
      (u.hwi.timing = .seek →
        exec (.frameReferenceSet bsync) s = .next { u with
          hwi := { u.hwi with
            timing := .prove, hclkCount := 0, clockWatch := 0, frameCount := u.hwi.frameCount + 1,
            blockIndex := if bsync then some 0 else none, provingRun := 0, frameMisses := 0, blockMisses := 0,
            blockDue := if bsync then some .marked else none, windowTaken := false }
          mapu := { u.mapu with turn := true }
          released := [] }) ∧
      (u.hwi.timing ≠ .seek → exec (.frameReferenceSet bsync) s = .next s)) ∧
  (∀ s : State, s.life.held = false →
      (s.hwi.timing = .prove → s.hwi.provingRun = 16 → s.hwi.blockDue = none →
        exec .timingGood s = .next { s with hwi := { s.hwi with timing := .good } }) ∧
      (s.hwi.timing ≠ .prove ∨ s.hwi.provingRun ≠ 16 ∨ s.hwi.blockDue ≠ none → exec .timingGood s = .next s))

/-- A frame event with FSYNC (R75, R77, R78, R80, R83): the frame count advances, BSYNC is judged, and every context is
handed its nibble and sample and presents its own; the record of what released contexts drove in the frame before
begins anew; nothing else changes. In SEEK the command finds nothing to do. (The model's own part of it: logs 1, 5, 9.)
-/
def Obligations.MarkedFrameEvent : Prop :=
  ∀ (bsync : Bool) (y : Lanes) (s : State) (index : Option BlockIndex) (regular : Bool) (mark : Option BlockMark),
    s.life.held = false →
    let u := s.settle
    (u.hwi.timing = .seek → exec (.frameEvent bsync y) s = .next s) ∧
    (u.hwi.timing ≠ .seek → u.hwi.bsyncVerdict bsync = .goes index regular mark →
      exec (.frameEvent bsync y) s = .next { u with
        hwi := { u.hwi with
          hclkCount := 0, clockWatch := 0, frameCount := u.hwi.frameCount + 1, blockIndex := index,
          provingRun := if regular then u.hwi.provingRun + 1 else u.hwi.provingRun, frameMisses := 0,
          blockMisses := match mark with
            | some .marked => 0
            | some .bridged => u.hwi.blockMisses + 1
            | none => u.hwi.blockMisses
          blockDue := mark, windowTaken := false }
        table := { u.table with
          contexts := u.table.contexts.map (fun e => (e.1, Context.frameStep (index.getD 0) y e.2)) }
        mapu := { u.mapu with turn := true }
        released := [] })

/-- A frame event bridged over a missing FSYNC (R79): the same frame event, with one more frame marker miss and one
more bridged frame marker; a third miss in a row is no frame event. (The model's own part of it: logs 1, 5, 9.) -/
def Obligations.BridgedFrameEvent : Prop :=
  ∀ (bsync : Bool) (y : Lanes) (s : State) (index : Option BlockIndex) (regular : Bool) (mark : Option BlockMark),
    s.life.held = false →
    let u := s.settle
    (u.hwi.timing = .good → u.hwi.frameMisses < 2 → u.hwi.bsyncVerdict bsync = .goes index regular mark →
      exec (.bridgedFrameEvent bsync y) s = .next { u with
        hwi := { u.hwi with
          hclkCount := 0, clockWatch := 0, frameCount := u.hwi.frameCount + 1, blockIndex := index,
          provingRun := if regular then u.hwi.provingRun + 1 else u.hwi.provingRun,
          frameMisses := u.hwi.frameMisses + 1,
          blockMisses := match mark with
            | some .marked => 0
            | some .bridged => u.hwi.blockMisses + 1
            | none => u.hwi.blockMisses
          blockDue := mark, windowTaken := false }
        table := { u.table with
          contexts := u.table.contexts.map (fun e => (e.1, Context.frameStep (index.getD 0) y e.2)) }
        mapu := { u.mapu with turn := true }
        released := []
        report := u.report.counted .bridgedFrameMarkers }) ∧
    (u.hwi.timing ≠ .good ∨ 2 ≤ u.hwi.frameMisses → exec (.bridgedFrameEvent bsync y) s = .next s)

/-- What a frame event brings to a context. Its nibble (R19 to R22): the marker window moves on; in HUNT the marker
starts a parcel whose marker phase is three frames back; otherwise the parcel is collected from its marker phase on,
its judgement falls due three frames after and its completion 159 frames after. What it presents (R31, R54, R55, R58):
the silence code before RUNNING, the next sample of the playout buffer in RUNNING with a need at 80 samples left, and
the next nibble of the emitting entry, or 1111 with none; before its content is fixed an emitting entry presents the
marker. The whole (R43, R44, R46): the nibble is taken, the SI sample of the context's position joins the sample block,
of which the latest 161 stay, a sample and a nibble are presented, and the block index is to be compared with φ, but
for the frame after a step toward later. (The model's own part of it: logs 1, 27.) -/
def Obligations.FrameStepOfAContext : Prop :=
  (∀ (b : BlockIndex) (n : Nibble) (x : Context),
      let window := (x.markerWindow ++ [n]).drop ((x.markerWindow ++ [n]).length - 4)
      let k := (b.val + 160 - x.markerPhase.val) % 160
      (x.rxState = .hunt → window ≠ [0xA#4, 0x5#4, 0x3#4, 0xC#4] →
        Context.takeNibble b n x = { x with markerWindow := window }) ∧
      (x.rxState = .hunt → window = [0xA#4, 0x5#4, 0x3#4, 0xC#4] →
        ∃ ph : BlockIndex, (ph.val + 3) % 160 = b.val ∧
          Context.takeNibble b n x = { x with markerWindow := window, rxState := .confirm, markerPhase := ph,
                                              collected := [0xA#4, 0x5#4, 0x3#4, 0xC#4] }) ∧
      (x.rxState ≠ .hunt →
        Context.takeNibble b n x = { x with
          markerWindow := window
          collected := if k = 0 then [n] else x.collected ++ [n]
          due := { x.due with judgement := decide (k = 3), completion := decide (k = 159) } })) ∧
  (∀ x : Context,
      (x.playState ≠ .running → Context.presentSample x = { x with presentedSample := some (silenceCode x.law) }) ∧
      (∀ v rest, x.playState = .running → x.playout = v :: rest →
        Context.presentSample x = { x with presentedSample := some v, playout := rest,
                                           due := { x.due with need := decide (rest.length = 80) } }) ∧
      (x.emitting = none → Context.presentNibble x = { x with presentedNibble := some 0xF#4 }) ∧
      (∀ em, x.emitting = some em → em.content = none → em.sent < 4 →
        Context.presentNibble x = { x with
          presentedNibble := some ([0xA#4, 0x5#4, 0x3#4, 0xC#4].getD em.sent 0xF#4)
          emitting := some { em with sent := em.sent + 1 } }) ∧
      (∀ em bytes, x.emitting = some em → em.content = some bytes → bytes.take 2 = [0xA5#8, 0x3C#8] →
        Context.presentNibble x = { x with
          presentedNibble := some (
            if em.sent % 2 = 0 then (bytes.getD (em.sent / 2) 0xFF#8).extractLsb' 4 4
            else (bytes.getD (em.sent / 2) 0xFF#8).extractLsb' 0 4)
          emitting := if em.sent < 159 then some { em with sent := em.sent + 1 } else none })) ∧
  (∀ (b : BlockIndex) (y : Lanes) (x : Context),
      let fresh : Context := { x with
        due := { judgement := false, completion := false, need := false, closeCheck := !x.steppedLater }
        steppedLater := false }
      let taken := Context.takeNibble b (y.pi.getD x.position.val 0xF#4) fresh
      let held := x.sampleBlock ++ [y.si.getD x.position.val 0xFF#8]
      Context.frameStep b y x =
        Context.presentNibble (Context.presentSample { taken with sampleBlock := held.drop (held.length - 161) }))

/-- Timing is lost in GOOD at the third missing FSYNC, after more than 10 µs without HCLK, and at a BSYNC that R80 does
not allow (R79 to R82): SEEK, the lane released, TIMING_LOST set, the frame count kept, the clock watch begun anew at
an HCLK edge; a station in LISTEN or ACTIVE retreats and any other keeps its contexts, outbox and life; SO and PO are
released (R84) from the edge on at which a pause found the loss, and where a frame event was expected not before the
frame's end. A pause inside a window (R81, R107): CL shows what the station drove before the pause and is released from
there on, SO and PO are released from its edge on, and no record is entered. A retreat (R107, R162, R163) from LISTEN
or ACTIVE releases SO and PO at the HCLK count of the frame (R84, R86), empties every block that the pool's calls stand
in, keeps the timing state, the flags, the other counters and the configuration values, and counts one retreat;
elsewhere there is none. (The model's own part of it: logs 1, 6, 9, 11, 29, 33.) -/
def Obligations.TimingLossAndRetreat : Prop :=
  (∀ (c : Instr) (s : State), s.life.held = false →
      let u := s.settle
      let driven (cut : Nat) (t : State) : Prop := u.participates = true → u.released = [] → u.releasedFrom cut t
      u.hwi.timing = .good →
      (c = .frameMarkerMiss ∧ 2 ≤ u.hwi.frameMisses) ∨ (∃ n e, c = .hclkGap ⟨n, e, [], []⟩ ∧ 10000 < n) ∨
        (∃ b y, c = .frameEvent b y ∧ u.hwi.bsyncVerdict b = .fault) ∨
        (∃ b y, c = .bridgedFrameEvent b y ∧ u.hwi.frameMisses < 2 ∧ u.hwi.bsyncVerdict b = .fault) →
      ∃ t, exec c s = .next t ∧ t.hwi.timing = .seek ∧ t.hwi.blockIndex = none ∧ t.hwi.provingRun = 0 ∧
        t.hwi.frameMisses = 0 ∧ t.hwi.blockMisses = 0 ∧ t.hwi.frameCount = u.hwi.frameCount ∧
        ((∃ n e, c = .hclkGap ⟨n, e, [], []⟩ ∧ t.hwi.clockWatch = n ∧ driven e t) ∨
          ((∀ p, c ≠ .hclkGap p) ∧ t.hwi.clockWatch = 0 ∧ driven 2048 t)) ∧
        t.hwi.clOut = List.replicate 72 true ∧ t.report.isSet .timingLost = true ∧
        (u.participates = true → t.life = { u.life with station := .retreat, quietCount := 0, lastCause := .timing,
                                                        quietJudge := false }) ∧
        (u.participates = false → t.life = u.life ∧ t.table = u.table ∧ t.engines = u.engines ∧ t.notice = u.notice ∧
          t.mapu = u.mapu ∧ t.pool = u.pool)) ∧
  (∀ (s : State) (e : OutEntry) (rest : List OutEntry) (k n edge : Nat), s.atQuietWindow → s.hwi.timing = .good →
      s.notice.outbox = e :: rest → 1 ≤ k → k ≤ 65 → 10000 < n →
      ∃ t, exec (.hclkGap ⟨n, edge, List.replicate k true, List.replicate k false⟩) s = .next t ∧
        t.hwi.clOut =
          (windowBits (encodeNotice e.notice (s.grade e.notice) s.ownSender)).take k ++ List.replicate (72 - k) true ∧
        t.hwi.timing = .seek ∧ t.life.station = .retreat ∧ t.life.lastCause = .timing ∧
        t.report.isSet .timingLost = true ∧ t.mapu.intake = [] ∧ t.notice.outbox = [] ∧
        (s.released = [] → s.releasedFrom edge t)) ∧
  (∀ (cause : RetreatCause) (s : State),
      (s.participates = false → s.retreat cause = s) ∧
      (s.participates = true →
        let t := s.retreat cause
        t.hwi = { s.hwi with clOut := List.replicate 72 true } ∧
        t.released = s.released ++ s.table.contexts.map (fun e => e.2.releasedAt s.hwi.hclkCount) ∧
        (s.released = [] → s.releasedFrom s.hwi.hclkCount t) ∧
        t.table.contexts = [] ∧ t.table.reservations = [] ∧ t.engines.queue = [] ∧ t.engines.running = [] ∧
        t.engines.lateCount = 0 ∧ t.notice.outbox = [] ∧ t.notice.collisionRun = 0 ∧ t.mapu.intake = [] ∧
        t.mapu.map = [] ∧ t.mapu.roster = [] ∧ t.mapu.sweep = none ∧ t.mapu.listenCount = 0 ∧
        t.mapu.mapComplete = false ∧ t.pool.shedGrace = 0 ∧ t.pool.holdOff = 0 ∧ t.pool.shedding = none ∧
        t.pool.fill = none ∧ t.pool.takenMarks = [] ∧ t.pool.heartbeat = 0 ∧ t.pool.freshPending = false ∧
        t.pool.cursor = 255 ∧ t.report.cursor = none ∧ t.report.flags = s.report.flags ∧
        t.report.counters = (s.report.counted .retreats).counters ∧ t.pending = s.pending ∧
        t.life = { s.life with station := .retreat, quietCount := 0, lastCause := cause, quietJudge := false }))

/-- PROVE is abandoned by an absent FSYNC, an FSYNC at another count, a BSYNC that R78 does not allow, or more than 10
µs without HCLK (R78, R81): back to SEEK with no flag and no count of a fault; the BSYNC comes with a frame event, so
the frame count advances; an FSYNC at another count is disregarded in GOOD. (The model's own part of it: logs 1, 9,
10.) -/
def Obligations.ProvingAbandoned : Prop :=
  ∀ (e n edge : Nat) (s : State), s.life.held = false →
    let u := s.settle
    let seek (h : Hwi) : Hwi := { h with
      timing := .seek, blockIndex := none, provingRun := 0, frameMisses := 0, blockMisses := 0, blockDue := none,
      windowTaken := true }
    (u.hwi.timing = .prove →
      exec .fsyncAbsentInProve s = .next { u with hwi := seek { u.hwi with clockWatch := 0 } }) ∧
    (∀ b y, u.hwi.timing = .prove → u.hwi.bsyncVerdict b = .fault →
      exec (.frameEvent b y) s = .next { u with
        hwi := seek { u.hwi with frameCount := u.hwi.frameCount + 1, hclkCount := 0, clockWatch := 0 } }) ∧
    (u.hwi.timing = .prove → 1 ≤ e → e ≤ 2047 →
      exec (.strayFsync e) s = .next { u with hwi := seek { u.hwi with hclkCount := e, clockWatch := 0 } }) ∧
    (u.hwi.timing = .prove → 10000 < n →
      exec (.hclkGap ⟨n, edge, [], []⟩) s = .next { u with hwi := seek { u.hwi with clockWatch := n } }) ∧
    (u.hwi.timing = .good → 1 ≤ e → e ≤ 2047 →
      exec (.strayFsync e) s = .next { u with hwi := { u.hwi with hclkCount := e, clockWatch := 0 } }) ∧
    (u.hwi.timing = .seek → 10000 < n →
      exec (.hclkGap ⟨n, edge, [], []⟩) s = .next { u with hwi := { u.hwi with clockWatch := n } }) ∧
    (∀ others noise, n ≤ 10000 →
      exec (.hclkGap ⟨n, edge, others, noise⟩) s = .next { s with hwi := { s.hwi with clockWatch := n } })

/-- A block event (R73, R77, R80, R131, R164) reaches every block that counts blocks: the late count begins anew, a
retreated station's quiet count and a listening station's listen count go up by one, saturating. In START and RETREAT,
where no context exists, it changes no more than that, but that a bridged one is counted. In a context (R11, R20, R40,
R41) a warm-up goes down by one, HUNT counts a missing parcel, and before RUNNING a block is served without a GOOD
parcel; where that brings a PRIMARY context to the limit with the episode flag clear, STREAM_LOST is raised and a
REPORT of item 0x41 with the count is placed. In LISTEN and ACTIVE the roster ages (R130) and the Pool Controller
decides in its order (R133): in LISTEN the heartbeat only (R149); in ACTIVE the shed figures and the shed decision, the
TAKENs due (R148), the shadow fill (R139), the census (R150), the loss examination (R151) and the heartbeat. (The
model's own part of it: logs 1, 4, 31, 34.) -/
def Obligations.BlockEvents : Prop :=
  (∀ (order : BlockOrder) (c : Instr) (s : State), s.life.held = false →
      (c = .blockEvent order ∧ s.hwi.blockDue = some .marked) ∨
        (c = .bridgedBlockEvent order ∧ s.hwi.blockDue = some .bridged) →
      let aged (q : Station) : RosterEntry :=
        if (s.rosterAt q).state = .present ∧ q ≠ s.own then
          { s.rosterAt q with age := min ((s.rosterAt q).age + 1) 255 } else s.rosterAt q
      ∃ t, exec c s = .next t ∧ t.hwi = { s.hwi with blockDue := none } ∧
        t.engines = { s.engines with lateCount := 0 } ∧
        (s.life.station = .retreat →
          t.life = { s.life with quietCount := min (s.life.quietCount + 1) 255, quietJudge := true }) ∧
        (s.life.station ≠ .retreat → t.life = s.life) ∧
        (s.life.station = .listen → t.mapu.listenCount = min (s.mapu.listenCount + 1) 72) ∧
        (s.life.station ≠ .listen → t.mapu.listenCount = s.mapu.listenCount) ∧
        (s.participates = true → s.pool.ageingDue = false → ∀ q, t.rosterAt q =
          if order.agesFirst = true ∨ t.pool.ageingDue = false then aged q else s.rosterAt q) ∧
        (s.life.station = .listen → s.table.contexts = [] → s.pool.ageingDue = false →
          (s.mapu.mapComplete = true ∨ s.mapu.listenCount < 71 ∨ order.entryFirst = false →
            t.notice = s.notice ∧ t.table = s.table ∧ t.pool = { s.pool with
              heartbeat := s.pool.heartbeat + 1, ageingDue := false
              stage := if s.life.settings.heartbeatPeriod ≤ s.pool.heartbeat + 1 then .heartbeat else .idle }) ∧
          (s.mapu.mapComplete = false → 71 ≤ s.mapu.listenCount → order.entryFirst = true → s.pool.stage = .idle →
            t.pool = { s.pool with stage := .entry, ageingDue := !order.agesFirst })) ∧
        t.mapu.map = s.mapu.map ∧ t.mapu.intake = s.mapu.intake) ∧
  (∀ (order : BlockOrder) (s : State), s.life.held = false → s.participates = false → s.table.contexts = [] →
      let life : Life := if s.life.station = .retreat then
        { s.life with quietCount := min (s.life.quietCount + 1) 255, quietJudge := true } else s.life
      (s.hwi.blockDue = some .marked →
        exec (.blockEvent order) s = .next { s with
          hwi := { s.hwi with blockDue := none }, engines := { s.engines with lateCount := 0 }, life := life }) ∧
      (s.hwi.blockDue = some .bridged →
        exec (.bridgedBlockEvent order) s = .next { s with
          hwi := { s.hwi with blockDue := none }, engines := { s.engines with lateCount := 0 }, life := life,
          report := s.report.counted .bridgedBlockMarkers })) ∧
  (∀ (order : BlockOrder) (s : State), s.life.held = false → s.life.station = .active →
      let begun (report : ReportUnit) : State := { s with
        hwi := { s.hwi with blockDue := none }, engines := { s.engines with lateCount := 0 }, report := report }
      let decided (u : State) : State :=
        (if order.agesFirst then u.ageRoster else { u with pool := { u.pool with ageingDue := true } }).poolDecisions
      (s.hwi.blockDue = some .marked →
        exec (.blockEvent order) s = .next (decided (begun s.report).contextBlocks)) ∧
      (s.hwi.blockDue = some .bridged → exec (.bridgedBlockEvent order) s =
        .next (decided (begun (s.report.counted .bridgedBlockMarkers)).contextBlocks))) ∧
  (∀ s : State, s.canonical →
      (∀ c, s.ctx c = none → s.contextBlocks.ctx c = none) ∧
      (∀ c x, s.ctx c = some x →
        let n := if x.playState = .running then x.needsWithoutGood else min (x.needsWithoutGood + 1) 65535
        let lost := x.playState ≠ .running ∧ x.state = .primary ∧ s.life.settings.streamLostLimit ≤ n
        s.contextBlocks.ctx c = some { x with
          warmUp := if x.state = .warming then x.warmUp.map (fun k => k - 1) else x.warmUp
          counters := if x.rxState = .hunt then { x.counters with missing := countUp x.counters.missing } else x.counters
          needsWithoutGood := n
          streamLost := x.streamLost || decide lost }) ∧
      (∀ c x, s.table.contexts = [(c, x)] →
        let n := min (x.needsWithoutGood + 1) 65535
        let counted : State := if x.rxState = .hunt ∧ x.drives = true then s.count .missingParcels else s
        let told := (counted.raiseFlag .streamLost).place (.report x.position 0x41#8 (BitVec.ofNat 24 n))
        let begins := x.playState ≠ .running ∧ x.state = .primary ∧ s.life.settings.streamLostLimit ≤ n ∧
          x.streamLost = false
        let u := s.contextBlocks
        (begins → u.report = told.report ∧ u.notice = told.notice ∧ u.pool = told.pool ∧
          u.table.reservations = told.table.reservations) ∧
        (¬begins → u.report = counted.report ∧ u.notice = s.notice ∧ u.pool = s.pool ∧
          u.table.reservations = s.table.reservations))) ∧
  (∀ s : State, s.life.station = .active →
      let g : State := { s with pool := { s.pool with
        shedGrace := if s.budget < s.load then min (s.pool.shedGrace + 1) s.life.settings.shedGrace else 0
        holdOff := s.pool.holdOff - 1 } }
      let shedDue := g.pool.shedGrace = s.life.settings.shedGrace ∧ g.pool.holdOff = 0 ∧ g.pool.shedding = none
      let c := g.placeTakensDue.shadowFill.census
      (shedDue → s.poolDecisions = { g with pool := { g.pool with stage := .shed } }) ∧
        (¬shedDue → (∃ q, c.lossDue q = true) → s.poolDecisions = { c with pool := { c.pool with stage := .loss } }) ∧
        (¬shedDue → (∀ q, c.lossDue q = false) → s.poolDecisions = c.afterLoss))

/-- The shed grace count and the hold-off at a block event (R140): in ACTIVE the grace count goes up while the load
exceeds the budget, not beyond the configured shed grace, and is 0 otherwise, the hold-off goes down to 0, and the shed
decision of R141 waits to be taken where the updated values meet its conditions; in LISTEN the load is 0 and both stay
at 0. (The model's own part of it: log 4.) -/
def Obligations.ShedGraceAndHoldOff : Prop :=
  ∀ (order : BlockOrder) (c : Instr) (s : State), s.life.held = false →
    (c = .blockEvent order ∧ s.hwi.blockDue = some .marked) ∨
      (c = .bridgedBlockEvent order ∧ s.hwi.blockDue = some .bridged) →
    (s.life.station = .active →
      ∃ t, exec c s = .next t ∧
        t.pool.shedGrace = (if s.budget < s.load then min (s.pool.shedGrace + 1) s.life.settings.shedGrace else 0) ∧
        t.pool.holdOff = s.pool.holdOff - 1 ∧
        (t.pool.shedGrace = s.life.settings.shedGrace → t.pool.holdOff = 0 → s.pool.shedding = none →
          t.pool.stage = .shed)) ∧
    (s.life.station = .listen → s.permitted → s.pool.shedGrace = 0 → s.pool.holdOff = 0 →
      s.load = 0 ∧ ∃ t, exec c s = .next t ∧ t.pool.shedGrace = 0 ∧ t.pool.holdOff = 0)

/-! ### The control window -/

/-- What a station sends, it reads back (R87, R96, R97, R174): every admitted notice from a sender of its kind is
decoded from its 56 bits with every field as it was. -/
def Obligations.NoticesRoundTrip : Prop :=
  ∀ (n : Notice) (grade : BitVec 8) (sender : BitVec 4),
    n.admitted = true → validSender n.kindCode sender.toNat = true →
    (encodeNotice n grade sender).length = 56 ∧
      ofBits ((encodeNotice n grade sender).take 16) = n.arbitrationField grade sender ∧
      decodeNotice (encodeNotice n grade sender) = some (sender, n)

/-- An idle window (R87, R93, R104): with nothing in the outbox and the lane released by all, an empty mark joins the
intake and nothing else of the station changes, but that the window of the frame is over: the HCLK count and the clock
watch stand as at the sample of its last control bit-time. A window already past changes nothing. A station that is
neither in LISTEN nor in ACTIVE takes no part in any window (R86, R106). (The model's own part of it: logs 1, 5, 6, 9.)
-/
def Obligations.WindowsWithoutANotice : Prop :=
  (∀ s : State, s.atQuietWindow → s.notice.outbox = [] → s.mapu.intake.length < 8 →
      exec (.controlWindow (List.replicate 72 true) (List.replicate 72 false)) s = .next { s with
        hwi := { s.hwi with clOut := List.replicate 72 true, windowTaken := true, hclkCount := judgementCount,
                            clockWatch := 0 }
        mapu := { s.mapu with
          intake := s.mapu.intake ++ [{ stamp := s.hwi.frameCount, heard := none }], turn := false } }) ∧
  (∀ (others noise : List Bool) (s : State), s.life.held = false → s.participates = false → s.quiet = true →
      (s.hwi.windowAhead = true →
        exec (.controlWindow others noise) s = .next { s with
          hwi := { s.hwi with clOut := List.replicate 72 true, windowTaken := true, hclkCount := judgementCount,
                              clockWatch := 0 }
          mapu := { s.mapu with turn := false } }) ∧
      (s.hwi.windowAhead = false → exec (.controlWindow others noise) s = .next s))

/-- A carried notice that nobody refuses succeeds (R88, R93, R94, R104, R149): it leaves the outbox, the collision run
becomes 0, one notice is counted, a fresh PRESENT clears fresh pending, and the notice joins the station's own intake.
The HCLK count and the clock watch stand as at the sample of the window's last control bit-time. (The model's own part
of it: logs 1, 6, 9.) -/
def Obligations.CarriedNoticeSucceeds : Prop :=
  ∀ (s : State) (e : OutEntry) (rest : List OutEntry), s.atQuietWindow → s.notice.outbox = e :: rest →
    s.notice.sound → s.mapu.intake.length < 8 → e.notice.admitted = true →
    validSender e.notice.kindCode s.own.val = true →
    exec (.controlWindow (List.replicate 72 true) (List.replicate 72 false)) s = .next { s with
      hwi := { s.hwi with
        clOut := windowBits (encodeNotice e.notice (s.grade e.notice) s.ownSender) ++ List.replicate 7 true,
        windowTaken := true, hclkCount := judgementCount, clockWatch := 0 }
      notice := { s.notice with outbox := rest, collisionRun := 0 }
      report := s.report.counted .noticesSent
      pool := if e.notice.isFresh then { s.pool with freshPending := false } else s.pool
      mapu := { s.mapu with
        intake := s.mapu.intake ++ [{ stamp := s.hwi.frameCount,
                                      heard := some { sender := s.ownSender, grade := s.grade e.notice,
                                                      notice := e.notice, own := true } }]
        turn := false } }

/-- A carried notice that some party rejects stays for another try, with its retry count one up (R93 to R95); the 32nd
rejection abandons it: NOTICE_ABANDONED is raised and the station retreats, with SO and PO released at the judgement
(R84). A full intake holds the window (R92, R93, R104): the hold bit is driven, no record is entered, and an own notice
that was carried is kept for another try, or abandoned when that was its 32nd. The HCLK count and the clock watch stand
as at the sample of the window's last control bit-time. (The model's own part of it: logs 1, 6, 9, 29, 33.) -/
def Obligations.RefusedNoticeStays : Prop :=
  (∀ (s : State) (e : OutEntry) (rest : List OutEntry), s.atQuietWindow → s.notice.outbox = e :: rest →
      s.notice.sound → s.mapu.intake.length < 8 →
      let c : Instr := .controlWindow (List.replicate 65 true ++ false :: List.replicate 6 true) (List.replicate 72 false)
      (e.retries < 31 →
        exec c s = .next { s with
          hwi := { s.hwi with
            clOut := windowBits (encodeNotice e.notice (s.grade e.notice) s.ownSender) ++ List.replicate 7 true,
            windowTaken := true, hclkCount := judgementCount, clockWatch := 0 }
          notice := { s.notice with outbox := { e with retries := e.retries + 1 } :: rest }
          report := s.report.counted .rejectsSeen
          mapu := { s.mapu with
            intake := s.mapu.intake ++ [{ stamp := s.hwi.frameCount, heard := none }], turn := false } }) ∧
      (e.retries = 31 →
        ∃ t, exec c s = .next t ∧ t.notice.outbox = [] ∧ t.life.station = .retreat ∧ t.life.lastCause = .abandoned ∧
          t.report.isSet .noticeAbandoned = true ∧ (s.released = [] → s.releasedFrom judgementCount t))) ∧
  (∀ s : State, s.atQuietWindow → s.notice.sound → 8 ≤ s.mapu.intake.length →
      let c : Instr := .controlWindow (List.replicate 72 true) (List.replicate 72 false)
      (s.notice.outbox = [] →
        exec c s = .next { s with
          hwi := { s.hwi with clOut := List.replicate 66 true ++ false :: List.replicate 5 true, windowTaken := true,
                              hclkCount := judgementCount, clockWatch := 0 }
          mapu := { s.mapu with turn := false } }) ∧
      (∀ e rest, s.notice.outbox = e :: rest → e.retries < 31 →
        ∃ t, exec c s = .next t ∧ t.mapu.intake = s.mapu.intake ∧
          t.notice.outbox = { e with retries := e.retries + 1 } :: rest ∧ t.report = s.report.counted .rejectsSeen ∧
          t.hwi.clOut.getD 66 true = false) ∧
      (∀ e rest, s.notice.outbox = e :: rest → e.retries = 31 →
        ∃ t, exec c s = .next t ∧ t.notice.outbox = [] ∧ t.mapu.intake = [] ∧ t.life.station = .retreat ∧
          t.life.lastCause = .abandoned ∧ t.report.isSet .noticeAbandoned = true ∧
          (s.released = [] → s.releasedFrom judgementCount t)))

/-- Of two parties that send in a window the one with the lower arbitration field carries it (R87, R89). The lower
field is the other party's: the station has lost arbitration, keeps its notice as it is, counts it, and hears the
other's. Where the station's sample first differs from what it drives after the arbitration field, it is a collision
(R90): the lane is released from the next control bit-time on, the notice stays with its retry count, a collision is
counted and the collision run goes up; the third one raises DUPLICATE_NUMBER and the station retreats, with SO and PO
released at the sample of the mismatch (R84, R85). The window with the collision is rejected by another party, so that
no notice is heard in it. (The model's own part of it: logs 1, 6, 29, 33.) -/
def Obligations.LowerArbitrationFieldWins : Prop :=
  (∀ (s : State) (e : OutEntry) (rest : List OutEntry) (n : Notice) (grade : BitVec 8) (sender : BitVec 4),
      s.atQuietWindow → s.notice.outbox = e :: rest → s.mapu.intake.length < 8 →
      n.admitted = true → validSender n.kindCode sender.toNat = true → sender ≠ s.ownSender →
      n.arbitrationField grade sender < e.notice.arbitrationField (s.grade e.notice) s.ownSender →
      ∃ t, exec (.controlWindow (windowBits (encodeNotice n grade sender) ++ List.replicate 7 true)
          (List.replicate 72 false)) s = .next t ∧
        t.notice = s.notice ∧ t.report = s.report.counted .arbitrationsLost ∧
        t.mapu = { s.mapu with
          intake := s.mapu.intake ++ [{ stamp := s.hwi.frameCount,
                                        heard := some { sender := sender, grade := grade, notice := n, own := false } }]
          turn := false } ∧
        t.table = s.table ∧ t.engines = s.engines ∧ t.pool = s.pool ∧ t.life = s.life ∧ t.released = s.released ∧
          t.pending = s.pending) ∧
  (∀ (s : State) (e : OutEntry) (rest : List OutEntry) (others noise : List Bool) (k : Nat),
      s.atQuietWindow → s.notice.outbox = e :: rest → s.mapu.intake.length < 8 →
      let own := windowBits (encodeNotice e.notice (s.grade e.notice) s.ownSender)
      let lane (i : Nat) : Bool := (own.getD i true && others.getD i true) ^^ noise.getD i false
      17 ≤ k → k ≤ 64 → (∀ i, 1 ≤ i → i < k → lane i = own.getD i true) → lane k ≠ own.getD k true →
      others.getD 65 true = false → noise.getD 65 false = false →
      (s.notice.collisionRun < 2 →
        ∃ t, exec (.controlWindow others noise) s = .next t ∧
          t.notice = { s.notice with collisionRun := s.notice.collisionRun + 1 } ∧
          t.report.counter .collisions = countUp (s.report.counter .collisions) ∧
          t.hwi.clOut.take 65 = own.take (k + 1) ++ List.replicate (64 - k) true ∧
          t.mapu = { s.mapu with
            intake := s.mapu.intake ++ [{ stamp := s.hwi.frameCount, heard := none }], turn := false } ∧
          t.table = s.table ∧ t.engines = s.engines ∧ t.pool = s.pool ∧ t.life = s.life ∧ t.released = s.released ∧
          t.pending = s.pending) ∧
      (2 ≤ s.notice.collisionRun →
        ∃ t, exec (.controlWindow others noise) s = .next t ∧ t.life.station = .retreat ∧
          t.life.lastCause = .duplicate ∧ t.report.isSet .duplicateNumber = true ∧ t.notice.outbox = [] ∧
          t.mapu.intake = [] ∧ (s.released = [] → s.releasedFrom (16 * k + 12) t)))

/-- Of two parties that begin together and send on a clean lane, the one with the lower arbitration field meets no
mismatch and the other meets its first one within the arbitration field; both hear the lower one's bits (R87 to R89).
-/
def Obligations.TwoSendersOneWinner : Prop :=
  ∀ (low high : List Bool), low.length = 65 → high.length = 65 → low.getD 0 true = false → high.getD 0 true = false →
    ofBits ((low.drop 1).take 16) < ofBits ((high.drop 1).take 16) →
    let clean := List.replicate 72 false
    let loser := contend (low ++ List.replicate 7 true) clean 0 high
    let winner := contend (loser.out ++ List.replicate 7 true) clean 0 low
    (∃ k, 1 ≤ k ∧ k ≤ 16 ∧ loser.mismatch = some k) ∧ loser.heard = low ∧ winner.mismatch = none ∧
      winner.heard = low ∧ winner.out = low

/-- A receiver whose check fails rejects the window (R91, R93, R98): it drives the reject bit, counts a check failure,
and an empty mark joins the intake. A notice that passes joins the intake as heard, with its sender, its grade and no
own mark (R93, R104). One that passes and is misrouted (R98), of no kind, from a sender that its kind does not admit,
or malformed (R97), is counted and leaves an empty mark without a rejection; one that carries the station's own number
also adds one to the collision run, and the third such event raises DUPLICATE_NUMBER and the station retreats, with SO
and PO released at the judgement (R84). (The model's own part of it: logs 1, 6, 9, 29, 33.) -/
def Obligations.FailedCheckRejects : Prop :=
  (∀ (s : State) (bits : List Bool) (check : List Bool), s.atQuietWindow → s.notice.outbox = [] →
      s.mapu.intake.length < 8 → bits.length = 56 → check.length = 8 → check ≠ bitsOf 8 (crc8 bits).toNat →
      exec (.controlWindow (false :: (bits ++ (check ++ List.replicate 7 true))) (List.replicate 72 false)) s =
        .next { s with
          hwi := { s.hwi with clOut := List.replicate 65 true ++ false :: List.replicate 6 true, windowTaken := true,
                              hclkCount := judgementCount, clockWatch := 0 }
          report := s.report.counted .checkFailures
          mapu := { s.mapu with
            intake := s.mapu.intake ++ [{ stamp := s.hwi.frameCount, heard := none }], turn := false } }) ∧
  (∀ (s : State) (bits : List Bool), s.atQuietWindow → s.notice.outbox = [] → s.mapu.intake.length < 8 →
      bits.length = 56 →
      let field (at_ width : Nat) : Nat := ofBits ((bits.drop at_).take width)
      let kind := field 0 4
      let sender := field 12 4
      let malformed := (kind = 1 ∧ 7 < field 16 8) ∨ (kind = 2 ∧ (field 36 2 = 3 ∨ 159 < field 38 8)) ∨
        ((kind = 4 ∨ kind = 7) ∧ (field 37 4).testBit (field 41 2) = false) ∨
        (kind = 7 ∧ (159 < field 43 8 ∨ (8 ≤ field 51 4 ∧ field 51 4 ≤ 14))) ∨ (kind = 8 ∧ 64 < field 40 7) ∨
        (kind = 9 ∧ 7 < field 24 4)
      let misfit := malformed ∨ kind = 0 ∨ 10 < kind ∨ sender = 15 ∨
        ((kind = 3 ∨ kind = 4) ∧ ¬(8 ≤ sender ∧ sender ≤ 13)) ∨ (kind = 9 ∧ sender ≠ 14) ∨
        (kind ≠ 3 ∧ kind ≠ 4 ∧ kind ≠ 9 ∧ 7 < sender)
      let c : Instr := .controlWindow (windowBits bits ++ List.replicate 7 true) (List.replicate 72 false)
      let heard (n : NoticeCtl) : State := { s with
        hwi := { s.hwi with clOut := List.replicate 72 true, windowTaken := true, hclkCount := judgementCount,
                            clockWatch := 0 }
        notice := n
        report := s.report.counted .misrouted
        mapu := { s.mapu with
          intake := s.mapu.intake ++ [{ stamp := s.hwi.frameCount, heard := none }], turn := false } }
      (misfit → sender ≠ s.own.val → exec c s = .next (heard s.notice)) ∧
      (¬misfit → sender ≠ s.own.val →
        ∃ n : Notice, n.kindCode = kind ∧ decodeNotice bits = some (BitVec.ofNat 4 sender, n) ∧
          exec c s = .next { s with
            hwi := { s.hwi with clOut := List.replicate 72 true, windowTaken := true, hclkCount := judgementCount,
                                clockWatch := 0 }
            mapu := { s.mapu with
              intake := s.mapu.intake ++ [{ stamp := s.hwi.frameCount,
                                            heard := some { sender := BitVec.ofNat 4 sender,
                                                            grade := BitVec.ofNat 8 (field 4 8), notice := n,
                                                            own := false } }]
              turn := false } }) ∧
      (sender = s.own.val → s.notice.collisionRun < 2 →
        exec c s = .next (heard { s.notice with collisionRun := s.notice.collisionRun + 1 })) ∧
      (sender = s.own.val → 2 ≤ s.notice.collisionRun →
        ∃ t, exec c s = .next t ∧ t.life.station = .retreat ∧ t.life.lastCause = .duplicate ∧
          t.report.isSet .duplicateNumber = true ∧ t.mapu.intake = [] ∧
          (s.released = [] → s.releasedFrom judgementCount t)))

/-! ### The outbox -/

/-- Placing a notice (R99 to R101): it replaces the entry with its key where it stands; or it joins with the next age,
after every entry of its kind and before every entry of a higher kind code; or, at a full outbox, it takes the place of
the last entry when that has a higher kind code, and is dropped otherwise, either way with one outbox drop. While an
entry is in its window (R103) a replacement of it waits; when the entry has left the outbox by success, what has waited
joins as a new entry, and otherwise it replaces the entry, which keeps its age and retry count. A notice evicted or
dropped leaves unsent: a BID releases its reservation (R9) and ends the shadow fill it stood for (R139), a SHED ends
the shed in progress (R142), a TAKEN clears its mark (R148). A removal (R102) takes the other entries that it names at
once and waits for the one in its window (R103), which then leaves unsent where it is still in the outbox. (The model's
own part of it: logs 8, 28, 32.) -/
def Obligations.PlacingANotice : Prop :=
  let leftUnsent (n : Notice) (s t : State) : Prop := match n with
    | .bid p _ role _ =>
      t.table = { s.table with reservations := s.table.reservations.filter (fun r => decide (r.position ≠ p)) } ∧
        t.pool = if role = .shadow ∧ s.pool.fill = some p then { s.pool with fill := none } else s.pool
    | .shed p _ _ => t.table = s.table ∧
        t.pool = if s.pool.shedding = some p then { s.pool with shedding := none } else s.pool
    | .taken p _ _ _ => t.table = s.table ∧ t.pool = { s.pool with takenMarks := t.pool.takenMarks } ∧
        ∀ q, t.takenMark q = if q = p then false else s.takenMark q
    | _ => t.table = s.table ∧ t.pool = s.pool
  (∀ (n : Notice) (s : State), s.notice.sound →
      let box := s.notice.outbox
      let entry : OutEntry := { notice := n, age := s.notice.nextAge, retries := 0 }
      let joined (l : List OutEntry) : List OutEntry :=
        l.filter (fun e => decide (e.notice.kindCode ≤ n.kindCode)) ++
          entry :: l.filter (fun e => decide (n.kindCode < e.notice.kindCode))
      let t := s.place n
      t.notice.sound ∧ t.hwi = s.hwi ∧ t.engines = s.engines ∧ t.mapu = s.mapu ∧ t.life = s.life ∧
        t.released = s.released ∧
        ((∃ e ∈ box, e.notice.key = n.key) →
          t = { s with notice := { s.notice with
            outbox := box.map (fun e => if e.notice.key = n.key then { e with notice := n } else e) } }) ∧
        ((∀ e ∈ box, e.notice.key ≠ n.key) → box.length < 16 →
          t = { s with notice := { s.notice with outbox := joined box, nextAge := s.notice.nextAge + 1 } }) ∧
        ((∀ e ∈ box, e.notice.key ≠ n.key) → box.length = 16 → ∀ worst, box.getLast? = some worst →
          t.report = s.report.counted .outboxDrops ∧
          (n.kindCode < worst.notice.kindCode → t.notice.outbox = joined box.dropLast ∧
            leftUnsent worst.notice s t) ∧
          (worst.notice.kindCode ≤ n.kindCode → t.notice.outbox = box ∧ leftUnsent n s t))) ∧
  (∀ (n : Notice) (s : State) (e : OutEntry) (rest : List OutEntry), s.notice.sound → s.notice.outbox = e :: rest →
      n.key = e.notice.key →
      let w := s.beginWindow.place n
      w.notice.outbox = e :: rest ∧ w.leavesWindow = s.place n ∧
        ({ w with notice := { w.notice with outbox := rest } } : State).leavesWindow =
          ({ s with notice := { s.notice with outbox := rest } } : State).place n) ∧
  (∀ (r : Removal) (s : State) (e : OutEntry) (rest : List OutEntry), s.notice.sound → s.notice.outbox = e :: rest →
      r.names e.notice = true →
      let w := s.beginWindow.removeNotices r
      let others := rest.filter (fun x => !(r.names x.notice))
      w.notice.outbox = e :: others ∧
        w.leavesWindow.notice = { s.notice with outbox := others } ∧ leftUnsent e.notice w w.leavesWindow ∧
        ({ w with notice := { w.notice with outbox := others } } : State).leavesWindow =
          { w with notice := { s.notice with outbox := others } }) ∧
  (∀ (r : Removal) (n : Notice), r.names n = true ↔ match r with
      | .forPosition p => n.positionField = p.val ∧
          (n.kindCode = 2 ∨ n.kindCode = 5 ∨ n.kindCode = 6 ∨ n.kindCode = 7 ∨ ∃ value, n = .report p 0x41#8 value)
      | .lostOf q => ∃ age, n = .lost q age
      | .bidOf p => ∃ tag role cost, n = .bid p tag role cost)

/-! ### The intake, the map and the roster -/

/-- The steps before a record's application (R111, R113). In general: the switch frames of this frame are taken, in the
contexts (R14) and in the records (R115); the map time becomes the record's stamp; and exactly the positions whose
closing stamp is before it have their claim windows closed, by the state of each, in rising order, each told to the
Pool Controller; no other record changes. When no switch frame falls in the frame and no claim window has passed,
nothing but the map time changes. The closure of a passed claim window (R113, R142), by the state of its record: an
OFFERED or ORPHANED record lapses to FREE, a SHEDDING one returns to HELD and ends an own shed with the hold-off set, a
HELD one loses its closing stamp. (The model's own part of it: log 1.) -/
def Obligations.BeforeARecord : Prop :=
  (∀ (s : State) (r : Record),
      (∀ c x, s.ctx c = some x → x.switchFrame ≠ some s.hwi.frameCount) →
      (∀ p, (s.recAt p).switchFrame ≠ some s.hwi.frameCount) →
      (∀ p c, (s.recAt p).closing = some c → atOrBefore r.stamp c = true) →
      s.beginRecord r = { s with mapu := { s.mapu with mapTime := r.stamp, turn := false } }) ∧
  (∀ (s : State) (r : Record), s.canonical →
      let now := s.hwi.frameCount
      let passed (p : Pos) : Prop := ∃ c, (s.recAt p).closing = some c ∧ atOrBefore r.stamp c = false
      let switched (p : Pos) : PosRecord := if (s.recAt p).switchFrame = some now then
          { s.recAt p with switchFrame := none, yielding := none } else s.recAt p
      let t := s.beginRecord r
      t.mapu.mapTime = r.stamp ∧ t.mapu.turn = false ∧ t.mapu.intake = s.mapu.intake ∧
        t.mapu.roster = s.mapu.roster ∧ t.mapu.sweep = s.mapu.sweep ∧ t.hwi = s.hwi ∧ t.life = s.life ∧
        (∀ p, ¬passed p → t.recAt p = switched p) ∧
        (∀ p, passed p → t.recAt p = match (s.recAt p).state with
          | .offered => PosRecord.free
          | .orphaned => PosRecord.free
          | .held => { switched p with closing := none }
          | .shedding => { switched p with state := .held, closing := none }
          | .free => switched p) ∧
        (∀ c, s.ctx c = none → t.ctx c = none) ∧
        (∀ c x, s.ctx c = some x → x.switchFrame ≠ some now ∨ x.state = .primary → t.ctx c = some x) ∧
        (∀ c x, s.ctx c = some x → x.switchFrame = some now → x.state = .warming ∨ x.state = .standby →
          t.ctx c = some { x with state := .primary, role := none, warmUp := none, switchFrame := none }) ∧
        (∀ c x, s.ctx c = some x → x.switchFrame = some now → x.state = .yielding → t.ctx c = none) ∧
        t = (List.finRange 256).foldl (fun u p =>
            if (u.recAt p).closing.map (atOrBefore r.stamp) = some false then
              (u.closeWindow p).poolReact p (u.recAt p) else u)
          (s.takeSwitchFrames.onMap (fun m => { m with mapTime := r.stamp, turn := false }))) ∧
  (∀ (s : State) (p : Pos),
      let r := s.recAt p
      let t := s.closeWindow p
      (∀ q, q ≠ p → t.recAt q = s.recAt q) ∧ t.hwi = s.hwi ∧ t.table = s.table ∧ t.engines = s.engines ∧
        t.released = s.released ∧ t.notice = s.notice ∧ t.life = s.life ∧ t.mapu.roster = s.mapu.roster ∧ t.mapu.intake = s.mapu.intake ∧
        (r.state = .offered → t.recAt p = PosRecord.free ∧ t.report = s.report.counted .offerLapses ∧ t.pool = s.pool) ∧
        (r.state = .held → t.recAt p = { r with closing := none } ∧ t.report = s.report ∧ t.pool = s.pool) ∧
        (r.state = .shedding → t.recAt p = { r with state := .held, closing := none } ∧
          t.report = s.report.counted .shedLapses ∧
          t.pool = if s.pool.shedding = some p then
              { s.pool with shedding := none, holdOff := s.life.settings.shedHoldOff } else s.pool) ∧
        (r.state = .orphaned → t.recAt p = PosRecord.free ∧ t.report = s.report.counted .orphanLapses ∧ t.pool = s.pool))

/-- An empty mark moves the map time and leaves the intake; a REPORT does that and refreshes its sender (R111, R127).
Hearing a station (R114): its roster entry becomes PRESENT with age 0 and its last values kept, unless it is the own
station; a waiting LOST of it leaves the outbox; nothing else changes. -/
def Obligations.MarksReportsAndHearing : Prop :=
  (∀ (s : State) (r : Record), s.atTurn r →
      (r.heard = none →
        let b := s.beginRecord r
        exec .applyEmptyMark s = .next { b with mapu := { b.mapu with intake := s.mapu.intake.tail } }) ∧
      (∀ h q p item value, r.heard = some h → h.station = some q → h.notice = .report p item value →
        let b := (s.beginRecord r).hearStation q
        exec .applyReport s = .next { b with mapu := { b.mapu with intake := s.mapu.intake.tail } })) ∧
  (∀ (s : State) (q : Station), s.notice.inWindow = none →
      let t := s.hearStation q
      (q ≠ s.own → t.rosterAt q = { s.rosterAt q with state := .present, age := 0 }) ∧
        (∀ x, x ≠ q ∨ q = s.own → t.rosterAt x = s.rosterAt x) ∧
        t.notice.outbox = s.notice.outbox.filter (fun e => match e.notice with
          | .lost x _ => decide (x ≠ q)
          | _ => true) ∧
        t.mapu.map = s.mapu.map ∧ t.mapu.intake = s.mapu.intake ∧ t.hwi = s.hwi ∧ t.table = s.table ∧
        t.engines = s.engines ∧ t.pool = s.pool ∧ t.life = s.life ∧ t.report = s.report ∧
        t.released = s.released)

/-- A PRESENT (R127, R112): its sender's entry takes its values, and a fresh one of a peer that was PRESENT begins a
sweep of that peer: it is removed from positions 0 to 31 at once, and the record stays at the head until the sweep
ends. A LOST of another station (R128, R112) marks it LOST, with such a sweep when it was PRESENT; a LOST of the own
station raises DECLARED_LOST and makes it retreat. (The model's own part of it: logs 14, 29.) -/
def Obligations.RosterNoticesAreApplied : Prop :=
  (∀ (s : State) (r : Record) (h : Heard) (q : Station) (load headroom : BitVec 8) (fc : Fin 65) (fresh active : Bool),
      s.atTurn r → r.heard = some h → h.station = some q → h.notice = .present load headroom fc fresh active →
      let b := (s.beginRecord r).hearStation q
      let swept := fresh = true ∧ q ≠ s.own ∧ s.isPresent q = true
      ∃ t, exec .applyPresent s = .next t ∧
        t.rosterAt q = { state := .present, age := 0,
                         last := some { headroom := headroom, freeContexts := fc, active := active } } ∧
        (∀ x, x ≠ q → t.rosterAt x = b.rosterAt x) ∧
        (¬swept → t.mapu.intake = s.mapu.intake.tail ∧ t.mapu.sweep = none ∧ t.mapu.map = b.mapu.map ∧
          t.table = b.table ∧ t.notice = b.notice ∧ t.pool = b.pool ∧ t.report = b.report) ∧
        (swept → t.mapu.intake = s.mapu.intake ∧ t.mapu.sweep = some { station := q, group := 1 }) ∧
        (swept → s.canonical → ∀ p, t.recAt p =
          if p.val < 32 then (b.recAt p).without q r.stamp s.claimLength else b.recAt p) ∧
        t.hwi = s.hwi ∧ t.life = s.life) ∧
  (∀ (s : State) (r : Record) (h : Heard) (q x : Station) (age : BitVec 8),
      s.atTurn r → r.heard = some h → h.station = some q → h.notice = .lost x age →
      let b := (s.beginRecord r).hearStation q
      ∃ t, exec .applyLost s = .next t ∧
        (x ≠ s.own → t.rosterAt x = { b.rosterAt x with state := .lost } ∧ t.life = s.life ∧ t.hwi = s.hwi ∧
          (∀ y, y ≠ x → t.rosterAt y = b.rosterAt y) ∧
          ((b.rosterAt x).state = .present →
            t.mapu.sweep = some { station := x, group := 1 } ∧ t.mapu.intake = s.mapu.intake) ∧
          ((b.rosterAt x).state = .present → s.canonical → ∀ p, t.recAt p =
            if p.val < 32 then (b.recAt p).without x r.stamp s.claimLength else b.recAt p) ∧
          ((b.rosterAt x).state ≠ .present →
            t.mapu.sweep = none ∧ t.mapu.intake = s.mapu.intake.tail ∧ t.mapu.map = b.mapu.map)) ∧
        (x = s.own → t.life.station = .retreat ∧ t.life.lastCause = .declared ∧ t.report.isSet .declaredLost = true ∧
          t.mapu.map = [] ∧ t.mapu.intake = [] ∧ t.table.contexts = []))

/-- The removal of a station from a record (R116), case by case in the order of the rule; and a step of a sweep (R112):
the station is removed from the 32 positions of the next group and from no other, and after group 7 the sweep is over
and its record leaves the intake. b is the state once the frame's switch frames are taken. What follows a removal in
the own station: a YIELDING context becomes PRIMARY again where its new primary goes (R15), a context for a position
that no longer names the station is released (R17), and in ACTIVE an orphaned position that names the own station as
shadow or taker is claimed by a TAKEN (R146), and one with neither is bid for (R147). (The model's own part of it: log
1.) -/
def Obligations.RemovalAndSweep : Prop :=
  (∀ (r : PosRecord) (q : Station) (mapTime claim : FrameCount),
      (∀ y, r.primary = some q → r.yielding = some y → r.without q mapTime claim =
        { r with primary := some y, yielding := none, switchFrame := none, state := .held }) ∧
      (r.primary = some q → r.yielding = none → r.shadow = none → r.taker = none → r.without q mapTime claim =
        { r with state := .orphaned, primary := none, switchFrame := none, closing := some (mapTime + claim) }) ∧
      (r.primary = some q → r.yielding = none → r.shadow ≠ none ∨ r.taker ≠ none → r.without q mapTime claim =
        { r with state := .orphaned, primary := none, switchFrame := none, closing := none }) ∧
      (r.primary ≠ some q → r.shadow = some q → r.state = .shedding ∨ r.state = .orphaned → r.without q mapTime claim =
        { r with shadow := none, closing := some (mapTime + claim) }) ∧
      (r.primary ≠ some q → r.shadow = some q → r.state = .held → r.without q mapTime claim = { r with shadow := none }) ∧
      (r.primary ≠ some q → r.shadow ≠ some q → r.taker = some q → r.state = .shedding → r.without q mapTime claim =
        { r with taker := none, state := .held }) ∧
      (r.primary ≠ some q → r.shadow ≠ some q → r.taker = some q → r.state = .orphaned →
        r.without q mapTime claim = PosRecord.free) ∧
      (r.primary ≠ some q → r.shadow ≠ some q → r.taker ≠ some q → r.yielding = some q → r.without q mapTime claim =
        { r with yielding := none }) ∧
      (r.names q = false → r.without q mapTime claim = r)) ∧
  (∀ (s : State) (w : Sweep), s.life.held = false → s.participates = true → s.mapu.turn = true → s.mapu.sweep = some w →
      s.canonical →
      let b := s.takeSwitchFrames
      ∃ t, exec .sweepGroup s = .next t ∧
        (∀ p, t.recAt p = if p.val / 32 = w.group then (b.recAt p).without w.station s.mapu.mapTime s.claimLength
          else b.recAt p) ∧
        (w.group < 7 → t.mapu.sweep = some { w with group := w.group + 1 } ∧ t.mapu.intake = s.mapu.intake) ∧
        (7 ≤ w.group → t.mapu.sweep = none ∧ t.mapu.intake = s.mapu.intake.tail) ∧
        t.mapu.roster = s.mapu.roster ∧ t.mapu.turn = false ∧ t.hwi = s.hwi ∧ t.life = s.life) ∧
  (∀ (s : State) (q : Station) (p : Pos),
      let old := s.recAt p
      let new := old.without q s.mapu.mapTime s.claimLength
      let removed := s.putRec p new
      let t := s.removeStation q p
      t.recAt p = new ∧
        (∀ c x, s.ctxFor p = some (c, x) → new.names s.own = false → t.ctx c = none) ∧
        (∀ c x, s.ctxFor p = some (c, x) → new.names s.own = true → x.state = .yielding → old.primary = some q →
          old.yielding = some s.own → t.ctx c = some { x with state := .primary, switchFrame := none }) ∧
        (s.life.station = .active → s.waitingBid p = none → old.primary = some q → old.yielding = none →
          (old.shadow = some s.own → old.taker ≠ some s.own →
            t.notice = (removed.placeTaken p .promotion).notice) ∧
          (old.shadow ≠ some s.own → old.taker = some s.own → t.notice = (removed.placeTaken p .orphan).notice) ∧
          (old.shadow = none → old.taker = none → old.state ≠ .orphaned → s.mapu.mapComplete = true → s.ctxFor p = none →
            t.notice = (removed.placeBid p .orphan).notice)))

/-- The switch frame of a record (R115): at its frame the switch frame and the yielding station go and the primary
stays; in any other frame the command finds nothing to do. (The model's own part of it: log 5.) -/
def Obligations.RecordSwitches : Prop :=
  ∀ (s : State) (p : Pos), s.life.held = false →
    ((s.recAt p).switchFrame = some s.hwi.frameCount →
      ∃ t, exec (.recordSwitchFrame p) s = .next t ∧
        t.recAt p = { s.recAt p with switchFrame := none, yielding := none } ∧ (∀ q, q ≠ p → t.recAt q = s.recAt q) ∧
        t = { s with mapu := { s.mapu with map := t.mapu.map } }) ∧
    ((s.recAt p).switchFrame ≠ some s.hwi.frameCount → exec (.recordSwitchFrame p) s = .next s)

/-- CLEAR p (R117). A fitting one makes the record FREE, releases the own context and its BID's reservation, and takes
every notice for p out of the outbox; any other is ignored and counted. b is the state in which it is applied. -/
def Obligations.ClearIsApplied : Prop :=
  ∀ (s : State) (r : Record) (h : Heard) (p : Pos) (tag : CallTag),
    s.atTurn r → r.heard = some h → h.notice = .clear p tag →
    let b := s.beginRecord r
    let fits := (b.recAt p).state ≠ .free ∧ (b.recAt p).call.map (fun k => k.tag) = some tag
    ∃ t, exec .applyClear s = .next t ∧ t.mapu.intake = s.mapu.intake.tail ∧
      (∀ q, q ≠ p → t.recAt q = b.recAt q) ∧ t.mapu.roster = b.mapu.roster ∧ t.hwi = s.hwi ∧ t.life = s.life ∧
      (fits → t.recAt p = PosRecord.free ∧ (∀ c x, b.ctxFor p = some (c, x) → t.ctx c = none) ∧
        t.notice.outbox = b.notice.outbox.filter (fun e => !(Notice.isFor p e.notice)) ∧
        ((b.waitingBid p).isSome = true → t.reservationFor p = none) ∧ t.report = b.report) ∧
      (¬fits → t.mapu.map = b.mapu.map ∧ t.report = b.report.counted .clearsRefused ∧ t.table = b.table ∧
        t.notice = b.notice ∧ t.pool = b.pool ∧ t.engines = b.engines)

/-- OFFER p (R118, R135): the record becomes OFFERED with the offerer and a closing stamp one claim length after the
OFFER's. Over a record that is not FREE every change of a fitting CLEAR comes first: the own context for p is released,
every notice for p leaves the outbox, and an offer over held is counted; c is the state after that. A station that is
not ACTIVE does no more; an ACTIVE one with capacity, a context to spare and nothing standing for p reserves the
primary cost and places an offer BID. A decision to bid (R134), by its role: without capacity, or with a context or a
reservation for p or none to spare, there is none; otherwise the cost is reserved and the BID placed. The shadow fill
(R139) bids for the lowest HELD position without a shadow that does not name the own station. (The model's own part of
it: log 28.) -/
def Obligations.OfferIsApplied : Prop :=
  (∀ (s : State) (r : Record) (h : Heard) (p : Pos) (tag : CallTag) (law : Law) (ms : ModeSet) (m : Mode),
      s.atTurn r → r.heard = some h → h.notice = .offer p tag law ms m →
      let b := s.beginRecord r
      let standing := (b.recAt p).state ≠ .free
      let c := if (b.recAt p).state = .free then b else b.clearPosition p
      (standing → c.recAt p = PosRecord.free ∧ (∀ q, q ≠ p → c.recAt q = b.recAt q) ∧ c.report = b.report ∧
        (∀ d x, b.ctxFor p = some (d, x) → c.ctx d = none) ∧
        c.notice.outbox = b.notice.outbox.filter (fun e => !(Notice.isFor p e.notice)) ∧
        ((b.waitingBid p).isSome = true → c.reservationFor p = none)) ∧
      (c.waitingBid p = none →
        ∃ t, exec .applyOffer s = .next t ∧ t.mapu.intake = s.mapu.intake.tail ∧
          t.recAt p = { PosRecord.free with
            state := .offered
            call := some { tag := tag, law := law, modeSet := ms, mode := m, phase := 0, offerer := some h.sender }
            closing := some (r.stamp + s.claimLength) } ∧
          (∀ q, q ≠ p → t.recAt q = b.recAt q) ∧ t.table.contexts = c.table.contexts ∧ t.hwi = s.hwi ∧
          t.life = s.life ∧
          t.report.counter .offersOverHeld =
            (if (b.recAt p).state = .free then b.report.counter .offersOverHeld
              else countUp (b.report.counter .offersOverHeld)) ∧
          (s.life.station = .listen → t.table = c.table ∧ t.notice = c.notice) ∧
          (s.life.station = .active → c.load + primaryCost m ≤ c.budget → c.reservationFor p = none →
            c.ctxFor p = none → c.table.contexts.length + c.table.reservations.length < 64 →
            c.notice.outbox.length < 16 →
            t.table.reservations = c.table.reservations ++ [{ position := p, role := .offer, cost := primaryCost m }] ∧
            t.notice = (c.place (.bid p tag .offer (BitVec.ofNat 4 (primaryCost m)))).notice) ∧
          (s.life.station = .active → c.budget < c.load + primaryCost m → t.table = c.table ∧ t.notice = c.notice))) ∧
  (∀ (s : State) (p : Pos) (role : BidRole) (k : Call), (s.recAt p).call = some k →
      let room := match role with
        | .offer => s.load + primaryCost k.mode ≤ s.budget
        | .shadow => s.load + standbyCost k.mode ≤ s.budget / 2
        | .take => s.load + primaryCost k.mode ≤ s.budget
        | .orphan => s.load + primaryCost k.mode ≤ s.budget
      let cost := match role with
        | .offer => primaryCost k.mode
        | .shadow => standbyCost k.mode
        | .take => standbyCost k.mode
        | .orphan => primaryCost k.mode
      let spare := s.reservationFor p = none ∧ s.ctxFor p = none ∧
        s.table.contexts.length + s.table.reservations.length < 64
      (¬(room ∧ spare) → s.placeBid p role = s) ∧
        (room → spare → s.placeBid p role = ({ s with
          table := { s.table with
            reservations := s.table.reservations ++ [{ position := p, role := role, cost := cost }] }
          pool := if role = .shadow then { s.pool with fill := some p } else s.pool } : State).place
            (.bid p k.tag role (BitVec.ofNat 4 cost)))) ∧
  (∀ s : State, s.canonical →
      let open_ (p : Pos) : Prop :=
        (s.recAt p).state = .held ∧ (s.recAt p).shadow = none ∧ (s.recAt p).names s.own = false
      let able := s.mapu.mapComplete = true ∧ s.life.settings.shadowing = true ∧ s.pool.fill = none
      (∀ p, able → open_ p → (∀ q, q < p → ¬open_ q) → s.shadowFill = s.placeBid p .shadow) ∧
        (¬able ∨ (∀ p, ¬open_ p) → s.shadowFill = s))

/-- BID p (R119 to R121): what each role makes of its bidder, and the own bidder's context (R10), which consumes the
reservation (R9) and has every field at its value at allocation (R2); a BID that fits nowhere is stale: counted, no
record changed, an own one's reservation released. Where another station's BID makes it primary and the own offer BID
waits (R136), that is kept for a shadow at the standby cost, or withdrawn with its reservation. The primary of a
SHEDDING position that gets a taker restates the call by a HOLD (R145). An own waiting BID that can no longer fit its
record leaves the outbox with its reservation, and one that can stays (R137). (The model's own part of it: log 27.) -/
def Obligations.BidIsApplied : Prop :=
  let fresh (state : CtxState) (role : Option Role) (warmUp : Option Nat) (p : Pos) (k : Call) : Context :=
    { state := state, role := role, position := p, callTag := k.tag, law := k.law, modeSet := k.modeSet,
      downMode := k.mode, pendingDownMode := none, upMode := k.mode, phase := k.phase, pendingShift := 0,
      steppedLater := false, phaseLimit := false, warmUp := warmUp, switchFrame := none, quietState := .speech,
      concealLevel := 0, needsWithoutGood := 0, streamLost := false, downQuietCount := 0, rxState := .hunt,
      markerPhase := 0, markerWindow := [], missCount := 0, collected := [], ring := [], emitting := none, ready := none,
      schedule := none, playout := [], playState := .priming, lastBlock := none, sampleBlock := [], firstBlock := true,
      encodeInFlight := false, encoder := Config.freshEncoder k.law k.mode,
      decoder := Config.freshDecoder k.law k.mode,
      counters := { good := 0, bad := 0, missing := 0, discarded := 0, trimmed := 0, lateEncode := 0, lateDecode := 0 },
      presentedSample := none, presentedNibble := none,
      due := { judgement := false, completion := false, need := false, closeCheck := false } }
  (∀ (s : State) (r : Record) (h : Heard) (q : Station) (p : Pos) (tag : CallTag) (role : BidRole) (cost : BitVec 4),
      s.atTurn r → r.heard = some h → h.station = some q → h.notice = .bid p tag role cost →
      let b := (s.beginRecord r).hearStation q
      let old := b.recAt p
      let sameCall := old.call.map (fun k => k.tag) = some tag
      let open_ := ∃ c, old.closing = some c ∧ atOrBefore r.stamp c = true
      let primary := sameCall ∧ role = .offer ∧ old.state = .offered ∧ open_
      let shadow := sameCall ∧ old.state = .held ∧ old.shadow = none ∧ old.names q = false ∧
        ((role = .offer ∧ open_) ∨ role = .shadow)
      let taker := sameCall ∧ old.shadow = none ∧ old.taker = none ∧ old.names q = false ∧ open_ ∧
        ((role = .take ∧ old.state = .shedding) ∨ (role = .orphan ∧ old.state = .orphaned))
      ∃ t, exec .applyBid s = .next t ∧ t.mapu.intake = s.mapu.intake.tail ∧ (∀ x, x ≠ p → t.recAt x = b.recAt x) ∧
        t.mapu.roster = b.mapu.roster ∧ t.hwi = s.hwi ∧ t.life = s.life ∧
        (primary → t.recAt p = { old with state := .held, primary := some q }) ∧
        (shadow → t.recAt p = { old with shadow := some q, closing := none }) ∧
        (taker → t.recAt p = { old with taker := some q, closing := none }) ∧
        (¬primary → ¬shadow → ¬taker → t.mapu.map = b.mapu.map ∧ t.report = b.report.counted .staleBids ∧
          t.table.contexts = b.table.contexts ∧ (h.own = true → t.reservationFor p = none) ∧
          (h.own = false → t.table = b.table)) ∧
        (h.own = false → t.table.contexts = b.table.contexts ∧ t.released = b.released) ∧
        (∀ c k, h.own = true → s.life.station = .active → old.call = some k → b.ctx c = none →
          (∀ d, d < c → (b.ctx d).isSome = true) →
          (primary → t.ctx c = some (fresh .primary none none p k)) ∧
          (shadow → t.ctx c = some (fresh .warming (some .shadow) (some s.life.settings.warmUp) p k)) ∧
          (taker → t.ctx c = some (fresh .warming (some .taker) (some s.life.settings.warmUp) p k))) ∧
        (h.own = true → s.life.station = .active → primary ∨ shadow ∨ taker → t.reservationFor p = none) ∧
        (∀ k v, primary → h.own = false → b.waitingBid p = some (tag, .offer) → old.call = some k → old.shadow = none →
          q ≠ s.own → old.names s.own = false → b.reservationFor p = some v →
          let keeps := s.life.settings.shadowing = true ∧ b.load - v.cost + standbyCost k.mode ≤ b.budget
          (keeps → t.notice = b.notice ∧ t.table.reservations =
            b.table.reservations.map (fun x => if x.position = p then { x with cost := standbyCost k.mode } else x)) ∧
          (¬keeps → t.reservationFor p = none ∧ t.notice.outbox = b.notice.outbox.filter (fun e => match e.notice with
            | .bid x _ _ _ => decide (x ≠ p)
            | _ => true))) ∧
        (∀ d x, taker → h.own = false → s.life.station = .active → b.waitingBid p = none → old.state = .shedding →
          old.primary = some s.own → b.ctxFor p = some (d, x) →
          t.notice = (b.place (.hold p tag x.law x.modeSet x.downMode x.phase none)).notice)) ∧
  (∀ (s : State) (p : Pos), s.notice.inWindow = none →
      let r := s.recAt p
      let open_ := ∃ c, r.closing = some c ∧ atOrBefore s.mapu.mapTime c = true
      let fits (tag : CallTag) (role : BidRole) : Prop := r.call.map (fun k => k.tag) = some tag ∧
        match role with
        | .offer => (r.state = .offered ∧ open_) ∨
            (r.state = .held ∧ open_ ∧ r.shadow = none ∧ r.names s.own = false)
        | .shadow => r.state = .held ∧ r.shadow = none ∧ r.names s.own = false
        | .take => r.state = .shedding ∧ r.shadow = none ∧ r.taker = none ∧ open_ ∧ r.names s.own = false
        | .orphan => r.state = .orphaned ∧ r.shadow = none ∧ r.taker = none ∧ open_ ∧ r.names s.own = false
      let t := s.withdrawUnfit p
      (s.waitingBid p = none → t = s) ∧
        (∀ tag role, s.waitingBid p = some (tag, role) → fits tag role → t = s) ∧
        (∀ tag role, s.waitingBid p = some (tag, role) → ¬fits tag role →
          t.reservationFor p = none ∧ t.waitingBid p = none ∧ t.notice.outbox = s.notice.outbox.filter (fun e =>
            match e.notice with
            | .bid x _ _ _ => decide (x ≠ p)
            | _ => true)))

/-- TAKEN p (R122, R123, R12, R13). A valid one makes its sender primary with a switch frame, leaves the old primary
yielding where it is PRESENT or the own station, and is counted; the own contexts take the switch frame, and a φ equal
to the context's own changes nothing else. The own one, valid or stray, clears its mark (R148). A stray one of a
station that p does not name changes no record; a sender that p names is removed from it; and the own one releases the
own context. (The model's own part of it: log 27.) -/
def Obligations.TakenIsApplied : Prop :=
  ∀ (s : State) (r : Record) (h : Heard) (q : Station) (p : Pos) (tag : CallTag) (cause : TakenCause)
      (phase : BlockIndex),
    s.atTurn r → r.heard = some h → h.station = some q → h.notice = .taken p tag cause phase →
    let b := (s.beginRecord r).hearStation q
    let old := b.recAt p
    let valid := old.call.map (fun k => k.tag) = some tag ∧ (old.shadow = some q ∨ old.taker = some q) ∧
      old.switchFrame = none
    let yields (y : Station) : Prop := old.primary = some y ∧ (y = s.own ∨ b.isPresent y = true)
    ∃ t, exec .applyTaken s = .next t ∧ t.mapu.intake = s.mapu.intake.tail ∧ (∀ x, x ≠ p → t.recAt x = b.recAt x) ∧
      t.mapu.roster = b.mapu.roster ∧ t.hwi = s.hwi ∧ t.life = s.life ∧
      (h.own = true → t.takenMark p = false) ∧
      (valid → t.report.counter .takeovers = countUp (b.report.counter .takeovers)) ∧
      (∀ index, valid → s.hwi.blockIndex = some index →
        let then_ := (index.val + 160 - (s.hwi.frameCount - r.stamp).toNat % 160) % 160
        let switch := r.stamp + BitVec.ofNat 16 (160 + (phase.val + 40 + 160 - then_) % 160)
        (t.recAt p).state = .held ∧ (t.recAt p).primary = some q ∧ (t.recAt p).closing = none ∧
          (t.recAt p).switchFrame = some switch ∧
          (t.recAt p).call = old.call.map (fun k => { k with phase := phase }) ∧
          (t.recAt p).shadow = (if old.shadow = some q then none else old.shadow) ∧
          (t.recAt p).taker = (if old.taker = some q then none else old.taker) ∧
          (∀ y, yields y → (t.recAt p).yielding = some y) ∧ ((∀ y, ¬yields y) → (t.recAt p).yielding = none) ∧
          (∀ c x, q = s.own → old.primary ≠ some q → b.ctxFor p = some (c, x) →
            t.ctx c = some { x with
              phase := phase, switchFrame := some switch
              steppedLater := x.steppedLater && decide (phase = x.phase)
              due := { x.due with closeCheck := x.due.closeCheck && decide (phase = x.phase) } }) ∧
          (∀ c x, q ≠ s.own → yields s.own → b.ctxFor p = some (c, x) → x.state = .primary →
            t.ctx c = some { x with state := .yielding, switchFrame := some switch })) ∧
      (¬valid → t.report.counter .strays = countUp (b.report.counter .strays)) ∧
      (¬valid → old.names q = true → t.recAt p = old.without q r.stamp s.claimLength) ∧
      (¬valid → old.names q = false → t.mapu.map = b.mapu.map ∧ t.report = b.report.counted .strays ∧
        (h.own = false → t.table = b.table ∧ t.notice = b.notice ∧ t.engines = b.engines)) ∧
      (¬valid → h.own = true → ∀ c x, b.ctxFor p = some (c, x) → t.ctx c = none)

/-- SHED p (R124). A fitting one makes the record SHEDDING, without a closing stamp when a shadow stands ready and with
one a claim length after the SHED's otherwise; any other changes no record and is counted. No context changes. In an
ACTIVE station the own shadow whose context is STANDBY places the TAKEN of the hand-off (R143), and where a claim
window opens a station that p does not name bids to take it (R144). -/
def Obligations.ShedIsApplied : Prop :=
  ∀ (s : State) (r : Record) (h : Heard) (q : Station) (p : Pos) (tag : CallTag) (cost : BitVec 4),
    s.atTurn r → r.heard = some h → h.station = some q → h.notice = .shed p tag cost →
    let b := (s.beginRecord r).hearStation q
    let old := b.recAt p
    let fits := old.primary = some q ∧ old.call.map (fun k => k.tag) = some tag ∧ old.state = .held ∧
      old.switchFrame = none
    ∃ t, exec .applyShed s = .next t ∧ t.mapu.intake = s.mapu.intake.tail ∧ (∀ x, x ≠ p → t.recAt x = b.recAt x) ∧
      t.mapu.roster = b.mapu.roster ∧ t.hwi = s.hwi ∧ t.life = s.life ∧ t.table.contexts = b.table.contexts ∧
      t.released = b.released ∧
      (fits → old.shadow ≠ none → t.recAt p = { old with state := .shedding, closing := none }) ∧
      (fits → old.shadow = none →
        t.recAt p = { old with state := .shedding, closing := some (r.stamp + s.claimLength) }) ∧
      (∀ c x, fits → s.life.station = .active → b.waitingBid p = none → old.taker = none →
        old.shadow = some s.own → b.ctxFor p = some (c, x) →
        (x.state = .standby → t.notice = ((b.putRec p (t.recAt p)).placeTaken p .handOff).notice) ∧
        (x.state ≠ .standby → t.notice = b.notice)) ∧
      (fits → s.life.station = .active → b.waitingBid p = none → old.taker = none → old.shadow = none →
        old.names s.own = false → t.notice = ((b.putRec p (t.recAt p)).placeBid p .take).notice) ∧
      (¬fits → t.mapu.map = b.mapu.map ∧ t.report = b.report.counted .shedsRefused ∧ t.notice = b.notice ∧
        t.table = b.table)

/-- HOLD p (R125, R126), by what the record says of its sender, with the census mismatches that it counts; a
conflicting one releases the sender's context, in the own station too. The census (R150): with no HOLD waiting, a HOLD
restates the PRIMARY context whose position comes first after the census cursor, and the cursor moves there. (The
model's own part of it: logs 14, 24.) -/
def Obligations.HoldIsApplied : Prop :=
  (∀ (s : State) (r : Record) (h : Heard) (q : Station) (p : Pos) (tag : CallTag) (law : Law) (ms : ModeSet) (m : Mode)
        (phase : BlockIndex) (sh : Option Station),
      s.atTurn r → r.heard = some h → h.station = some q → h.notice = .hold p tag law ms m phase sh →
      let b := (s.beginRecord r).hearStation q
      let old := b.recAt p
      let told : Call := { tag := tag, law := law, modeSet := ms, mode := m, phase := phase,
                           offerer := old.call.bind (fun k => k.offerer) }
      let adopted (x : Station) : Prop := b.isPresent x = true ∧ x ≠ s.own
      let otherTag := old.call.map (fun k => k.tag) ≠ some tag
      let otherShadow := (∃ x, old.shadow = some x ∧ sh ≠ some x) ∨
        (old.shadow = none ∧ ∃ x, sh = some x ∧ ¬(old.state = .held ∧ adopted x ∧ old.names x = false))
      let conflicts := old.primary ≠ some q ∧ old.state ≠ .free ∧ ¬(old.state = .held ∧ old.yielding = some q)
      let before := b.report.counter .censusMismatches
      ∃ t, exec .applyHold s = .next t ∧ t.mapu.intake = s.mapu.intake.tail ∧ (∀ x, x ≠ p → t.recAt x = b.recAt x) ∧
        t.mapu.roster = b.mapu.roster ∧ t.hwi = s.hwi ∧ t.life = s.life ∧
        (old.primary = some q →
          (old.shadow ≠ none ∨ sh = none ∨ old.state ≠ .held → t.recAt p = { old with call := some told }) ∧
          (∀ x, old.shadow = none → sh = some x → old.state = .held → adopted x → old.names x = false →
            t.recAt p = { old with call := some told, shadow := some x, closing := none }) ∧
          (∀ x, old.shadow = none → sh = some x → ¬(adopted x ∧ old.names x = false) →
            t.recAt p = { old with call := some told }) ∧
          (¬otherTag → ¬otherShadow → t.report.counter .censusMismatches = before) ∧
          ((otherTag ∧ ¬otherShadow) ∨ (¬otherTag ∧ otherShadow) →
            t.report.counter .censusMismatches = countUp before) ∧
          (otherTag → otherShadow → t.report.counter .censusMismatches = countUp (countUp before))) ∧
        (old.primary ≠ some q → old.state = .free → h.own = false →
          (∀ x, sh = some x → adopted x → x ≠ q → t.recAt p = { PosRecord.free with
            state := .held, call := some { told with offerer := none }, primary := some q, shadow := some x }) ∧
          ((∀ x, sh = some x → ¬(adopted x ∧ x ≠ q)) → t.recAt p = { PosRecord.free with
            state := .held, call := some { told with offerer := none }, primary := some q })) ∧
        (old.primary ≠ some q → old.state = .free ∧ h.own = true ∨ old.state = .held ∧ old.yielding = some q →
          t.mapu.map = b.mapu.map ∧ t.report = b.report.counted .censusMismatches ∧ t.table = b.table ∧
            t.notice = b.notice ∧ t.pool = b.pool) ∧
        (conflicts → old.shadow ≠ some q → old.taker ≠ some q → h.own = false →
          t.mapu.map = b.mapu.map ∧ t.report = b.report.counted .censusMismatches ∧ t.table = b.table ∧
            t.notice = b.notice ∧ t.pool = b.pool) ∧
        (conflicts → old.shadow = some q ∨ old.taker = some q → t.recAt p = old.without q r.stamp s.claimLength) ∧
        (conflicts → old.shadow ≠ some q → old.taker ≠ some q → t.mapu.map = b.mapu.map) ∧
        (conflicts → t.report.counter .censusMismatches = countUp before ∧
          (h.own = true → ∀ c x, b.ctxFor p = some (c, x) → t.ctx c = none))) ∧
  (∀ s : State,
      let after (p : Pos) : Nat := (p.val + 255 - s.pool.cursor.val) % 256
      ((∃ e ∈ s.notice.outbox, e.notice.kindCode = 7) → s.census = s) ∧
        ((∀ e ∈ s.table.contexts, e.2.state ≠ .primary) → s.census = s) ∧
        (∀ c x, (∀ e ∈ s.notice.outbox, e.notice.kindCode ≠ 7) →
          (∀ e ∈ s.table.contexts, s.ctxFor e.2.position = some e) → (c, x) ∈ s.table.contexts → x.state = .primary →
          (∀ e ∈ s.table.contexts, e.2.state = .primary → after x.position ≤ after e.2.position) →
          let placed := s.place (.hold x.position x.callTag x.law x.modeSet x.downMode x.phase
            (s.recAt x.position).shadow)
          s.census = { placed with pool := { placed.pool with cursor := x.position } }))

/-! ### Queries -/

/-- A QUERY with the own station as target (R169 to R172, R177): a REPORT is placed with the value its item asks for,
item 0x03 then clears the flags, and the record leaves the intake. The words of item 0x01 and of item 0x40 are laid out
field by field, each a width and a value, from the most significant end of 20 or 19 bits, with the bits below them 0.
The take-ups that are open come before the answer to item 0x01, whose word 3 therefore shows no idle engine beside a
waiting job (R66). For a position's status the word the cursor has reached for p, or word 0, is reported and the cursor
moves on; after the last word, 16 with an own context for p and 4 without, and from a word beyond the last, it goes
back to word 0. (The model's own part of it: logs 1, 3.) -/
def Obligations.QueriesAreAnswered : Prop :=
  let pack (w : Nat) (fields : List (Nat × Nat)) : Nat :=
    fields.foldl (fun n f => n * 2 ^ f.1 + f.2 % 2 ^ f.1) 0 * 2 ^ (w - (fields.map Prod.fst).sum)
  let bit (x : Bool) : Nat := if x then 1 else 0
  let stationOr15 (x : Option Station) : Nat := (x.map (fun q => q.val)).getD 15
  (∀ (s : State) (r : Record) (h : Heard) (argument item : BitVec 8),
      s.atTurn r → r.heard = some h → h.notice = .query argument s.own item →
      let b := s.beginRecord r
      let done (t : State) : State := { t with mapu := { t.mapu with intake := s.mapu.intake.tail } }
      let answered (u : State) (v : BitVec 24) : State := u.place (.report 0 item v)
      let unknown (u : State) : State :=
        u.place (.report 0 0xFF#8 (BitVec.ofNat 24 (item.toNat * 256 + argument.toNat)))
      let age (q : Station) : Nat := if (b.rosterAt q).state = .unknown then 0 else (b.rosterAt q).age
      let word (w : Nat) : List (Nat × Nat) := match w with
        | 0 => [(2, match b.life.station with
              | .start => 0
              | .listen => 1
              | .active => 2
              | .retreat => 3),
            (2, match b.hwi.timing with
              | .seek => 0
              | .prove => 1
              | .good => 2),
            (3, b.life.number.val),
            (3, match b.life.result with
              | .none => 0
              | .image => 1
              | .partialImage => 2
              | .bad => 3
              | .absent => 4),
            (3, match b.life.lastCause with
              | .none => 0
              | .timing => 1
              | .declared => 2
              | .abandoned => 3
              | .duplicate => 4),
            (1, bit b.mapu.mapComplete)]
        | 1 => [(8, min b.load 255), (8, min (b.budget - b.load) 255)]
        | 2 => [(7, 64 - b.table.contexts.length - b.table.reservations.length), (7, b.table.reservations.length)]
        | 3 => [(8, b.takeUps.engines.queue.length), (3, b.takeUps.engines.running.length),
            (8, min b.engines.lateCount 255)]
        | 4 => [(5, b.notice.outbox.length), (4, b.mapu.intake.length), (7, b.mapu.listenCount)]
        | 5 => [(8, b.life.quietCount), (5, if b.hwi.timing = .prove then b.hwi.provingRun else 0)]
        | 6 => [(5, b.pool.shedGrace), (7, b.pool.holdOff)]
        | 7 => [(1, bit b.pool.shedding.isSome), (8, (b.pool.shedding.map (fun p => p.val)).getD 0)]
        | 8 => (List.finRange 8).map (fun q => (2, match (b.rosterAt q).state with
              | .unknown => 0
              | .present => 1
              | .lost => 2))
        | 9 => [(8, age 0), (8, age 1)]
        | 10 => [(8, age 2), (8, age 3)]
        | 11 => [(8, age 4), (8, age 5)]
        | _ => [(8, age 6), (8, age 7)]
      (item = 0x01#8 → argument.toNat ≤ 12 →
        exec .queryStationSummary s = .next (done (answered b.takeUps
          (BitVec.ofNat 24 (argument.toNat * 2 ^ 20 + pack 20 (word argument.toNat)))))) ∧
      (item = 0x01#8 → 12 < argument.toNat → exec .queryStationSummary s = .next (done (unknown b.takeUps))) ∧
      (item = 0x02#8 → exec .queryFaultFlags s = .next (done (answered b (b.report.flags.setWidth 24)))) ∧
      (item = 0x03#8 → ∃ t, exec .queryClearFlags s = .next t ∧ t.report.flags = 0 ∧ t.alertLow = false ∧
        t.notice = (answered b (b.report.flags.setWidth 24)).notice ∧ t.mapu.intake = s.mapu.intake.tail) ∧
      (∀ i : Fin 32, item.toNat = 0x10 + i.val →
        exec .queryCounter s = .next (done (answered b (b.report.counterAt i)))) ∧
      (item ≠ 0x01#8 → item ≠ 0x02#8 → item ≠ 0x03#8 → item ≠ 0x40#8 → item.toNat < 0x10 ∨ 0x30 ≤ item.toNat →
        exec .queryUnknownItem s = .next (done (unknown b)))) ∧
  (∀ (s : State) (r : Record) (h : Heard) (argument : BitVec 8) (p : Pos),
      s.atTurn r → r.heard = some h → h.notice = .query argument s.own 0x40#8 → p.val = argument.toNat →
      let b := s.beginRecord r
      let rec_ := b.recAt p
      let call (f : Call → Nat) : Nat := (rec_.call.map f).getD 0
      let frame (f : Option FrameCount) : Nat := (f.map (fun x => x.toNat)).getD 0
      let recordWord (w : Nat) : List (Nat × Nat) := match w with
        | 0 => [(3, match rec_.state with
              | .free => 0
              | .offered => 1
              | .held => 2
              | .shedding => 3
              | .orphaned => 4),
            (4, stationOr15 rec_.primary), (4, stationOr15 rec_.shadow), (4, stationOr15 rec_.taker),
            (4, stationOr15 rec_.yielding)]
        | 1 => [(12, call (fun k => k.tag.toNat)), (1, call (fun k => if k.law = .muLaw then 1 else 0)),
            (4, call (fun k => k.modeSet.toNat)), (2, call (fun k => k.mode.val))]
        | 2 => [(8, call (fun k => k.phase.val)),
            (4, ((rec_.call.bind (fun k => k.offerer)).map (fun o => o.toNat)).getD 15),
            (1, bit rec_.closing.isSome), (1, bit rec_.switchFrame.isSome)]
        | 3 => [(16, frame rec_.switchFrame)]
        | _ => [(16, frame rec_.closing)]
      let contextWord (c : CtxNum) (x : Context) (w : Nat) : List (Nat × Nat) := match w with
        | 5 => [(6, c.val),
            (3, match x.state with
              | .warming => 1
              | .standby => 2
              | .primary => 3
              | .yielding => 4),
            (2, match x.role with
              | none => 0
              | some .shadow => 1
              | some .taker => 2),
            (4, x.warmUp.getD 15)]
        | 6 => [(2, x.downMode.val), (3, (x.pendingDownMode.map (fun m => m.val)).getD 7), (2, x.upMode.val),
            (8, x.phase.val), (4, x.pendingShift.toNat)]
        | 7 => [(2, match x.rxState with
              | .hunt => 0
              | .confirm => 1
              | .synced => 2),
            (8, x.markerPhase.val), (2, x.missCount), (2, x.ring.length), (1, bit x.phaseLimit),
            (1, bit x.emitting.isSome), (1, bit x.ready.isSome)]
        | 8 => [(2, match x.playState with
              | .priming => 0
              | .starting => 1
              | .running => 2),
            (8, x.playout.length), (1, if x.quietState = .quiet then 1 else 0), (5, x.concealLevel),
            (1, bit x.streamLost)]
        | _ => [(16, x.needsWithoutGood)]
      let counts (k : CtxCounters) : List (BitVec 24) :=
        [k.good, k.bad, k.missing, k.discarded, k.trimmed, k.lateEncode, k.lateDecode]
      let last := if (b.ctxFor p).isSome then 16 else 4
      ∀ w : Nat, w ≤ last → b.report.cursor = some (p, w) ∨ (w = 0 ∧ ∀ v, v ≤ last → b.report.cursor ≠ some (p, v)) →
        ∃ (t : State) (value : BitVec 24), exec .queryPositionStatus s = .next t ∧
          t.notice = (b.place (.report p 0x40#8 value)).notice ∧
          t.report.cursor = some (p, if w = last then 0 else w + 1) ∧ t.report.flags = b.report.flags ∧
          t.mapu.intake = s.mapu.intake.tail ∧ t.mapu.map = b.mapu.map ∧ t.table.contexts = b.table.contexts ∧
          (w ≤ 4 → value.toNat = w * 2 ^ 19 + pack 19 (recordWord w)) ∧
          (∀ c x, b.ctxFor p = some (c, x) →
            (5 ≤ w → w ≤ 9 → value.toNat = w * 2 ^ 19 + pack 19 (contextWord c x w)) ∧
            (10 ≤ w → value.toNat =
              (w - 5) * 2 ^ 20 + min ((counts x.counters).getD (w - 10) 0).toNat 1048575)))

/-! ### Outputs and flags -/

/-- SO slot p and PO nibble p carry the presented sample and nibble of the station's context for p while it is PRIMARY
or YIELDING and are not driven otherwise (R84). SO shows the 8 bits of slot p in bit-times 8p to 8p + 7 and PO the 4
bits of nibble p in bit-times 4p to 4p + 3, the most significant first, and both are released in every other bit-time;
what a context released in this frame drove stays until the bit-time of its release. ALERTN is low exactly while a flag
is set (R168); a raise of a clear flag sets that flag alone, pulls ALERTN low and, in LISTEN or ACTIVE, places the
REPORT of the flags as it leaves them; a raise of a set flag changes nothing (R167, R173). -/
def Obligations.OutputsAndFlags : Prop :=
  ∀ s : State,
    (∀ p, s.ctxFor p = none → s.soSlot p = none ∧ s.poNibble p = none) ∧
    (∀ p c x, s.ctxFor p = some (c, x) → x.state = .primary ∨ x.state = .yielding →
      s.soSlot p = x.presentedSample ∧ s.poNibble p = x.presentedNibble) ∧
    (∀ p c x, s.ctxFor p = some (c, x) → x.state ≠ .primary → x.state ≠ .yielding →
      s.soSlot p = none ∧ s.poNibble p = none) ∧
    (s.released = [] → ∀ (p : Pos) (i : Nat),
      (i < 8 → s.soLevel (8 * p.val + i) = (s.soSlot p).map (fun v => v.getLsbD (7 - i))) ∧
      (i < 4 → s.poLevel (4 * p.val + i) = (s.poNibble p).map (fun v => v.getLsbD (3 - i)))) ∧
    (∀ (p : Pos) (r : ReleasedSlot) (i : Nat), s.released.find? (fun r => decide (r.position = p)) = some r →
      (i < 8 → s.soLevel (8 * p.val + i) =
        (if 8 * p.val + i < r.bitTime then r.sample else s.soSlot p).map (fun v => v.getLsbD (7 - i))) ∧
      (i < 4 → s.poLevel (4 * p.val + i) =
        (if 4 * p.val + i < r.bitTime then r.nibble else s.poNibble p).map (fun v => v.getLsbD (3 - i)))) ∧
    (∀ b, (2048 ≤ b → s.soLevel b = none) ∧ (1024 ≤ b → s.poLevel b = none)) ∧
    (s.alertLow = true ↔ ∃ f, s.report.isSet f = true) ∧
    (∀ f, s.report.isSet f = true → s.raiseFlag f = s) ∧
    (∀ f, s.report.isSet f = false →
      let t := s.raiseFlag f
      let flags := s.report.flags ||| BitVec.twoPow 8 (flagOrder f)
      t.report.flags = flags ∧ t.report.isSet f = true ∧
        (∀ g, g ≠ f → t.report.isSet g = s.report.isSet g) ∧ t.alertLow = true ∧
        (s.participates = true →
          t = ({ s with report := { s.report with flags := flags } } : State).place
            (.report 0 0x02#8 (flags.setWidth 24))) ∧
        (s.participates = false → t = { s with report := { s.report with flags := flags } }))

/-! ### Contexts -/

/-- The switch frame of a context (R14): a standby copy becomes PRIMARY with role, warm-up and switch frame gone; a
YIELDING context is released, with its slot and nibble from then on (R84); in any other frame the command finds nothing
to do. (The model's own part of it: logs 5, 33.) -/
def Obligations.ContextSwitches : Prop :=
  ∀ (s : State) (c : CtxNum) (x : Context), s.life.held = false → s.ctx c = some x →
    (x.switchFrame = some s.hwi.frameCount → x.state = .warming ∨ x.state = .standby →
      ∃ t, exec (.switchFrame c) s = .next t ∧
        t.ctx c = some { x with state := .primary, role := none, warmUp := none, switchFrame := none } ∧
        (∀ d, d ≠ c → t.ctx d = s.ctx d) ∧ t = { s with table := { s.table with contexts := t.table.contexts } }) ∧
    (x.switchFrame = some s.hwi.frameCount → x.state = .yielding →
      ∃ t, exec (.switchFrame c) s = .next t ∧ t.ctx c = none ∧ (∀ d, d ≠ c → t.ctx d = s.ctx d) ∧
        t.mapu = s.mapu ∧ t.hwi = s.hwi ∧ t.life = s.life ∧ t.report = s.report ∧
        t.released = s.released ++ [x.releasedAt s.hwi.hclkCount]) ∧
    (x.switchFrame ≠ some s.hwi.frameCount → exec (.switchFrame c) s = .next s)

/-- Releasing a context (R16): it becomes FREE, its jobs leave the queue and the engines without result, and every
notice for its position leaves the outbox. SO and PO (R84): the bit-times of its slot and nibble that the frame has not
come to are released, a slot or nibble in progress mid-way, and every other bit-time stands. (The model's own part of
it: log 33.) -/
def Obligations.ReleaseOfContext : Prop :=
  ∀ (s : State) (c : CtxNum) (x : Context), s.ctx c = some x → s.notice.inWindow = none →
    let t := s.releaseCtx c
    t.ctx c = none ∧ (∀ d, d ≠ c → t.ctx d = s.ctx d) ∧
      t.engines.queue = s.engines.queue.filter (fun j => decide (j.ctx ≠ c)) ∧
      t.engines.running = s.engines.running.filter (fun e => decide (e.2.job.ctx ≠ c)) ∧
      t.engines.lateCount = s.engines.lateCount ∧
      t.notice.outbox = s.notice.outbox.filter (fun e => !(Notice.isFor x.position e.notice)) ∧
      t.takenMark x.position = false ∧ t.pool.shedding ≠ some x.position ∧ t.mapu = s.mapu ∧ t.report = s.report ∧
      t.hwi = s.hwi ∧ t.life = s.life ∧
      t.released = s.released ++ [{
        position := x.position, bitTime := s.hwi.hclkCount
        sample := if x.state = .primary ∨ x.state = .yielding then x.presentedSample else none
        nibble := if x.state = .primary ∨ x.state = .yielding then x.presentedNibble else none }] ∧
      (s.canonical → (∀ e ∈ s.table.contexts, e.2.position = x.position → e.1 = c) →
        (∀ r ∈ s.released, r.position ≠ x.position) → ∀ b,
        (b / 8 = x.position.val → t.soLevel b = if b < s.hwi.hclkCount then s.soLevel b else none) ∧
        (b / 8 ≠ x.position.val → t.soLevel b = s.soLevel b) ∧
        (b / 4 = x.position.val → t.poLevel b = if b < s.hwi.hclkCount then s.poLevel b else none) ∧
        (b / 4 ≠ x.position.val → t.poLevel b = s.poLevel b))

/-- The end of a warm-up (R11, R143, R145): the context becomes STANDBY with its role kept; in an ACTIVE station whose
position is SHEDDING with the own station as shadow or taker, the TAKEN of the hand-off is placed. A decision to
announce a takeover (R148) sets the mark of p and places TAKEN p with the record's call tag and the context's φ; while
the mark is set, or the context holds a switch frame, there is none. The TAKENs due at a block event (R148), and their
placing in rising order of position. (The model's own part of it: logs 1, 5, 31.) -/
def Obligations.WarmUpEnds : Prop :=
  (∀ (s : State) (c : CtxNum) (x : Context), s.life.held = false → s.ctx c = some x →
      (x.state = .warming → x.warmUp = some 0 →
        let stands : State := s.putCtx c { x with state := .standby, warmUp := none }
        let r := s.recAt x.position
        let handsOff := s.life.station = .active ∧ r.state = .shedding ∧
          (r.shadow = some s.own ∨ r.taker = some s.own)
        ∃ t, exec (.warmUpEnd c) s = .next t ∧ t.ctx c = some { x with state := .standby, warmUp := none } ∧
          (∀ d, d ≠ c → t.ctx d = s.ctx d) ∧ t.mapu = s.mapu ∧ t.hwi = s.hwi ∧ t.life = s.life ∧
          t.engines = s.engines ∧ t.released = s.released ∧
          (handsOff → t = stands.placeTaken x.position .handOff) ∧
          (¬handsOff → t = { s with table := { s.table with contexts := t.table.contexts } })) ∧
      (x.state ≠ .warming ∨ x.warmUp ≠ some 0 → exec (.warmUpEnd c) s = .next s)) ∧
  (∀ (s : State) (p : Pos) (cause : TakenCause),
      (∀ c x k, s.ctxFor p = some (c, x) → (s.recAt p).call = some k → s.takenMark p = false → x.switchFrame = none →
        ∃ marks, s.placeTaken p cause =
            ({ s with pool := { s.pool with takenMarks := marks } } : State).place (.taken p k.tag cause x.phase) ∧
          ∀ q, (Table.lookup marks q).isSome = (decide (q = p) || s.takenMark q)) ∧
      (s.takenMark p = true → s.placeTaken p cause = s) ∧
      (∀ c x, s.ctxFor p = some (c, x) → x.switchFrame ≠ none → s.placeTaken p cause = s)) ∧
  (∀ (s : State) (p : Pos),
      let r := s.recAt p
      (s.takenDue p = some .handOff ↔ (∃ c x, s.ctxFor p = some (c, x) ∧ x.state = .standby) ∧ r.state = .shedding ∧
        (r.shadow = some s.own ∨ r.taker = some s.own)) ∧
      (s.takenDue p = some .promotion ↔ (∃ e, s.ctxFor p = some e) ∧ r.state = .orphaned ∧ r.shadow = some s.own) ∧
      (s.takenDue p = some .orphan ↔ (∃ e, s.ctxFor p = some e) ∧ r.state = .orphaned ∧ r.shadow ≠ some s.own ∧
        r.taker = some s.own)) ∧
  (∀ s : State, s.canonical →
      s.placeTakensDue = (List.finRange 256).foldl (fun u p => match u.takenDue p with
        | some cause => u.placeTaken p cause
        | none => u) s)

/-! ### The Pool Controller -/

/-- The shed decision (R141). A candidate is a PRIMARY context with a HELD record without a switch frame; the one
chosen has the highest cost among the candidates, and among those the lowest position; a peer has room for it when it
is PRESENT, active, with a free context and headroom for its cost. With the conditions met, a candidate, and a shadow
in its record or a peer with room, the shed in progress is the position chosen, the grace count becomes 0 and a SHED
with the context's cost is placed, before the other decisions of the block event are taken; otherwise nothing is placed
and those decisions are taken. (The model's own part of it: logs 4, 5, 12.) -/
def Obligations.ShedIsDecided : Prop :=
  let candidate (s : State) (x : Context) : Prop :=
    x.state = .primary ∧ (s.recAt x.position).state = .held ∧ (s.recAt x.position).switchFrame = none
  let chosen (s : State) (x : Context) : Prop :=
    (∃ c, (c, x) ∈ s.table.contexts) ∧ candidate s x ∧
      ∀ c y, (c, y) ∈ s.table.contexts → candidate s y → y.cost < x.cost ∨ (y.cost = x.cost ∧ x.position ≤ y.position)
  let due (s : State) : Prop :=
    s.pool.shedGrace = s.life.settings.shedGrace ∧ s.pool.holdOff = 0 ∧ s.pool.shedding = none
  let room (s : State) (x : Context) : Prop := (s.recAt x.position).shadow ≠ none ∨
    ∃ q v, q ≠ s.own ∧ (s.rosterAt q).state = .present ∧ (s.rosterAt q).last = some v ∧ v.active = true ∧
      1 ≤ v.freeContexts.val ∧ x.cost ≤ v.headroom.toNat
  (∀ (s : State) (x : Context) (k : Call), s.life.held = false → s.pool.stage = .shed → due s → chosen s x → room s x →
      (s.recAt x.position).call = some k →
      let decided : State := { s with pool := { s.pool with shedding := some x.position, shedGrace := 0 } }
      let placed := decided.place (.shed x.position k.tag (BitVec.ofNat 4 x.cost))
      exec .shedDecision s = .next ({ placed with pool := { placed.pool with stage := .idle } } : State).afterShed) ∧
  (∀ s : State, s.life.held = false → s.pool.stage = .shed →
      ¬due s ∨ (∀ c x, (c, x) ∈ s.table.contexts → ¬candidate s x) ∨ (∃ x, chosen s x ∧ ¬room s x) →
      exec .shedDecision s = .next ({ s with pool := { s.pool with stage := .idle } } : State).afterShed) ∧
  (∀ s : State, s.pool.stage ≠ .shed → exec .shedDecision s = .next s) ∧
  (∀ (s : State) (x : Context), s.shedChoice = some x → chosen s x)

/-- The loss declaration (R151, R130): a peer is due when it is PRESENT, its age has reached 4 × heartbeat period + 2
and no LOST of it waits; every due peer is declared, in rising order of number, by a LOST with its age. (The model's
own part of it: logs 4, 5.) -/
def Obligations.LossIsDeclared : Prop :=
  (∀ (s : State) (q : Station),
      s.lossDue q = true ↔ q ≠ s.own ∧ (s.rosterAt q).state = .present ∧
        4 * s.life.settings.heartbeatPeriod + 2 ≤ (s.rosterAt q).age ∧
        ∀ e ∈ s.notice.outbox, ∀ age, e.notice ≠ .lost q age) ∧
  (∀ s : State, s.life.held = false →
      (s.pool.stage = .loss →
        let due := (List.finRange 8).filter (fun q => s.lossDue q)
        let placed := due.foldl (fun u q => u.place (.lost q (BitVec.ofNat 8 (s.rosterAt q).age))) s
        exec .declareLost s = .next ({ placed with pool := { placed.pool with stage := .idle } } : State).afterLoss) ∧
      (s.pool.stage ≠ .loss → exec .declareLost s = .next s))

/-- The heartbeat (R149): a PRESENT with the load, the headroom and the free contexts at its placement, fresh while
fresh pending is set and active in ACTIVE; the count becomes 0. At a block event, after the loss examination, the count
goes up and the heartbeat follows when it reaches the period; the roster's ageing comes before it where it was left for
after the examination (R130, R151). The load is the sum of the costs of the contexts and of the reservations (R7), a
context's cost that of its state and of the higher of its two modes (R6), the headroom what the budget leaves of it,
the free contexts 64 less both (R149), and a figure in a notice is capped at 255. (The model's own part of it: log 4.)
-/
def Obligations.HeartbeatIsPlaced : Prop :=
  (∀ m : Mode, primaryCost m = [3, 3, 4, 5].getD m.val 0 ∧ standbyCost m = [2, 2, 3, 3].getD m.val 0) ∧
  (∀ x : Context, x.cost =
      if x.state = .primary ∨ x.state = .yielding then primaryCost (max x.downMode x.upMode)
      else standbyCost (max x.downMode x.upMode)) ∧
  (∀ s : State,
      s.load = (s.table.contexts.map (fun e => e.2.cost)).sum + (s.table.reservations.map (fun r => r.cost)).sum ∧
        s.headroom = s.life.settings.budget - s.load ∧
        s.freeContexts.val = 64 - s.table.contexts.length - s.table.reservations.length) ∧
  (∀ n : Nat, (capped255 n).toNat = min n 255) ∧
  (∀ s : State, s.life.held = false → s.pool.stage = .heartbeat →
      let present : Notice := .present (capped255 s.load) (capped255 s.headroom) s.freeContexts s.pool.freshPending
        (decide (s.life.station = .active))
      ∃ t, exec .heartbeat s = .next t ∧ t.notice = (s.place present).notice ∧
        t.pool = { (s.place present).pool with heartbeat := 0, stage := .idle } ∧ t.hwi = s.hwi ∧
        t.engines = s.engines ∧ t.mapu = s.mapu ∧ t.life = s.life ∧ t.table.contexts = s.table.contexts ∧
        t.released = s.released) ∧
  (∀ s : State,
      let t := s.afterLoss
      t = { s with
        mapu := { s.mapu with roster := t.mapu.roster }
        pool := { s.pool with
          heartbeat := s.pool.heartbeat + 1, ageingDue := false
          stage := if s.life.settings.heartbeatPeriod ≤ s.pool.heartbeat + 1 then .heartbeat else .idle } } ∧
        (s.pool.ageingDue = false → t.mapu.roster = s.mapu.roster) ∧
        (s.pool.ageingDue = true → ∀ q, t.rosterAt q =
          if (s.rosterAt q).state = .present ∧ q ≠ s.own then
            { s.rosterAt q with age := min ((s.rosterAt q).age + 1) 255 } else s.rosterAt q))

/-! ### The uplink -/

/-- The marker judgement (R21, R22) of a period whose judgement is due, with what it counts (R22, R26). (The model's
own part of it: log 1.) -/
def Obligations.MarkerIsJudged : Prop :=
  ∀ (s : State) (c : CtxNum) (x : Context), s.life.held = false → s.ctx c = some x → x.due.judgement = true →
    let judged : Context := { x with due := { x.due with judgement := false } }
    let found := x.collected.take 4 = [0xA#4, 0x5#4, 0x3#4, 0xC#4]
    let missed := if x.drives then (s.report.counted .badParcels).counted .syncLosses else s.report
    ∃ t, exec (.markerJudgement c) s = .next t ∧ (∀ d, d ≠ c → t.ctx d = s.ctx d) ∧ t.hwi = s.hwi ∧
      t.notice = s.notice ∧ t.mapu = s.mapu ∧ t.pool = s.pool ∧ t.life = s.life ∧ t.released = s.released ∧
      (x.rxState = .confirm → found → t.ctx c = some { judged with rxState := .synced, missCount := 0 } ∧
        t.report = s.report ∧ t.engines = s.engines) ∧
      (x.rxState = .confirm → ¬found →
        t.ctx c = some { judged with rxState := .hunt, missCount := 0, collected := [] } ∧ t.engines = s.engines ∧
        t.report = if x.drives then s.report.counted .falseMarkers else s.report) ∧
      (x.rxState = .synced → found → t.ctx c = some { judged with missCount := 0 } ∧ t.report = s.report ∧
        t.engines = s.engines) ∧
      (x.rxState = .synced → ¬found → x.missCount < 2 →
        t.ctx c = some { judged with missCount := x.missCount + 1 } ∧ t.report = s.report ∧ t.engines = s.engines) ∧
      (x.rxState = .synced → ¬found → 2 ≤ x.missCount → ∃ y, t.ctx c = some y ∧ y.rxState = .hunt ∧ y.missCount = 0 ∧
        y.collected = [] ∧ y.counters.bad = countUp x.counters.bad ∧
        (x.ring.length < 3 → t.report = missed ∧
          y.ring = x.ring ++ [{ result := .bad .marker, completed := s.hwi.frameCount }]) ∧
        (3 ≤ x.ring.length → y.ring = x.ring ∧ y.counters.discarded = countUp x.counters.discarded ∧
          t.report = if x.drives then missed.counted .ringDiscards else s.report))

/-- The five checks of a parcel in their order (R24, R25). -/
def Obligations.ParcelChecks : Prop :=
  ∀ (modes : ModeSet) (nibbles : List Nibble),
    let byte (j : Nat) : Byte := (nibbles.getD (2 * j) 0#4).append (nibbles.getD (2 * j + 1) 0#4)
    let kindField := (byte 2).toNat / 64
    let modeField := (byte 2).toNat / 16 % 4
    let len := if kindField = 0 then [15, 20, 25, 33].getD modeField 0 else if kindField = 1 then 5 else 0
    let covered := (List.range (2 + len)).map (fun i => byte (2 + i))
    let check := (byte (4 + len)).append (byte (5 + len))
    let markerBad := nibbles.take 4 ≠ [0xA#4, 0x5#4, 0x3#4, 0xC#4]
    let headerBad := kindField = 3
    let crcBad := crc16 covered ≠ check
    let modeBad := kindField = 0 ∧ modes.getLsbD modeField = false
    let impaired := (byte 2).getLsbD 1 = true
    (markerBad → judgeParcel modes nibbles = .bad .marker) ∧
      (¬markerBad → headerBad → judgeParcel modes nibbles = .bad .header) ∧
      (¬markerBad → ¬headerBad → crcBad → judgeParcel modes nibbles = .bad .crc) ∧
      (¬markerBad → ¬headerBad → ¬crcBad → modeBad → judgeParcel modes nibbles = .bad .mode) ∧
      (¬markerBad → ¬headerBad → ¬crcBad → ¬modeBad → impaired → judgeParcel modes nibbles = .bad .impaired) ∧
      (¬markerBad → ¬headerBad → ¬crcBad → ¬modeBad → ¬impaired → ∃ g, judgeParcel modes nibbles = .good g ∧
        g.mode.val = modeField ∧ g.rateRequest.val = (byte 2).toNat / 4 % 4 ∧ g.advance = (byte 3).extractLsb' 4 4 ∧
        g.payload = (List.range len).map (fun i => byte (4 + i)))

/-- What one station emits, another receives (R24, R25, R56, R176): a parcel built with a payload of its kind's length
and the impaired flag clear is judged GOOD with its kind, mode, payload and rate request and a zero advance request, by
every receiver, whose call has the mode if the parcel is SPEECH; with the flag set it is BAD as impaired. -/
def Obligations.ParcelsRoundTrip : Prop :=
  ∀ (k : ParcelKind) (m rate : Mode) (impaired filler : Bool) (payload : List Byte) (modes : ModeSet),
    payload.length = payloadLength k m → (k = .speech → ModeSet.member modes m = true) →
    let bytes := buildParcel k m rate impaired filler payload
    bytes.length = 80 ∧
      judgeParcel modes ((List.range 160).map (parcelNibble bytes)) =
        if impaired then .bad .impaired
        else .good { kind := k, mode := m, payload := payload, rateRequest := rate, advance := 0 }

/-- The completion of a parcel. A GOOD one (R26 to R30): counted, its rate request, advance request and mode taken, a
rate request outside the mode set refused and counted, its result delivered to the ring. A BAD one (R21, R22, R26,
R30): counted, and delivered to the ring in SYNCED only. A delivered result joins the ring while that has room and is
otherwise discarded and counted (R30); the one that joins an empty ring in PRIMING is posted for decoding at once, with
a deadline 70 frames on and after the take-ups that are open (R32, R66), and needs without good become 0 where it is
GOOD (R40); one that joins in STARTING makes the playout RUNNING (R33). Every count is station-wide too while the
context drives. (The model's own part of it: logs 1, 35.) -/
def Obligations.ParcelCompletes : Prop :=
  let counts (x : Context) (k : Counter) (r : ReportUnit) : ReportUnit := if x.drives then r.counted k else r
  let first (x : Context) : Prop := x.playState = .priming ∧ x.ring = []
  let delivered (s t : State) (c : CtxNum) (x y : Context) (r : ParcelResult) : Prop :=
    let job : Job :=
      { ctx := c, dir := .decodeSide, kind := .decode r x.quietState x.concealLevel,
        deadline := s.hwi.frameCount + 70, service := y.cost, cls := if x.drives then .primary else .standby }
    (x.ring.length < 3 →
      y.ring = x.ring ++ [{ result := r, completed := s.hwi.frameCount }] ∧
        y.counters.discarded = x.counters.discarded ∧
        y.playState = if x.playState = .starting then .running else x.playState) ∧
      (3 ≤ x.ring.length → y.ring = x.ring ∧ y.counters.discarded = countUp x.counters.discarded ∧
        y.playState = x.playState) ∧
      (first x → t.engines =
        { s.takeUps.engines with queue := insertJob s.hwi.frameCount job s.takeUps.engines.queue }) ∧
      (¬first x → t.engines = s.engines)
  (∀ (s : State) (c : CtxNum) (x : Context) (g : GoodParcel), s.life.held = false → s.ctx c = some x →
      x.due.completion = true → x.rxState ≠ .hunt → judgeParcel x.modeSet x.collected = .good g →
      let member := ModeSet.member x.modeSet g.rateRequest
      let requested := if member then counts x .goodParcels s.report
        else counts x .rateRequestsRefused (counts x .goodParcels s.report)
      ∃ t y, exec (.parcelCompletion c) s = .next t ∧ t.ctx c = some y ∧ (∀ d, d ≠ c → t.ctx d = s.ctx d) ∧
        t.hwi = s.hwi ∧ t.notice = s.notice ∧ t.mapu = s.mapu ∧ t.pool = s.pool ∧ t.life = s.life ∧
        t.released = s.released ∧
        y.counters.good = countUp x.counters.good ∧ y.pendingShift = g.advance ∧ y.due.completion = false ∧
        y.upMode = (if g.kind = .speech then g.mode else x.upMode) ∧
        (member = true →
          y.pendingDownMode = if g.rateRequest = x.downMode then none else some g.rateRequest) ∧
        (member = false → y.pendingDownMode = x.pendingDownMode) ∧
        delivered s t c x y (.good g.kind g.mode g.payload) ∧
        (first x → y.needsWithoutGood = 0 ∧ y.streamLost = false) ∧
        (¬first x → y.needsWithoutGood = x.needsWithoutGood ∧ y.streamLost = x.streamLost) ∧
        t.report = (if x.ring.length < 3 then requested else counts x .ringDiscards requested) ∧
        y.rxState = x.rxState ∧ y.state = x.state ∧ y.phase = x.phase ∧ y.playout = x.playout ∧
        y.downMode = x.downMode) ∧
  (∀ (s : State) (c : CtxNum) (x : Context) (reason : BadReason), s.life.held = false → s.ctx c = some x →
      x.due.completion = true → x.rxState ≠ .hunt → judgeParcel x.modeSet x.collected = .bad reason →
      let bad := counts x .badParcels s.report
      ∃ t y, exec (.parcelCompletion c) s = .next t ∧ t.ctx c = some y ∧ (∀ d, d ≠ c → t.ctx d = s.ctx d) ∧
        t.hwi = s.hwi ∧ t.notice = s.notice ∧ t.mapu = s.mapu ∧ t.pool = s.pool ∧ t.life = s.life ∧
        t.released = s.released ∧
        y.counters.bad = countUp x.counters.bad ∧ y.counters.good = x.counters.good ∧
        y.pendingShift = x.pendingShift ∧ y.upMode = x.upMode ∧ y.pendingDownMode = x.pendingDownMode ∧
        y.needsWithoutGood = x.needsWithoutGood ∧ y.streamLost = x.streamLost ∧
        (x.rxState = .confirm → y.ring = x.ring ∧ t.engines = s.engines ∧ y.playState = x.playState ∧
          y.counters.discarded = x.counters.discarded ∧ t.report = bad) ∧
        (x.rxState = .synced → delivered s t c x y (.bad reason) ∧
          t.report = if x.ring.length < 3 then bad else counts x .ringDiscards bad) ∧
        y.rxState = x.rxState)

/-- A need (R34, R35, R40, R41): a full ring loses its oldest entry, counted as trimmed; the oldest entry then left is
posted for decoding, or, from an empty ring, a concealment or comfort noise by the quiet state; the job's deadline is
70 frames on. The take-ups that are open come before the posting (R66). Needs without good go up unless the entry is
GOOD; in a PRIMARY context that reaches the limit with the episode flag clear, the episode begins: STREAM_LOST is
raised, and a REPORT of item 0x41 with the count is placed (R41, R173). (The model's own part of it: log 1.) -/
def Obligations.NeedPostsAJob : Prop :=
  ∀ (s : State) (c : CtxNum) (x : Context), s.life.held = false → s.ctx c = some x → x.due.need = true →
    let ring := if x.ring.length = 3 then x.ring.tail else x.ring
    let kind : JobKind := match ring with
      | e :: _ => .decode e.result x.quietState x.concealLevel
      | [] => if x.quietState = .speech then .conceal x.concealLevel else .comfortNoise
    let good := ∃ e k m payload, ring.head? = some e ∧ e.result = .good k m payload
    let job : Job :=
      { ctx := c, dir := .decodeSide, kind := kind, deadline := s.hwi.frameCount + 70, service := x.cost,
        cls := if x.drives then .primary else .standby }
    let n := min (x.needsWithoutGood + 1) 65535
    let lost := ¬good ∧ x.state = .primary ∧ s.life.settings.streamLostLimit ≤ n ∧ x.streamLost = false
    let trimmed : State := if x.ring.length = 3 ∧ x.drives = true then s.count .trims else s
    let told := (trimmed.raiseFlag .streamLost).place (.report x.position 0x41#8 (BitVec.ofNat 24 n))
    ∃ t y, exec (.need c) s = .next t ∧ t.ctx c = some y ∧ (∀ d, d ≠ c → t.ctx d = s.ctx d) ∧ t.hwi = s.hwi ∧
      t.mapu = s.mapu ∧ t.life = s.life ∧ t.released = s.released ∧ y.ring = ring ∧ y.due.need = false ∧
      y.counters.trimmed = (if x.ring.length = 3 then countUp x.counters.trimmed else x.counters.trimmed) ∧
      t.engines = { s.takeUps.engines with queue := insertJob s.hwi.frameCount job s.takeUps.engines.queue } ∧
      (good → y.needsWithoutGood = 0 ∧ y.streamLost = false) ∧
      (¬good → y.needsWithoutGood = n) ∧
      (lost → y.streamLost = true ∧ t.report = told.report ∧ t.notice = told.notice) ∧
      (¬lost → t.report = trimmed.report ∧ t.notice = s.notice ∧ (¬good → y.streamLost = x.streamLost))

/-! ### The engines -/

/-- The queue's order (R65): primary class first, then fewer frames to the deadline, then the lower context, then the
decode side; a posted job is put in where it belongs. A take-up (R66, R67, R72): the lowest-numbered idle engine takes
the head job with the codec half of its context as it stands, to complete its service time later; with no job or no
idle engine there is none. Once every open take-up is taken, the queue is empty or no engine is idle, and the jobs
taken were the head ones. Posting a job takes them first: an engine that is idle has the head of the queue as it stood,
whatever job is posted. (The model's own part of it: logs 1, 5.) -/
def Obligations.QueueAndTakeUp : Prop :=
  (∀ (now : FrameCount) (a b : Job),
      let left (j : Job) : Nat := (j.deadline - now).toNat
      jobBefore now a b = true ↔ (a.cls = .primary ∧ b.cls = .standby) ∨
        (a.cls = b.cls ∧ (left a < left b ∨
          (left a = left b ∧ (a.ctx < b.ctx ∨
            (a.ctx = b.ctx ∧ a.dir = .decodeSide ∧ b.dir = .encode)))))) ∧
  (∀ (now : FrameCount) (j : Job) (queue : List Job),
      queue.Pairwise (fun a b => jobBefore now b a = false) →
      (insertJob now j queue).Pairwise (fun a b => jobBefore now b a = false) ∧ (insertJob now j queue).Perm (j :: queue)) ∧
  (∀ (s : State) (j : Job) (rest : List Job) (e : EngineNum) (x : Context), s.life.held = false →
      (s.engines.queue = j :: rest → Table.lookup s.engines.running e = none →
        (∀ d, d < e → (Table.lookup s.engines.running d).isSome = true) → s.ctx j.ctx = some x →
        ∃ t, exec .jobTakeUp s = .next t ∧ t.engines.queue = rest ∧
          Table.lookup t.engines.running e = some
            { job := j, half := if j.dir = .encode then x.encoder else x.decoder,
              doneAt := s.hwi.frameCount + BitVec.ofNat 16 j.service } ∧
          (∀ d, d ≠ e → Table.lookup t.engines.running d = Table.lookup s.engines.running d) ∧
          t = { s with engines := { t.engines with lateCount := s.engines.lateCount } }) ∧
      (s.engines.queue = [] ∨ (∀ d, (Table.lookup s.engines.running d).isSome = true) →
        exec .jobTakeUp s = .next s)) ∧
  (∀ s : State,
      let t := s.takeUps
      (t.engines.queue = [] ∨ ∀ d, (Table.lookup t.engines.running d).isSome = true) ∧
        (∃ n, n ≤ 4 ∧ t.engines.queue = s.engines.queue.drop n) ∧
        (∀ d, (Table.lookup s.engines.running d).isSome = true →
          Table.lookup t.engines.running d = Table.lookup s.engines.running d) ∧
        t = { s with engines := { t.engines with lateCount := s.engines.lateCount } }) ∧
  (∀ (s : State) (j : Job),
      (∀ k rest e, s.engines.queue = k :: rest → Table.lookup s.engines.running e = none →
        (∀ d, d < e → (Table.lookup s.engines.running d).isSome = true) →
        (Table.lookup (s.postJob j).engines.running e).map (fun r => r.job) = some k) ∧
      (s.engines.queue = [] ∨ (∀ d, (Table.lookup s.engines.running d).isSome = true) →
        s.postJob j = { s with engines := { s.engines with
          queue := insertJob s.hwi.frameCount j s.engines.queue } }))

/-- The completion of a decode-side job (R35 to R37, R72): its block of 160 samples joins the playout buffer, its entry
leaves the ring, the quiet state and the concealment level follow what it worked on, and its engine is idle. A BAD or
NO_DATA entry is concealed in SPEECH and served comfort noise in QUIET. The samples themselves are free values (log 2),
but that a concealment is silence at level 16 and without an earlier block, and at the levels below is the level-1
extrapolation lowered by 3 dB for each level above 1. -/
def Obligations.DecodeCompletes : Prop :=
  ∀ (s : State) (e : EngineNum) (run : Running) (x : Context), s.life.held = false → s.canonical →
    Table.lookup s.engines.running e = some run → run.job.dir = .decodeSide → run.doneAt = s.hwi.frameCount →
    s.ctx run.job.ctx = some x →
    let noSpeech (r : ParcelResult) : Prop := (∃ reason, r = .bad reason) ∨ ∃ m payload, r = .good .noData m payload
    let conceals (n : Nat) : Prop := run.job.kind = .conceal n ∨ ∃ r, noSpeech r ∧ run.job.kind = .decode r .speech n
    ∃ t y block, exec (.decodeCompletion e) s = .next t ∧ t.ctx run.job.ctx = some y ∧
      (∀ d, d ≠ run.job.ctx → t.ctx d = s.ctx d) ∧ Table.lookup t.engines.running e = none ∧
      t.engines.queue = s.engines.queue ∧ t.hwi = s.hwi ∧ t.notice = s.notice ∧ t.mapu = s.mapu ∧ t.pool = s.pool ∧
      t.life = s.life ∧ t.report = s.report ∧ t.released = s.released ∧ block.length = 160 ∧ y.playout = x.playout ++ block ∧
      y.lastBlock = some block ∧ y.encoder = x.encoder ∧ y.decoder = Config.decodeNext run.half run.job.kind.work ∧
      (∀ r q n, run.job.kind = .decode r q n → y.ring = x.ring.tail) ∧
      (∀ n, run.job.kind = .conceal n → y.ring = x.ring) ∧
      (∀ n, conceals n → y.quietState = .speech ∧ y.concealLevel = min (n + 1) 16 ∧
        (15 ≤ n ∨ x.lastBlock = none → block = List.replicate 160 (silenceCode x.law)) ∧
        (n < 15 → x.lastBlock ≠ none → block = (List.range 160).map (fun i =>
          (Config.lower3dB x.law)^[n] (Config.decodeSample run.half x.law (.conceal 1) i)))) ∧
      (run.job.kind = .comfortNoise → y.ring = x.ring ∧ y.quietState = x.quietState ∧
        y.concealLevel = x.concealLevel) ∧
      (∀ r n, noSpeech r → run.job.kind = .decode r .quiet n → y.quietState = x.quietState ∧
        y.concealLevel = x.concealLevel) ∧
      (∀ m payload q n, run.job.kind = .decode (.good .speech m payload) q n →
        y.quietState = .speech ∧ y.concealLevel = 0) ∧
      (∀ m payload q n, run.job.kind = .decode (.good .sid m payload) q n →
        y.quietState = .quiet ∧ y.concealLevel = 0) ∧
      (x.playState = .priming → y.playState = if y.ring = [] then .starting else .running) ∧
      (x.playState ≠ .priming → y.playState = x.playState)

/-- The completion of an encode job (R52, R53, R72): a ready entry of the job's mode, SPEECH when the engine found
activity and otherwise SID or NO_DATA by the quiet count, its payload as long as R6 says; the encode-in-flight mark is
cleared. An emission that awaits this content takes it at once, with the phase-limit flag (R55, R56). The activity and
the payload bytes are free values (log 2). -/
def Obligations.EncodeCompletes : Prop :=
  ∀ (s : State) (e : EngineNum) (run : Running) (x : Context) (block : List Sample) (m : Mode),
    s.life.held = false → s.canonical → Table.lookup s.engines.running e = some run → run.job.dir = .encode →
    run.job.kind = .encode block m → run.doneAt = s.hwi.frameCount → s.ctx run.job.ctx = some x →
    let active := Config.encodeActive run.half block m
    let kind : ParcelKind := if active then .speech else if x.downQuietCount = 0 then .sid else .noData
    let rate := if s.budget < s.load then ModeSet.lowest x.modeSet else ModeSet.highest x.modeSet
    ∃ t y payload, exec (.encodeCompletion e) s = .next t ∧ t.ctx run.job.ctx = some y ∧
      (∀ d, d ≠ run.job.ctx → t.ctx d = s.ctx d) ∧ Table.lookup t.engines.running e = none ∧
      t.engines.queue = s.engines.queue ∧ t.hwi = s.hwi ∧ t.notice = s.notice ∧ t.mapu = s.mapu ∧ t.pool = s.pool ∧
      t.life = s.life ∧ t.report = s.report ∧ t.released = s.released ∧ payload.length = payloadLength kind m ∧
      let encoded : Context := { x with
        encodeInFlight := false
        encoder := Config.encodeNext run.half block m
        downQuietCount := if active then 0 else if x.downQuietCount = 0 then 1
          else if 7 ≤ x.downQuietCount then 0 else x.downQuietCount + 1
        ready := some { kind := kind, mode := m, payload := payload } }
      ((∀ em, x.emitting = some em → em.content ≠ none) → y = encoded) ∧
        (∀ em, x.emitting = some em → em.content = none → y = { encoded with
          ready := none, phaseLimit := false
          emitting := some { em with content := some (buildParcel kind m rate x.phaseLimit false payload) } })

/-- A drop at a deadline (R68, R73): the job leaves the queue or its engine without result, the late count goes up by
one, and the drop that brings it from 8 to 9 raises OVERLOAD. A dropped decode-side job leaves a quick-conceal block,
the last block lowered by 3 dB or silence, and one more late decode (R38); a dropped encode job clears its mark, and an
emission that awaits its content becomes a filler, counted (R52, R55, R57). A job that completes in its deadline frame
is not dropped, and one whose deadline is another frame is not. j is the one job of the context and direction that is
late. (The model's own part of it: logs 2, 5.) -/
def Obligations.JobIsDropped : Prop :=
  ∀ (s : State) (c : CtxNum) (d : Direction), s.life.held = false →
    let now := s.hwi.frameCount
    let late (k : Job) : Prop := k.ctx = c ∧ k.dir = d ∧ k.deadline = now ∧
      (k ∈ s.engines.queue ∨ ∃ e run, (e, run) ∈ s.engines.running ∧ run.job = k ∧ run.doneAt ≠ now)
    ((∀ k, ¬late k) → exec (.jobDropped c d) s = .next s) ∧
    (∀ (j : Job) (x : Context), s.canonical → (∀ k, late k ↔ k = j) → s.ctx c = some x →
      let told : State := if s.engines.lateCount = 8 then s.raiseFlag .overload else s
      let level := if x.quietState = .speech then min (x.concealLevel + 1) 16 else x.concealLevel
      let block := match x.lastBlock with
        | none => List.replicate 160 (silenceCode x.law)
        | some old => if x.quietState = .speech ∧ 16 ≤ level then List.replicate 160 (silenceCode x.law)
            else old.map (Config.lower3dB x.law)
      let ring := match j.kind with
        | .decode _ _ _ => x.ring.tail
        | .conceal _ => x.ring
        | .comfortNoise => x.ring
        | .encode _ _ => x.ring
      let rate := if told.budget < told.load then ModeSet.lowest x.modeSet else ModeSet.highest x.modeSet
      ∃ t y, exec (.jobDropped c d) s = .next t ∧ t.ctx c = some y ∧ (∀ o, o ≠ c → t.ctx o = s.ctx o) ∧
        t.engines.queue = s.engines.queue.filter (fun k => !(decide (k.ctx = c ∧ k.dir = d ∧ k.deadline = now))) ∧
        t.engines.running = s.engines.running.filter (fun e => !(decide (e.2.job.ctx = c ∧ e.2.job.dir = d ∧
          e.2.job.deadline = now ∧ e.2.doneAt ≠ now))) ∧
        t.engines.lateCount = s.engines.lateCount + 1 ∧ t.hwi = s.hwi ∧ t.notice = told.notice ∧ t.mapu = s.mapu ∧
        t.pool = told.pool ∧ t.life = s.life ∧ t.table.reservations = told.table.reservations ∧
        t.released = s.released ∧
        (d = .decodeSide → y = { x with
            concealLevel := level, playout := x.playout ++ block, lastBlock := some block, ring := ring
            playState := if x.playState = .priming then (if ring = [] then .starting else .running) else x.playState
            counters := { x.counters with lateDecode := countUp x.counters.lateDecode } } ∧
          t.report = if x.drives then told.report.counted .lateDecodes else told.report) ∧
        (d = .encode → (∀ em, x.emitting = some em → em.content ≠ none) →
          y = { x with encodeInFlight := false } ∧ t.report = told.report) ∧
        (∀ em, d = .encode → x.emitting = some em → em.content = none → x.ready = none →
          y = { x with
            encodeInFlight := false, phaseLimit := false
            emitting := some { em with content := some (buildParcel .noData em.mode rate x.phaseLimit true []) }
            counters := { x.counters with lateEncode := countUp x.counters.lateEncode } } ∧
          t.report = if x.drives then (told.report.counted .lateEncodes).counted .fillers else told.report))

/-! ### The downlink -/

/-- The block formed at a close (R45): exactly 160 samples, the last 160 held, or those held made up to 160 by silence
before them in the first block and by the last sample after them in a later one. The close (R44, R46 to R51): the
sample block is emptied, φ steps by one toward the pending shift unless the context holds a switch frame or the limit
clips it, the pending mode becomes the mode, and, with no job in flight, an encode job is posted, after the take-ups
that are open (R66); the emission start is 40 frames on. With the mark still set no job is posted, and the emission
start takes the place of a pending one, whose job is withdrawn, whose mark is cleared and whose ready entry is
discarded (R51). After a step toward later the next frame is not compared, so that the next close is 161 frames on
(R46). (The model's own part of it: logs 1, 27.) -/
def Obligations.BlockCloses : Prop :=
  (∀ x : Context,
      let n := x.sampleBlock.length
      x.formBlock.length = 160 ∧
        (160 ≤ n → x.formBlock = x.sampleBlock.drop (n - 160)) ∧
        (n < 160 → x.firstBlock = true →
          x.formBlock = List.replicate (160 - n) (silenceCode x.law) ++ x.sampleBlock) ∧
        (n < 160 → x.firstBlock = false → x.formBlock =
          x.sampleBlock ++ List.replicate (160 - n) (x.sampleBlock.getLastD (silenceCode x.law)))) ∧
  (∀ (s : State) (c : CtxNum) (x : Context), s.life.held = false → s.ctx c = some x → x.due.closeCheck = true →
      s.hwi.blockIndex = some x.phase →
      let mode := x.pendingDownMode.getD x.downMode
      let steps := x.switchFrame = none ∧ x.pendingShift ≠ 0
      let later := steps ∧ x.pendingShift.msb = true ∧ x.phase.val < 159
      let replaces := x.schedule.isSome = true
      let job (service : Nat) : Job :=
        { ctx := c, dir := .encode, kind := .encode x.formBlock mode, deadline := s.hwi.frameCount + 40,
          service := service, cls := if x.drives then .primary else .standby }
      let left : Engines := if replaces then
          { s.engines with
            queue := s.engines.queue.filter (fun j => !(decide (j.ctx = c ∧ j.dir = .encode)))
            running := s.engines.running.filter (fun e => !(decide (e.2.job.ctx = c ∧ e.2.job.dir = .encode))) }
        else s.engines
      let open_ : Engines := ({ s with engines := left } : State).takeUps.engines
      ∃ t y, exec (.blockClose c) s = .next t ∧ t.ctx c = some y ∧ (∀ d, d ≠ c → t.ctx d = s.ctx d) ∧
        t.hwi = s.hwi ∧ t.notice = s.notice ∧ t.mapu = s.mapu ∧ t.pool = s.pool ∧ t.life = s.life ∧
        t.report = s.report ∧ t.released = s.released ∧ y.sampleBlock = [] ∧ y.firstBlock = false ∧ y.downMode = mode ∧ y.pendingDownMode = none ∧
        y.due.closeCheck = false ∧ y.emitting = x.emitting ∧ y.ready = (if replaces then none else x.ready) ∧
        y.schedule = some { frame := s.hwi.frameCount + 40, jobPosted := !x.encodeInFlight, mode := mode } ∧
        (x.encodeInFlight = false → y.encodeInFlight = true ∧
          t.engines = { open_ with queue := insertJob s.hwi.frameCount (job y.cost) open_.queue }) ∧
        (x.encodeInFlight = true → t.engines = left ∧ y.encodeInFlight = !(decide replaces)) ∧
        y.steppedLater = (if later then true else x.steppedLater) ∧
        (¬steps → y.phase = x.phase ∧ y.pendingShift = x.pendingShift ∧ y.phaseLimit = x.phaseLimit) ∧
        (steps → x.pendingShift.msb = false → 0 < x.phase.val →
          y.phase.val + 1 = x.phase.val ∧ y.pendingShift = x.pendingShift - 1 ∧ y.phaseLimit = x.phaseLimit) ∧
        (later →
          y.phase.val = x.phase.val + 1 ∧ y.pendingShift = x.pendingShift + 1 ∧ y.phaseLimit = x.phaseLimit) ∧
        (steps → (x.pendingShift.msb = false ∧ x.phase.val = 0) ∨ (x.pendingShift.msb = true ∧ x.phase.val = 159) →
          y.phase = x.phase ∧ y.pendingShift = 0 ∧ y.phaseLimit = true))

/-- An emission start (R55 to R57, R59): the new parcel is the emitting entry with its first nibble presented; it
carries the ready entry, or is a filler, counted, when there is none and the job of its close has ended; the
phase-limit flag goes out with it. A switch frame of the context in the same frame comes first (R14, R71): a standby
copy begins its emission as PRIMARY, z, and a YIELDING context is released and begins none. (The model's own part of
it: log 1.) -/
def Obligations.EmissionStarts : Prop :=
  ∀ (s : State) (c : CtxNum) (x : Context) (start : EmissionStart), s.life.held = false → s.ctx c = some x →
    x.schedule = some start → start.frame = s.hwi.frameCount →
    let switches := x.switchFrame = some s.hwi.frameCount
    let promoted := switches ∧ (x.state = .warming ∨ x.state = .standby)
    let z : Context := if promoted then { x with state := .primary, role := none, warmUp := none, switchFrame := none }
      else x
    let u : State := if promoted then s.putCtx c z else s
    let rate := if u.budget < u.load then ModeSet.lowest x.modeSet else ModeSet.highest x.modeSet
    let begun (bytes : Option (List Byte)) : Option Emitting :=
      some { sent := 1, content := bytes, mode := start.mode }
    (switches → x.state = .yielding → exec (.emissionStart c) s = .next (s.releaseCtx c)) ∧
    (s.canonical → ¬(switches ∧ x.state = .yielding) →
      ∃ t y, exec (.emissionStart c) s = .next t ∧ t.ctx c = some y ∧ (∀ d, d ≠ c → t.ctx d = s.ctx d) ∧
        t.hwi = s.hwi ∧ t.notice = s.notice ∧ t.mapu = s.mapu ∧ t.pool = s.pool ∧ t.life = s.life ∧
        t.engines = s.engines ∧ t.released = s.released ∧ y.state = z.state ∧ y.schedule = none ∧ y.presentedNibble = some 0xA#4 ∧
        (∀ r, x.ready = some r → y.ready = none ∧ y.phaseLimit = false ∧ t.report = s.report ∧
          y.emitting = begun (some (buildParcel r.kind r.mode rate x.phaseLimit false r.payload))) ∧
        (x.ready = none → start.jobPosted = true → x.encodeInFlight = true →
          y.emitting = begun none ∧ y.phaseLimit = x.phaseLimit ∧
          t.report = s.report) ∧
        (x.ready = none → start.jobPosted = false ∨ x.encodeInFlight = false →
          y.phaseLimit = false ∧ y.counters.lateEncode = countUp x.counters.lateEncode ∧
          y.emitting = begun (some (buildParcel .noData start.mode rate x.phaseLimit true [])) ∧
          t.report = if z.drives then (s.report.counted .lateEncodes).counted .fillers else s.report))

/-! ### Invariants -/

/-- The outbox stays as R99 keeps it, whatever step is taken from whatever state: at most 16 entries, one per key, in
order of kind code and age, with retry counts 0 to 31. -/
def Obligations.OutboxStaysSound : Prop :=
  ∀ s t : State, s.notice.sound → step s = .next t → t.notice.sound

/-- Every table stays in its canonical form, so that equal contents are equal data. (The model's own part of it: log
22.) -/
def Obligations.TablesStayCanonical : Prop :=
  ∀ s t : State, s.canonical → step s = .next t → t.canonical

/-- The station state permits no more than R18, R104, R106, R133 and R152 give it: timing is GOOD in LISTEN and ACTIVE,
contexts and reservations stand in ACTIVE only, and outside LISTEN and ACTIVE the outbox and the intake are empty. -/
def Obligations.StationStateIsKept : Prop :=
  ∀ s t : State, s.permitted → step s = .next t → t.permitted

/-- The station after cold start has what the steps keep. (The model's own part of it: log 22.) -/
def Obligations.ResetIsSound : Prop :=
  State.reset.notice.sound ∧ State.reset.canonical ∧ State.reset.permitted

end
end

