-- ==== Sys2Proof/Laws/State.lean ====
section
/-! SUPPORT. What one block's update leaves of each block: one lemma per update and field. -/

namespace Sys2Proof.Laws

open Sys2Proof.Machine

/-! ### onHwi -/

@[simp] theorem onHwi_hwi (f : Hwi → Hwi) (s : State) : (s.onHwi f).hwi = f s.hwi := rfl
@[simp] theorem onHwi_table (f : Hwi → Hwi) (s : State) : (s.onHwi f).table = s.table := rfl
@[simp] theorem onHwi_engines (f : Hwi → Hwi) (s : State) : (s.onHwi f).engines = s.engines := rfl
@[simp] theorem onHwi_notice (f : Hwi → Hwi) (s : State) : (s.onHwi f).notice = s.notice := rfl
@[simp] theorem onHwi_mapu (f : Hwi → Hwi) (s : State) : (s.onHwi f).mapu = s.mapu := rfl
@[simp] theorem onHwi_pool (f : Hwi → Hwi) (s : State) : (s.onHwi f).pool = s.pool := rfl
@[simp] theorem onHwi_life (f : Hwi → Hwi) (s : State) : (s.onHwi f).life = s.life := rfl
@[simp] theorem onHwi_report (f : Hwi → Hwi) (s : State) : (s.onHwi f).report = s.report := rfl
@[simp] theorem onHwi_released (f : Hwi → Hwi) (s : State) : (s.onHwi f).released = s.released := rfl
@[simp] theorem onHwi_pending (f : Hwi → Hwi) (s : State) : (s.onHwi f).pending = s.pending := rfl

/-! ### onTable -/

@[simp] theorem onTable_hwi (f : CtxTable → CtxTable) (s : State) : (s.onTable f).hwi = s.hwi := rfl
@[simp] theorem onTable_table (f : CtxTable → CtxTable) (s : State) : (s.onTable f).table = f s.table := rfl
@[simp] theorem onTable_engines (f : CtxTable → CtxTable) (s : State) : (s.onTable f).engines = s.engines := rfl
@[simp] theorem onTable_notice (f : CtxTable → CtxTable) (s : State) : (s.onTable f).notice = s.notice := rfl
@[simp] theorem onTable_mapu (f : CtxTable → CtxTable) (s : State) : (s.onTable f).mapu = s.mapu := rfl
@[simp] theorem onTable_pool (f : CtxTable → CtxTable) (s : State) : (s.onTable f).pool = s.pool := rfl
@[simp] theorem onTable_life (f : CtxTable → CtxTable) (s : State) : (s.onTable f).life = s.life := rfl
@[simp] theorem onTable_report (f : CtxTable → CtxTable) (s : State) : (s.onTable f).report = s.report := rfl
@[simp] theorem onTable_released (f : CtxTable → CtxTable) (s : State) : (s.onTable f).released = s.released := rfl
@[simp] theorem onTable_pending (f : CtxTable → CtxTable) (s : State) : (s.onTable f).pending = s.pending := rfl

/-! ### onEngines -/

@[simp] theorem onEngines_hwi (f : Engines → Engines) (s : State) : (s.onEngines f).hwi = s.hwi := rfl
@[simp] theorem onEngines_table (f : Engines → Engines) (s : State) : (s.onEngines f).table = s.table := rfl
@[simp] theorem onEngines_engines (f : Engines → Engines) (s : State) : (s.onEngines f).engines = f s.engines := rfl
@[simp] theorem onEngines_notice (f : Engines → Engines) (s : State) : (s.onEngines f).notice = s.notice := rfl
@[simp] theorem onEngines_mapu (f : Engines → Engines) (s : State) : (s.onEngines f).mapu = s.mapu := rfl
@[simp] theorem onEngines_pool (f : Engines → Engines) (s : State) : (s.onEngines f).pool = s.pool := rfl
@[simp] theorem onEngines_life (f : Engines → Engines) (s : State) : (s.onEngines f).life = s.life := rfl
@[simp] theorem onEngines_report (f : Engines → Engines) (s : State) : (s.onEngines f).report = s.report := rfl
@[simp] theorem onEngines_released (f : Engines → Engines) (s : State) : (s.onEngines f).released = s.released := rfl
@[simp] theorem onEngines_pending (f : Engines → Engines) (s : State) : (s.onEngines f).pending = s.pending := rfl

/-! ### onNotice -/

@[simp] theorem onNotice_hwi (f : NoticeCtl → NoticeCtl) (s : State) : (s.onNotice f).hwi = s.hwi := rfl
@[simp] theorem onNotice_table (f : NoticeCtl → NoticeCtl) (s : State) : (s.onNotice f).table = s.table := rfl
@[simp] theorem onNotice_engines (f : NoticeCtl → NoticeCtl) (s : State) : (s.onNotice f).engines = s.engines := rfl
@[simp] theorem onNotice_notice (f : NoticeCtl → NoticeCtl) (s : State) : (s.onNotice f).notice = f s.notice := rfl
@[simp] theorem onNotice_mapu (f : NoticeCtl → NoticeCtl) (s : State) : (s.onNotice f).mapu = s.mapu := rfl
@[simp] theorem onNotice_pool (f : NoticeCtl → NoticeCtl) (s : State) : (s.onNotice f).pool = s.pool := rfl
@[simp] theorem onNotice_life (f : NoticeCtl → NoticeCtl) (s : State) : (s.onNotice f).life = s.life := rfl
@[simp] theorem onNotice_report (f : NoticeCtl → NoticeCtl) (s : State) : (s.onNotice f).report = s.report := rfl
@[simp] theorem onNotice_released (f : NoticeCtl → NoticeCtl) (s : State) : (s.onNotice f).released = s.released := rfl
@[simp] theorem onNotice_pending (f : NoticeCtl → NoticeCtl) (s : State) : (s.onNotice f).pending = s.pending := rfl

/-! ### onMap -/

@[simp] theorem onMap_hwi (f : MapUnit → MapUnit) (s : State) : (s.onMap f).hwi = s.hwi := rfl
@[simp] theorem onMap_table (f : MapUnit → MapUnit) (s : State) : (s.onMap f).table = s.table := rfl
@[simp] theorem onMap_engines (f : MapUnit → MapUnit) (s : State) : (s.onMap f).engines = s.engines := rfl
@[simp] theorem onMap_notice (f : MapUnit → MapUnit) (s : State) : (s.onMap f).notice = s.notice := rfl
@[simp] theorem onMap_mapu (f : MapUnit → MapUnit) (s : State) : (s.onMap f).mapu = f s.mapu := rfl
@[simp] theorem onMap_pool (f : MapUnit → MapUnit) (s : State) : (s.onMap f).pool = s.pool := rfl
@[simp] theorem onMap_life (f : MapUnit → MapUnit) (s : State) : (s.onMap f).life = s.life := rfl
@[simp] theorem onMap_report (f : MapUnit → MapUnit) (s : State) : (s.onMap f).report = s.report := rfl
@[simp] theorem onMap_released (f : MapUnit → MapUnit) (s : State) : (s.onMap f).released = s.released := rfl
@[simp] theorem onMap_pending (f : MapUnit → MapUnit) (s : State) : (s.onMap f).pending = s.pending := rfl

/-! ### onPool -/

@[simp] theorem onPool_hwi (f : Pool → Pool) (s : State) : (s.onPool f).hwi = s.hwi := rfl
@[simp] theorem onPool_table (f : Pool → Pool) (s : State) : (s.onPool f).table = s.table := rfl
@[simp] theorem onPool_engines (f : Pool → Pool) (s : State) : (s.onPool f).engines = s.engines := rfl
@[simp] theorem onPool_notice (f : Pool → Pool) (s : State) : (s.onPool f).notice = s.notice := rfl
@[simp] theorem onPool_mapu (f : Pool → Pool) (s : State) : (s.onPool f).mapu = s.mapu := rfl
@[simp] theorem onPool_pool (f : Pool → Pool) (s : State) : (s.onPool f).pool = f s.pool := rfl
@[simp] theorem onPool_life (f : Pool → Pool) (s : State) : (s.onPool f).life = s.life := rfl
@[simp] theorem onPool_report (f : Pool → Pool) (s : State) : (s.onPool f).report = s.report := rfl
@[simp] theorem onPool_released (f : Pool → Pool) (s : State) : (s.onPool f).released = s.released := rfl
@[simp] theorem onPool_pending (f : Pool → Pool) (s : State) : (s.onPool f).pending = s.pending := rfl

/-! ### onLife -/

@[simp] theorem onLife_hwi (f : Life → Life) (s : State) : (s.onLife f).hwi = s.hwi := rfl
@[simp] theorem onLife_table (f : Life → Life) (s : State) : (s.onLife f).table = s.table := rfl
@[simp] theorem onLife_engines (f : Life → Life) (s : State) : (s.onLife f).engines = s.engines := rfl
@[simp] theorem onLife_notice (f : Life → Life) (s : State) : (s.onLife f).notice = s.notice := rfl
@[simp] theorem onLife_mapu (f : Life → Life) (s : State) : (s.onLife f).mapu = s.mapu := rfl
@[simp] theorem onLife_pool (f : Life → Life) (s : State) : (s.onLife f).pool = s.pool := rfl
@[simp] theorem onLife_life (f : Life → Life) (s : State) : (s.onLife f).life = f s.life := rfl
@[simp] theorem onLife_report (f : Life → Life) (s : State) : (s.onLife f).report = s.report := rfl
@[simp] theorem onLife_released (f : Life → Life) (s : State) : (s.onLife f).released = s.released := rfl
@[simp] theorem onLife_pending (f : Life → Life) (s : State) : (s.onLife f).pending = s.pending := rfl

/-! ### onReport -/

@[simp] theorem onReport_hwi (f : ReportUnit → ReportUnit) (s : State) : (s.onReport f).hwi = s.hwi := rfl
@[simp] theorem onReport_table (f : ReportUnit → ReportUnit) (s : State) : (s.onReport f).table = s.table := rfl
@[simp] theorem onReport_engines (f : ReportUnit → ReportUnit) (s : State) : (s.onReport f).engines = s.engines := rfl
@[simp] theorem onReport_notice (f : ReportUnit → ReportUnit) (s : State) : (s.onReport f).notice = s.notice := rfl
@[simp] theorem onReport_mapu (f : ReportUnit → ReportUnit) (s : State) : (s.onReport f).mapu = s.mapu := rfl
@[simp] theorem onReport_pool (f : ReportUnit → ReportUnit) (s : State) : (s.onReport f).pool = s.pool := rfl
@[simp] theorem onReport_life (f : ReportUnit → ReportUnit) (s : State) : (s.onReport f).life = s.life := rfl
@[simp] theorem onReport_report (f : ReportUnit → ReportUnit) (s : State) : (s.onReport f).report = f s.report := rfl
@[simp] theorem onReport_released (f : ReportUnit → ReportUnit) (s : State) : (s.onReport f).released = s.released := rfl
@[simp] theorem onReport_pending (f : ReportUnit → ReportUnit) (s : State) : (s.onReport f).pending = s.pending := rfl

/-! ### cutSlots -/

@[simp] theorem cutSlots_hwi (n : Nat) (xs : List Context) (s : State) : (s.cutSlots n xs).hwi = s.hwi := rfl
@[simp] theorem cutSlots_table (n : Nat) (xs : List Context) (s : State) : (s.cutSlots n xs).table = s.table := rfl
@[simp] theorem cutSlots_engines (n : Nat) (xs : List Context) (s : State) : (s.cutSlots n xs).engines = s.engines := rfl
@[simp] theorem cutSlots_notice (n : Nat) (xs : List Context) (s : State) : (s.cutSlots n xs).notice = s.notice := rfl
@[simp] theorem cutSlots_mapu (n : Nat) (xs : List Context) (s : State) : (s.cutSlots n xs).mapu = s.mapu := rfl
@[simp] theorem cutSlots_pool (n : Nat) (xs : List Context) (s : State) : (s.cutSlots n xs).pool = s.pool := rfl
@[simp] theorem cutSlots_life (n : Nat) (xs : List Context) (s : State) : (s.cutSlots n xs).life = s.life := rfl
@[simp] theorem cutSlots_report (n : Nat) (xs : List Context) (s : State) : (s.cutSlots n xs).report = s.report := rfl
@[simp] theorem cutSlots_pending (n : Nat) (xs : List Context) (s : State) : (s.cutSlots n xs).pending = s.pending := rfl
@[simp] theorem cutSlots_released (n : Nat) (xs : List Context) (s : State) :
    (s.cutSlots n xs).released = s.released ++ xs.map (Context.releasedAt n) := rfl

end Sys2Proof.Laws
end

