-- ==== Sys2Proof/Laws/Blocks.lean ====
section
/-! SUPPORT. Which blocks an operation leaves as they are: for each operation, one lemma that names every block it does
not touch. A proof that needs an untouched block cites these (they are simp lemmas) and never unfolds the operation. -/

namespace Sys2Proof.Laws

set_option linter.all false

open Sys2Proof.Machine

/-- A fold of steps that each keep g keeps g. -/
theorem foldl_keeps {α β : Type} (g : State → β) (f : State → α → State) (h : ∀ s a, g (f s a) = g s)
    (l : List α) (s : State) : g (l.foldl f s) = g s := by
  induction l generalizing s with
  | nil => rfl
  | cons a l ih => rw [List.foldl_cons, ih, h]

/-- A granted reservation changes the Context Table only. -/
theorem requestReservation_blocks {p : Pos} {r : BidRole} {k : Nat} {s t : State}
    (h : s.requestReservation p r k = some t) :
    t.hwi = s.hwi ∧ t.engines = s.engines ∧ t.notice = s.notice ∧ t.mapu = s.mapu ∧ t.pool = s.pool ∧
      t.life = s.life ∧ t.report = s.report ∧ t.released = s.released ∧ t.pending = s.pending := by
  unfold State.requestReservation at h
  split at h
  · cases h
  · cases h; simp

@[simp] theorem count_blocks (k : Counter) (s : State) :
    (s.count k).hwi = s.hwi ∧ (s.count k).table = s.table ∧ (s.count k).engines = s.engines ∧
      (s.count k).notice = s.notice ∧ (s.count k).mapu = s.mapu ∧ (s.count k).pool = s.pool ∧
      (s.count k).life = s.life ∧ (s.count k).released = s.released ∧ (s.count k).pending = s.pending := by
  simp [State.count]

@[simp] theorem putCtx_blocks (c : CtxNum) (x : Context) (s : State) :
    (s.putCtx c x).hwi = s.hwi ∧ (s.putCtx c x).engines = s.engines ∧ (s.putCtx c x).notice = s.notice ∧
      (s.putCtx c x).mapu = s.mapu ∧ (s.putCtx c x).pool = s.pool ∧ (s.putCtx c x).life = s.life ∧
      (s.putCtx c x).report = s.report ∧ (s.putCtx c x).released = s.released ∧
      (s.putCtx c x).pending = s.pending := by
  simp [State.putCtx]

@[simp] theorem modCtx_blocks (c : CtxNum) (f : Context → Context) (s : State) :
    (s.modCtx c f).hwi = s.hwi ∧ (s.modCtx c f).engines = s.engines ∧ (s.modCtx c f).notice = s.notice ∧
      (s.modCtx c f).mapu = s.mapu ∧ (s.modCtx c f).pool = s.pool ∧ (s.modCtx c f).life = s.life ∧
      (s.modCtx c f).report = s.report ∧ (s.modCtx c f).released = s.released ∧
      (s.modCtx c f).pending = s.pending := by
  unfold State.modCtx
  (repeat' split) <;> simp

@[simp] theorem modCtxFor_blocks (p : Pos) (f : Context → Context) (s : State) :
    (s.modCtxFor p f).hwi = s.hwi ∧ (s.modCtxFor p f).engines = s.engines ∧ (s.modCtxFor p f).notice = s.notice ∧
      (s.modCtxFor p f).mapu = s.mapu ∧ (s.modCtxFor p f).pool = s.pool ∧ (s.modCtxFor p f).life = s.life ∧
      (s.modCtxFor p f).report = s.report ∧ (s.modCtxFor p f).released = s.released ∧
      (s.modCtxFor p f).pending = s.pending := by
  unfold State.modCtxFor
  (repeat' split) <;> simp

@[simp] theorem countDriven_blocks (c : CtxNum) (k : Counter) (s : State) :
    (s.countDriven c k).hwi = s.hwi ∧ (s.countDriven c k).table = s.table ∧
      (s.countDriven c k).engines = s.engines ∧ (s.countDriven c k).notice = s.notice ∧
      (s.countDriven c k).mapu = s.mapu ∧ (s.countDriven c k).pool = s.pool ∧ (s.countDriven c k).life = s.life ∧
      (s.countDriven c k).released = s.released ∧ (s.countDriven c k).pending = s.pending := by
  unfold State.countDriven
  (repeat' split) <;> simp

@[simp] theorem releaseReservation_blocks (p : Pos) (s : State) :
    (s.releaseReservation p).hwi = s.hwi ∧ (s.releaseReservation p).engines = s.engines ∧
      (s.releaseReservation p).notice = s.notice ∧ (s.releaseReservation p).mapu = s.mapu ∧
      (s.releaseReservation p).pool = s.pool ∧ (s.releaseReservation p).life = s.life ∧
      (s.releaseReservation p).report = s.report ∧ (s.releaseReservation p).released = s.released ∧
      (s.releaseReservation p).pending = s.pending := by
  simp [State.releaseReservation]

@[simp] theorem recostReservation_blocks (p : Pos) (n : Nat) (s : State) :
    (s.recostReservation p n).hwi = s.hwi ∧ (s.recostReservation p n).engines = s.engines ∧
      (s.recostReservation p n).notice = s.notice ∧ (s.recostReservation p n).mapu = s.mapu ∧
      (s.recostReservation p n).pool = s.pool ∧ (s.recostReservation p n).life = s.life ∧
      (s.recostReservation p n).report = s.report ∧ (s.recostReservation p n).released = s.released ∧
      (s.recostReservation p n).pending = s.pending := by
  simp [State.recostReservation]

@[simp] theorem putRec_blocks (p : Pos) (r : PosRecord) (s : State) :
    (s.putRec p r).hwi = s.hwi ∧ (s.putRec p r).table = s.table ∧ (s.putRec p r).engines = s.engines ∧
      (s.putRec p r).notice = s.notice ∧ (s.putRec p r).pool = s.pool ∧ (s.putRec p r).life = s.life ∧
      (s.putRec p r).report = s.report ∧ (s.putRec p r).released = s.released ∧
      (s.putRec p r).pending = s.pending := by
  simp [State.putRec]

@[simp] theorem putRoster_blocks (q : Station) (e : RosterEntry) (s : State) :
    (s.putRoster q e).hwi = s.hwi ∧ (s.putRoster q e).table = s.table ∧ (s.putRoster q e).engines = s.engines ∧
      (s.putRoster q e).notice = s.notice ∧ (s.putRoster q e).pool = s.pool ∧ (s.putRoster q e).life = s.life ∧
      (s.putRoster q e).report = s.report ∧ (s.putRoster q e).released = s.released ∧
      (s.putRoster q e).pending = s.pending := by
  simp [State.putRoster]

@[simp] theorem setTakenMark_blocks (p : Pos) (s : State) :
    (s.setTakenMark p).hwi = s.hwi ∧ (s.setTakenMark p).table = s.table ∧ (s.setTakenMark p).engines = s.engines ∧
      (s.setTakenMark p).notice = s.notice ∧ (s.setTakenMark p).mapu = s.mapu ∧ (s.setTakenMark p).life = s.life ∧
      (s.setTakenMark p).report = s.report ∧ (s.setTakenMark p).released = s.released ∧
      (s.setTakenMark p).pending = s.pending := by
  simp [State.setTakenMark]

@[simp] theorem clearTakenMark_blocks (p : Pos) (s : State) :
    (s.clearTakenMark p).hwi = s.hwi ∧ (s.clearTakenMark p).table = s.table ∧
      (s.clearTakenMark p).engines = s.engines ∧ (s.clearTakenMark p).notice = s.notice ∧
      (s.clearTakenMark p).mapu = s.mapu ∧ (s.clearTakenMark p).life = s.life ∧
      (s.clearTakenMark p).report = s.report ∧ (s.clearTakenMark p).released = s.released ∧
      (s.clearTakenMark p).pending = s.pending := by
  simp [State.clearTakenMark]

@[simp] theorem departed_blocks (n : Notice) (s : State) :
    (s.departed n).hwi = s.hwi ∧ (s.departed n).engines = s.engines ∧ (s.departed n).notice = s.notice ∧
      (s.departed n).mapu = s.mapu ∧ (s.departed n).life = s.life ∧ (s.departed n).report = s.report ∧
      (s.departed n).released = s.released ∧ (s.departed n).pending = s.pending := by
  unfold State.departed
  (repeat' split) <;> simp <;> split <;> simp

@[simp] theorem joinOutbox_blocks (n : Notice) (s : State) :
    (s.joinOutbox n).hwi = s.hwi ∧ (s.joinOutbox n).table = s.table ∧ (s.joinOutbox n).engines = s.engines ∧
      (s.joinOutbox n).mapu = s.mapu ∧ (s.joinOutbox n).pool = s.pool ∧ (s.joinOutbox n).life = s.life ∧
      (s.joinOutbox n).report = s.report ∧ (s.joinOutbox n).released = s.released ∧
      (s.joinOutbox n).pending = s.pending := by
  simp [State.joinOutbox]

@[simp] theorem place_blocks (n : Notice) (s : State) :
    (s.place n).hwi = s.hwi ∧ (s.place n).engines = s.engines ∧ (s.place n).mapu = s.mapu ∧
      (s.place n).life = s.life ∧ (s.place n).released = s.released ∧ (s.place n).pending = s.pending := by
  unfold State.place
  (repeat' split) <;> simp

@[simp] theorem removeNow_blocks (f : Notice → Bool) (s : State) :
    (s.removeNow f).hwi = s.hwi ∧ (s.removeNow f).engines = s.engines ∧ (s.removeNow f).mapu = s.mapu ∧
      (s.removeNow f).life = s.life ∧ (s.removeNow f).report = s.report ∧ (s.removeNow f).released = s.released ∧
      (s.removeNow f).pending = s.pending := by
  unfold State.removeNow
  exact ⟨(foldl_keeps (fun s => s.hwi) _ (fun s a => by simp) _ _),
    (foldl_keeps (fun s => s.engines) _ (fun s a => by simp) _ _),
    (foldl_keeps (fun s => s.mapu) _ (fun s a => by simp) _ _),
    (foldl_keeps (fun s => s.life) _ (fun s a => by simp) _ _),
    (foldl_keeps (fun s => s.report) _ (fun s a => by simp) _ _),
    (foldl_keeps (fun s => s.released) _ (fun s a => by simp) _ _),
    (foldl_keeps (fun s => s.pending) _ (fun s a => by simp) _ _)⟩

@[simp] theorem removeNotices_blocks (r : Removal) (s : State) :
    (s.removeNotices r).hwi = s.hwi ∧ (s.removeNotices r).engines = s.engines ∧ (s.removeNotices r).mapu = s.mapu ∧
      (s.removeNotices r).life = s.life ∧ (s.removeNotices r).report = s.report ∧
      (s.removeNotices r).released = s.released ∧ (s.removeNotices r).pending = s.pending := by
  simp [State.removeNotices]

@[simp] theorem takeRequest_blocks (key : Nat × Nat) (r : OutRequest) (s : State) :
    (s.takeRequest key r).hwi = s.hwi ∧ (s.takeRequest key r).engines = s.engines ∧
      (s.takeRequest key r).mapu = s.mapu ∧ (s.takeRequest key r).life = s.life ∧
      (s.takeRequest key r).released = s.released ∧ (s.takeRequest key r).pending = s.pending := by
  cases r <;> simp [State.takeRequest]

@[simp] theorem leavesWindow_blocks (s : State) :
    s.leavesWindow.hwi = s.hwi ∧ s.leavesWindow.engines = s.engines ∧ s.leavesWindow.mapu = s.mapu ∧
      s.leavesWindow.life = s.life ∧ s.leavesWindow.released = s.released ∧ s.leavesWindow.pending = s.pending := by
  unfold State.leavesWindow
  split
  · simp
  · exact ⟨(foldl_keeps (fun s => s.hwi) _ (fun s a => by simp) _ _),
      (foldl_keeps (fun s => s.engines) _ (fun s a => by simp) _ _),
      (foldl_keeps (fun s => s.mapu) _ (fun s a => by simp) _ _),
      (foldl_keeps (fun s => s.life) _ (fun s a => by simp) _ _),
      (foldl_keeps (fun s => s.released) _ (fun s a => by simp) _ _),
    (foldl_keeps (fun s => s.pending) _ (fun s a => by simp) _ _)⟩

@[simp] theorem removeLost_blocks (q : Station) (s : State) :
    (s.removeLost q).hwi = s.hwi ∧ (s.removeLost q).engines = s.engines ∧ (s.removeLost q).mapu = s.mapu ∧
      (s.removeLost q).life = s.life ∧ (s.removeLost q).report = s.report ∧
      (s.removeLost q).released = s.released ∧ (s.removeLost q).pending = s.pending := by
  simp [State.removeLost]

@[simp] theorem withdrawBid_blocks (p : Pos) (s : State) :
    (s.withdrawBid p).hwi = s.hwi ∧ (s.withdrawBid p).engines = s.engines ∧ (s.withdrawBid p).mapu = s.mapu ∧
      (s.withdrawBid p).life = s.life ∧ (s.withdrawBid p).report = s.report ∧
      (s.withdrawBid p).released = s.released ∧ (s.withdrawBid p).pending = s.pending := by
  simp [State.withdrawBid]

@[simp] theorem placeReport_blocks (p : Pos) (i : BitVec 8) (v : BitVec 24) (s : State) :
    (s.placeReport p i v).hwi = s.hwi ∧ (s.placeReport p i v).engines = s.engines ∧
      (s.placeReport p i v).mapu = s.mapu ∧ (s.placeReport p i v).life = s.life ∧
      (s.placeReport p i v).released = s.released ∧ (s.placeReport p i v).pending = s.pending := by
  simp [State.placeReport]

@[simp] theorem raiseFlag_blocks (f : FaultFlag) (s : State) :
    (s.raiseFlag f).hwi = s.hwi ∧ (s.raiseFlag f).engines = s.engines ∧ (s.raiseFlag f).mapu = s.mapu ∧
      (s.raiseFlag f).life = s.life ∧ (s.raiseFlag f).released = s.released ∧ (s.raiseFlag f).pending = s.pending := by
  unfold State.raiseFlag
  (repeat' split) <;> simp <;> split <;> simp

@[simp] theorem doJobTakeUp_blocks (s : State) :
    (s.doJobTakeUp).hwi = s.hwi ∧ (s.doJobTakeUp).table = s.table ∧ (s.doJobTakeUp).notice = s.notice ∧
      (s.doJobTakeUp).mapu = s.mapu ∧ (s.doJobTakeUp).pool = s.pool ∧ (s.doJobTakeUp).life = s.life ∧
      (s.doJobTakeUp).report = s.report ∧ (s.doJobTakeUp).released = s.released ∧
      (s.doJobTakeUp).pending = s.pending := by
  unfold State.doJobTakeUp
  (repeat' split) <;> simp

@[simp] theorem takeUps_blocks (s : State) :
    (s.takeUps).hwi = s.hwi ∧ (s.takeUps).table = s.table ∧ (s.takeUps).notice = s.notice ∧
      (s.takeUps).mapu = s.mapu ∧ (s.takeUps).pool = s.pool ∧ (s.takeUps).life = s.life ∧
      (s.takeUps).report = s.report ∧ (s.takeUps).released = s.released ∧ (s.takeUps).pending = s.pending := by
  simp [State.takeUps]

@[simp] theorem postJob_blocks (j : Job) (s : State) :
    (s.postJob j).hwi = s.hwi ∧ (s.postJob j).table = s.table ∧ (s.postJob j).notice = s.notice ∧
      (s.postJob j).mapu = s.mapu ∧ (s.postJob j).pool = s.pool ∧ (s.postJob j).life = s.life ∧
      (s.postJob j).report = s.report ∧ (s.postJob j).released = s.released ∧ (s.postJob j).pending = s.pending := by
  simp [State.postJob]

@[simp] theorem withdrawJobs_blocks (f : Job → Bool) (s : State) :
    (s.withdrawJobs f).hwi = s.hwi ∧ (s.withdrawJobs f).table = s.table ∧ (s.withdrawJobs f).notice = s.notice ∧
      (s.withdrawJobs f).mapu = s.mapu ∧ (s.withdrawJobs f).pool = s.pool ∧ (s.withdrawJobs f).life = s.life ∧
      (s.withdrawJobs f).report = s.report ∧ (s.withdrawJobs f).released = s.released ∧
      (s.withdrawJobs f).pending = s.pending := by
  simp [State.withdrawJobs]

@[simp] theorem endShed_blocks (p : Pos) (s : State) :
    (s.endShed p).hwi = s.hwi ∧ (s.endShed p).table = s.table ∧ (s.endShed p).engines = s.engines ∧
      (s.endShed p).notice = s.notice ∧ (s.endShed p).mapu = s.mapu ∧ (s.endShed p).life = s.life ∧
      (s.endShed p).report = s.report ∧ (s.endShed p).released = s.released ∧ (s.endShed p).pending = s.pending := by
  unfold State.endShed
  (repeat' split) <;> simp

@[simp] theorem releaseCtx_blocks (c : CtxNum) (s : State) :
    (s.releaseCtx c).hwi = s.hwi ∧ (s.releaseCtx c).mapu = s.mapu ∧ (s.releaseCtx c).life = s.life ∧
      (s.releaseCtx c).report = s.report ∧ (s.releaseCtx c).pending = s.pending := by
  unfold State.releaseCtx
  (repeat' split) <;> simp

@[simp] theorem releaseFor_blocks (p : Pos) (s : State) :
    (s.releaseFor p).hwi = s.hwi ∧ (s.releaseFor p).mapu = s.mapu ∧ (s.releaseFor p).life = s.life ∧
      (s.releaseFor p).report = s.report ∧ (s.releaseFor p).pending = s.pending := by
  unfold State.releaseFor
  (repeat' split) <;> simp

@[simp] theorem releaseUnnamed_blocks (p : Pos) (s : State) :
    (s.releaseUnnamed p).hwi = s.hwi ∧ (s.releaseUnnamed p).mapu = s.mapu ∧ (s.releaseUnnamed p).life = s.life ∧
      (s.releaseUnnamed p).report = s.report ∧ (s.releaseUnnamed p).pending = s.pending := by
  unfold State.releaseUnnamed
  (repeat' split) <;> simp

@[simp] theorem allocate_blocks (p : Pos) (st : CtxState) (r : Option Role) (s : State) :
    (s.allocate p st r).hwi = s.hwi ∧ (s.allocate p st r).engines = s.engines ∧
      (s.allocate p st r).notice = s.notice ∧ (s.allocate p st r).mapu = s.mapu ∧
      (s.allocate p st r).pool = s.pool ∧ (s.allocate p st r).life = s.life ∧
      (s.allocate p st r).report = s.report ∧ (s.allocate p st r).released = s.released ∧
      (s.allocate p st r).pending = s.pending := by
  unfold State.allocate
  (repeat' split) <;> simp <;> split <;> simp

@[simp] theorem retreat_blocks (c : RetreatCause) (s : State) :
    (s.retreat c).pending = s.pending := by
  unfold State.retreat
  (repeat' split) <;> simp

@[simp] theorem loseTiming_blocks (s : State) :
    (s.loseTiming).pending = s.pending := by
  refine ?_ <;> (unfold State.loseTiming; (repeat' split) <;> (try simp) <;> (repeat' split) <;> simp)

@[simp] theorem loseTimingAtFrame_blocks (s : State) : s.loseTimingAtFrame.pending = s.pending := by
  simp [State.loseTimingAtFrame, State.atEdge]

@[simp] theorem abandonProving_blocks (s : State) :
    (s.abandonProving).table = s.table ∧ (s.abandonProving).engines = s.engines ∧
      (s.abandonProving).notice = s.notice ∧ (s.abandonProving).mapu = s.mapu ∧ (s.abandonProving).pool = s.pool ∧
      (s.abandonProving).life = s.life ∧ (s.abandonProving).report = s.report ∧
      (s.abandonProving).released = s.released ∧ (s.abandonProving).pending = s.pending := by
  simp [State.abandonProving]

@[simp] theorem enterListen_blocks (s : State) :
    (s.enterListen).hwi = s.hwi ∧ (s.enterListen).engines = s.engines ∧ (s.enterListen).released = s.released ∧
      (s.enterListen).pending = s.pending := by
  unfold State.enterListen
  (repeat' split) <;> simp <;> split <;> simp

@[simp] theorem placeBid_blocks (p : Pos) (r : BidRole) (s : State) :
    (s.placeBid p r).hwi = s.hwi ∧ (s.placeBid p r).engines = s.engines ∧ (s.placeBid p r).mapu = s.mapu ∧
      (s.placeBid p r).life = s.life ∧ (s.placeBid p r).released = s.released ∧
      (s.placeBid p r).pending = s.pending := by
  unfold State.placeBid
  cases hk : (s.recAt p).call with
  | none => simp
  | some k =>
    simp only
    split
    · cases hr : s.requestReservation p r (bidCost r k.mode) with
      | none => simp
      | some t =>
        simp only
        split <;> simp [requestReservation_blocks hr]
    · simp

@[simp] theorem placeTaken_blocks (p : Pos) (c : TakenCause) (s : State) :
    (s.placeTaken p c).hwi = s.hwi ∧ (s.placeTaken p c).engines = s.engines ∧ (s.placeTaken p c).mapu = s.mapu ∧
      (s.placeTaken p c).life = s.life ∧ (s.placeTaken p c).released = s.released ∧
      (s.placeTaken p c).pending = s.pending := by
  unfold State.placeTaken
  (repeat' split) <;> simp

@[simp] theorem withdrawUnfit_blocks (p : Pos) (s : State) :
    (s.withdrawUnfit p).hwi = s.hwi ∧ (s.withdrawUnfit p).engines = s.engines ∧ (s.withdrawUnfit p).mapu = s.mapu ∧
      (s.withdrawUnfit p).life = s.life ∧ (s.withdrawUnfit p).report = s.report ∧
      (s.withdrawUnfit p).released = s.released ∧ (s.withdrawUnfit p).pending = s.pending := by
  unfold State.withdrawUnfit
  (repeat' split) <;> simp

@[simp] theorem keepOrWithdraw_blocks (p : Pos) (s : State) :
    (s.keepOrWithdraw p).hwi = s.hwi ∧ (s.keepOrWithdraw p).engines = s.engines ∧
      (s.keepOrWithdraw p).mapu = s.mapu ∧ (s.keepOrWithdraw p).life = s.life ∧
      (s.keepOrWithdraw p).report = s.report ∧ (s.keepOrWithdraw p).released = s.released ∧
      (s.keepOrWithdraw p).pending = s.pending := by
  unfold State.keepOrWithdraw
  (repeat' split) <;> simp <;> split <;> simp

@[simp] theorem placeShedderHold_blocks (p : Pos) (s : State) :
    (s.placeShedderHold p).hwi = s.hwi ∧ (s.placeShedderHold p).engines = s.engines ∧
      (s.placeShedderHold p).mapu = s.mapu ∧ (s.placeShedderHold p).life = s.life ∧
      (s.placeShedderHold p).released = s.released ∧ (s.placeShedderHold p).pending = s.pending := by
  unfold State.placeShedderHold
  (repeat' split) <;> simp

@[simp] theorem shedEnds_blocks (p : Pos) (old new : PosRecord) (s : State) :
    (s.shedEnds p old new).hwi = s.hwi ∧ (s.shedEnds p old new).table = s.table ∧
      (s.shedEnds p old new).engines = s.engines ∧ (s.shedEnds p old new).notice = s.notice ∧
      (s.shedEnds p old new).mapu = s.mapu ∧ (s.shedEnds p old new).life = s.life ∧
      (s.shedEnds p old new).report = s.report ∧ (s.shedEnds p old new).released = s.released ∧
      (s.shedEnds p old new).pending = s.pending := by
  unfold State.shedEnds
  (repeat' split) <;> simp <;> split <;> simp

@[simp] theorem answerChange_blocks (p : Pos) (old new : PosRecord) (s : State) :
    (s.answerChange p old new).hwi = s.hwi ∧ (s.answerChange p old new).engines = s.engines ∧
      (s.answerChange p old new).mapu = s.mapu ∧ (s.answerChange p old new).life = s.life ∧
      (s.answerChange p old new).released = s.released ∧ (s.answerChange p old new).pending = s.pending := by
  unfold State.answerChange
  (repeat' split) <;> simp <;> (repeat' split) <;> simp

@[simp] theorem poolReact_blocks (p : Pos) (old : PosRecord) (s : State) :
    (s.poolReact p old).hwi = s.hwi ∧ (s.poolReact p old).engines = s.engines ∧ (s.poolReact p old).mapu = s.mapu ∧
      (s.poolReact p old).life = s.life ∧ (s.poolReact p old).released = s.released ∧
      (s.poolReact p old).pending = s.pending := by
  unfold State.poolReact
  (repeat' split) <;> simp <;> (repeat' split) <;> simp

@[simp] theorem shedUpdate_blocks (s : State) :
    (s.shedUpdate).hwi = s.hwi ∧ (s.shedUpdate).table = s.table ∧ (s.shedUpdate).engines = s.engines ∧
      (s.shedUpdate).notice = s.notice ∧ (s.shedUpdate).mapu = s.mapu ∧ (s.shedUpdate).life = s.life ∧
      (s.shedUpdate).report = s.report ∧ (s.shedUpdate).released = s.released ∧
      (s.shedUpdate).pending = s.pending := by
  simp [State.shedUpdate]

@[simp] theorem decideShed_blocks (s : State) :
    (s.decideShed).hwi = s.hwi ∧ (s.decideShed).engines = s.engines ∧ (s.decideShed).mapu = s.mapu ∧
      (s.decideShed).life = s.life ∧ (s.decideShed).released = s.released ∧ (s.decideShed).pending = s.pending := by
  unfold State.decideShed
  (repeat' split) <;> simp

@[simp] theorem placeTakensDue_blocks (s : State) :
    (s.placeTakensDue).hwi = s.hwi ∧ (s.placeTakensDue).engines = s.engines ∧ (s.placeTakensDue).mapu = s.mapu ∧
      (s.placeTakensDue).life = s.life ∧ (s.placeTakensDue).released = s.released ∧
      (s.placeTakensDue).pending = s.pending := by
  unfold State.placeTakensDue
  exact ⟨(foldl_keeps (fun s => s.hwi) _ (fun s a => by (repeat' split) <;> simp) _ _),
    (foldl_keeps (fun s => s.engines) _ (fun s a => by (repeat' split) <;> simp) _ _),
    (foldl_keeps (fun s => s.mapu) _ (fun s a => by (repeat' split) <;> simp) _ _),
    (foldl_keeps (fun s => s.life) _ (fun s a => by (repeat' split) <;> simp) _ _),
    (foldl_keeps (fun s => s.released) _ (fun s a => by (repeat' split) <;> simp) _ _),
    (foldl_keeps (fun s => s.pending) _ (fun s a => by (repeat' split) <;> simp) _ _)⟩

@[simp] theorem shadowFill_blocks (s : State) :
    (s.shadowFill).hwi = s.hwi ∧ (s.shadowFill).engines = s.engines ∧ (s.shadowFill).mapu = s.mapu ∧
      (s.shadowFill).life = s.life ∧ (s.shadowFill).released = s.released ∧ (s.shadowFill).pending = s.pending := by
  unfold State.shadowFill
  (repeat' split) <;> simp

@[simp] theorem census_blocks (s : State) :
    (s.census).hwi = s.hwi ∧ (s.census).engines = s.engines ∧ (s.census).mapu = s.mapu ∧ (s.census).life = s.life ∧
      (s.census).released = s.released ∧ (s.census).pending = s.pending := by
  unfold State.census
  (repeat' split) <;> simp

@[simp] theorem examineLosses_blocks (s : State) :
    (s.examineLosses).hwi = s.hwi ∧ (s.examineLosses).engines = s.engines ∧ (s.examineLosses).mapu = s.mapu ∧
      (s.examineLosses).life = s.life ∧ (s.examineLosses).released = s.released ∧
      (s.examineLosses).pending = s.pending := by
  unfold State.examineLosses
  exact ⟨(foldl_keeps (fun s => s.hwi) _ (fun s a => by (repeat' split) <;> simp) _ _),
    (foldl_keeps (fun s => s.engines) _ (fun s a => by (repeat' split) <;> simp) _ _),
    (foldl_keeps (fun s => s.mapu) _ (fun s a => by (repeat' split) <;> simp) _ _),
    (foldl_keeps (fun s => s.life) _ (fun s a => by (repeat' split) <;> simp) _ _),
    (foldl_keeps (fun s => s.released) _ (fun s a => by (repeat' split) <;> simp) _ _),
    (foldl_keeps (fun s => s.pending) _ (fun s a => by (repeat' split) <;> simp) _ _)⟩

@[simp] theorem ageRoster_blocks (s : State) :
    (s.ageRoster).hwi = s.hwi ∧ (s.ageRoster).table = s.table ∧ (s.ageRoster).engines = s.engines ∧
      (s.ageRoster).notice = s.notice ∧ (s.ageRoster).pool = s.pool ∧ (s.ageRoster).life = s.life ∧
      (s.ageRoster).report = s.report ∧ (s.ageRoster).released = s.released ∧ (s.ageRoster).pending = s.pending := by
  simp [State.ageRoster]

@[simp] theorem afterLoss_blocks (s : State) :
    (s.afterLoss).hwi = s.hwi ∧ (s.afterLoss).table = s.table ∧ (s.afterLoss).engines = s.engines ∧
      (s.afterLoss).notice = s.notice ∧ (s.afterLoss).life = s.life ∧ (s.afterLoss).report = s.report ∧
      (s.afterLoss).released = s.released ∧ (s.afterLoss).pending = s.pending := by
  unfold State.afterLoss
  (repeat' split) <;> simp

@[simp] theorem afterShed_blocks (s : State) :
    (s.afterShed).hwi = s.hwi ∧ (s.afterShed).engines = s.engines ∧ (s.afterShed).life = s.life ∧
      (s.afterShed).released = s.released ∧ (s.afterShed).pending = s.pending := by
  unfold State.afterShed
  (repeat' split) <;> simp <;> split <;> simp

@[simp] theorem poolDecisions_blocks (s : State) :
    (s.poolDecisions).hwi = s.hwi ∧ (s.poolDecisions).engines = s.engines ∧ (s.poolDecisions).life = s.life ∧
      (s.poolDecisions).released = s.released ∧ (s.poolDecisions).pending = s.pending := by
  unfold State.poolDecisions
  (repeat' split) <;> simp <;> split <;> simp

@[simp] theorem doShedDecision_blocks (s : State) :
    (s.doShedDecision).hwi = s.hwi ∧ (s.doShedDecision).engines = s.engines ∧ (s.doShedDecision).life = s.life ∧
      (s.doShedDecision).released = s.released ∧ (s.doShedDecision).pending = s.pending := by
  unfold State.doShedDecision
  (repeat' split) <;> simp

@[simp] theorem doDeclareLost_blocks (s : State) :
    (s.doDeclareLost).hwi = s.hwi ∧ (s.doDeclareLost).engines = s.engines ∧ (s.doDeclareLost).life = s.life ∧
      (s.doDeclareLost).released = s.released ∧ (s.doDeclareLost).pending = s.pending := by
  unfold State.doDeclareLost
  (repeat' split) <;> simp

@[simp] theorem doHeartbeat_blocks (s : State) :
    (s.doHeartbeat).hwi = s.hwi ∧ (s.doHeartbeat).engines = s.engines ∧ (s.doHeartbeat).mapu = s.mapu ∧
      (s.doHeartbeat).life = s.life ∧ (s.doHeartbeat).released = s.released ∧ (s.doHeartbeat).pending = s.pending := by
  unfold State.doHeartbeat
  (repeat' split) <;> simp

@[simp] theorem doSwitchFrame_blocks (c : CtxNum) (s : State) :
    (s.doSwitchFrame c).hwi = s.hwi ∧ (s.doSwitchFrame c).mapu = s.mapu ∧ (s.doSwitchFrame c).life = s.life ∧
      (s.doSwitchFrame c).report = s.report ∧ (s.doSwitchFrame c).pending = s.pending := by
  unfold State.doSwitchFrame
  (repeat' split) <;> simp

@[simp] theorem switchContexts_blocks (s : State) :
    (s.switchContexts).hwi = s.hwi ∧ (s.switchContexts).mapu = s.mapu ∧ (s.switchContexts).life = s.life ∧
      (s.switchContexts).report = s.report ∧ (s.switchContexts).pending = s.pending := by
  unfold State.switchContexts
  exact ⟨(foldl_keeps (fun s => s.hwi) _ (fun s a => by simp) _ _),
    (foldl_keeps (fun s => s.mapu) _ (fun s a => by simp) _ _),
    (foldl_keeps (fun s => s.life) _ (fun s a => by simp) _ _),
    (foldl_keeps (fun s => s.report) _ (fun s a => by simp) _ _),
    (foldl_keeps (fun s => s.pending) _ (fun s a => by simp) _ _)⟩

@[simp] theorem doWarmUpEnd_blocks (c : CtxNum) (s : State) :
    (s.doWarmUpEnd c).hwi = s.hwi ∧ (s.doWarmUpEnd c).engines = s.engines ∧ (s.doWarmUpEnd c).mapu = s.mapu ∧
      (s.doWarmUpEnd c).life = s.life ∧ (s.doWarmUpEnd c).released = s.released ∧
      (s.doWarmUpEnd c).pending = s.pending := by
  unfold State.doWarmUpEnd
  (repeat' split) <;> simp <;> split <;> simp

@[simp] theorem answerUnknown_blocks (i a : BitVec 8) (s : State) :
    (s.answerUnknown i a).hwi = s.hwi ∧ (s.answerUnknown i a).engines = s.engines ∧
      (s.answerUnknown i a).mapu = s.mapu ∧ (s.answerUnknown i a).life = s.life ∧
      (s.answerUnknown i a).released = s.released ∧ (s.answerUnknown i a).pending = s.pending := by
  simp [State.answerUnknown]

@[simp] theorem answerSummary_blocks (a : BitVec 8) (s : State) :
    (s.answerSummary a).hwi = s.hwi ∧ (s.answerSummary a).engines = s.engines ∧ (s.answerSummary a).mapu = s.mapu ∧
      (s.answerSummary a).life = s.life ∧ (s.answerSummary a).released = s.released ∧
      (s.answerSummary a).pending = s.pending := by
  unfold State.answerSummary
  (repeat' split) <;> simp

@[simp] theorem answerFlags_blocks (s : State) :
    (s.answerFlags).hwi = s.hwi ∧ (s.answerFlags).engines = s.engines ∧ (s.answerFlags).mapu = s.mapu ∧
      (s.answerFlags).life = s.life ∧ (s.answerFlags).released = s.released ∧ (s.answerFlags).pending = s.pending := by
  simp [State.answerFlags]

@[simp] theorem answerClearFlags_blocks (s : State) :
    (s.answerClearFlags).hwi = s.hwi ∧ (s.answerClearFlags).engines = s.engines ∧
      (s.answerClearFlags).mapu = s.mapu ∧ (s.answerClearFlags).life = s.life ∧
      (s.answerClearFlags).released = s.released ∧ (s.answerClearFlags).pending = s.pending := by
  simp [State.answerClearFlags]

@[simp] theorem answerCounter_blocks (i : BitVec 8) (k : Fin 32) (s : State) :
    (s.answerCounter i k).hwi = s.hwi ∧ (s.answerCounter i k).engines = s.engines ∧
      (s.answerCounter i k).mapu = s.mapu ∧ (s.answerCounter i k).life = s.life ∧
      (s.answerCounter i k).released = s.released ∧ (s.answerCounter i k).pending = s.pending := by
  simp [State.answerCounter]

@[simp] theorem answerPosition_blocks (a : BitVec 8) (s : State) :
    (s.answerPosition a).hwi = s.hwi ∧ (s.answerPosition a).engines = s.engines ∧
      (s.answerPosition a).mapu = s.mapu ∧ (s.answerPosition a).life = s.life ∧
      (s.answerPosition a).released = s.released ∧ (s.answerPosition a).pending = s.pending := by
  simp [State.answerPosition]

@[simp] theorem doRecordSwitchFrame_blocks (p : Pos) (s : State) :
    (s.doRecordSwitchFrame p).hwi = s.hwi ∧ (s.doRecordSwitchFrame p).table = s.table ∧
      (s.doRecordSwitchFrame p).engines = s.engines ∧ (s.doRecordSwitchFrame p).notice = s.notice ∧
      (s.doRecordSwitchFrame p).pool = s.pool ∧ (s.doRecordSwitchFrame p).life = s.life ∧
      (s.doRecordSwitchFrame p).report = s.report ∧ (s.doRecordSwitchFrame p).released = s.released ∧
      (s.doRecordSwitchFrame p).pending = s.pending := by
  unfold State.doRecordSwitchFrame
  (repeat' split) <;> simp

@[simp] theorem switchRecords_blocks (s : State) :
    (s.switchRecords).hwi = s.hwi ∧ (s.switchRecords).table = s.table ∧ (s.switchRecords).engines = s.engines ∧
      (s.switchRecords).notice = s.notice ∧ (s.switchRecords).pool = s.pool ∧ (s.switchRecords).life = s.life ∧
      (s.switchRecords).report = s.report ∧ (s.switchRecords).released = s.released ∧
      (s.switchRecords).pending = s.pending := by
  unfold State.switchRecords
  exact ⟨(foldl_keeps (fun s => s.hwi) _ (fun s a => by simp) _ _),
    (foldl_keeps (fun s => s.table) _ (fun s a => by simp) _ _),
    (foldl_keeps (fun s => s.engines) _ (fun s a => by simp) _ _),
    (foldl_keeps (fun s => s.notice) _ (fun s a => by simp) _ _),
    (foldl_keeps (fun s => s.pool) _ (fun s a => by simp) _ _),
    (foldl_keeps (fun s => s.life) _ (fun s a => by simp) _ _),
    (foldl_keeps (fun s => s.report) _ (fun s a => by simp) _ _),
    (foldl_keeps (fun s => s.released) _ (fun s a => by simp) _ _),
    (foldl_keeps (fun s => s.pending) _ (fun s a => by simp) _ _)⟩

@[simp] theorem takeSwitchFrames_blocks (s : State) :
    (s.takeSwitchFrames).hwi = s.hwi ∧ (s.takeSwitchFrames).life = s.life ∧
      (s.takeSwitchFrames).report = s.report ∧ (s.takeSwitchFrames).pending = s.pending := by
  simp [State.takeSwitchFrames]

@[simp] theorem shedLapse_blocks (p : Pos) (s : State) :
    (s.shedLapse p).hwi = s.hwi ∧ (s.shedLapse p).table = s.table ∧ (s.shedLapse p).engines = s.engines ∧
      (s.shedLapse p).notice = s.notice ∧ (s.shedLapse p).mapu = s.mapu ∧ (s.shedLapse p).life = s.life ∧
      (s.shedLapse p).report = s.report ∧ (s.shedLapse p).released = s.released ∧
      (s.shedLapse p).pending = s.pending := by
  unfold State.shedLapse
  (repeat' split) <;> simp

@[simp] theorem closeWindow_blocks (p : Pos) (s : State) :
    (s.closeWindow p).hwi = s.hwi ∧ (s.closeWindow p).table = s.table ∧ (s.closeWindow p).engines = s.engines ∧
      (s.closeWindow p).notice = s.notice ∧ (s.closeWindow p).life = s.life ∧
      (s.closeWindow p).released = s.released ∧ (s.closeWindow p).pending = s.pending := by
  unfold State.closeWindow
  (repeat' split) <;> simp <;> split <;> simp

@[simp] theorem closeWindows_blocks (s : State) :
    (s.closeWindows).hwi = s.hwi ∧ (s.closeWindows).engines = s.engines ∧ (s.closeWindows).life = s.life ∧
      (s.closeWindows).released = s.released ∧ (s.closeWindows).pending = s.pending := by
  unfold State.closeWindows
  exact ⟨(foldl_keeps (fun s => s.hwi) _ (fun s a => by (repeat' split) <;> simp) _ _),
    (foldl_keeps (fun s => s.engines) _ (fun s a => by (repeat' split) <;> simp) _ _),
    (foldl_keeps (fun s => s.life) _ (fun s a => by (repeat' split) <;> simp) _ _),
    (foldl_keeps (fun s => s.released) _ (fun s a => by (repeat' split) <;> simp) _ _),
    (foldl_keeps (fun s => s.pending) _ (fun s a => by (repeat' split) <;> simp) _ _)⟩

@[simp] theorem beginRecord_blocks (r : Record) (s : State) :
    (s.beginRecord r).hwi = s.hwi ∧ (s.beginRecord r).life = s.life ∧ (s.beginRecord r).pending = s.pending := by
  simp [State.beginRecord]

@[simp] theorem endRecord_blocks (s : State) :
    (s.endRecord).hwi = s.hwi ∧ (s.endRecord).table = s.table ∧ (s.endRecord).engines = s.engines ∧
      (s.endRecord).notice = s.notice ∧ (s.endRecord).pool = s.pool ∧ (s.endRecord).life = s.life ∧
      (s.endRecord).report = s.report ∧ (s.endRecord).released = s.released ∧ (s.endRecord).pending = s.pending := by
  unfold State.endRecord
  (repeat' split) <;> simp

@[simp] theorem hearStation_blocks (q : Station) (s : State) :
    (s.hearStation q).hwi = s.hwi ∧ (s.hearStation q).engines = s.engines ∧ (s.hearStation q).life = s.life ∧
      (s.hearStation q).report = s.report ∧ (s.hearStation q).released = s.released ∧
      (s.hearStation q).pending = s.pending := by
  unfold State.hearStation
  (repeat' split) <;> simp

@[simp] theorem removeStation_blocks (q : Station) (p : Pos) (s : State) :
    (s.removeStation q p).hwi = s.hwi ∧ (s.removeStation q p).life = s.life ∧
      (s.removeStation q p).pending = s.pending := by
  unfold State.removeStation
  (repeat' split) <;> simp <;> (repeat' split) <;> simp

@[simp] theorem sweepPositions_blocks (q : Station) (g : Nat) (s : State) :
    (s.sweepPositions q g).hwi = s.hwi ∧ (s.sweepPositions q g).life = s.life ∧
      (s.sweepPositions q g).pending = s.pending := by
  unfold State.sweepPositions
  exact ⟨(foldl_keeps (fun s => s.hwi) _ (fun s a => by simp) _ _),
    (foldl_keeps (fun s => s.life) _ (fun s a => by simp) _ _),
    (foldl_keeps (fun s => s.pending) _ (fun s a => by simp) _ _)⟩

@[simp] theorem startSweep_blocks (q : Station) (s : State) :
    (s.startSweep q).hwi = s.hwi ∧ (s.startSweep q).life = s.life ∧ (s.startSweep q).pending = s.pending := by
  simp [State.startSweep]

@[simp] theorem takeOver_blocks (t : Station) (p : Pos) (b : BlockIndex) (s : State) :
    (s.takeOver t p b).hwi = s.hwi ∧ (s.takeOver t p b).life = s.life ∧ (s.takeOver t p b).pending = s.pending := by
  unfold State.takeOver
  (repeat' split) <;> simp <;> (repeat' split) <;> simp

@[simp] theorem strayTaken_blocks (t : Station) (p : Pos) (o : Bool) (s : State) :
    (s.strayTaken t p o).hwi = s.hwi ∧ (s.strayTaken t p o).life = s.life ∧
      (s.strayTaken t p o).pending = s.pending := by
  unfold State.strayTaken
  (repeat' split) <;> simp <;> split <;> simp

@[simp] theorem applyTakenTo_blocks (p : Pos) (g : CallTag) (b : BlockIndex) (t : Station) (o : Bool) (s : State) :
    (s.applyTakenTo p g b t o).hwi = s.hwi ∧ (s.applyTakenTo p g b t o).life = s.life ∧
      (s.applyTakenTo p g b t o).pending = s.pending := by
  unfold State.applyTakenTo
  (repeat' split) <;> simp <;> split <;> simp

@[simp] theorem clearPosition_blocks (p : Pos) (s : State) :
    (s.clearPosition p).hwi = s.hwi ∧ (s.clearPosition p).life = s.life ∧
      (s.clearPosition p).pending = s.pending := by
  simp [State.clearPosition]

@[simp] theorem applyClearTo_blocks (p : Pos) (g : CallTag) (s : State) :
    (s.applyClearTo p g).hwi = s.hwi ∧ (s.applyClearTo p g).life = s.life ∧
      (s.applyClearTo p g).pending = s.pending := by
  unfold State.applyClearTo
  (repeat' split) <;> simp

@[simp] theorem applyOfferTo_blocks (p : Pos) (g : CallTag) (l : Law) (ms : ModeSet) (m : Mode) (q : BitVec 4) (s : State) :
    (s.applyOfferTo p g l ms m q).hwi = s.hwi ∧ (s.applyOfferTo p g l ms m q).life = s.life ∧
      (s.applyOfferTo p g l ms m q).pending = s.pending := by
  unfold State.applyOfferTo
  (repeat' split) <;> simp <;> split <;> simp

@[simp] theorem endFill_blocks (p : Pos) (s : State) :
    (s.endFill p).hwi = s.hwi ∧ (s.endFill p).table = s.table ∧ (s.endFill p).engines = s.engines ∧
      (s.endFill p).notice = s.notice ∧ (s.endFill p).mapu = s.mapu ∧ (s.endFill p).life = s.life ∧
      (s.endFill p).report = s.report ∧ (s.endFill p).released = s.released ∧ (s.endFill p).pending = s.pending := by
  unfold State.endFill
  (repeat' split) <;> simp

@[simp] theorem allocateFor_blocks (p : Pos) (o : BidOutcome) (s : State) :
    (s.allocateFor p o).hwi = s.hwi ∧ (s.allocateFor p o).engines = s.engines ∧
      (s.allocateFor p o).notice = s.notice ∧ (s.allocateFor p o).mapu = s.mapu ∧
      (s.allocateFor p o).pool = s.pool ∧ (s.allocateFor p o).life = s.life ∧
      (s.allocateFor p o).report = s.report ∧ (s.allocateFor p o).released = s.released ∧
      (s.allocateFor p o).pending = s.pending := by
  unfold State.allocateFor
  (repeat' split) <;> simp

@[simp] theorem bidFits_blocks (p : Pos) (q : Station) (o : BidOutcome) (w : Bool) (s : State) :
    (s.bidFits p q o w).hwi = s.hwi ∧ (s.bidFits p q o w).engines = s.engines ∧ (s.bidFits p q o w).life = s.life ∧
      (s.bidFits p q o w).released = s.released ∧ (s.bidFits p q o w).pending = s.pending := by
  unfold State.bidFits
  (repeat' split) <;> simp

@[simp] theorem bidStale_blocks (p : Pos) (w : Bool) (s : State) :
    (s.bidStale p w).hwi = s.hwi ∧ (s.bidStale p w).engines = s.engines ∧ (s.bidStale p w).notice = s.notice ∧
      (s.bidStale p w).mapu = s.mapu ∧ (s.bidStale p w).life = s.life ∧ (s.bidStale p w).released = s.released ∧
      (s.bidStale p w).pending = s.pending := by
  unfold State.bidStale
  (repeat' split) <;> simp

@[simp] theorem applyBidTo_blocks (p : Pos) (g : CallTag) (r : BidRole) (q : Station) (w : Bool) (s : State) :
    (s.applyBidTo p g r q w).hwi = s.hwi ∧ (s.applyBidTo p g r q w).engines = s.engines ∧
      (s.applyBidTo p g r q w).life = s.life ∧ (s.applyBidTo p g r q w).released = s.released ∧
      (s.applyBidTo p g r q w).pending = s.pending := by
  unfold State.applyBidTo
  (repeat' split) <;> simp

@[simp] theorem applyShedTo_blocks (p : Pos) (g : CallTag) (q : Station) (w : Bool) (s : State) :
    (s.applyShedTo p g q w).hwi = s.hwi ∧ (s.applyShedTo p g q w).engines = s.engines ∧
      (s.applyShedTo p g q w).life = s.life ∧ (s.applyShedTo p g q w).released = s.released ∧
      (s.applyShedTo p g q w).pending = s.pending := by
  unfold State.applyShedTo
  (repeat' split) <;> simp <;> split <;> simp

@[simp] theorem holdRestates_blocks (p : Pos) (g : CallTag) (l : Law) (ms : ModeSet) (m : Mode) (b : BlockIndex) (h : Option Station) (s : State) :
    (s.holdRestates p g l ms m b h).hwi = s.hwi ∧ (s.holdRestates p g l ms m b h).engines = s.engines ∧
      (s.holdRestates p g l ms m b h).life = s.life ∧ (s.holdRestates p g l ms m b h).released = s.released ∧
      (s.holdRestates p g l ms m b h).pending = s.pending := by
  unfold State.holdRestates
  (repeat' split) <;> simp <;> (repeat' split) <;> simp

@[simp] theorem holdTeaches_blocks (p : Pos) (g : CallTag) (l : Law) (ms : ModeSet) (m : Mode) (b : BlockIndex) (h : Option Station) (q : Station) (s : State) :
    (s.holdTeaches p g l ms m b h q).hwi = s.hwi ∧ (s.holdTeaches p g l ms m b h q).engines = s.engines ∧
      (s.holdTeaches p g l ms m b h q).life = s.life ∧ (s.holdTeaches p g l ms m b h q).released = s.released ∧
      (s.holdTeaches p g l ms m b h q).pending = s.pending := by
  unfold State.holdTeaches
  (repeat' split) <;> simp

@[simp] theorem holdConflicts_blocks (p : Pos) (q : Station) (w : Bool) (s : State) :
    (s.holdConflicts p q w).hwi = s.hwi ∧ (s.holdConflicts p q w).life = s.life ∧
      (s.holdConflicts p q w).pending = s.pending := by
  unfold State.holdConflicts
  (repeat' split) <;> simp <;> split <;> simp

@[simp] theorem applyHoldTo_blocks (p : Pos) (g : CallTag) (l : Law) (ms : ModeSet) (m : Mode) (b : BlockIndex) (h : Option Station) (q : Station) (w : Bool) (s : State) :
    (s.applyHoldTo p g l ms m b h q w).hwi = s.hwi ∧ (s.applyHoldTo p g l ms m b h q w).life = s.life ∧
      (s.applyHoldTo p g l ms m b h q w).pending = s.pending := by
  unfold State.applyHoldTo
  (repeat' split) <;> simp <;> (repeat' split) <;> simp

@[simp] theorem applyPresentTo_blocks (v : LastValues) (f : Bool) (q : Station) (w : Bool) (s : State) :
    (s.applyPresentTo v f q w).hwi = s.hwi ∧ (s.applyPresentTo v f q w).life = s.life ∧
      (s.applyPresentTo v f q w).pending = s.pending := by
  unfold State.applyPresentTo
  (repeat' split) <;> simp <;> split <;> simp

@[simp] theorem doSweepGroup_blocks (s : State) :
    (s.doSweepGroup).hwi = s.hwi ∧ (s.doSweepGroup).life = s.life ∧ (s.doSweepGroup).pending = s.pending := by
  unfold State.doSweepGroup
  (repeat' split) <;> simp

@[simp] theorem countGood_blocks (c : CtxNum) (s : State) :
    (s.countGood c).hwi = s.hwi ∧ (s.countGood c).engines = s.engines ∧ (s.countGood c).notice = s.notice ∧
      (s.countGood c).mapu = s.mapu ∧ (s.countGood c).pool = s.pool ∧ (s.countGood c).life = s.life ∧
      (s.countGood c).released = s.released ∧ (s.countGood c).pending = s.pending := by
  simp [State.countGood]

@[simp] theorem countBad_blocks (c : CtxNum) (s : State) :
    (s.countBad c).hwi = s.hwi ∧ (s.countBad c).engines = s.engines ∧ (s.countBad c).notice = s.notice ∧
      (s.countBad c).mapu = s.mapu ∧ (s.countBad c).pool = s.pool ∧ (s.countBad c).life = s.life ∧
      (s.countBad c).released = s.released ∧ (s.countBad c).pending = s.pending := by
  simp [State.countBad]

@[simp] theorem countMissing_blocks (c : CtxNum) (s : State) :
    (s.countMissing c).hwi = s.hwi ∧ (s.countMissing c).engines = s.engines ∧
      (s.countMissing c).notice = s.notice ∧ (s.countMissing c).mapu = s.mapu ∧ (s.countMissing c).pool = s.pool ∧
      (s.countMissing c).life = s.life ∧ (s.countMissing c).released = s.released ∧
      (s.countMissing c).pending = s.pending := by
  simp [State.countMissing]

@[simp] theorem countDiscarded_blocks (c : CtxNum) (s : State) :
    (s.countDiscarded c).hwi = s.hwi ∧ (s.countDiscarded c).engines = s.engines ∧
      (s.countDiscarded c).notice = s.notice ∧ (s.countDiscarded c).mapu = s.mapu ∧
      (s.countDiscarded c).pool = s.pool ∧ (s.countDiscarded c).life = s.life ∧
      (s.countDiscarded c).released = s.released ∧ (s.countDiscarded c).pending = s.pending := by
  simp [State.countDiscarded]

@[simp] theorem countTrimmed_blocks (c : CtxNum) (s : State) :
    (s.countTrimmed c).hwi = s.hwi ∧ (s.countTrimmed c).engines = s.engines ∧
      (s.countTrimmed c).notice = s.notice ∧ (s.countTrimmed c).mapu = s.mapu ∧ (s.countTrimmed c).pool = s.pool ∧
      (s.countTrimmed c).life = s.life ∧ (s.countTrimmed c).released = s.released ∧
      (s.countTrimmed c).pending = s.pending := by
  simp [State.countTrimmed]

@[simp] theorem postDecode_blocks (c : CtxNum) (x : Context) (r : ParcelResult) (s : State) :
    (s.postDecode c x r).hwi = s.hwi ∧ (s.postDecode c x r).notice = s.notice ∧
      (s.postDecode c x r).mapu = s.mapu ∧ (s.postDecode c x r).pool = s.pool ∧
      (s.postDecode c x r).life = s.life ∧ (s.postDecode c x r).report = s.report ∧
      (s.postDecode c x r).released = s.released ∧ (s.postDecode c x r).pending = s.pending := by
  unfold State.postDecode
  (repeat' split) <;> simp

@[simp] theorem bumpNeeds_blocks (c : CtxNum) (s : State) :
    (s.bumpNeeds c).hwi = s.hwi ∧ (s.bumpNeeds c).engines = s.engines ∧ (s.bumpNeeds c).mapu = s.mapu ∧
      (s.bumpNeeds c).life = s.life ∧ (s.bumpNeeds c).released = s.released ∧ (s.bumpNeeds c).pending = s.pending := by
  unfold State.bumpNeeds
  (repeat' split) <;> simp <;> split <;> simp

@[simp] theorem deliver_blocks (c : CtxNum) (r : ParcelResult) (s : State) :
    (s.deliver c r).hwi = s.hwi ∧ (s.deliver c r).notice = s.notice ∧ (s.deliver c r).mapu = s.mapu ∧
      (s.deliver c r).pool = s.pool ∧ (s.deliver c r).life = s.life ∧ (s.deliver c r).released = s.released ∧
      (s.deliver c r).pending = s.pending := by
  unfold State.deliver
  (repeat' split) <;> simp

@[simp] theorem goodEffects_blocks (c : CtxNum) (g : GoodParcel) (s : State) :
    (s.goodEffects c g).hwi = s.hwi ∧ (s.goodEffects c g).engines = s.engines ∧
      (s.goodEffects c g).notice = s.notice ∧ (s.goodEffects c g).mapu = s.mapu ∧
      (s.goodEffects c g).pool = s.pool ∧ (s.goodEffects c g).life = s.life ∧
      (s.goodEffects c g).released = s.released ∧ (s.goodEffects c g).pending = s.pending := by
  unfold State.goodEffects
  (repeat' split) <;> simp

@[simp] theorem completeGood_blocks (c : CtxNum) (g : GoodParcel) (s : State) :
    (s.completeGood c g).hwi = s.hwi ∧ (s.completeGood c g).notice = s.notice ∧
      (s.completeGood c g).mapu = s.mapu ∧ (s.completeGood c g).pool = s.pool ∧
      (s.completeGood c g).life = s.life ∧ (s.completeGood c g).released = s.released ∧
      (s.completeGood c g).pending = s.pending := by
  simp [State.completeGood]

@[simp] theorem doMarkerJudgement_blocks (c : CtxNum) (s : State) :
    (s.doMarkerJudgement c).hwi = s.hwi ∧ (s.doMarkerJudgement c).notice = s.notice ∧
      (s.doMarkerJudgement c).mapu = s.mapu ∧ (s.doMarkerJudgement c).pool = s.pool ∧
      (s.doMarkerJudgement c).life = s.life ∧ (s.doMarkerJudgement c).released = s.released ∧
      (s.doMarkerJudgement c).pending = s.pending := by
  unfold State.doMarkerJudgement
  (repeat' split) <;> simp <;> (repeat' split) <;> simp

@[simp] theorem doParcelCompletion_blocks (c : CtxNum) (s : State) :
    (s.doParcelCompletion c).hwi = s.hwi ∧ (s.doParcelCompletion c).notice = s.notice ∧
      (s.doParcelCompletion c).mapu = s.mapu ∧ (s.doParcelCompletion c).pool = s.pool ∧
      (s.doParcelCompletion c).life = s.life ∧ (s.doParcelCompletion c).released = s.released ∧
      (s.doParcelCompletion c).pending = s.pending := by
  unfold State.doParcelCompletion
  (repeat' split) <;> simp

@[simp] theorem trimRing_blocks (c : CtxNum) (s : State) :
    (s.trimRing c).hwi = s.hwi ∧ (s.trimRing c).engines = s.engines ∧ (s.trimRing c).notice = s.notice ∧
      (s.trimRing c).mapu = s.mapu ∧ (s.trimRing c).pool = s.pool ∧ (s.trimRing c).life = s.life ∧
      (s.trimRing c).released = s.released ∧ (s.trimRing c).pending = s.pending := by
  unfold State.trimRing
  (repeat' split) <;> simp

@[simp] theorem postNeed_blocks (c : CtxNum) (s : State) :
    (s.postNeed c).hwi = s.hwi ∧ (s.postNeed c).mapu = s.mapu ∧ (s.postNeed c).life = s.life ∧
      (s.postNeed c).released = s.released ∧ (s.postNeed c).pending = s.pending := by
  unfold State.postNeed
  (repeat' split) <;> simp

@[simp] theorem doNeed_blocks (c : CtxNum) (s : State) :
    (s.doNeed c).hwi = s.hwi ∧ (s.doNeed c).mapu = s.mapu ∧ (s.doNeed c).life = s.life ∧
      (s.doNeed c).released = s.released ∧ (s.doNeed c).pending = s.pending := by
  unfold State.doNeed
  (repeat' split) <;> simp

@[simp] theorem uplinkBlock_blocks (c : CtxNum) (s : State) :
    (s.uplinkBlock c).hwi = s.hwi ∧ (s.uplinkBlock c).engines = s.engines ∧ (s.uplinkBlock c).mapu = s.mapu ∧
      (s.uplinkBlock c).life = s.life ∧ (s.uplinkBlock c).released = s.released ∧
      (s.uplinkBlock c).pending = s.pending := by
  unfold State.uplinkBlock
  (repeat' split) <;> simp

@[simp] theorem replaceStart_blocks (c : CtxNum) (s : State) :
    (s.replaceStart c).hwi = s.hwi ∧ (s.replaceStart c).notice = s.notice ∧ (s.replaceStart c).mapu = s.mapu ∧
      (s.replaceStart c).pool = s.pool ∧ (s.replaceStart c).life = s.life ∧ (s.replaceStart c).report = s.report ∧
      (s.replaceStart c).released = s.released ∧ (s.replaceStart c).pending = s.pending := by
  simp [State.replaceStart]

@[simp] theorem scheduleEncode_blocks (c : CtxNum) (b : List Sample) (s : State) :
    (s.scheduleEncode c b).hwi = s.hwi ∧ (s.scheduleEncode c b).notice = s.notice ∧
      (s.scheduleEncode c b).mapu = s.mapu ∧ (s.scheduleEncode c b).pool = s.pool ∧
      (s.scheduleEncode c b).life = s.life ∧ (s.scheduleEncode c b).report = s.report ∧
      (s.scheduleEncode c b).released = s.released ∧ (s.scheduleEncode c b).pending = s.pending := by
  unfold State.scheduleEncode
  (repeat' split) <;> simp

@[simp] theorem doBlockClose_blocks (c : CtxNum) (s : State) :
    (s.doBlockClose c).hwi = s.hwi ∧ (s.doBlockClose c).notice = s.notice ∧ (s.doBlockClose c).mapu = s.mapu ∧
      (s.doBlockClose c).pool = s.pool ∧ (s.doBlockClose c).life = s.life ∧ (s.doBlockClose c).report = s.report ∧
      (s.doBlockClose c).released = s.released ∧ (s.doBlockClose c).pending = s.pending := by
  unfold State.doBlockClose
  (repeat' split) <;> simp

@[simp] theorem countFiller_blocks (c : CtxNum) (s : State) :
    (s.countFiller c).hwi = s.hwi ∧ (s.countFiller c).engines = s.engines ∧ (s.countFiller c).notice = s.notice ∧
      (s.countFiller c).mapu = s.mapu ∧ (s.countFiller c).pool = s.pool ∧ (s.countFiller c).life = s.life ∧
      (s.countFiller c).released = s.released ∧ (s.countFiller c).pending = s.pending := by
  simp [State.countFiller]

@[simp] theorem fixContent_blocks (c : CtxNum) (s : State) :
    (s.fixContent c).hwi = s.hwi ∧ (s.fixContent c).engines = s.engines ∧ (s.fixContent c).notice = s.notice ∧
      (s.fixContent c).mapu = s.mapu ∧ (s.fixContent c).pool = s.pool ∧ (s.fixContent c).life = s.life ∧
      (s.fixContent c).released = s.released ∧ (s.fixContent c).pending = s.pending := by
  unfold State.fixContent
  (repeat' split) <;> simp <;> split <;> simp

@[simp] theorem beginEmission_blocks (c : CtxNum) (s : State) :
    (s.beginEmission c).hwi = s.hwi ∧ (s.beginEmission c).engines = s.engines ∧
      (s.beginEmission c).notice = s.notice ∧ (s.beginEmission c).mapu = s.mapu ∧
      (s.beginEmission c).pool = s.pool ∧ (s.beginEmission c).life = s.life ∧
      (s.beginEmission c).released = s.released ∧ (s.beginEmission c).pending = s.pending := by
  unfold State.beginEmission
  (repeat' split) <;> simp

@[simp] theorem doEmissionStart_blocks (c : CtxNum) (s : State) :
    (s.doEmissionStart c).hwi = s.hwi ∧ (s.doEmissionStart c).mapu = s.mapu ∧ (s.doEmissionStart c).life = s.life ∧
      (s.doEmissionStart c).pending = s.pending := by
  unfold State.doEmissionStart
  (repeat' split) <;> simp

@[simp] theorem contentAfterJob_blocks (c : CtxNum) (s : State) :
    (s.contentAfterJob c).hwi = s.hwi ∧ (s.contentAfterJob c).engines = s.engines ∧
      (s.contentAfterJob c).notice = s.notice ∧ (s.contentAfterJob c).mapu = s.mapu ∧
      (s.contentAfterJob c).pool = s.pool ∧ (s.contentAfterJob c).life = s.life ∧
      (s.contentAfterJob c).released = s.released ∧ (s.contentAfterJob c).pending = s.pending := by
  unfold State.contentAfterJob
  (repeat' split) <;> simp

@[simp] theorem freeEngine_blocks (e : EngineNum) (s : State) :
    (s.freeEngine e).hwi = s.hwi ∧ (s.freeEngine e).table = s.table ∧ (s.freeEngine e).notice = s.notice ∧
      (s.freeEngine e).mapu = s.mapu ∧ (s.freeEngine e).pool = s.pool ∧ (s.freeEngine e).life = s.life ∧
      (s.freeEngine e).report = s.report ∧ (s.freeEngine e).released = s.released ∧
      (s.freeEngine e).pending = s.pending := by
  simp [State.freeEngine]

@[simp] theorem doDecodeCompletion_blocks (e : EngineNum) (s : State) :
    (s.doDecodeCompletion e).hwi = s.hwi ∧ (s.doDecodeCompletion e).notice = s.notice ∧
      (s.doDecodeCompletion e).mapu = s.mapu ∧ (s.doDecodeCompletion e).pool = s.pool ∧
      (s.doDecodeCompletion e).life = s.life ∧ (s.doDecodeCompletion e).report = s.report ∧
      (s.doDecodeCompletion e).released = s.released ∧ (s.doDecodeCompletion e).pending = s.pending := by
  unfold State.doDecodeCompletion
  (repeat' split) <;> simp

@[simp] theorem doEncodeCompletion_blocks (e : EngineNum) (s : State) :
    (s.doEncodeCompletion e).hwi = s.hwi ∧ (s.doEncodeCompletion e).notice = s.notice ∧
      (s.doEncodeCompletion e).mapu = s.mapu ∧ (s.doEncodeCompletion e).pool = s.pool ∧
      (s.doEncodeCompletion e).life = s.life ∧ (s.doEncodeCompletion e).released = s.released ∧
      (s.doEncodeCompletion e).pending = s.pending := by
  unfold State.doEncodeCompletion
  (repeat' split) <;> simp

@[simp] theorem dropJob_blocks (c : CtxNum) (d : Direction) (s : State) :
    (s.dropJob c d).hwi = s.hwi ∧ (s.dropJob c d).mapu = s.mapu ∧ (s.dropJob c d).life = s.life ∧
      (s.dropJob c d).released = s.released ∧ (s.dropJob c d).pending = s.pending := by
  unfold State.dropJob
  (repeat' split) <;> simp <;> split <;> simp

@[simp] theorem tellDrop_blocks (j : Job) (s : State) :
    (s.tellDrop j).hwi = s.hwi ∧ (s.tellDrop j).engines = s.engines ∧ (s.tellDrop j).notice = s.notice ∧
      (s.tellDrop j).mapu = s.mapu ∧ (s.tellDrop j).pool = s.pool ∧ (s.tellDrop j).life = s.life ∧
      (s.tellDrop j).released = s.released ∧ (s.tellDrop j).pending = s.pending := by
  unfold State.tellDrop
  (repeat' split) <;> simp

@[simp] theorem doJobDropped_blocks (c : CtxNum) (d : Direction) (s : State) :
    (s.doJobDropped c d).hwi = s.hwi ∧ (s.doJobDropped c d).mapu = s.mapu ∧ (s.doJobDropped c d).life = s.life ∧
      (s.doJobDropped c d).released = s.released ∧ (s.doJobDropped c d).pending = s.pending := by
  unfold State.doJobDropped
  (repeat' split) <;> simp

@[simp] theorem readAbandoned_blocks (a : List PortAct) (s : State) :
    (s.readAbandoned a).hwi = s.hwi ∧ (s.readAbandoned a).engines = s.engines ∧ (s.readAbandoned a).mapu = s.mapu ∧
      (s.readAbandoned a).released = s.released ∧ (s.readAbandoned a).pending = s.pending := by
  simp [State.readAbandoned]

@[simp] theorem doMissingAcknowledge_blocks (k : Nat) (p : AckPoint) (s : State) :
    (s.doMissingAcknowledge k p).hwi = s.hwi ∧ (s.doMissingAcknowledge k p).engines = s.engines ∧
      (s.doMissingAcknowledge k p).mapu = s.mapu ∧ (s.doMissingAcknowledge k p).released = s.released ∧
      (s.doMissingAcknowledge k p).pending = s.pending := by
  unfold State.doMissingAcknowledge
  (repeat' split) <;> simp

@[simp] theorem doLoaderPauseEnd_blocks (s : State) :
    (s.doLoaderPauseEnd).hwi = s.hwi ∧ (s.doLoaderPauseEnd).table = s.table ∧
      (s.doLoaderPauseEnd).engines = s.engines ∧ (s.doLoaderPauseEnd).notice = s.notice ∧
      (s.doLoaderPauseEnd).mapu = s.mapu ∧ (s.doLoaderPauseEnd).pool = s.pool ∧
      (s.doLoaderPauseEnd).report = s.report ∧ (s.doLoaderPauseEnd).released = s.released ∧
      (s.doLoaderPauseEnd).pending = s.pending := by
  unfold State.doLoaderPauseEnd
  (repeat' split) <;> simp

@[simp] theorem doSclHeldLow_blocks (k : Nat) (x : ReadCut) (s : State) :
    (s.doSclHeldLow k x).hwi = s.hwi ∧ (s.doSclHeldLow k x).engines = s.engines ∧
      (s.doSclHeldLow k x).mapu = s.mapu ∧ (s.doSclHeldLow k x).released = s.released ∧
      (s.doSclHeldLow k x).pending = s.pending := by
  unfold State.doSclHeldLow
  (repeat' split) <;> simp

@[simp] theorem doConfigurationReadEnd_blocks (k : Nat) (i : List Byte) (s : State) :
    (s.doConfigurationReadEnd k i).hwi = s.hwi ∧ (s.doConfigurationReadEnd k i).engines = s.engines ∧
      (s.doConfigurationReadEnd k i).mapu = s.mapu ∧ (s.doConfigurationReadEnd k i).released = s.released ∧
      (s.doConfigurationReadEnd k i).pending = s.pending := by
  unfold State.doConfigurationReadEnd
  (repeat' split) <;> simp <;> split <;> simp

@[simp] theorem doEnterListen_blocks (s : State) :
    (s.doEnterListen).hwi = s.hwi ∧ (s.doEnterListen).engines = s.engines ∧
      (s.doEnterListen).released = s.released ∧ (s.doEnterListen).pending = s.pending := by
  unfold State.doEnterListen
  (repeat' split) <;> simp

@[simp] theorem doQuietPeriodEnd_blocks (s : State) :
    (s.doQuietPeriodEnd).hwi = s.hwi ∧ (s.doQuietPeriodEnd).engines = s.engines ∧
      (s.doQuietPeriodEnd).released = s.released ∧ (s.doQuietPeriodEnd).pending = s.pending := by
  simp only [State.doQuietPeriodEnd]
  (repeat' split) <;> simp

@[simp] theorem enterActive_blocks (s : State) :
    (s.enterActive).hwi = s.hwi ∧ (s.enterActive).table = s.table ∧ (s.enterActive).engines = s.engines ∧
      (s.enterActive).mapu = s.mapu ∧ (s.enterActive).report = s.report ∧ (s.enterActive).released = s.released ∧
      (s.enterActive).pending = s.pending := by
  simp [State.enterActive]

@[simp] theorem doMapComplete_blocks (s : State) :
    (s.doMapComplete).hwi = s.hwi ∧ (s.doMapComplete).engines = s.engines ∧
      (s.doMapComplete).released = s.released ∧ (s.doMapComplete).pending = s.pending := by
  unfold State.doMapComplete
  (repeat' split) <;> simp <;> split <;> simp

@[simp] theorem doTimingGood_blocks (s : State) :
    (s.doTimingGood).table = s.table ∧ (s.doTimingGood).engines = s.engines ∧ (s.doTimingGood).notice = s.notice ∧
      (s.doTimingGood).mapu = s.mapu ∧ (s.doTimingGood).pool = s.pool ∧ (s.doTimingGood).life = s.life ∧
      (s.doTimingGood).report = s.report ∧ (s.doTimingGood).released = s.released ∧
      (s.doTimingGood).pending = s.pending := by
  unfold State.doTimingGood
  (repeat' split) <;> simp

@[simp] theorem contextBlocks_blocks (s : State) :
    (s.contextBlocks).hwi = s.hwi ∧ (s.contextBlocks).engines = s.engines ∧ (s.contextBlocks).mapu = s.mapu ∧
      (s.contextBlocks).life = s.life ∧ (s.contextBlocks).released = s.released ∧
      (s.contextBlocks).pending = s.pending := by
  unfold State.contextBlocks
  exact ⟨(foldl_keeps (fun s => s.hwi) _ (fun s a => by simp) _ _),
    (foldl_keeps (fun s => s.engines) _ (fun s a => by simp) _ _),
    (foldl_keeps (fun s => s.mapu) _ (fun s a => by simp) _ _),
    (foldl_keeps (fun s => s.life) _ (fun s a => by simp) _ _),
    (foldl_keeps (fun s => s.released) _ (fun s a => by simp) _ _),
    (foldl_keeps (fun s => s.pending) _ (fun s a => by simp) _ _)⟩

@[simp] theorem quietBlock_blocks (s : State) :
    (s.quietBlock).hwi = s.hwi ∧ (s.quietBlock).table = s.table ∧ (s.quietBlock).engines = s.engines ∧
      (s.quietBlock).notice = s.notice ∧ (s.quietBlock).mapu = s.mapu ∧ (s.quietBlock).pool = s.pool ∧
      (s.quietBlock).report = s.report ∧ (s.quietBlock).released = s.released ∧
      (s.quietBlock).pending = s.pending := by
  unfold State.quietBlock
  (repeat' split) <;> simp

@[simp] theorem listenBlock_blocks (s : State) :
    (s.listenBlock).hwi = s.hwi ∧ (s.listenBlock).table = s.table ∧ (s.listenBlock).engines = s.engines ∧
      (s.listenBlock).notice = s.notice ∧ (s.listenBlock).pool = s.pool ∧ (s.listenBlock).life = s.life ∧
      (s.listenBlock).report = s.report ∧ (s.listenBlock).released = s.released ∧
      (s.listenBlock).pending = s.pending := by
  unfold State.listenBlock
  (repeat' split) <;> simp

@[simp] theorem poolBlock_blocks (o : BlockOrder) (s : State) :
    (s.poolBlock o).hwi = s.hwi ∧ (s.poolBlock o).engines = s.engines ∧ (s.poolBlock o).life = s.life ∧
      (s.poolBlock o).released = s.released ∧ (s.poolBlock o).pending = s.pending := by
  unfold State.poolBlock
  (repeat' split) <;> simp <;> split <;> simp

@[simp] theorem blockEvent_blocks (o : BlockOrder) (s : State) :
    (s.blockEvent o).hwi = s.hwi ∧ (s.blockEvent o).released = s.released ∧ (s.blockEvent o).pending = s.pending := by
  simp [State.blockEvent]

@[simp] theorem doBlockEvent_blocks (o : BlockOrder) (s : State) :
    (s.doBlockEvent o).released = s.released ∧ (s.doBlockEvent o).pending = s.pending := by
  unfold State.doBlockEvent
  (repeat' split) <;> simp

@[simp] theorem doBridgedBlockEvent_blocks (o : BlockOrder) (s : State) :
    (s.doBridgedBlockEvent o).released = s.released ∧ (s.doBridgedBlockEvent o).pending = s.pending := by
  unfold State.doBridgedBlockEvent
  (repeat' split) <;> simp

end Sys2Proof.Laws
end

