-- ==== Sys2Proof/Laws/Tables.lean ====
section
/-! SUPPORT. The numbered tables: every operation keeps the numbers rising, a lookup reads what was last written, and two
canonical tables that read alike are equal. -/

namespace Sys2Proof.Laws

open Sys2Proof.Machine

variable {n : Nat} {α : Type}

/-- The rising form, as an order of every pair. -/
theorem rising_iff (t : Table n α) : Table.rising t = true ↔ t.Pairwise (fun a b => a.1 < b.1) := by
  induction t with
  | nil => simp [Table.rising]
  | cons a t ih =>
    cases t with
    | nil => simp [Table.rising]
    | cons b t =>
      obtain ⟨j, v⟩ := a
      obtain ⟨k, w⟩ := b
      simp only [Table.rising, Bool.and_eq_true, decide_eq_true_eq, ih]
      constructor
      · rintro ⟨hjk, h⟩
        refine List.pairwise_cons.2 ⟨fun e he => ?_, h⟩
        rcases List.mem_cons.1 he with rfl | he
        · exact hjk
        · exact lt_trans hjk ((List.pairwise_cons.1 h).1 e he)
      · intro h
        have h' := List.pairwise_cons.1 h
        exact ⟨h'.1 (k, w) (List.mem_cons_self ..), h'.2⟩

theorem rising_nil : Table.rising ([] : Table n α) = true := rfl

theorem lookup_eq_none_of_lt {t : Table n α} {k : Fin n} (h : ∀ e ∈ t, k < e.1) : Table.lookup t k = none := by
  induction t with
  | nil => rfl
  | cons e t ih =>
    obtain ⟨j, v⟩ := e
    have hj : k < j := h (j, v) (List.mem_cons_self ..)
    simp only [Table.lookup, if_neg (ne_of_gt hj)]
    exact ih (fun e he => h e (List.mem_cons_of_mem _ he))

/-- A written value is read back. -/
@[simp] theorem lookup_insert_self (t : Table n α) (k : Fin n) (v : α) :
    Table.lookup (Table.insert t k v) k = some v := by
  induction t with
  | nil => simp [Table.insert, Table.lookup]
  | cons e t ih =>
    obtain ⟨j, w⟩ := e
    unfold Table.insert
    split
    · simp [Table.lookup]
    · split
      · simp [Table.lookup]
      · rename_i hj
        simp [Table.lookup, Ne.symm hj, ih]

/-- Writing one number leaves every other as it reads. -/
theorem lookup_insert_ne (t : Table n α) {k j : Fin n} (v : α) (h : j ≠ k) :
    Table.lookup (Table.insert t k v) j = Table.lookup t j := by
  induction t with
  | nil => simp [Table.insert, Table.lookup, h.symm]
  | cons e t ih =>
    obtain ⟨i, w⟩ := e
    unfold Table.insert
    split
    · simp [Table.lookup, h.symm]
    · split
      · rename_i hi
        subst hi
        simp [Table.lookup, h.symm]
      · simp [Table.lookup, ih]

theorem lookup_insert (t : Table n α) (k j : Fin n) (v : α) :
    Table.lookup (Table.insert t k v) j = if j = k then some v else Table.lookup t j := by
  split
  · rename_i h; subst h; simp
  · rename_i h; exact lookup_insert_ne t v h

/-- An erased number reads as unlisted. -/
theorem lookup_erase (t : Table n α) (k j : Fin n) :
    Table.lookup (Table.erase t k) j = if j = k then none else Table.lookup t j := by
  induction t with
  | nil => simp [Table.erase, Table.lookup]
  | cons e t ih =>
    obtain ⟨i, w⟩ := e
    unfold Table.erase at ih ⊢
    simp only [List.filter_cons]
    by_cases hi : i = k
    · subst hi
      simp only [ne_eq, not_true_eq_false, decide_false, Bool.false_eq_true, if_false, ih, Table.lookup]
      split
      · rfl
      · rename_i hj; rw [if_neg (Ne.symm hj)]
    · simp only [ne_eq, hi, not_false_eq_true, decide_true, if_true, Table.lookup, ih]
      by_cases hij : i = j
      · subst hij; simp [hi]
      · simp [hij]

@[simp] theorem lookup_erase_self (t : Table n α) (k : Fin n) : Table.lookup (Table.erase t k) k = none := by
  simp [lookup_erase]

theorem lookup_put [DecidableEq α] (d : α) (t : Table n α) (k j : Fin n) (v : α) :
    (Table.lookup (Table.put d t k v) j).getD d = if j = k then v else (Table.lookup t j).getD d := by
  unfold Table.put
  split
  · rename_i h
    rw [lookup_erase]
    split <;> simp [h]
  · rw [lookup_insert]
    split <;> simp

theorem lookup_mapValues (f : α → α) (t : Table n α) (k : Fin n) :
    Table.lookup (Table.mapValues f t) k = (Table.lookup t k).map f := by
  induction t with
  | nil => rfl
  | cons e t ih =>
    obtain ⟨j, v⟩ := e
    unfold Table.mapValues at ih ⊢
    simp only [List.map_cons, Table.lookup]
    split
    · rfl
    · exact ih

theorem mem_of_lookup {t : Table n α} {k : Fin n} {v : α} (h : Table.lookup t k = some v) : (k, v) ∈ t := by
  induction t with
  | nil => cases h
  | cons e t ih =>
    obtain ⟨j, w⟩ := e
    unfold Table.lookup at h
    split at h
    · rename_i hj; cases h; subst hj; exact List.mem_cons_self ..
    · exact List.mem_cons_of_mem _ (ih h)

/-- In a rising table every listed value is the one that is read. -/
theorem lookup_of_mem {t : Table n α} {k : Fin n} {v : α} (ht : Table.rising t = true) (h : (k, v) ∈ t) :
    Table.lookup t k = some v := by
  rw [rising_iff] at ht
  induction t with
  | nil => cases h
  | cons e t ih =>
    obtain ⟨j, w⟩ := e
    rw [List.pairwise_cons] at ht
    rcases List.mem_cons.1 h with he | he
    · cases he; simp [Table.lookup]
    · have : j < k := ht.1 (k, v) he
      simp only [Table.lookup, if_neg (ne_of_lt this)]
      exact ih ht.2 he

theorem mem_insert {t : Table n α} {k : Fin n} {v : α} {e : Fin n × α} (h : e ∈ Table.insert t k v) :
    e = (k, v) ∨ e ∈ t := by
  induction t with
  | nil => exact Or.inl (List.mem_singleton.1 h)
  | cons a t ih =>
    obtain ⟨j, w⟩ := a
    unfold Table.insert at h
    split at h
    · rcases List.mem_cons.1 h with h | h
      · exact Or.inl h
      · exact Or.inr h
    · split at h
      · rcases List.mem_cons.1 h with h | h
        · exact Or.inl h
        · exact Or.inr (List.mem_cons_of_mem _ h)
      · rcases List.mem_cons.1 h with h | h
        · exact Or.inr (h ▸ List.mem_cons_self ..)
        · exact (ih h).imp id (List.mem_cons_of_mem _)

/-- Writing keeps the numbers rising. -/
theorem rising_insert {t : Table n α} (ht : Table.rising t = true) (k : Fin n) (v : α) :
    Table.rising (Table.insert t k v) = true := by
  rw [rising_iff] at ht ⊢
  induction t with
  | nil => exact List.pairwise_singleton _ _
  | cons a t ih =>
    obtain ⟨j, w⟩ := a
    have ht' := List.pairwise_cons.1 ht
    unfold Table.insert
    split
    · rename_i hk
      refine List.pairwise_cons.2 ⟨fun e he => ?_, ht⟩
      rcases List.mem_cons.1 he with rfl | he
      · exact hk
      · exact lt_trans hk (ht'.1 e he)
    · split
      · rename_i hk
        subst hk
        exact List.pairwise_cons.2 ⟨fun e he => ht'.1 e he, ht'.2⟩
      · rename_i h1 h2
        have hj : j < k := lt_of_le_of_ne (not_lt.1 h1) (Ne.symm h2)
        refine List.pairwise_cons.2 ⟨fun e he => ?_, ih ht'.2⟩
        rcases mem_insert he with rfl | he
        · exact hj
        · exact ht'.1 e he

/-- Entries that leave keep the numbers rising. -/
theorem rising_filter {t : Table n α} (ht : Table.rising t = true) (f : Fin n × α → Bool) :
    Table.rising (List.filter f t : Table n α) = true := by
  rw [rising_iff] at ht ⊢
  exact ht.filter f

theorem rising_erase {t : Table n α} (ht : Table.rising t = true) (k : Fin n) : Table.rising (Table.erase t k) = true :=
  rising_filter ht _

/-- A change of entries that keeps their numbers keeps them rising. -/
theorem rising_map {t : Table n α} (ht : Table.rising t = true) {f : Fin n × α → Fin n × α} (hf : ∀ e, (f e).1 = e.1) :
    Table.rising (List.map f t : Table n α) = true := by
  rw [rising_iff] at ht ⊢
  refine List.pairwise_map.2 (ht.imp ?_)
  intro a b hab
  rw [hf, hf]
  exact hab

theorem rising_mapValues {t : Table n α} (ht : Table.rising t = true) (f : α → α) :
    Table.rising (Table.mapValues f t) = true :=
  rising_map ht (fun _ => rfl)

/-- Writing with a resting value keeps the canonical form. -/
theorem canonical_put [DecidableEq α] {d : α} {t : Table n α} (h : Table.canonical d t) (k : Fin n) (v : α) :
    Table.canonical d (Table.put d t k v) := by
  unfold Table.put
  split
  · exact ⟨rising_erase h.1 k, fun e he => h.2 e (List.mem_filter.1 he).1⟩
  · rename_i hv
    refine ⟨rising_insert h.1 k v, fun e he => ?_⟩
    rcases mem_insert he with rfl | he
    · exact hv
    · exact h.2 e he

/-- Rising tables that read alike are equal. -/
theorem rising_ext {t u : Table n α} (ht : Table.rising t = true) (hu : Table.rising u = true)
    (h : ∀ k, Table.lookup t k = Table.lookup u k) : t = u := by
  rw [rising_iff] at ht hu
  induction t generalizing u with
  | nil =>
    cases u with
    | nil => rfl
    | cons e u => have := h e.1; simp [Table.lookup] at this
  | cons a t ih =>
    obtain ⟨j, v⟩ := a
    cases u with
    | nil => have := h j; simp [Table.lookup] at this
    | cons b u =>
      obtain ⟨k, w⟩ := b
      have ht' := List.pairwise_cons.1 ht
      have hu' := List.pairwise_cons.1 hu
      have hjk : j = k := by
        rcases lt_trichotomy j k with hlt | he | hgt
        · have := h j
          rw [lookup_eq_none_of_lt (t := (k, w) :: u) (k := j)] at this
          · simp [Table.lookup] at this
          · intro e he
            rcases List.mem_cons.1 he with rfl | he
            · exact hlt
            · exact lt_trans hlt (hu'.1 e he)
        · exact he
        · have := h k
          rw [lookup_eq_none_of_lt (t := (j, v) :: t) (k := k)] at this
          · simp [Table.lookup] at this
          · intro e he
            rcases List.mem_cons.1 he with rfl | he
            · exact hgt
            · exact lt_trans hgt (ht'.1 e he)
      subst hjk
      have hv : v = w := by have := h j; simpa [Table.lookup] using this
      subst hv
      have hr : ∀ i, Table.lookup t i = Table.lookup u i := by
        intro i
        by_cases hi : i = j
        · subst hi
          have h1 : Table.lookup t i = none := lookup_eq_none_of_lt (fun e he => ht'.1 e he)
          have h2 : Table.lookup u i = none := lookup_eq_none_of_lt (fun e he => hu'.1 e he)
          rw [h1, h2]
        · have := h i
          simpa [Table.lookup, Ne.symm hi] using this
      rw [ih ht'.2 hu'.2 hr]

theorem lookup_ne_resting {d : α} {t : Table n α} (h : Table.canonical d t) {k : Fin n} {v : α}
    (hv : Table.lookup t k = some v) : v ≠ d :=
  h.2 (k, v) (mem_of_lookup hv)

/-- Canonical tables in which every number reads alike are equal. -/
theorem canonical_ext {d : α} {t u : Table n α} (ht : Table.canonical d t) (hu : Table.canonical d u)
    (h : ∀ k, (Table.lookup t k).getD d = (Table.lookup u k).getD d) : t = u := by
  refine rising_ext ht.1 hu.1 (fun k => ?_)
  have hk := h k
  cases h1 : Table.lookup t k with
  | none =>
    cases h2 : Table.lookup u k with
    | none => rfl
    | some w => rw [h1, h2] at hk; exact absurd hk.symm (lookup_ne_resting hu h2)
  | some v =>
    cases h2 : Table.lookup u k with
    | none => rw [h1, h2] at hk; exact absurd hk (lookup_ne_resting ht h1)
    | some w => rw [h1, h2] at hk; exact congrArg some hk

end Sys2Proof.Laws
end

