-- ==== Sys2Proof/Laws/Outbox.lean ====
section
/-! SUPPORT. The outbox stays sound (R99 to R102): what placing, replacing, evicting and removing do to its order. -/

namespace Sys2Proof.Laws

open Sys2Proof.Machine

theorem insertEntry_perm (e : OutEntry) (l : List OutEntry) : (insertEntry e l).Perm (e :: l) := by
  induction l with
  | nil => exact List.Perm.refl _
  | cons x xs ih =>
    unfold insertEntry
    split
    · exact (ih.cons x).trans (List.Perm.swap e x xs)
    · exact List.Perm.refl _

theorem insertEntry_length (e : OutEntry) (l : List OutEntry) : (insertEntry e l).length = l.length + 1 :=
  (insertEntry_perm e l).length_eq

theorem mem_insertEntry {e x : OutEntry} {l : List OutEntry} : x ∈ insertEntry e l ↔ x = e ∨ x ∈ l :=
  (insertEntry_perm e l).mem_iff.trans List.mem_cons

/-- A new entry older than none keeps the order of R99. -/
theorem insertEntry_ordered {e : OutEntry} {l : List OutEntry} (h : l.Pairwise OutEntry.before)
    (ha : ∀ x ∈ l, x.age < e.age) : (insertEntry e l).Pairwise OutEntry.before := by
  induction l with
  | nil => simp [insertEntry]
  | cons x xs ih =>
    rw [List.pairwise_cons] at h
    unfold insertEntry
    split
    · rename_i hk
      refine List.pairwise_cons.2 ⟨fun y hy => ?_, ih h.2 (fun y hy => ha y (List.mem_cons_of_mem _ hy))⟩
      rcases mem_insertEntry.1 hy with rfl | hy
      · rcases Nat.lt_or_ge x.notice.kindCode y.notice.kindCode with hlt | hge
        · exact Or.inl hlt
        · exact Or.inr ⟨by omega, ha x (List.mem_cons_self ..)⟩
      · exact h.1 y hy
    · rename_i hk
      refine List.pairwise_cons.2 ⟨fun y hy => ?_, List.pairwise_cons.2 h⟩
      rcases List.mem_cons.1 hy with rfl | hy
      · exact Or.inl (by omega)
      · have := h.1 y hy
        refine Or.inl ?_
        unfold OutEntry.before at this
        omega

theorem holdsKey_false {n : Notice} {l : List OutEntry} (h : holdsKey n l = false) :
    n.key ∉ l.map (fun e => e.notice.key) := by
  intro hm
  obtain ⟨e, he, hk⟩ := List.mem_map.1 hm
  have : holdsKey n l = true := List.any_eq_true.2 ⟨e, he, by simp [hk]⟩
  simp [h] at this

/-- A new entry with a new key joins an ordered outbox that has room (R99). -/
theorem join_ordered {k : NoticeCtl} {n : Notice} (h : k.ordered) (hl : k.outbox.length < 16)
    (hk : n.key ∉ k.outbox.map (fun e => e.notice.key)) :
    NoticeCtl.ordered { k with
      outbox := insertEntry { notice := n, age := k.nextAge, retries := 0 } k.outbox
      nextAge := k.nextAge + 1 } := by
  obtain ⟨_, h2, h3, h4⟩ := h
  refine ⟨?_, ?_, ?_, ?_⟩
  · simp only [insertEntry_length]; omega
  · exact insertEntry_ordered h2 (fun x hx => (h4 x hx).1)
  · have hp := (insertEntry_perm { notice := n, age := k.nextAge, retries := 0 } k.outbox).map
      (fun e : OutEntry => e.notice.key)
    exact (hp.nodup_iff).2 (List.nodup_cons.2 ⟨hk, h3⟩)
  · intro e he
    rcases mem_insertEntry.1 he with rfl | he
    · exact ⟨Nat.lt_succ_self _, Nat.zero_le _⟩
    · exact ⟨Nat.lt_succ_of_lt (h4 e he).1, (h4 e he).2⟩

theorem kindCode_of_key {a b : Notice} (h : a.key = b.key) : a.kindCode = b.kindCode := congrArg Prod.fst h

/-- A change of entries that keeps each entry's key, age and retry count keeps the outbox in order. -/
theorem map_ordered {k : NoticeCtl} {f : OutEntry → OutEntry} (h : k.ordered)
    (hf : ∀ e, (f e).notice.key = e.notice.key ∧ (f e).age = e.age ∧ (f e).retries = e.retries) :
    NoticeCtl.ordered { k with outbox := k.outbox.map f } := by
  obtain ⟨h1, h2, h3, h4⟩ := h
  refine ⟨by simpa using h1, ?_, ?_, ?_⟩
  · refine List.pairwise_map.2 (h2.imp ?_)
    intro a b hab
    have ha := kindCode_of_key (hf a).1
    have hb := kindCode_of_key (hf b).1
    unfold OutEntry.before at hab ⊢
    rw [ha, hb, (hf a).2.1, (hf b).2.1]
    exact hab
  · rw [List.map_map]
    have : (fun e : OutEntry => e.notice.key) ∘ f = fun e => e.notice.key := funext (fun e => (hf e).1)
    rw [this]; exact h3
  · intro e he
    obtain ⟨e', he', rfl⟩ := List.mem_map.1 he
    rw [(hf e').2.1, (hf e').2.2]
    exact h4 e' he'

/-- Entries that leave keep the outbox in order. -/
theorem sublist_ordered {k : NoticeCtl} {l : List OutEntry} (h : k.ordered) (hs : l.Sublist k.outbox) :
    NoticeCtl.ordered { k with outbox := l } := by
  obtain ⟨h1, h2, h3, h4⟩ := h
  exact ⟨(hs.length_le).trans h1, h2.sublist hs, h3.sublist (hs.map _), fun e he => h4 e (hs.subset he)⟩

/-- The outbox in order and, where rest is set, no entry in its window: with rest it is soundness, and without it what
holds also while a window is in progress. -/
def Rests (rest : Bool) (k : NoticeCtl) : Prop := k.ordered ∧ (rest = true → k.inWindow = none)

theorem sound_iff_rests {k : NoticeCtl} : k.sound ↔ Rests true k := by simp [NoticeCtl.sound, Rests]

@[simp] theorem rests_empty (rest : Bool) : Rests rest NoticeCtl.empty := by
  simp [Rests, NoticeCtl.ordered, NoticeCtl.empty]

/-- Nothing waits for an entry in its window when there is none. -/
theorem defer_rests {rest : Bool} {k : NoticeCtl} (r : OutRequest) (h : Rests rest k) : Rests rest (k.defer r) :=
  ⟨h.1, fun hr => by simp [NoticeCtl.defer, h.2 hr]⟩

theorem defer_inWindow_none {k : NoticeCtl} (r : OutRequest) (h : k.inWindow = none) : k.defer r = k := by
  cases k; simp_all [NoticeCtl.defer]

theorem sends_none {k : NoticeCtl} (n : Notice) (h : k.inWindow = none) : k.sends n = false := by
  simp [NoticeCtl.sends, h]

/-- Placing keeps the outbox in order: in place of the entry with the key, once that has left its window, as a new entry,
or in place of the worst entry, or not at all (R99 to R101, R103). -/
theorem place_rests {rest : Bool} {s : State} (n : Notice) (h : Rests rest s.notice) :
    Rests rest (s.place n).notice := by
  unfold State.place
  split
  · exact defer_rests _ h
  split
  · refine ⟨map_ordered h.1 (fun e => ?_), h.2⟩
    split
    · rename_i hk; exact ⟨hk.symm, rfl, rfl⟩
    · exact ⟨rfl, rfl, rfl⟩
  · rename_i hk
    have hk' := holdsKey_false (Bool.eq_false_iff.2 hk)
    split
    · rename_i hl
      exact ⟨join_ordered h.1 hl hk', h.2⟩
    · split
      · rename_i hn
        rw [List.getLast?_eq_none_iff] at hn
        exact absurd (by simp [hn]) ‹¬ s.notice.outbox.length < 16›
      · split
        · simp only [departed_blocks, count_blocks]
          have hd := sublist_ordered h.1 (List.dropLast_sublist s.notice.outbox)
          refine ⟨join_ordered (k := { s.notice with outbox := s.notice.outbox.dropLast }) hd ?_ ?_, h.2⟩
          · have := h.1.1
            simp only [List.length_dropLast]; omega
          · intro hm
            exact hk' (List.map_subset _ (List.dropLast_sublist s.notice.outbox).subset hm)
        · simpa using h

/-- Removal at once keeps the outbox in order. -/
theorem removeNow_rests {rest : Bool} {s : State} (f : Notice → Bool) (h : Rests rest s.notice) :
    Rests rest (s.removeNow f).notice := by
  unfold State.removeNow
  rw [foldl_keeps (fun s => s.notice) _ (fun s a => by simp)]
  exact ⟨sublist_ordered h.1 List.filter_sublist, h.2⟩

/-- Removal keeps the outbox in order (R102, R103). -/
theorem removeNotices_rests {rest : Bool} {s : State} (r : Removal) (h : Rests rest s.notice) :
    Rests rest (s.removeNotices r).notice :=
  removeNow_rests _ (defer_rests _ h)

theorem takeRequest_rests {rest : Bool} {s : State} (key : Nat × Nat) (r : OutRequest) (h : Rests rest s.notice) :
    Rests rest (s.takeRequest key r).notice := by
  cases r with
  | place n => exact place_rests n h
  | remove r => exact removeNow_rests _ h

/-- Once the entry has left its window, no entry is in its window (R103). -/
theorem leavesWindow_rests {rest : Bool} {s : State} (h : Rests false s.notice) :
    Rests rest s.leavesWindow.notice := by
  unfold State.leavesWindow
  split
  · exact ⟨h.1, fun _ => by assumption⟩
  · rename_i w hw
    have : ∀ (l : List OutRequest) (s : State), Rests rest s.notice →
        Rests rest (l.foldl (State.takeRequest w.key) s).notice := by
      intro l
      induction l with
      | nil => exact fun s hs => hs
      | cons r l ih => exact fun s hs => ih _ (takeRequest_rests w.key r hs)
    exact this _ _ ⟨h.1, fun _ => rfl⟩

/-! ### Outside a window (R103): nothing waits -/

theorem place_outside {s : State} (n : Notice) (h : s.notice.inWindow = none) :
    s.place n =
      if holdsKey n s.notice.outbox then s.onNotice (fun k => { k with outbox := replaceEntry n k.outbox })
      else if s.notice.outbox.length < 16 then s.joinOutbox n
      else
        match s.notice.outbox.getLast? with
        | none => s.joinOutbox n
        | some worst =>
          if n.kindCode < worst.notice.kindCode then
            (((s.onNotice (fun k => { k with outbox := k.outbox.dropLast })).joinOutbox n).count .outboxDrops).departed
              worst.notice
          else (s.count .outboxDrops).departed n := by
  unfold State.place
  simp only [sends_none _ h, Bool.false_eq_true, if_false, and_true] <;>
    (cases s.notice.outbox.getLast? <;> rfl)

theorem removeNotices_outside {s : State} (r : Removal) (h : s.notice.inWindow = none) :
    s.removeNotices r = s.removeNow r.names := by
  unfold State.removeNotices
  simp only [State.onNotice, defer_inWindow_none _ h, sends_none _ h, Bool.not_false, Bool.and_true]

theorem leavesWindow_outside {s : State} (h : s.notice.inWindow = none) : s.leavesWindow = s := by
  unfold State.leavesWindow
  rw [h]

theorem beginWindow_empty {s : State} (h : s.notice.outbox = []) : s.beginWindow = s := by
  simp [State.beginWindow, State.headEntry, h]

end Sys2Proof.Laws
end

