-- ==== Sys2Proof/Laws/OutboxSteps.lean ====
section
/-! SUPPORT. Every operation that reaches the outbox keeps it in order (R99), and begins no window: one lemma for each. -/

namespace Sys2Proof.Laws

set_option linter.all false

open Sys2Proof.Machine

/-- A fold of steps that each keep P keeps P. -/
theorem foldl_inv {α : Type} (P : State → Prop) (f : State → α → State) (h : ∀ s a, P s → P (f s a))
    (l : List α) (s : State) (hs : P s) : P (l.foldl f s) := by
  induction l generalizing s with
  | nil => exact hs
  | cons a l ih => exact ih (f s a) (h s a hs)

theorem removeLost_rests {rest : Bool} {s : State} (q : Station) (h : Rests rest s.notice) :
    Rests rest (s.removeLost q).notice := by
  unfold State.removeLost
  try dsimp only
  repeat' first
    | with_reducible exact h
    | with_reducible apply removeNotices_rests
    | split
    | simp only [onHwi_notice, onTable_notice, onEngines_notice, onMap_notice, onPool_notice, onLife_notice, onReport_notice]
    | exact h

theorem withdrawBid_rests {rest : Bool} {s : State} (p : Pos) (h : Rests rest s.notice) :
    Rests rest (s.withdrawBid p).notice := by
  unfold State.withdrawBid
  try dsimp only
  repeat' first
    | with_reducible exact h
    | with_reducible apply removeNotices_rests
    | split
    | simp only [onHwi_notice, onTable_notice, onEngines_notice, onMap_notice, onPool_notice, onLife_notice, onReport_notice]
    | exact h

theorem placeReport_rests {rest : Bool} {s : State} (p : Pos) (i : BitVec 8) (v : BitVec 24) (h : Rests rest s.notice) :
    Rests rest (s.placeReport p i v).notice := by
  unfold State.placeReport
  repeat' first
    | with_reducible exact h
    | with_reducible apply place_rests
    | split
    | simp only [onHwi_notice, onTable_notice, onEngines_notice, onMap_notice, onPool_notice, onLife_notice, onReport_notice]
    | exact h

theorem raiseFlag_rests {rest : Bool} {s : State} (f : FaultFlag) (h : Rests rest s.notice) :
    Rests rest (s.raiseFlag f).notice := by
  unfold State.raiseFlag
  try dsimp only
  repeat' first
    | with_reducible exact h
    | with_reducible apply placeReport_rests
    | split
    | simp only [onHwi_notice, onTable_notice, onEngines_notice, onMap_notice, onPool_notice, onLife_notice, onReport_notice]
    | exact h

theorem releaseCtx_rests {rest : Bool} {s : State} (c : CtxNum) (h : Rests rest s.notice) :
    Rests rest (s.releaseCtx c).notice := by
  unfold State.releaseCtx
  try dsimp only
  repeat' first
    | with_reducible exact h
    | with_reducible apply removeNotices_rests
    | split
    | simp only [withdrawJobs_blocks, clearTakenMark_blocks, endShed_blocks]
    | simp only [onHwi_notice, onTable_notice, onEngines_notice, onMap_notice, onPool_notice, onLife_notice, onReport_notice]
    | exact h

theorem releaseFor_rests {rest : Bool} {s : State} (p : Pos) (h : Rests rest s.notice) :
    Rests rest (s.releaseFor p).notice := by
  unfold State.releaseFor
  repeat' first
    | with_reducible exact h
    | with_reducible apply releaseCtx_rests
    | split
    | simp only [onHwi_notice, onTable_notice, onEngines_notice, onMap_notice, onPool_notice, onLife_notice, onReport_notice]
    | exact h

theorem releaseUnnamed_rests {rest : Bool} {s : State} (p : Pos) (h : Rests rest s.notice) :
    Rests rest (s.releaseUnnamed p).notice := by
  unfold State.releaseUnnamed
  repeat' first
    | with_reducible exact h
    | with_reducible apply releaseFor_rests
    | split
    | simp only [onHwi_notice, onTable_notice, onEngines_notice, onMap_notice, onPool_notice, onLife_notice, onReport_notice]
    | exact h

theorem retreat_rests {rest : Bool} {s : State} (c : RetreatCause) (h : Rests rest s.notice) :
    Rests rest (s.retreat c).notice := by
  unfold State.retreat
  split
  · exact rests_empty _
  · exact h

theorem loseTiming_rests {rest : Bool} {s : State} (h : Rests rest s.notice) :
    Rests rest (s.loseTiming).notice := by
  unfold State.loseTiming
  try dsimp only
  repeat' first
    | with_reducible exact h
    | with_reducible apply raiseFlag_rests
    | with_reducible apply retreat_rests
    | split
    | simp only [onHwi_notice, onTable_notice, onEngines_notice, onMap_notice, onPool_notice, onLife_notice, onReport_notice]
    | exact h

theorem enterListen_rests {rest : Bool} {s : State} (h : Rests rest s.notice) :
    Rests rest (s.enterListen).notice := by
  have h0 : Rests rest (s.onNotice (fun _ => NoticeCtl.empty)).notice := rests_empty _
  unfold State.enterListen
  dsimp only
  repeat' first
    | with_reducible apply placeReport_rests
    | with_reducible apply place_rests
    | split
    | exact h0

theorem placeBid_rests {rest : Bool} {s : State} (p : Pos) (r : BidRole) (h : Rests rest s.notice) :
    Rests rest (s.placeBid p r).notice := by
  unfold State.placeBid
  split
  · exact h
  · split
    · split
      · exact h
      · rename_i ht
        have ht' := (requestReservation_blocks ht).2.2.1 ▸ h
        apply place_rests
        split <;> exact ht'
    · exact h

theorem placeTaken_rests {rest : Bool} {s : State} (p : Pos) (c : TakenCause) (h : Rests rest s.notice) :
    Rests rest (s.placeTaken p c).notice := by
  unfold State.placeTaken
  repeat' first
    | with_reducible exact h
    | with_reducible apply place_rests
    | split
    | simp only [setTakenMark_blocks]
    | simp only [onHwi_notice, onTable_notice, onEngines_notice, onMap_notice, onPool_notice, onLife_notice, onReport_notice]
    | exact h

theorem withdrawUnfit_rests {rest : Bool} {s : State} (p : Pos) (h : Rests rest s.notice) :
    Rests rest (s.withdrawUnfit p).notice := by
  unfold State.withdrawUnfit
  repeat' first
    | with_reducible exact h
    | with_reducible apply withdrawBid_rests
    | split
    | simp only [onHwi_notice, onTable_notice, onEngines_notice, onMap_notice, onPool_notice, onLife_notice, onReport_notice]
    | exact h

theorem keepOrWithdraw_rests {rest : Bool} {s : State} (p : Pos) (h : Rests rest s.notice) :
    Rests rest (s.keepOrWithdraw p).notice := by
  unfold State.keepOrWithdraw
  try dsimp only
  repeat' first
    | with_reducible exact h
    | with_reducible apply withdrawBid_rests
    | split
    | simp only [recostReservation_blocks]
    | simp only [onHwi_notice, onTable_notice, onEngines_notice, onMap_notice, onPool_notice, onLife_notice, onReport_notice]
    | exact h

theorem placeShedderHold_rests {rest : Bool} {s : State} (p : Pos) (h : Rests rest s.notice) :
    Rests rest (s.placeShedderHold p).notice := by
  unfold State.placeShedderHold
  repeat' first
    | with_reducible exact h
    | with_reducible apply place_rests
    | split
    | simp only [onHwi_notice, onTable_notice, onEngines_notice, onMap_notice, onPool_notice, onLife_notice, onReport_notice]
    | exact h

theorem answerChange_rests {rest : Bool} {s : State} (p : Pos) (old new : PosRecord) (h : Rests rest s.notice) :
    Rests rest (s.answerChange p old new).notice := by
  unfold State.answerChange
  try dsimp only
  repeat' first
    | with_reducible exact h
    | with_reducible apply placeShedderHold_rests
    | with_reducible apply placeTaken_rests
    | with_reducible apply placeBid_rests
    | split
    | simp only [onHwi_notice, onTable_notice, onEngines_notice, onMap_notice, onPool_notice, onLife_notice, onReport_notice]
    | exact h

theorem poolReact_rests {rest : Bool} {s : State} (p : Pos) (old : PosRecord) (h : Rests rest s.notice) :
    Rests rest (s.poolReact p old).notice := by
  unfold State.poolReact
  try dsimp only
  repeat' first
    | with_reducible exact h
    | with_reducible apply withdrawUnfit_rests
    | with_reducible apply answerChange_rests
    | split
    | simp only [shedEnds_blocks]
    | simp only [onHwi_notice, onTable_notice, onEngines_notice, onMap_notice, onPool_notice, onLife_notice, onReport_notice]
    | exact h

theorem decideShed_rests {rest : Bool} {s : State} (h : Rests rest s.notice) :
    Rests rest (s.decideShed).notice := by
  unfold State.decideShed
  try dsimp only
  repeat' first
    | with_reducible exact h
    | with_reducible apply place_rests
    | split
    | simp only [onHwi_notice, onTable_notice, onEngines_notice, onMap_notice, onPool_notice, onLife_notice, onReport_notice]
    | exact h

theorem placeTakensDue_rests {rest : Bool} {s : State} (h : Rests rest s.notice) :
    Rests rest (s.placeTakensDue).notice := by
  unfold State.placeTakensDue
  refine foldl_inv (fun s : State => Rests rest s.notice) _ (fun s a h => ?_) _ _ ?_
  all_goals
  repeat' first
      | with_reducible exact h
      | with_reducible apply placeTaken_rests
      | split
      | simp only [onHwi_notice, onTable_notice, onEngines_notice, onMap_notice, onPool_notice, onLife_notice, onReport_notice]
      | exact h

theorem shadowFill_rests {rest : Bool} {s : State} (h : Rests rest s.notice) :
    Rests rest (s.shadowFill).notice := by
  unfold State.shadowFill
  try dsimp only
  repeat' first
    | with_reducible exact h
    | with_reducible apply placeBid_rests
    | split
    | simp only [onHwi_notice, onTable_notice, onEngines_notice, onMap_notice, onPool_notice, onLife_notice, onReport_notice]
    | exact h

theorem census_rests {rest : Bool} {s : State} (h : Rests rest s.notice) :
    Rests rest (s.census).notice := by
  unfold State.census
  try dsimp only
  repeat' first
    | with_reducible exact h
    | with_reducible apply place_rests
    | split
    | simp only [onHwi_notice, onTable_notice, onEngines_notice, onMap_notice, onPool_notice, onLife_notice, onReport_notice]
    | exact h

theorem examineLosses_rests {rest : Bool} {s : State} (h : Rests rest s.notice) :
    Rests rest (s.examineLosses).notice := by
  unfold State.examineLosses
  refine foldl_inv (fun s : State => Rests rest s.notice) _ (fun s a h => ?_) _ _ ?_
  all_goals
  repeat' first
      | with_reducible exact h
      | with_reducible apply place_rests
      | split
      | simp only [onHwi_notice, onTable_notice, onEngines_notice, onMap_notice, onPool_notice, onLife_notice, onReport_notice]
      | exact h

theorem afterShed_rests {rest : Bool} {s : State} (h : Rests rest s.notice) :
    Rests rest (s.afterShed).notice := by
  unfold State.afterShed
  try dsimp only
  repeat' first
    | with_reducible exact h
    | with_reducible apply placeTakensDue_rests
    | with_reducible apply shadowFill_rests
    | with_reducible apply census_rests
    | split
    | simp only [afterLoss_blocks]
    | simp only [onHwi_notice, onTable_notice, onEngines_notice, onMap_notice, onPool_notice, onLife_notice, onReport_notice]
    | exact h

theorem poolDecisions_rests {rest : Bool} {s : State} (h : Rests rest s.notice) :
    Rests rest (s.poolDecisions).notice := by
  unfold State.poolDecisions
  try dsimp only
  repeat' first
    | with_reducible exact h
    | with_reducible apply afterShed_rests
    | split
    | simp only [shedUpdate_blocks, afterLoss_blocks]
    | simp only [onHwi_notice, onTable_notice, onEngines_notice, onMap_notice, onPool_notice, onLife_notice, onReport_notice]
    | exact h

theorem doShedDecision_rests {rest : Bool} {s : State} (h : Rests rest s.notice) :
    Rests rest (s.doShedDecision).notice := by
  unfold State.doShedDecision
  try dsimp only
  repeat' first
    | with_reducible exact h
    | with_reducible apply decideShed_rests
    | with_reducible apply afterShed_rests
    | split
    | simp only [onHwi_notice, onTable_notice, onEngines_notice, onMap_notice, onPool_notice, onLife_notice, onReport_notice]
    | exact h

theorem doDeclareLost_rests {rest : Bool} {s : State} (h : Rests rest s.notice) :
    Rests rest (s.doDeclareLost).notice := by
  unfold State.doDeclareLost
  try dsimp only
  repeat' first
    | with_reducible exact h
    | with_reducible apply examineLosses_rests
    | split
    | simp only [afterLoss_blocks]
    | simp only [onHwi_notice, onTable_notice, onEngines_notice, onMap_notice, onPool_notice, onLife_notice, onReport_notice]
    | exact h

theorem doHeartbeat_rests {rest : Bool} {s : State} (h : Rests rest s.notice) :
    Rests rest (s.doHeartbeat).notice := by
  unfold State.doHeartbeat
  try dsimp only
  repeat' first
    | with_reducible exact h
    | with_reducible apply place_rests
    | split
    | simp only [onHwi_notice, onTable_notice, onEngines_notice, onMap_notice, onPool_notice, onLife_notice, onReport_notice]
    | exact h

theorem doSwitchFrame_rests {rest : Bool} {s : State} (c : CtxNum) (h : Rests rest s.notice) :
    Rests rest (s.doSwitchFrame c).notice := by
  unfold State.doSwitchFrame
  repeat' first
    | with_reducible exact h
    | with_reducible apply releaseCtx_rests
    | split
    | simp only [putCtx_blocks]
    | simp only [onHwi_notice, onTable_notice, onEngines_notice, onMap_notice, onPool_notice, onLife_notice, onReport_notice]
    | exact h

theorem switchContexts_rests {rest : Bool} {s : State} (h : Rests rest s.notice) :
    Rests rest (s.switchContexts).notice := by
  unfold State.switchContexts
  refine foldl_inv (fun s : State => Rests rest s.notice) _ (fun s a h => ?_) _ _ ?_
  all_goals
  repeat' first
      | with_reducible exact h
      | with_reducible apply doSwitchFrame_rests
      | split
      | simp only [onHwi_notice, onTable_notice, onEngines_notice, onMap_notice, onPool_notice, onLife_notice, onReport_notice]
      | exact h

theorem doWarmUpEnd_rests {rest : Bool} {s : State} (c : CtxNum) (h : Rests rest s.notice) :
    Rests rest (s.doWarmUpEnd c).notice := by
  unfold State.doWarmUpEnd
  try dsimp only
  repeat' first
    | with_reducible exact h
    | with_reducible apply placeTaken_rests
    | split
    | simp only [putCtx_blocks]
    | simp only [onHwi_notice, onTable_notice, onEngines_notice, onMap_notice, onPool_notice, onLife_notice, onReport_notice]
    | exact h

theorem answerUnknown_rests {rest : Bool} {s : State} (i a : BitVec 8) (h : Rests rest s.notice) :
    Rests rest (s.answerUnknown i a).notice := by
  unfold State.answerUnknown
  repeat' first
    | with_reducible exact h
    | with_reducible apply placeReport_rests
    | split
    | simp only [onHwi_notice, onTable_notice, onEngines_notice, onMap_notice, onPool_notice, onLife_notice, onReport_notice]
    | exact h

theorem answerSummary_rests {rest : Bool} {s : State} (a : BitVec 8) (h : Rests rest s.notice) :
    Rests rest (s.answerSummary a).notice := by
  unfold State.answerSummary
  repeat' first
    | with_reducible exact h
    | with_reducible apply placeReport_rests
    | with_reducible apply answerUnknown_rests
    | split
    | simp only [onHwi_notice, onTable_notice, onEngines_notice, onMap_notice, onPool_notice, onLife_notice, onReport_notice]
    | exact h

theorem answerFlags_rests {rest : Bool} {s : State} (h : Rests rest s.notice) :
    Rests rest (s.answerFlags).notice := by
  unfold State.answerFlags
  repeat' first
    | with_reducible exact h
    | with_reducible apply placeReport_rests
    | split
    | simp only [onHwi_notice, onTable_notice, onEngines_notice, onMap_notice, onPool_notice, onLife_notice, onReport_notice]
    | exact h

theorem answerClearFlags_rests {rest : Bool} {s : State} (h : Rests rest s.notice) :
    Rests rest (s.answerClearFlags).notice := by
  unfold State.answerClearFlags
  try dsimp only
  repeat' first
    | with_reducible exact h
    | with_reducible apply placeReport_rests
    | split
    | simp only [onHwi_notice, onTable_notice, onEngines_notice, onMap_notice, onPool_notice, onLife_notice, onReport_notice]
    | exact h

theorem answerCounter_rests {rest : Bool} {s : State} (i : BitVec 8) (k : Fin 32) (h : Rests rest s.notice) :
    Rests rest (s.answerCounter i k).notice := by
  unfold State.answerCounter
  repeat' first
    | with_reducible exact h
    | with_reducible apply placeReport_rests
    | split
    | simp only [onHwi_notice, onTable_notice, onEngines_notice, onMap_notice, onPool_notice, onLife_notice, onReport_notice]
    | exact h

theorem answerPosition_rests {rest : Bool} {s : State} (a : BitVec 8) (h : Rests rest s.notice) :
    Rests rest (s.answerPosition a).notice := by
  unfold State.answerPosition
  try dsimp only
  repeat' first
    | with_reducible exact h
    | with_reducible apply placeReport_rests
    | split
    | simp only [onHwi_notice, onTable_notice, onEngines_notice, onMap_notice, onPool_notice, onLife_notice, onReport_notice]
    | exact h

theorem doEmissionStart_rests {rest : Bool} {s : State} (c : CtxNum) (h : Rests rest s.notice) :
    Rests rest (s.doEmissionStart c).notice := by
  unfold State.doEmissionStart
  repeat' first
    | with_reducible exact h
    | with_reducible apply doSwitchFrame_rests
    | split
    | simp only [beginEmission_blocks]

theorem takeSwitchFrames_rests {rest : Bool} {s : State} (h : Rests rest s.notice) :
    Rests rest (s.takeSwitchFrames).notice := by
  unfold State.takeSwitchFrames
  repeat' first
    | with_reducible exact h
    | with_reducible apply switchContexts_rests
    | split
    | simp only [switchRecords_blocks]
    | simp only [onHwi_notice, onTable_notice, onEngines_notice, onMap_notice, onPool_notice, onLife_notice, onReport_notice]
    | exact h

theorem closeWindows_rests {rest : Bool} {s : State} (h : Rests rest s.notice) :
    Rests rest (s.closeWindows).notice := by
  unfold State.closeWindows
  refine foldl_inv (fun s : State => Rests rest s.notice) _ (fun s a h => ?_) _ _ ?_
  all_goals
  repeat' first
      | with_reducible exact h
      | with_reducible apply poolReact_rests
      | split
      | simp only [closeWindow_blocks]
      | simp only [onHwi_notice, onTable_notice, onEngines_notice, onMap_notice, onPool_notice, onLife_notice, onReport_notice]
      | exact h

theorem beginRecord_rests {rest : Bool} {s : State} (r : Record) (h : Rests rest s.notice) :
    Rests rest (s.beginRecord r).notice := by
  unfold State.beginRecord
  try dsimp only
  repeat' first
    | with_reducible exact h
    | with_reducible apply takeSwitchFrames_rests
    | with_reducible apply closeWindows_rests
    | split
    | simp only [onHwi_notice, onTable_notice, onEngines_notice, onMap_notice, onPool_notice, onLife_notice, onReport_notice]
    | exact h

theorem hearStation_rests {rest : Bool} {s : State} (q : Station) (h : Rests rest s.notice) :
    Rests rest (s.hearStation q).notice := by
  unfold State.hearStation
  try dsimp only
  repeat' first
    | with_reducible exact h
    | with_reducible apply removeLost_rests
    | split
    | simp only [putRoster_blocks]
    | simp only [onHwi_notice, onTable_notice, onEngines_notice, onMap_notice, onPool_notice, onLife_notice, onReport_notice]
    | exact h

theorem removeStation_rests {rest : Bool} {s : State} (q : Station) (p : Pos) (h : Rests rest s.notice) :
    Rests rest (s.removeStation q p).notice := by
  unfold State.removeStation
  try dsimp only
  repeat' first
    | with_reducible exact h
    | with_reducible apply releaseUnnamed_rests
    | with_reducible apply poolReact_rests
    | split
    | simp only [putRec_blocks, count_blocks, modCtxFor_blocks]
    | simp only [onHwi_notice, onTable_notice, onEngines_notice, onMap_notice, onPool_notice, onLife_notice, onReport_notice]
    | exact h

theorem sweepPositions_rests {rest : Bool} {s : State} (q : Station) (g : Nat) (h : Rests rest s.notice) :
    Rests rest (s.sweepPositions q g).notice := by
  unfold State.sweepPositions
  refine foldl_inv (fun s : State => Rests rest s.notice) _ (fun s a h => ?_) _ _ ?_
  all_goals
  repeat' first
      | with_reducible exact h
      | with_reducible apply removeStation_rests
      | split
      | simp only [onHwi_notice, onTable_notice, onEngines_notice, onMap_notice, onPool_notice, onLife_notice, onReport_notice]
      | exact h

theorem startSweep_rests {rest : Bool} {s : State} (q : Station) (h : Rests rest s.notice) :
    Rests rest (s.startSweep q).notice := by
  unfold State.startSweep
  try dsimp only
  repeat' first
    | with_reducible exact h
    | with_reducible apply sweepPositions_rests
    | split
    | simp only [onHwi_notice, onTable_notice, onEngines_notice, onMap_notice, onPool_notice, onLife_notice, onReport_notice]
    | exact h

theorem takeOver_rests {rest : Bool} {s : State} (t : Station) (p : Pos) (b : BlockIndex) (h : Rests rest s.notice) :
    Rests rest (s.takeOver t p b).notice := by
  unfold State.takeOver
  try dsimp only
  repeat' first
    | with_reducible exact h
    | with_reducible apply releaseUnnamed_rests
    | with_reducible apply poolReact_rests
    | split
    | simp only [putRec_blocks, count_blocks, modCtxFor_blocks]
    | simp only [onHwi_notice, onTable_notice, onEngines_notice, onMap_notice, onPool_notice, onLife_notice, onReport_notice]
    | exact h

theorem strayTaken_rests {rest : Bool} {s : State} (t : Station) (p : Pos) (o : Bool) (h : Rests rest s.notice) :
    Rests rest (s.strayTaken t p o).notice := by
  unfold State.strayTaken
  try dsimp only
  repeat' first
    | with_reducible exact h
    | with_reducible apply removeStation_rests
    | with_reducible apply releaseFor_rests
    | split
    | simp only [count_blocks]
    | simp only [onHwi_notice, onTable_notice, onEngines_notice, onMap_notice, onPool_notice, onLife_notice, onReport_notice]
    | exact h

theorem applyTakenTo_rests {rest : Bool} {s : State} (p : Pos) (g : CallTag) (b : BlockIndex) (t : Station) (o : Bool) (h : Rests rest s.notice) :
    Rests rest (s.applyTakenTo p g b t o).notice := by
  unfold State.applyTakenTo
  try dsimp only
  repeat' first
    | with_reducible exact h
    | with_reducible apply takeOver_rests
    | with_reducible apply strayTaken_rests
    | split
    | simp only [clearTakenMark_blocks]
    | simp only [onHwi_notice, onTable_notice, onEngines_notice, onMap_notice, onPool_notice, onLife_notice, onReport_notice]
    | exact h

theorem clearPosition_rests {rest : Bool} {s : State} (p : Pos) (h : Rests rest s.notice) :
    Rests rest (s.clearPosition p).notice := by
  unfold State.clearPosition
  try dsimp only
  repeat' first
    | with_reducible exact h
    | with_reducible apply releaseFor_rests
    | with_reducible apply removeNotices_rests
    | with_reducible apply poolReact_rests
    | split
    | simp only [putRec_blocks]
    | simp only [onHwi_notice, onTable_notice, onEngines_notice, onMap_notice, onPool_notice, onLife_notice, onReport_notice]
    | exact h

theorem applyClearTo_rests {rest : Bool} {s : State} (p : Pos) (g : CallTag) (h : Rests rest s.notice) :
    Rests rest (s.applyClearTo p g).notice := by
  unfold State.applyClearTo
  try dsimp only
  repeat' first
    | with_reducible exact h
    | with_reducible apply clearPosition_rests
    | split
    | simp only [count_blocks]
    | simp only [onHwi_notice, onTable_notice, onEngines_notice, onMap_notice, onPool_notice, onLife_notice, onReport_notice]
    | exact h

theorem applyOfferTo_rests {rest : Bool} {s : State} (p : Pos) (g : CallTag) (l : Law) (ms : ModeSet) (m : Mode) (q : BitVec 4) (h : Rests rest s.notice) :
    Rests rest (s.applyOfferTo p g l ms m q).notice := by
  unfold State.applyOfferTo
  try dsimp only
  repeat' first
    | with_reducible exact h
    | with_reducible apply clearPosition_rests
    | with_reducible apply poolReact_rests
    | with_reducible apply placeBid_rests
    | split
    | simp only [count_blocks, putRec_blocks]
    | simp only [onHwi_notice, onTable_notice, onEngines_notice, onMap_notice, onPool_notice, onLife_notice, onReport_notice]
    | exact h

theorem bidFits_rests {rest : Bool} {s : State} (p : Pos) (q : Station) (o : BidOutcome) (w : Bool) (h : Rests rest s.notice) :
    Rests rest (s.bidFits p q o w).notice := by
  unfold State.bidFits
  try dsimp only
  repeat' first
    | with_reducible exact h
    | with_reducible apply keepOrWithdraw_rests
    | with_reducible apply poolReact_rests
    | split
    | simp only [putRec_blocks, allocateFor_blocks, endFill_blocks]
    | simp only [onHwi_notice, onTable_notice, onEngines_notice, onMap_notice, onPool_notice, onLife_notice, onReport_notice]
    | exact h

theorem applyBidTo_rests {rest : Bool} {s : State} (p : Pos) (g : CallTag) (r : BidRole) (q : Station) (w : Bool) (h : Rests rest s.notice) :
    Rests rest (s.applyBidTo p g r q w).notice := by
  unfold State.applyBidTo
  repeat' first
    | with_reducible exact h
    | with_reducible apply bidFits_rests
    | split
    | simp only [bidStale_blocks]
    | simp only [onHwi_notice, onTable_notice, onEngines_notice, onMap_notice, onPool_notice, onLife_notice, onReport_notice]
    | exact h

theorem applyShedTo_rests {rest : Bool} {s : State} (p : Pos) (g : CallTag) (q : Station) (w : Bool) (h : Rests rest s.notice) :
    Rests rest (s.applyShedTo p g q w).notice := by
  unfold State.applyShedTo
  try dsimp only
  repeat' first
    | with_reducible exact h
    | with_reducible apply poolReact_rests
    | split
    | simp only [putRec_blocks, count_blocks, endShed_blocks]
    | simp only [onHwi_notice, onTable_notice, onEngines_notice, onMap_notice, onPool_notice, onLife_notice, onReport_notice]
    | exact h

theorem holdRestates_rests {rest : Bool} {s : State} (p : Pos) (g : CallTag) (l : Law) (ms : ModeSet) (m : Mode) (b : BlockIndex) (sh : Option Station) (h : Rests rest s.notice) :
    Rests rest (s.holdRestates p g l ms m b sh).notice := by
  unfold State.holdRestates
  try dsimp only
  repeat' first
    | with_reducible exact h
    | with_reducible apply poolReact_rests
    | split
    | simp only [putRec_blocks, count_blocks]
    | simp only [onHwi_notice, onTable_notice, onEngines_notice, onMap_notice, onPool_notice, onLife_notice, onReport_notice]
    | exact h

theorem holdTeaches_rests {rest : Bool} {s : State} (p : Pos) (g : CallTag) (l : Law) (ms : ModeSet) (m : Mode) (b : BlockIndex) (sh : Option Station) (q : Station) (h : Rests rest s.notice) :
    Rests rest (s.holdTeaches p g l ms m b sh q).notice := by
  unfold State.holdTeaches
  try dsimp only
  repeat' first
    | with_reducible exact h
    | with_reducible apply poolReact_rests
    | split
    | simp only [putRec_blocks]
    | simp only [onHwi_notice, onTable_notice, onEngines_notice, onMap_notice, onPool_notice, onLife_notice, onReport_notice]
    | exact h

theorem holdConflicts_rests {rest : Bool} {s : State} (p : Pos) (q : Station) (w : Bool) (h : Rests rest s.notice) :
    Rests rest (s.holdConflicts p q w).notice := by
  unfold State.holdConflicts
  try dsimp only
  repeat' first
    | with_reducible exact h
    | with_reducible apply removeStation_rests
    | with_reducible apply releaseFor_rests
    | split
    | simp only [count_blocks]
    | simp only [onHwi_notice, onTable_notice, onEngines_notice, onMap_notice, onPool_notice, onLife_notice, onReport_notice]
    | exact h

theorem applyHoldTo_rests {rest : Bool} {s : State} (p : Pos) (g : CallTag) (l : Law) (ms : ModeSet) (m : Mode) (b : BlockIndex) (sh : Option Station) (q : Station) (w : Bool) (h : Rests rest s.notice) :
    Rests rest (s.applyHoldTo p g l ms m b sh q w).notice := by
  unfold State.applyHoldTo
  try dsimp only
  repeat' first
    | with_reducible exact h
    | with_reducible apply holdRestates_rests
    | with_reducible apply holdTeaches_rests
    | with_reducible apply holdConflicts_rests
    | split
    | simp only [count_blocks]
    | simp only [onHwi_notice, onTable_notice, onEngines_notice, onMap_notice, onPool_notice, onLife_notice, onReport_notice]
    | exact h

theorem applyPresentTo_rests {rest : Bool} {s : State} (v : LastValues) (f : Bool) (q : Station) (w : Bool) (h : Rests rest s.notice) :
    Rests rest (s.applyPresentTo v f q w).notice := by
  unfold State.applyPresentTo
  try dsimp only
  repeat' first
    | with_reducible exact h
    | with_reducible apply startSweep_rests
    | split
    | simp only [putRoster_blocks]
    | simp only [onHwi_notice, onTable_notice, onEngines_notice, onMap_notice, onPool_notice, onLife_notice, onReport_notice]
    | exact h

theorem doSweepGroup_rests {rest : Bool} {s : State} (h : Rests rest s.notice) :
    Rests rest (s.doSweepGroup).notice := by
  unfold State.doSweepGroup
  try dsimp only
  repeat' first
    | with_reducible exact h
    | with_reducible apply takeSwitchFrames_rests
    | with_reducible apply sweepPositions_rests
    | split
    | simp only [onHwi_notice, onTable_notice, onEngines_notice, onMap_notice, onPool_notice, onLife_notice, onReport_notice]
    | exact h

theorem bumpNeeds_rests {rest : Bool} {s : State} (c : CtxNum) (h : Rests rest s.notice) :
    Rests rest (s.bumpNeeds c).notice := by
  unfold State.bumpNeeds
  try dsimp only
  repeat' first
    | with_reducible exact h
    | with_reducible apply raiseFlag_rests
    | with_reducible apply placeReport_rests
    | split
    | simp only [putCtx_blocks]
    | simp only [onHwi_notice, onTable_notice, onEngines_notice, onMap_notice, onPool_notice, onLife_notice, onReport_notice]
    | exact h

theorem postNeed_rests {rest : Bool} {s : State} (c : CtxNum) (h : Rests rest s.notice) :
    Rests rest (s.postNeed c).notice := by
  unfold State.postNeed
  try dsimp only
  repeat' first
    | with_reducible exact h
    | with_reducible apply bumpNeeds_rests
    | split
    | simp only [postDecode_blocks, postJob_blocks]
    | simp only [onHwi_notice, onTable_notice, onEngines_notice, onMap_notice, onPool_notice, onLife_notice, onReport_notice]
    | exact h

theorem doNeed_rests {rest : Bool} {s : State} (c : CtxNum) (h : Rests rest s.notice) :
    Rests rest (s.doNeed c).notice := by
  unfold State.doNeed
  repeat' first
    | with_reducible exact h
    | with_reducible apply postNeed_rests
    | split
    | simp only [putCtx_blocks, trimRing_blocks]
    | simp only [onHwi_notice, onTable_notice, onEngines_notice, onMap_notice, onPool_notice, onLife_notice, onReport_notice]
    | exact h

theorem uplinkBlock_rests {rest : Bool} {s : State} (c : CtxNum) (h : Rests rest s.notice) :
    Rests rest (s.uplinkBlock c).notice := by
  unfold State.uplinkBlock
  try dsimp only
  repeat' first
    | with_reducible exact h
    | with_reducible apply bumpNeeds_rests
    | split
    | simp only [countMissing_blocks]
    | simp only [onHwi_notice, onTable_notice, onEngines_notice, onMap_notice, onPool_notice, onLife_notice, onReport_notice]
    | exact h

theorem dropJob_rests {rest : Bool} {s : State} (c : CtxNum) (d : Direction) (h : Rests rest s.notice) :
    Rests rest (s.dropJob c d).notice := by
  unfold State.dropJob
  try dsimp only
  repeat' first
    | with_reducible exact h
    | with_reducible apply raiseFlag_rests
    | split
    | simp only [onHwi_notice, onTable_notice, onEngines_notice, onMap_notice, onPool_notice, onLife_notice, onReport_notice]
    | exact h

theorem doJobDropped_rests {rest : Bool} {s : State} (c : CtxNum) (d : Direction) (h : Rests rest s.notice) :
    Rests rest (s.doJobDropped c d).notice := by
  unfold State.doJobDropped
  repeat' first
    | with_reducible exact h
    | with_reducible apply dropJob_rests
    | split
    | simp only [tellDrop_blocks]
    | simp only [onHwi_notice, onTable_notice, onEngines_notice, onMap_notice, onPool_notice, onLife_notice, onReport_notice]
    | exact h

theorem readAbandoned_rests {rest : Bool} {s : State} (a : List PortAct) (h : Rests rest s.notice) :
    Rests rest (s.readAbandoned a).notice := by
  unfold State.readAbandoned
  try dsimp only
  repeat' first
    | with_reducible exact h
    | with_reducible apply raiseFlag_rests
    | split
    | simp only [onHwi_notice, onTable_notice, onEngines_notice, onMap_notice, onPool_notice, onLife_notice, onReport_notice]
    | exact h

theorem doMissingAcknowledge_rests {rest : Bool} {s : State} (k : Nat) (p : AckPoint) (h : Rests rest s.notice) :
    Rests rest (s.doMissingAcknowledge k p).notice := by
  unfold State.doMissingAcknowledge
  try dsimp only
  repeat' first
    | with_reducible exact h
    | with_reducible apply readAbandoned_rests
    | split
    | simp only [onHwi_notice, onTable_notice, onEngines_notice, onMap_notice, onPool_notice, onLife_notice, onReport_notice]
    | exact h

theorem doSclHeldLow_rests {rest : Bool} {s : State} (k : Nat) (x : ReadCut) (h : Rests rest s.notice) :
    Rests rest (s.doSclHeldLow k x).notice := by
  unfold State.doSclHeldLow
  repeat' first
    | with_reducible exact h
    | with_reducible apply readAbandoned_rests
    | split
    | simp only [onHwi_notice, onTable_notice, onEngines_notice, onMap_notice, onPool_notice, onLife_notice, onReport_notice]
    | exact h

theorem doConfigurationReadEnd_rests {rest : Bool} {s : State} (k : Nat) (i : List Byte) (h : Rests rest s.notice) :
    Rests rest (s.doConfigurationReadEnd k i).notice := by
  unfold State.doConfigurationReadEnd
  try dsimp only
  repeat' first
    | with_reducible exact h
    | with_reducible apply raiseFlag_rests
    | split
    | simp only [onHwi_notice, onTable_notice, onEngines_notice, onMap_notice, onPool_notice, onLife_notice, onReport_notice]
    | exact h

theorem doEnterListen_rests {rest : Bool} {s : State} (h : Rests rest s.notice) :
    Rests rest (s.doEnterListen).notice := by
  unfold State.doEnterListen
  repeat' first
    | with_reducible exact h
    | with_reducible apply enterListen_rests
    | split
    | simp only [onHwi_notice, onTable_notice, onEngines_notice, onMap_notice, onPool_notice, onLife_notice, onReport_notice]
    | exact h

theorem doQuietPeriodEnd_rests {rest : Bool} {s : State} (h : Rests rest s.notice) :
    Rests rest (s.doQuietPeriodEnd).notice := by
  unfold State.doQuietPeriodEnd
  try dsimp only
  repeat' first
    | with_reducible exact h
    | with_reducible apply retreat_rests
    | with_reducible apply enterListen_rests
    | split
    | simp only [onHwi_notice, onTable_notice, onEngines_notice, onMap_notice, onPool_notice, onLife_notice, onReport_notice]
    | exact h

theorem enterActive_rests {rest : Bool} {s : State} (h : Rests rest s.notice) :
    Rests rest (s.enterActive).notice := by
  refine ⟨map_ordered h.1 (fun e => ?_), fun hr => by simp [State.enterActive, NoticeCtl.activated, h.2 hr]⟩
  split
  · exact ⟨rfl, rfl, rfl⟩
  · refine ⟨?_, rfl, rfl⟩
    cases hn : e.notice with
    | present l hr fc fresh a => cases fresh <;> simp [Notice.activated] <;> rfl
    | _ => rfl

theorem doMapComplete_rests {rest : Bool} {s : State} (h : Rests rest s.notice) :
    Rests rest (s.doMapComplete).notice := by
  unfold State.doMapComplete
  try dsimp only
  repeat' first
    | with_reducible exact h
    | with_reducible apply enterActive_rests
    | with_reducible apply poolDecisions_rests
    | split
    | simp only [onHwi_notice, onTable_notice, onEngines_notice, onMap_notice, onPool_notice, onLife_notice, onReport_notice]
    | exact h

theorem contextBlocks_rests {rest : Bool} {s : State} (h : Rests rest s.notice) :
    Rests rest (s.contextBlocks).notice := by
  unfold State.contextBlocks
  refine foldl_inv (fun s : State => Rests rest s.notice) _ (fun s a h => ?_) _ _ ?_
  all_goals
  repeat' first
      | with_reducible exact h
      | with_reducible apply uplinkBlock_rests
      | split
      | simp only [onHwi_notice, onTable_notice, onEngines_notice, onMap_notice, onPool_notice, onLife_notice, onReport_notice]
      | exact h

theorem poolBlock_rests {rest : Bool} {s : State} (o : BlockOrder) (h : Rests rest s.notice) :
    Rests rest (s.poolBlock o).notice := by
  unfold State.poolBlock
  try dsimp only
  repeat' first
    | with_reducible exact h
    | with_reducible apply poolDecisions_rests
    | split
    | simp only [ageRoster_blocks]
    | simp only [onHwi_notice, onTable_notice, onEngines_notice, onMap_notice, onPool_notice, onLife_notice, onReport_notice]
    | exact h

theorem blockEvent_rests {rest : Bool} {s : State} (o : BlockOrder) (h : Rests rest s.notice) :
    Rests rest (s.blockEvent o).notice := by
  unfold State.blockEvent
  try dsimp only
  repeat' first
    | with_reducible exact h
    | with_reducible apply contextBlocks_rests
    | with_reducible apply poolBlock_rests
    | split
    | simp only [quietBlock_blocks, listenBlock_blocks]
    | simp only [onHwi_notice, onTable_notice, onEngines_notice, onMap_notice, onPool_notice, onLife_notice, onReport_notice]
    | exact h

theorem doBlockEvent_rests {rest : Bool} {s : State} (o : BlockOrder) (h : Rests rest s.notice) :
    Rests rest (s.doBlockEvent o).notice := by
  unfold State.doBlockEvent
  try dsimp only
  repeat' first
    | with_reducible exact h
    | with_reducible apply blockEvent_rests
    | split
    | simp only [onHwi_notice, onTable_notice, onEngines_notice, onMap_notice, onPool_notice, onLife_notice, onReport_notice]
    | exact h

theorem doBridgedBlockEvent_rests {rest : Bool} {s : State} (o : BlockOrder) (h : Rests rest s.notice) :
    Rests rest (s.doBridgedBlockEvent o).notice := by
  unfold State.doBridgedBlockEvent
  try dsimp only
  repeat' first
    | with_reducible exact h
    | with_reducible apply blockEvent_rests
    | split
    | simp only [count_blocks]
    | simp only [onHwi_notice, onTable_notice, onEngines_notice, onMap_notice, onPool_notice, onLife_notice, onReport_notice]
    | exact h

end Sys2Proof.Laws
end

