-- ==== Sys2Proof/Laws/Turns.lean ====
section
/-! SUPPORT. What the commands that run other operations keep: the taking of a record, the settling of a frame, the timing
commands and the control window keep whatever the operations under them keep. -/

namespace Sys2Proof.Laws

open Sys2Proof.Machine

/-- A property P that the rules of the Map Unit's turn keep, by way of a property Q of the state in which a record of a
participating station is applied: the rules before and after the application, and the rule of each kind of notice (R111
to R128, R169 to R172). -/
structure TurnKeeps (P Q : State → Prop) : Prop where
  beginRecord : ∀ r s, s.participates = true → P s → Q (s.beginRecord r)
  endRecord : ∀ s, P s → P s.endRecord
  weaken : ∀ s, Q s → P s
  hearStation : ∀ q s, Q s → Q (s.hearStation q)
  lost : ∀ q s, Q s → P (s.applyLostTo q)
  taken : ∀ p g b t o s, Q s → P (s.applyTakenTo p g b t o)
  clear : ∀ p g s, Q s → P (s.applyClearTo p g)
  offer : ∀ p g l ms m q s, Q s → P (s.applyOfferTo p g l ms m q)
  bid : ∀ p g r q w s, Q s → P (s.applyBidTo p g r q w)
  shed : ∀ p g q w s, Q s → P (s.applyShedTo p g q w)
  hold : ∀ p g l ms m b sh q w s, Q s → P (s.applyHoldTo p g l ms m b sh q w)
  present : ∀ v f q w s, Q s → P (s.applyPresentTo v f q w)
  takeUps : ∀ s, Q s → Q s.takeUps
  summary : ∀ a s, Q s → P (s.answerSummary a)
  flags : ∀ s, Q s → P s.answerFlags
  clearFlags : ∀ s, Q s → P s.answerClearFlags
  counter : ∀ i k s, Q s → P (s.answerCounter i k)
  position : ∀ a s, Q s → P (s.answerPosition a)
  unknown : ∀ i a s, Q s → P (s.answerUnknown i a)
  sweep : ∀ s, P s → P s.doSweepGroup

/-- A property that every step of a frame keeps, for a station that has taken none of them in any particular order. -/
structure StepKeeps (P Q : State → Prop) : Prop extends TurnKeeps P Q where
  switchFrames : ∀ s, P s → P s.takeSwitchFrames
  decodeCompletion : ∀ e s, P s → P (s.doDecodeCompletion e)
  encodeCompletion : ∀ e s, P s → P (s.doEncodeCompletion e)
  jobDropped : ∀ c d s, P s → P (s.doJobDropped c d)
  judgement : ∀ c s, P s → P (s.doMarkerJudgement c)
  completion : ∀ c s, P s → P (s.doParcelCompletion c)
  need : ∀ c s, P s → P (s.doNeed c)
  emission : ∀ c s, P s → P (s.doEmissionStart c)
  close : ∀ c s, P s → P (s.doBlockClose c)
  block : ∀ o s, P s → P (s.doBlockEvent o)
  bridgedBlock : ∀ o s, P s → P (s.doBridgedBlockEvent o)
  timingGood : ∀ s, P s → P s.doTimingGood
  warmUp : ∀ c s, P s → P (s.doWarmUpEnd c)
  listen : ∀ s, P s → P s.doEnterListen
  quietEnd : ∀ s, P s → P s.doQuietPeriodEnd
  mapComplete : ∀ s, P s → P s.doMapComplete
  decideShed : ∀ s, P s → P s.doShedDecision
  declare : ∀ s, P s → P s.doDeclareLost
  heartbeat : ∀ s, P s → P s.doHeartbeat
  takeUp : ∀ s, P s → P s.doJobTakeUp

/-- Taking a record does nothing, or begins it, applies it and ends it. -/
theorem onHead_cases (pick : Record → Option (State → State)) (s : State) :
    s.onHead pick = s ∨ ∃ r f, s.mapActs = true ∧ s.mapu.sweep = none ∧ s.mapu.intake.head? = some r ∧
      pick r = some f ∧ s.onHead pick = (f (s.beginRecord r)).endRecord := by
  unfold State.onHead
  split
  · rename_i hc
    split
    · exact Or.inl rfl
    · rename_i r hr
      split
      · exact Or.inl rfl
      · rename_i f hf
        exact Or.inr ⟨r, f, hc.1, hc.2, hr, hf, rfl⟩
  · exact Or.inl rfl

theorem onHead_keeps {P Q : State → Prop} (k : TurnKeeps P Q) {pick : Record → Option (State → State)}
    (hp : ∀ r f, pick r = some f → ∀ t, Q t → P (f t)) {s : State} (h : P s) : P (s.onHead pick) := by
  rcases onHead_cases pick s with he | ⟨r, f, ha, _, _, hf, he⟩
  · rw [he]; exact h
  · rw [he]; exact k.endRecord _ (hp r f hf _ (k.beginRecord r s (by unfold State.mapActs at ha; exact (Bool.and_eq_true_iff.1 ha).1) h))

theorem onStationNotice_keeps {P Q : State → Prop} (k : TurnKeeps P Q)
    {f : Notice → Station → Bool → Option (State → State)}
    (hf : ∀ n q o g, f n q o = some g → ∀ t, Q t → P (g t)) {s : State} (h : P s) : P (s.onStationNotice f) := by
  refine onHead_keeps k (fun r g hg t ht => ?_) h
  split at hg
  · cases hg
  · split at hg
    · cases hg
    · obtain ⟨a, ha, rfl⟩ := Option.map_eq_some_iff.1 hg
      exact hf _ _ _ a ha _ (k.hearStation _ t ht)

theorem onQuery_keeps {P Q : State → Prop} (k : TurnKeeps P Q)
    {f : BitVec 8 → BitVec 8 → Option (State → State)}
    (hf : ∀ i a g, f i a = some g → ∀ t, Q t → P (g t)) {s : State} (h : P s) : P (s.onQuery f) := by
  refine onHead_keeps k (fun r g hg t ht => ?_) h
  split at hg
  · obtain ⟨a, ha, rfl⟩ := Option.map_eq_some_iff.1 hg
    dsimp only
    split
    · exact hf _ _ a ha t ht
    · exact k.weaken t ht
  · cases hg

section
variable {P Q : State → Prop} (k : TurnKeeps P Q) {s : State}
include k

theorem doApplyEmptyMark_keeps (h : P s) : P s.doApplyEmptyMark := by
  refine onHead_keeps k (fun r f hf t ht => ?_) h
  split at hf
  · cases hf; exact k.weaken t ht
  · cases hf

theorem doApplyLost_keeps (h : P s) : P s.doApplyLost := by
  refine onStationNotice_keeps k (fun n q o g hg t ht => ?_) h
  split at hg <;> cases hg
  exact k.lost _ t ht

theorem doApplyTaken_keeps (h : P s) : P s.doApplyTaken := by
  refine onStationNotice_keeps k (fun n q o g hg t ht => ?_) h
  split at hg <;> cases hg
  exact k.taken _ _ _ _ _ t ht

theorem doApplyClear_keeps (h : P s) : P s.doApplyClear := by
  refine onHead_keeps k (fun r f hf t ht => ?_) h
  split at hf <;> cases hf
  exact k.clear _ _ t ht

theorem doApplyOffer_keeps (h : P s) : P s.doApplyOffer := by
  refine onHead_keeps k (fun r f hf t ht => ?_) h
  split at hf <;> cases hf
  exact k.offer _ _ _ _ _ _ t ht

theorem doApplyBid_keeps (h : P s) : P s.doApplyBid := by
  refine onStationNotice_keeps k (fun n q o g hg t ht => ?_) h
  split at hg <;> cases hg
  exact k.bid _ _ _ _ _ t ht

theorem doApplyShed_keeps (h : P s) : P s.doApplyShed := by
  refine onStationNotice_keeps k (fun n q o g hg t ht => ?_) h
  split at hg <;> cases hg
  exact k.shed _ _ _ _ t ht

theorem doApplyHold_keeps (h : P s) : P s.doApplyHold := by
  refine onStationNotice_keeps k (fun n q o g hg t ht => ?_) h
  split at hg <;> cases hg
  exact k.hold _ _ _ _ _ _ _ _ _ t ht

theorem doApplyPresent_keeps (h : P s) : P s.doApplyPresent := by
  refine onStationNotice_keeps k (fun n q o g hg t ht => ?_) h
  split at hg <;> cases hg
  exact k.present _ _ _ _ t ht

theorem doApplyReport_keeps (h : P s) : P s.doApplyReport := by
  refine onStationNotice_keeps k (fun n q o g hg t ht => ?_) h
  split at hg <;> cases hg
  exact k.weaken t ht

theorem doQueryStationSummary_keeps (h : P s) : P s.doQueryStationSummary := by
  refine onQuery_keeps k (fun i a g hg t ht => ?_) h
  split at hg <;> cases hg
  exact k.summary _ _ (k.takeUps t ht)

theorem doQueryFaultFlags_keeps (h : P s) : P s.doQueryFaultFlags := by
  refine onQuery_keeps k (fun i a g hg t ht => ?_) h
  split at hg <;> cases hg
  exact k.flags t ht

theorem doQueryClearFlags_keeps (h : P s) : P s.doQueryClearFlags := by
  refine onQuery_keeps k (fun i a g hg t ht => ?_) h
  split at hg <;> cases hg
  exact k.clearFlags t ht

theorem doQueryCounter_keeps (h : P s) : P s.doQueryCounter := by
  refine onQuery_keeps k (fun i a g hg t ht => ?_) h
  obtain ⟨j, _, rfl⟩ := Option.map_eq_some_iff.1 hg
  exact k.counter _ _ t ht

theorem doQueryPositionStatus_keeps (h : P s) : P s.doQueryPositionStatus := by
  refine onQuery_keeps k (fun i a g hg t ht => ?_) h
  split at hg <;> cases hg
  exact k.position _ t ht

theorem doQueryUnknownItem_keeps (h : P s) : P s.doQueryUnknownItem := by
  refine onQuery_keeps k (fun i a g hg t ht => ?_) h
  split at hg <;> cases hg
  exact k.unknown _ _ t ht

theorem mapTurn_keeps (h : P s) : P s.mapTurn := by
  unfold State.mapTurn
  repeat' first
    | exact h
    | exact k.sweep s h
    | exact doApplyEmptyMark_keeps k h
    | exact doApplyLost_keeps k h
    | exact doApplyTaken_keeps k h
    | exact doApplyClear_keeps k h
    | exact doApplyOffer_keeps k h
    | exact doApplyBid_keeps k h
    | exact doApplyShed_keeps k h
    | exact doApplyHold_keeps k h
    | exact doApplyPresent_keeps k h
    | exact doApplyReport_keeps k h
    | exact doQueryStationSummary_keeps k h
    | exact doQueryFaultFlags_keeps k h
    | exact doQueryClearFlags_keeps k h
    | exact doQueryPositionStatus_keeps k h
    | exact doQueryCounter_keeps k h
    | exact doQueryUnknownItem_keeps k h
    | split

end

theorem forCtxs_keeps {P : State → Prop} {f : CtxNum → State → State} (hf : ∀ c s, P s → P (f c s)) {s : State}
    (h : P s) : P (s.forCtxs f) :=
  foldl_inv P _ (fun s c h => hf c s h) _ s h

/-- Settling a frame keeps what each of its steps keeps. -/
theorem settle_keeps {P Q : State → Prop} (k : StepKeeps P Q) {s : State} (h : P s) : P s.settle := by
  unfold State.settle
  split
  · exact h
  unfold State.settleAll
  have h1 := k.switchFrames s h
  have h2 : P s.takeSwitchFrames.completeEngines :=
    foldl_inv P _ (fun s e h => k.encodeCompletion e _ (k.decodeCompletion e s h)) _ _ h1
  have h3 : P s.takeSwitchFrames.completeEngines.dropLate :=
    forCtxs_keeps (fun c s h => k.jobDropped c .encode _ (k.jobDropped c .decodeSide s h)) h2
  have h4 : P s.takeSwitchFrames.completeEngines.dropLate.receive :=
    forCtxs_keeps (fun c s h => k.need c _ (k.completion c _ (k.judgement c s h))) h3
  have h5 : P s.takeSwitchFrames.completeEngines.dropLate.receive.emit :=
    forCtxs_keeps (fun c s h => k.close c s h) (forCtxs_keeps (fun c s h => k.emission c s h) h4)
  generalize s.takeSwitchFrames.completeEngines.dropLate.receive.emit = t at h5
  have h6 : P t.takeBlock := k.bridgedBlock _ _ (k.block _ t h5)
  generalize t.takeBlock = t at h6
  have h7 : P t.takeLife :=
    k.mapComplete _ (k.quietEnd _ (k.listen _ (forCtxs_keeps (fun c s h => k.warmUp c s h) (k.timingGood t h6))))
  generalize t.takeLife = t at h7
  have h8 : P t.takePool := k.mapComplete _ (k.heartbeat _ (k.declare _ (k.decideShed t h7)))
  generalize t.takePool = t at h8
  have taken : ∀ u, P u → P u.takeUps := fun u h => k.takeUp _ (k.takeUp _ (k.takeUp _ (k.takeUp _ h)))
  exact taken _ (mapTurn_keeps k.toTurnKeeps (taken _ h8))

/-- A timing command keeps what its steps and its own work keep. -/
theorem atTiming_keeps {P Q : State → Prop} (k : StepKeeps P Q) {ok : Hwi → Bool} {f : State → State}
    (hf : ∀ s, P s → P (f s)) {s : State} (h : P s) : P (s.atTiming ok f) := by
  unfold State.atTiming
  split
  · exact hf _ (settle_keeps k h)
  · exact h

/-- A command keeps what its work keeps, held in cold start or not. -/
theorem live_keeps {P : State → Prop} {f : State → State} (hf : ∀ s, P s → P (f s)) {s : State} (h : P s) :
    P (s.live f) := by
  unfold State.live
  split
  · exact h
  · exact hf s h

end Sys2Proof.Laws
end

