-- ==== Sys2Proof/Laws/Canonical.lean ====
section
/-! SUPPORT. Every operation keeps every table of the state in its canonical form: one lemma for each. -/

namespace Sys2Proof.Laws

set_option linter.all false

open Sys2Proof.Machine

theorem canonical_nil {n : Nat} {α : Type} (d : α) : Table.canonical d ([] : Table n α) :=
  ⟨rfl, fun _ he => absurd he List.not_mem_nil⟩

section
variable {s : State} (h : s.canonical)
include h

theorem canonical_contexts {f : CtxTable → CtxTable} (hf : Table.rising (f s.table).contexts = true) :
    (s.onTable f).canonical :=
  ⟨hf, h.2⟩

theorem canonical_running {f : Engines → Engines} (hf : Table.rising (f s.engines).running = true) :
    (s.onEngines f).canonical :=
  ⟨h.1, hf, h.2.2⟩

theorem canonical_mapu {f : MapUnit → MapUnit} (hm : Table.canonical PosRecord.free (f s.mapu).map)
    (hr : Table.canonical RosterEntry.unknown (f s.mapu).roster) : (s.onMap f).canonical :=
  ⟨h.1, h.2.1, hm, hr, h.2.2.2.2⟩

theorem canonical_pool {f : Pool → Pool} (hf : Table.rising (f s.pool).takenMarks = true) : (s.onPool f).canonical :=
  ⟨h.1, h.2.1, h.2.2.1, h.2.2.2.1, hf, h.2.2.2.2.2⟩

theorem canonical_counters {f : ReportUnit → ReportUnit} (hf : Table.canonical 0 (f s.report).counters) :
    (s.onReport f).canonical :=
  ⟨h.1, h.2.1, h.2.2.1, h.2.2.2.1, h.2.2.2.2.1, hf⟩

end

theorem onTable_canonical {s : State} {f : CtxTable → CtxTable} (hf : ∀ t, (f t).contexts = t.contexts)
    (h : s.canonical) : (s.onTable f).canonical :=
  canonical_contexts h (by rw [hf]; exact h.1)

theorem onEngines_canonical {s : State} {f : Engines → Engines} (hf : ∀ t, (f t).running = t.running)
    (h : s.canonical) : (s.onEngines f).canonical :=
  canonical_running h (by rw [hf]; exact h.2.1)

theorem onMap_canonical {s : State} {f : MapUnit → MapUnit} (hm : ∀ t, (f t).map = t.map)
    (hr : ∀ t, (f t).roster = t.roster) (h : s.canonical) : (s.onMap f).canonical :=
  canonical_mapu h (by rw [hm]; exact h.2.2.1) (by rw [hr]; exact h.2.2.2.1)

theorem onPool_canonical {s : State} {f : Pool → Pool} (hf : ∀ t, (f t).takenMarks = t.takenMarks)
    (h : s.canonical) : (s.onPool f).canonical :=
  canonical_pool h (by rw [hf]; exact h.2.2.2.2.1)

theorem onReport_canonical {s : State} {f : ReportUnit → ReportUnit} (hf : ∀ t, (f t).counters = t.counters)
    (h : s.canonical) : (s.onReport f).canonical :=
  canonical_counters h (by rw [hf]; exact h.2.2.2.2.2)

theorem onHwi_canonical {s : State} {f : Hwi → Hwi} (h : s.canonical) : (s.onHwi f).canonical := h

theorem onNotice_canonical {s : State} {f : NoticeCtl → NoticeCtl} (h : s.canonical) : (s.onNotice f).canonical := h

theorem onLife_canonical {s : State} {f : Life → Life} (h : s.canonical) : (s.onLife f).canonical := h

theorem requestReservation_canonical {p : Pos} {r : BidRole} {k : Nat} {s t : State}
    (ht : s.requestReservation p r k = some t) (h : s.canonical) : t.canonical := by
  unfold State.requestReservation at ht
  split at ht
  · cases ht
  · cases ht; exact onTable_canonical (fun _ => rfl) h

theorem count_canonical {s : State} (k : Counter) (h : s.canonical) :
    (s.count k).canonical := by
  exact canonical_counters h (canonical_put h.2.2.2.2.2 _ _)

theorem putCtx_canonical {s : State} (c : CtxNum) (x : Context) (h : s.canonical) :
    (s.putCtx c x).canonical := by
  exact canonical_contexts h (rising_insert h.1 c x)

theorem modCtx_canonical {s : State} (c : CtxNum) (f : Context → Context) (h : s.canonical) :
    (s.modCtx c f).canonical := by
  unfold State.modCtx
  repeat' first
    | with_reducible exact h
    | with_reducible apply putCtx_canonical
    | split

theorem modCtxFor_canonical {s : State} (p : Pos) (f : Context → Context) (h : s.canonical) :
    (s.modCtxFor p f).canonical := by
  unfold State.modCtxFor
  repeat' first
    | with_reducible exact h
    | with_reducible apply putCtx_canonical
    | split

theorem countDriven_canonical {s : State} (c : CtxNum) (k : Counter) (h : s.canonical) :
    (s.countDriven c k).canonical := by
  unfold State.countDriven
  repeat' first
    | with_reducible exact h
    | with_reducible apply count_canonical
    | split

theorem releaseReservation_canonical {s : State} (p : Pos) (h : s.canonical) :
    (s.releaseReservation p).canonical := by
  unfold State.releaseReservation
  try dsimp only
  repeat' first
    | with_reducible exact h
    | with_reducible refine onTable_canonical (fun _ => rfl) ?_
    | split

theorem recostReservation_canonical {s : State} (p : Pos) (n : Nat) (h : s.canonical) :
    (s.recostReservation p n).canonical := by
  unfold State.recostReservation
  try dsimp only
  repeat' first
    | with_reducible exact h
    | with_reducible refine onTable_canonical (fun _ => rfl) ?_
    | split

theorem putRec_canonical {s : State} (p : Pos) (r : PosRecord) (h : s.canonical) :
    (s.putRec p r).canonical := by
  exact canonical_mapu h (canonical_put h.2.2.1 p r) h.2.2.2.1

theorem putRoster_canonical {s : State} (q : Station) (e : RosterEntry) (h : s.canonical) :
    (s.putRoster q e).canonical := by
  exact canonical_mapu h h.2.2.1 (canonical_put h.2.2.2.1 q e)

theorem setTakenMark_canonical {s : State} (p : Pos) (h : s.canonical) :
    (s.setTakenMark p).canonical := by
  exact canonical_pool h (rising_insert h.2.2.2.2.1 p ())

theorem clearTakenMark_canonical {s : State} (p : Pos) (h : s.canonical) :
    (s.clearTakenMark p).canonical := by
  exact canonical_pool h (rising_erase h.2.2.2.2.1 p)

theorem departed_canonical {s : State} (n : Notice) (h : s.canonical) :
    (s.departed n).canonical := by
  unfold State.departed
  try dsimp only
  repeat' first
    | with_reducible exact h
    | with_reducible apply releaseReservation_canonical
    | with_reducible apply clearTakenMark_canonical
    | with_reducible refine onPool_canonical (fun _ => rfl) ?_
    | split

theorem joinOutbox_canonical {s : State} (n : Notice) (h : s.canonical) :
    (s.joinOutbox n).canonical := by
  unfold State.joinOutbox
  try dsimp only
  repeat' first
    | with_reducible exact h
    | with_reducible refine onNotice_canonical ?_
    | split

theorem place_canonical {s : State} (n : Notice) (h : s.canonical) :
    (s.place n).canonical := by
  unfold State.place
  try dsimp only
  repeat' first
    | with_reducible exact h
    | with_reducible apply joinOutbox_canonical
    | with_reducible apply count_canonical
    | with_reducible apply departed_canonical
    | with_reducible refine onNotice_canonical ?_
    | split

theorem removeNow_canonical {s : State} (f : Notice → Bool) (h : s.canonical) :
    (s.removeNow f).canonical := by
  unfold State.removeNow
  refine foldl_inv (fun s : State => s.canonical) _ (fun s a h => ?_) _ _ ?_
  all_goals
  try dsimp only
  repeat' first
      | with_reducible exact h
      | with_reducible apply departed_canonical
      | with_reducible refine onNotice_canonical ?_
      | split

theorem removeNotices_canonical {s : State} (r : Removal) (h : s.canonical) :
    (s.removeNotices r).canonical := removeNow_canonical _ (onNotice_canonical h)

theorem takeRequest_canonical {s : State} (key : Nat × Nat) (r : OutRequest) (h : s.canonical) :
    (s.takeRequest key r).canonical := by
  cases r with
  | place n => exact place_canonical n h
  | remove r => exact removeNow_canonical _ h

theorem leavesWindow_canonical {s : State} (h : s.canonical) : s.leavesWindow.canonical := by
  unfold State.leavesWindow
  split
  · exact h
  · exact foldl_inv State.canonical _ (fun s r h => takeRequest_canonical _ r h) _ _ (onNotice_canonical h)

theorem removeLost_canonical {s : State} (q : Station) (h : s.canonical) :
    (s.removeLost q).canonical := by
  unfold State.removeLost
  try dsimp only
  repeat' first
    | with_reducible exact h
    | with_reducible apply removeNotices_canonical
    | split

theorem withdrawBid_canonical {s : State} (p : Pos) (h : s.canonical) :
    (s.withdrawBid p).canonical := by
  unfold State.withdrawBid
  try dsimp only
  repeat' first
    | with_reducible exact h
    | with_reducible apply removeNotices_canonical
    | split

theorem placeReport_canonical {s : State} (p : Pos) (i : BitVec 8) (v : BitVec 24) (h : s.canonical) :
    (s.placeReport p i v).canonical := by
  unfold State.placeReport
  repeat' first
    | with_reducible exact h
    | with_reducible apply place_canonical
    | split

theorem raiseFlag_canonical {s : State} (f : FaultFlag) (h : s.canonical) :
    (s.raiseFlag f).canonical := by
  unfold State.raiseFlag
  try dsimp only
  repeat' first
    | with_reducible exact h
    | with_reducible apply placeReport_canonical
    | with_reducible refine onReport_canonical (fun _ => rfl) ?_
    | split

theorem doJobTakeUp_canonical {s : State} (h : s.canonical) :
    (s.doJobTakeUp).canonical := by
  unfold State.doJobTakeUp
  split
  · exact canonical_running h (rising_insert h.2.1 _ _)
  · exact h

theorem takeUps_canonical {s : State} (h : s.canonical) : s.takeUps.canonical :=
  doJobTakeUp_canonical (doJobTakeUp_canonical (doJobTakeUp_canonical (doJobTakeUp_canonical h)))

theorem postJob_canonical {s : State} (j : Job) (h : s.canonical) :
    (s.postJob j).canonical :=
  onEngines_canonical (fun _ => rfl) (takeUps_canonical h)

theorem withdrawJobs_canonical {s : State} (f : Job → Bool) (h : s.canonical) :
    (s.withdrawJobs f).canonical := by
  exact canonical_running h (rising_filter h.2.1 _)

theorem endShed_canonical {s : State} (p : Pos) (h : s.canonical) :
    (s.endShed p).canonical := by
  unfold State.endShed
  try dsimp only
  repeat' first
    | with_reducible exact h
    | with_reducible refine onPool_canonical (fun _ => rfl) ?_
    | split

theorem cutSlots_canonical {s : State} (n : Nat) (xs : List Context) (h : s.canonical) :
    (s.cutSlots n xs).canonical := h

theorem releaseCtx_canonical {s : State} (c : CtxNum) (h : s.canonical) :
    (s.releaseCtx c).canonical := by
  unfold State.releaseCtx
  try dsimp only
  repeat' first
    | with_reducible exact h
    | with_reducible apply withdrawJobs_canonical
    | with_reducible apply removeNotices_canonical
    | with_reducible apply clearTakenMark_canonical
    | with_reducible apply endShed_canonical
    | split
    | exact (fun h => canonical_contexts h (rising_erase h.1 _))
        (removeNotices_canonical _ (withdrawJobs_canonical _ (cutSlots_canonical _ _ h)))

theorem releaseFor_canonical {s : State} (p : Pos) (h : s.canonical) :
    (s.releaseFor p).canonical := by
  unfold State.releaseFor
  repeat' first
    | with_reducible exact h
    | with_reducible apply releaseCtx_canonical
    | split

theorem releaseUnnamed_canonical {s : State} (p : Pos) (h : s.canonical) :
    (s.releaseUnnamed p).canonical := by
  unfold State.releaseUnnamed
  repeat' first
    | with_reducible exact h
    | with_reducible apply releaseFor_canonical
    | split

theorem allocate_canonical {s : State} (p : Pos) (st : CtxState) (r : Option Role) (h : s.canonical) :
    (s.allocate p st r).canonical := by
  unfold State.allocate
  try dsimp only
  repeat' first
    | with_reducible exact h
    | with_reducible apply releaseReservation_canonical
    | with_reducible apply putCtx_canonical
    | split

theorem retreat_canonical {s : State} (c : RetreatCause) (h : s.canonical) :
    (s.retreat c).canonical := by
  unfold State.retreat
  split
  · exact ⟨rfl, rfl, canonical_nil _, canonical_nil _, rfl, (count_canonical _ h).2.2.2.2.2⟩
  · exact h

theorem loseTiming_canonical {s : State} (h : s.canonical) :
    (s.loseTiming).canonical := by
  unfold State.loseTiming
  try dsimp only
  repeat' first
    | with_reducible exact h
    | with_reducible apply raiseFlag_canonical
    | with_reducible apply retreat_canonical
    | with_reducible refine onHwi_canonical ?_
    | split

theorem abandonProving_canonical {s : State} (h : s.canonical) :
    (s.abandonProving).canonical := by
  unfold State.abandonProving
  repeat' first
    | with_reducible exact h
    | with_reducible refine onHwi_canonical ?_
    | split

theorem enterListen_canonical {s : State} (h : s.canonical) :
    (s.enterListen).canonical := by
  unfold State.enterListen
  try dsimp only
  repeat' first
    | with_reducible exact h
    | with_reducible apply putRoster_canonical
    | with_reducible apply place_canonical
    | with_reducible apply placeReport_canonical
    | with_reducible refine onPool_canonical (fun _ => rfl) ?_
    | with_reducible refine onMap_canonical (fun _ => rfl) (fun _ => rfl) ?_
    | with_reducible refine onNotice_canonical ?_
    | with_reducible refine onLife_canonical ?_
    | split

theorem placeBid_canonical {s : State} (p : Pos) (r : BidRole) (h : s.canonical) :
    (s.placeBid p r).canonical := by
  unfold State.placeBid
  split
  · exact h
  · split
    · split
      · exact h
      · rename_i ht
        have ht' := requestReservation_canonical ht h
        apply place_canonical
        split
        · exact onPool_canonical (fun _ => rfl) ht'
        · exact ht'
    · exact h

theorem placeTaken_canonical {s : State} (p : Pos) (c : TakenCause) (h : s.canonical) :
    (s.placeTaken p c).canonical := by
  unfold State.placeTaken
  repeat' first
    | with_reducible exact h
    | with_reducible apply setTakenMark_canonical
    | with_reducible apply place_canonical
    | split

theorem withdrawUnfit_canonical {s : State} (p : Pos) (h : s.canonical) :
    (s.withdrawUnfit p).canonical := by
  unfold State.withdrawUnfit
  repeat' first
    | with_reducible exact h
    | with_reducible apply withdrawBid_canonical
    | split

theorem keepOrWithdraw_canonical {s : State} (p : Pos) (h : s.canonical) :
    (s.keepOrWithdraw p).canonical := by
  unfold State.keepOrWithdraw
  try dsimp only
  repeat' first
    | with_reducible exact h
    | with_reducible apply recostReservation_canonical
    | with_reducible apply withdrawBid_canonical
    | split

theorem placeShedderHold_canonical {s : State} (p : Pos) (h : s.canonical) :
    (s.placeShedderHold p).canonical := by
  unfold State.placeShedderHold
  repeat' first
    | with_reducible exact h
    | with_reducible apply place_canonical
    | split

theorem shedEnds_canonical {s : State} (p : Pos) (old new : PosRecord) (h : s.canonical) :
    (s.shedEnds p old new).canonical := by
  unfold State.shedEnds
  try dsimp only
  repeat' first
    | with_reducible exact h
    | with_reducible apply endShed_canonical
    | split

theorem answerChange_canonical {s : State} (p : Pos) (old new : PosRecord) (h : s.canonical) :
    (s.answerChange p old new).canonical := by
  unfold State.answerChange
  try dsimp only
  repeat' first
    | with_reducible exact h
    | with_reducible apply placeShedderHold_canonical
    | with_reducible apply placeTaken_canonical
    | with_reducible apply placeBid_canonical
    | split

theorem poolReact_canonical {s : State} (p : Pos) (old : PosRecord) (h : s.canonical) :
    (s.poolReact p old).canonical := by
  unfold State.poolReact
  try dsimp only
  repeat' first
    | with_reducible exact h
    | with_reducible apply shedEnds_canonical
    | with_reducible apply withdrawUnfit_canonical
    | with_reducible apply answerChange_canonical
    | split

theorem shedUpdate_canonical {s : State} (h : s.canonical) :
    (s.shedUpdate).canonical := by
  exact onPool_canonical (fun _ => rfl) h

theorem decideShed_canonical {s : State} (h : s.canonical) :
    (s.decideShed).canonical := by
  unfold State.decideShed
  try dsimp only
  repeat' first
    | with_reducible exact h
    | with_reducible apply place_canonical
    | with_reducible refine onPool_canonical (fun _ => rfl) ?_
    | split

theorem placeTakensDue_canonical {s : State} (h : s.canonical) :
    (s.placeTakensDue).canonical := by
  unfold State.placeTakensDue
  refine foldl_inv (fun s : State => s.canonical) _ (fun s a h => ?_) _ _ ?_
  all_goals
  try dsimp only
  repeat' first
      | with_reducible exact h
      | with_reducible apply placeTaken_canonical
      | split

theorem shadowFill_canonical {s : State} (h : s.canonical) :
    (s.shadowFill).canonical := by
  unfold State.shadowFill
  try dsimp only
  repeat' first
    | with_reducible exact h
    | with_reducible apply placeBid_canonical
    | split

theorem census_canonical {s : State} (h : s.canonical) :
    (s.census).canonical := by
  unfold State.census
  try dsimp only
  repeat' first
    | with_reducible exact h
    | with_reducible apply place_canonical
    | with_reducible refine onPool_canonical (fun _ => rfl) ?_
    | split

theorem examineLosses_canonical {s : State} (h : s.canonical) :
    (s.examineLosses).canonical := by
  unfold State.examineLosses
  refine foldl_inv (fun s : State => s.canonical) _ (fun s a h => ?_) _ _ ?_
  all_goals
  try dsimp only
  repeat' first
      | with_reducible exact h
      | with_reducible apply place_canonical
      | split

theorem ageRoster_canonical {s : State} (h : s.canonical) :
    (s.ageRoster).canonical := by
  refine canonical_mapu h h.2.2.1 ⟨rising_map h.2.2.2.1.1 (fun e => ?_), fun e he => ?_⟩
  · split <;> rfl
  · obtain ⟨a, ha, rfl⟩ := List.mem_map.1 he
    split
    · rename_i hp
      intro hu
      have := congrArg RosterEntry.state hu
      rw [show (RosterEntry.unknown).state = .unknown from rfl] at this
      simp [hp.1] at this
    · exact h.2.2.2.1.2 a ha

theorem afterLoss_canonical {s : State} (h : s.canonical) :
    (s.afterLoss).canonical := by
  unfold State.afterLoss
  try dsimp only
  repeat' first
    | with_reducible exact h
    | with_reducible apply ageRoster_canonical
    | with_reducible refine onPool_canonical (fun _ => rfl) ?_
    | split

theorem afterShed_canonical {s : State} (h : s.canonical) :
    (s.afterShed).canonical := by
  unfold State.afterShed
  try dsimp only
  repeat' first
    | with_reducible exact h
    | with_reducible apply placeTakensDue_canonical
    | with_reducible apply shadowFill_canonical
    | with_reducible apply census_canonical
    | with_reducible apply afterLoss_canonical
    | with_reducible refine onPool_canonical (fun _ => rfl) ?_
    | split

theorem poolDecisions_canonical {s : State} (h : s.canonical) :
    (s.poolDecisions).canonical := by
  unfold State.poolDecisions
  try dsimp only
  repeat' first
    | with_reducible exact h
    | with_reducible apply shedUpdate_canonical
    | with_reducible apply afterShed_canonical
    | with_reducible apply afterLoss_canonical
    | with_reducible refine onPool_canonical (fun _ => rfl) ?_
    | split

theorem doShedDecision_canonical {s : State} (h : s.canonical) :
    (s.doShedDecision).canonical := by
  unfold State.doShedDecision
  try dsimp only
  repeat' first
    | with_reducible exact h
    | with_reducible apply decideShed_canonical
    | with_reducible apply afterShed_canonical
    | with_reducible refine onPool_canonical (fun _ => rfl) ?_
    | split

theorem doDeclareLost_canonical {s : State} (h : s.canonical) :
    (s.doDeclareLost).canonical := by
  unfold State.doDeclareLost
  try dsimp only
  repeat' first
    | with_reducible exact h
    | with_reducible apply examineLosses_canonical
    | with_reducible apply afterLoss_canonical
    | with_reducible refine onPool_canonical (fun _ => rfl) ?_
    | split

theorem doHeartbeat_canonical {s : State} (h : s.canonical) :
    (s.doHeartbeat).canonical := by
  unfold State.doHeartbeat
  try dsimp only
  repeat' first
    | with_reducible exact h
    | with_reducible apply place_canonical
    | with_reducible refine onPool_canonical (fun _ => rfl) ?_
    | split

theorem doSwitchFrame_canonical {s : State} (c : CtxNum) (h : s.canonical) :
    (s.doSwitchFrame c).canonical := by
  unfold State.doSwitchFrame
  repeat' first
    | with_reducible exact h
    | with_reducible apply putCtx_canonical
    | with_reducible apply releaseCtx_canonical
    | split

theorem switchContexts_canonical {s : State} (h : s.canonical) :
    (s.switchContexts).canonical := by
  unfold State.switchContexts
  refine foldl_inv (fun s : State => s.canonical) _ (fun s a h => ?_) _ _ ?_
  all_goals
  try dsimp only
  repeat' first
      | with_reducible exact h
      | with_reducible apply doSwitchFrame_canonical
      | split

theorem doWarmUpEnd_canonical {s : State} (c : CtxNum) (h : s.canonical) :
    (s.doWarmUpEnd c).canonical := by
  unfold State.doWarmUpEnd
  try dsimp only
  repeat' first
    | with_reducible exact h
    | with_reducible apply putCtx_canonical
    | with_reducible apply placeTaken_canonical
    | split

theorem answerUnknown_canonical {s : State} (i a : BitVec 8) (h : s.canonical) :
    (s.answerUnknown i a).canonical := by
  unfold State.answerUnknown
  repeat' first
    | with_reducible exact h
    | with_reducible apply placeReport_canonical
    | split

theorem answerSummary_canonical {s : State} (a : BitVec 8) (h : s.canonical) :
    (s.answerSummary a).canonical := by
  unfold State.answerSummary
  repeat' first
    | with_reducible exact h
    | with_reducible apply placeReport_canonical
    | with_reducible apply answerUnknown_canonical
    | split

theorem answerFlags_canonical {s : State} (h : s.canonical) :
    (s.answerFlags).canonical := by
  unfold State.answerFlags
  repeat' first
    | with_reducible exact h
    | with_reducible apply placeReport_canonical
    | split

theorem answerClearFlags_canonical {s : State} (h : s.canonical) :
    (s.answerClearFlags).canonical := by
  unfold State.answerClearFlags
  try dsimp only
  repeat' first
    | with_reducible exact h
    | with_reducible apply placeReport_canonical
    | with_reducible refine onReport_canonical (fun _ => rfl) ?_
    | split

theorem answerCounter_canonical {s : State} (i : BitVec 8) (k : Fin 32) (h : s.canonical) :
    (s.answerCounter i k).canonical := by
  unfold State.answerCounter
  repeat' first
    | with_reducible exact h
    | with_reducible apply placeReport_canonical
    | split

theorem answerPosition_canonical {s : State} (a : BitVec 8) (h : s.canonical) :
    (s.answerPosition a).canonical := by
  unfold State.answerPosition
  try dsimp only
  repeat' first
    | with_reducible exact h
    | with_reducible apply placeReport_canonical
    | with_reducible refine onReport_canonical (fun _ => rfl) ?_
    | split

theorem doRecordSwitchFrame_canonical {s : State} (p : Pos) (h : s.canonical) :
    (s.doRecordSwitchFrame p).canonical := by
  unfold State.doRecordSwitchFrame
  repeat' first
    | with_reducible exact h
    | with_reducible apply putRec_canonical
    | split

theorem switchRecords_canonical {s : State} (h : s.canonical) :
    (s.switchRecords).canonical := by
  unfold State.switchRecords
  refine foldl_inv (fun s : State => s.canonical) _ (fun s a h => ?_) _ _ ?_
  all_goals
  try dsimp only
  repeat' first
      | with_reducible exact h
      | with_reducible apply doRecordSwitchFrame_canonical
      | split

theorem takeSwitchFrames_canonical {s : State} (h : s.canonical) :
    (s.takeSwitchFrames).canonical := by
  unfold State.takeSwitchFrames
  repeat' first
    | with_reducible exact h
    | with_reducible apply switchContexts_canonical
    | with_reducible apply switchRecords_canonical
    | split

theorem shedLapse_canonical {s : State} (p : Pos) (h : s.canonical) :
    (s.shedLapse p).canonical := by
  unfold State.shedLapse
  try dsimp only
  repeat' first
    | with_reducible exact h
    | with_reducible refine onPool_canonical (fun _ => rfl) ?_
    | split

theorem closeWindow_canonical {s : State} (p : Pos) (h : s.canonical) :
    (s.closeWindow p).canonical := by
  unfold State.closeWindow
  try dsimp only
  repeat' first
    | with_reducible exact h
    | with_reducible apply putRec_canonical
    | with_reducible apply count_canonical
    | with_reducible apply shedLapse_canonical
    | split

theorem closeWindows_canonical {s : State} (h : s.canonical) :
    (s.closeWindows).canonical := by
  unfold State.closeWindows
  refine foldl_inv (fun s : State => s.canonical) _ (fun s a h => ?_) _ _ ?_
  all_goals
  try dsimp only
  repeat' first
      | with_reducible exact h
      | with_reducible apply closeWindow_canonical
      | with_reducible apply poolReact_canonical
      | split

theorem beginRecord_canonical {s : State} (r : Record) (h : s.canonical) :
    (s.beginRecord r).canonical := by
  unfold State.beginRecord
  try dsimp only
  repeat' first
    | with_reducible exact h
    | with_reducible apply takeSwitchFrames_canonical
    | with_reducible apply closeWindows_canonical
    | with_reducible refine onMap_canonical (fun _ => rfl) (fun _ => rfl) ?_
    | split

theorem endRecord_canonical {s : State} (h : s.canonical) :
    (s.endRecord).canonical := by
  unfold State.endRecord
  try dsimp only
  repeat' first
    | with_reducible exact h
    | with_reducible refine onMap_canonical (fun _ => rfl) (fun _ => rfl) ?_
    | split

theorem hearStation_canonical {s : State} (q : Station) (h : s.canonical) :
    (s.hearStation q).canonical := by
  unfold State.hearStation
  try dsimp only
  repeat' first
    | with_reducible exact h
    | with_reducible apply putRoster_canonical
    | with_reducible apply removeLost_canonical
    | split

theorem removeStation_canonical {s : State} (q : Station) (p : Pos) (h : s.canonical) :
    (s.removeStation q p).canonical := by
  unfold State.removeStation
  try dsimp only
  repeat' first
    | with_reducible exact h
    | with_reducible apply putRec_canonical
    | with_reducible apply count_canonical
    | with_reducible apply modCtxFor_canonical
    | with_reducible apply releaseUnnamed_canonical
    | with_reducible apply poolReact_canonical
    | split

theorem sweepPositions_canonical {s : State} (q : Station) (g : Nat) (h : s.canonical) :
    (s.sweepPositions q g).canonical := by
  unfold State.sweepPositions
  refine foldl_inv (fun s : State => s.canonical) _ (fun s a h => ?_) _ _ ?_
  all_goals
  try dsimp only
  repeat' first
      | with_reducible exact h
      | with_reducible apply removeStation_canonical
      | split

theorem startSweep_canonical {s : State} (q : Station) (h : s.canonical) :
    (s.startSweep q).canonical := by
  unfold State.startSweep
  try dsimp only
  repeat' first
    | with_reducible exact h
    | with_reducible apply sweepPositions_canonical
    | with_reducible refine onMap_canonical (fun _ => rfl) (fun _ => rfl) ?_
    | split

theorem takeOver_canonical {s : State} (t : Station) (p : Pos) (b : BlockIndex) (h : s.canonical) :
    (s.takeOver t p b).canonical := by
  unfold State.takeOver
  try dsimp only
  repeat' first
    | with_reducible exact h
    | with_reducible apply putRec_canonical
    | with_reducible apply count_canonical
    | with_reducible apply modCtxFor_canonical
    | with_reducible apply releaseUnnamed_canonical
    | with_reducible apply poolReact_canonical
    | split

theorem strayTaken_canonical {s : State} (t : Station) (p : Pos) (o : Bool) (h : s.canonical) :
    (s.strayTaken t p o).canonical := by
  unfold State.strayTaken
  try dsimp only
  repeat' first
    | with_reducible exact h
    | with_reducible apply count_canonical
    | with_reducible apply removeStation_canonical
    | with_reducible apply releaseFor_canonical
    | split

theorem applyTakenTo_canonical {s : State} (p : Pos) (g : CallTag) (b : BlockIndex) (t : Station) (o : Bool) (h : s.canonical) :
    (s.applyTakenTo p g b t o).canonical := by
  unfold State.applyTakenTo
  try dsimp only
  repeat' first
    | with_reducible exact h
    | with_reducible apply clearTakenMark_canonical
    | with_reducible apply takeOver_canonical
    | with_reducible apply strayTaken_canonical
    | split

theorem clearPosition_canonical {s : State} (p : Pos) (h : s.canonical) :
    (s.clearPosition p).canonical := by
  unfold State.clearPosition
  try dsimp only
  repeat' first
    | with_reducible exact h
    | with_reducible apply putRec_canonical
    | with_reducible apply releaseFor_canonical
    | with_reducible apply removeNotices_canonical
    | with_reducible apply poolReact_canonical
    | split

theorem applyClearTo_canonical {s : State} (p : Pos) (g : CallTag) (h : s.canonical) :
    (s.applyClearTo p g).canonical := by
  unfold State.applyClearTo
  try dsimp only
  repeat' first
    | with_reducible exact h
    | with_reducible apply clearPosition_canonical
    | with_reducible apply count_canonical
    | split

theorem applyOfferTo_canonical {s : State} (p : Pos) (g : CallTag) (l : Law) (ms : ModeSet) (m : Mode) (q : BitVec 4) (h : s.canonical) :
    (s.applyOfferTo p g l ms m q).canonical := by
  unfold State.applyOfferTo
  try dsimp only
  repeat' first
    | with_reducible exact h
    | with_reducible apply clearPosition_canonical
    | with_reducible apply count_canonical
    | with_reducible apply putRec_canonical
    | with_reducible apply poolReact_canonical
    | with_reducible apply placeBid_canonical
    | split

theorem endFill_canonical {s : State} (p : Pos) (h : s.canonical) :
    (s.endFill p).canonical := by
  unfold State.endFill
  try dsimp only
  repeat' first
    | with_reducible exact h
    | with_reducible refine onPool_canonical (fun _ => rfl) ?_
    | split

theorem allocateFor_canonical {s : State} (p : Pos) (o : BidOutcome) (h : s.canonical) :
    (s.allocateFor p o).canonical := by
  unfold State.allocateFor
  repeat' first
    | with_reducible exact h
    | with_reducible apply allocate_canonical
    | split

theorem bidFits_canonical {s : State} (p : Pos) (q : Station) (o : BidOutcome) (w : Bool) (h : s.canonical) :
    (s.bidFits p q o w).canonical := by
  unfold State.bidFits
  try dsimp only
  repeat' first
    | with_reducible exact h
    | with_reducible apply putRec_canonical
    | with_reducible apply allocateFor_canonical
    | with_reducible apply endFill_canonical
    | with_reducible apply keepOrWithdraw_canonical
    | with_reducible apply poolReact_canonical
    | split

theorem bidStale_canonical {s : State} (p : Pos) (w : Bool) (h : s.canonical) :
    (s.bidStale p w).canonical := by
  unfold State.bidStale
  try dsimp only
  repeat' first
    | with_reducible exact h
    | with_reducible apply count_canonical
    | with_reducible apply releaseReservation_canonical
    | with_reducible apply endFill_canonical
    | split

theorem applyBidTo_canonical {s : State} (p : Pos) (g : CallTag) (r : BidRole) (q : Station) (w : Bool) (h : s.canonical) :
    (s.applyBidTo p g r q w).canonical := by
  unfold State.applyBidTo
  repeat' first
    | with_reducible exact h
    | with_reducible apply bidStale_canonical
    | with_reducible apply bidFits_canonical
    | split

theorem applyShedTo_canonical {s : State} (p : Pos) (g : CallTag) (q : Station) (w : Bool) (h : s.canonical) :
    (s.applyShedTo p g q w).canonical := by
  unfold State.applyShedTo
  try dsimp only
  repeat' first
    | with_reducible exact h
    | with_reducible apply putRec_canonical
    | with_reducible apply poolReact_canonical
    | with_reducible apply count_canonical
    | with_reducible apply endShed_canonical
    | split

theorem holdRestates_canonical {s : State} (p : Pos) (g : CallTag) (l : Law) (ms : ModeSet) (m : Mode) (b : BlockIndex) (sh : Option Station) (h : s.canonical) :
    (s.holdRestates p g l ms m b sh).canonical := by
  unfold State.holdRestates
  try dsimp only
  repeat' first
    | with_reducible exact h
    | with_reducible apply putRec_canonical
    | with_reducible apply count_canonical
    | with_reducible apply poolReact_canonical
    | split

theorem holdTeaches_canonical {s : State} (p : Pos) (g : CallTag) (l : Law) (ms : ModeSet) (m : Mode) (b : BlockIndex) (sh : Option Station) (q : Station) (h : s.canonical) :
    (s.holdTeaches p g l ms m b sh q).canonical := by
  unfold State.holdTeaches
  try dsimp only
  repeat' first
    | with_reducible exact h
    | with_reducible apply putRec_canonical
    | with_reducible apply poolReact_canonical
    | split

theorem holdConflicts_canonical {s : State} (p : Pos) (q : Station) (w : Bool) (h : s.canonical) :
    (s.holdConflicts p q w).canonical := by
  unfold State.holdConflicts
  try dsimp only
  repeat' first
    | with_reducible exact h
    | with_reducible apply count_canonical
    | with_reducible apply removeStation_canonical
    | with_reducible apply releaseFor_canonical
    | split

theorem applyHoldTo_canonical {s : State} (p : Pos) (g : CallTag) (l : Law) (ms : ModeSet) (m : Mode) (b : BlockIndex) (sh : Option Station) (q : Station) (w : Bool) (h : s.canonical) :
    (s.applyHoldTo p g l ms m b sh q w).canonical := by
  unfold State.applyHoldTo
  try dsimp only
  repeat' first
    | with_reducible exact h
    | with_reducible apply holdRestates_canonical
    | with_reducible apply count_canonical
    | with_reducible apply holdTeaches_canonical
    | with_reducible apply holdConflicts_canonical
    | split

theorem applyPresentTo_canonical {s : State} (v : LastValues) (f : Bool) (q : Station) (w : Bool) (h : s.canonical) :
    (s.applyPresentTo v f q w).canonical := by
  unfold State.applyPresentTo
  try dsimp only
  repeat' first
    | with_reducible exact h
    | with_reducible apply putRoster_canonical
    | with_reducible apply startSweep_canonical
    | split

theorem doSweepGroup_canonical {s : State} (h : s.canonical) :
    (s.doSweepGroup).canonical := by
  unfold State.doSweepGroup
  try dsimp only
  repeat' first
    | with_reducible exact h
    | with_reducible apply takeSwitchFrames_canonical
    | with_reducible apply sweepPositions_canonical
    | with_reducible refine onMap_canonical (fun _ => rfl) (fun _ => rfl) ?_
    | split

theorem countGood_canonical {s : State} (c : CtxNum) (h : s.canonical) :
    (s.countGood c).canonical := by
  unfold State.countGood
  try dsimp only
  repeat' first
    | with_reducible exact h
    | with_reducible apply modCtx_canonical
    | with_reducible apply countDriven_canonical
    | split

theorem countBad_canonical {s : State} (c : CtxNum) (h : s.canonical) :
    (s.countBad c).canonical := by
  unfold State.countBad
  try dsimp only
  repeat' first
    | with_reducible exact h
    | with_reducible apply modCtx_canonical
    | with_reducible apply countDriven_canonical
    | split

theorem countMissing_canonical {s : State} (c : CtxNum) (h : s.canonical) :
    (s.countMissing c).canonical := by
  unfold State.countMissing
  try dsimp only
  repeat' first
    | with_reducible exact h
    | with_reducible apply modCtx_canonical
    | with_reducible apply countDriven_canonical
    | split

theorem countDiscarded_canonical {s : State} (c : CtxNum) (h : s.canonical) :
    (s.countDiscarded c).canonical := by
  unfold State.countDiscarded
  try dsimp only
  repeat' first
    | with_reducible exact h
    | with_reducible apply modCtx_canonical
    | with_reducible apply countDriven_canonical
    | split

theorem countTrimmed_canonical {s : State} (c : CtxNum) (h : s.canonical) :
    (s.countTrimmed c).canonical := by
  unfold State.countTrimmed
  try dsimp only
  repeat' first
    | with_reducible exact h
    | with_reducible apply modCtx_canonical
    | with_reducible apply countDriven_canonical
    | split

theorem postDecode_canonical {s : State} (c : CtxNum) (x : Context) (r : ParcelResult) (h : s.canonical) :
    (s.postDecode c x r).canonical := by
  unfold State.postDecode
  try dsimp only
  repeat' first
    | with_reducible exact h
    | with_reducible apply postJob_canonical
    | with_reducible apply modCtx_canonical
    | split

theorem bumpNeeds_canonical {s : State} (c : CtxNum) (h : s.canonical) :
    (s.bumpNeeds c).canonical := by
  unfold State.bumpNeeds
  try dsimp only
  repeat' first
    | with_reducible exact h
    | with_reducible apply putCtx_canonical
    | with_reducible apply raiseFlag_canonical
    | with_reducible apply placeReport_canonical
    | split

theorem deliver_canonical {s : State} (c : CtxNum) (r : ParcelResult) (h : s.canonical) :
    (s.deliver c r).canonical := by
  unfold State.deliver
  try dsimp only
  repeat' first
    | with_reducible exact h
    | with_reducible apply putCtx_canonical
    | with_reducible apply postDecode_canonical
    | with_reducible apply countDiscarded_canonical
    | split

theorem goodEffects_canonical {s : State} (c : CtxNum) (g : GoodParcel) (h : s.canonical) :
    (s.goodEffects c g).canonical := by
  unfold State.goodEffects
  try dsimp only
  repeat' first
    | with_reducible exact h
    | with_reducible apply putCtx_canonical
    | with_reducible apply countDriven_canonical
    | with_reducible apply modCtx_canonical
    | split

theorem completeGood_canonical {s : State} (c : CtxNum) (g : GoodParcel) (h : s.canonical) :
    (s.completeGood c g).canonical := by
  unfold State.completeGood
  repeat' first
    | with_reducible exact h
    | with_reducible apply countGood_canonical
    | with_reducible apply goodEffects_canonical
    | with_reducible apply deliver_canonical
    | split

theorem doMarkerJudgement_canonical {s : State} (c : CtxNum) (h : s.canonical) :
    (s.doMarkerJudgement c).canonical := by
  unfold State.doMarkerJudgement
  try dsimp only
  repeat' first
    | with_reducible exact h
    | with_reducible apply putCtx_canonical
    | with_reducible apply countDriven_canonical
    | with_reducible apply countBad_canonical
    | with_reducible apply deliver_canonical
    | split

theorem doParcelCompletion_canonical {s : State} (c : CtxNum) (h : s.canonical) :
    (s.doParcelCompletion c).canonical := by
  unfold State.doParcelCompletion
  try dsimp only
  repeat' first
    | with_reducible exact h
    | with_reducible apply putCtx_canonical
    | with_reducible apply completeGood_canonical
    | with_reducible apply countBad_canonical
    | with_reducible apply deliver_canonical
    | split

theorem trimRing_canonical {s : State} (c : CtxNum) (h : s.canonical) :
    (s.trimRing c).canonical := by
  unfold State.trimRing
  repeat' first
    | with_reducible exact h
    | with_reducible apply putCtx_canonical
    | with_reducible apply countTrimmed_canonical
    | split

theorem postNeed_canonical {s : State} (c : CtxNum) (h : s.canonical) :
    (s.postNeed c).canonical := by
  unfold State.postNeed
  try dsimp only
  repeat' first
    | with_reducible exact h
    | with_reducible apply postDecode_canonical
    | with_reducible apply bumpNeeds_canonical
    | with_reducible apply postJob_canonical
    | split

theorem doNeed_canonical {s : State} (c : CtxNum) (h : s.canonical) :
    (s.doNeed c).canonical := by
  unfold State.doNeed
  repeat' first
    | with_reducible exact h
    | with_reducible apply putCtx_canonical
    | with_reducible apply trimRing_canonical
    | with_reducible apply postNeed_canonical
    | split

theorem uplinkBlock_canonical {s : State} (c : CtxNum) (h : s.canonical) :
    (s.uplinkBlock c).canonical := by
  unfold State.uplinkBlock
  try dsimp only
  repeat' first
    | with_reducible exact h
    | with_reducible apply countMissing_canonical
    | with_reducible apply bumpNeeds_canonical
    | split

theorem replaceStart_canonical {s : State} (c : CtxNum) (h : s.canonical) :
    (s.replaceStart c).canonical := by
  unfold State.replaceStart
  try dsimp only
  repeat' first
    | with_reducible exact h
    | with_reducible apply withdrawJobs_canonical
    | with_reducible apply modCtx_canonical
    | split

theorem scheduleEncode_canonical {s : State} (c : CtxNum) (b : List Sample) (h : s.canonical) :
    (s.scheduleEncode c b).canonical := by
  unfold State.scheduleEncode
  try dsimp only
  repeat' first
    | with_reducible exact h
    | with_reducible apply replaceStart_canonical
    | with_reducible apply modCtx_canonical
    | with_reducible apply postJob_canonical
    | split

theorem doBlockClose_canonical {s : State} (c : CtxNum) (h : s.canonical) :
    (s.doBlockClose c).canonical := by
  unfold State.doBlockClose
  try dsimp only
  repeat' first
    | with_reducible exact h
    | with_reducible apply putCtx_canonical
    | with_reducible apply scheduleEncode_canonical
    | split

theorem countFiller_canonical {s : State} (c : CtxNum) (h : s.canonical) :
    (s.countFiller c).canonical := by
  unfold State.countFiller
  try dsimp only
  repeat' first
    | with_reducible exact h
    | with_reducible apply modCtx_canonical
    | with_reducible apply countDriven_canonical
    | split

theorem fixContent_canonical {s : State} (c : CtxNum) (h : s.canonical) :
    (s.fixContent c).canonical := by
  unfold State.fixContent
  try dsimp only
  repeat' first
    | with_reducible exact h
    | with_reducible apply putCtx_canonical
    | with_reducible apply countFiller_canonical
    | split

theorem beginEmission_canonical {s : State} (c : CtxNum) (h : s.canonical) :
    (s.beginEmission c).canonical := by
  unfold State.beginEmission
  try dsimp only
  repeat' first
    | with_reducible exact h
    | with_reducible apply putCtx_canonical
    | with_reducible apply fixContent_canonical
    | split

theorem doEmissionStart_canonical {s : State} (c : CtxNum) (h : s.canonical) :
    (s.doEmissionStart c).canonical := by
  unfold State.doEmissionStart
  repeat' first
    | with_reducible exact h
    | with_reducible apply beginEmission_canonical
    | with_reducible apply doSwitchFrame_canonical
    | split

theorem contentAfterJob_canonical {s : State} (c : CtxNum) (h : s.canonical) :
    (s.contentAfterJob c).canonical := by
  unfold State.contentAfterJob
  repeat' first
    | with_reducible exact h
    | with_reducible apply fixContent_canonical
    | split

theorem freeEngine_canonical {s : State} (e : EngineNum) (h : s.canonical) :
    (s.freeEngine e).canonical := by
  exact canonical_running h (rising_erase h.2.1 e)

theorem doDecodeCompletion_canonical {s : State} (e : EngineNum) (h : s.canonical) :
    (s.doDecodeCompletion e).canonical := by
  unfold State.doDecodeCompletion
  repeat' first
    | with_reducible exact h
    | with_reducible apply freeEngine_canonical
    | with_reducible apply modCtx_canonical
    | split

theorem doEncodeCompletion_canonical {s : State} (e : EngineNum) (h : s.canonical) :
    (s.doEncodeCompletion e).canonical := by
  unfold State.doEncodeCompletion
  repeat' first
    | with_reducible exact h
    | with_reducible apply freeEngine_canonical
    | with_reducible apply modCtx_canonical
    | with_reducible apply contentAfterJob_canonical
    | split

theorem dropJob_canonical {s : State} (c : CtxNum) (d : Direction) (h : s.canonical) :
    (s.dropJob c d).canonical := by
  have h0 : (s.onEngines (fun g => {
    queue := g.queue.filter (fun j => !(dropsQueued s.hwi.frameCount c d j)),
    running := g.running.filter (fun e => !(dropsRunning s.hwi.frameCount c d e.2)),
    lateCount := s.engines.lateCount + 1 })).canonical := canonical_running h (rising_filter h.2.1 _)
  unfold State.dropJob
  dsimp only
  split
  · exact raiseFlag_canonical _ h0
  · exact h0

theorem tellDrop_canonical {s : State} (j : Job) (h : s.canonical) :
    (s.tellDrop j).canonical := by
  unfold State.tellDrop
  try dsimp only
  repeat' first
    | with_reducible exact h
    | with_reducible apply modCtx_canonical
    | with_reducible apply countDriven_canonical
    | with_reducible apply contentAfterJob_canonical
    | split

theorem doJobDropped_canonical {s : State} (c : CtxNum) (d : Direction) (h : s.canonical) :
    (s.doJobDropped c d).canonical := by
  unfold State.doJobDropped
  repeat' first
    | with_reducible exact h
    | with_reducible apply dropJob_canonical
    | with_reducible apply tellDrop_canonical
    | split

theorem readAbandoned_canonical {s : State} (a : List PortAct) (h : s.canonical) :
    (s.readAbandoned a).canonical := by
  unfold State.readAbandoned
  try dsimp only
  repeat' first
    | with_reducible exact h
    | with_reducible apply raiseFlag_canonical
    | with_reducible refine onLife_canonical ?_
    | split

theorem doMissingAcknowledge_canonical {s : State} (k : Nat) (p : AckPoint) (h : s.canonical) :
    (s.doMissingAcknowledge k p).canonical := by
  unfold State.doMissingAcknowledge
  try dsimp only
  repeat' first
    | with_reducible exact h
    | with_reducible apply readAbandoned_canonical
    | with_reducible refine onLife_canonical ?_
    | split

theorem doLoaderPauseEnd_canonical {s : State} (h : s.canonical) :
    (s.doLoaderPauseEnd).canonical := by
  unfold State.doLoaderPauseEnd
  try dsimp only
  repeat' first
    | with_reducible exact h
    | with_reducible refine onLife_canonical ?_
    | split

theorem doSclHeldLow_canonical {s : State} (k : Nat) (x : ReadCut) (h : s.canonical) :
    (s.doSclHeldLow k x).canonical := by
  unfold State.doSclHeldLow
  repeat' first
    | with_reducible exact h
    | with_reducible apply readAbandoned_canonical
    | split

theorem doConfigurationReadEnd_canonical {s : State} (k : Nat) (i : List Byte) (h : s.canonical) :
    (s.doConfigurationReadEnd k i).canonical := by
  unfold State.doConfigurationReadEnd
  try dsimp only
  repeat' first
    | with_reducible exact h
    | with_reducible apply raiseFlag_canonical
    | with_reducible refine onLife_canonical ?_
    | split

theorem doEnterListen_canonical {s : State} (h : s.canonical) :
    (s.doEnterListen).canonical := by
  unfold State.doEnterListen
  repeat' first
    | with_reducible exact h
    | with_reducible apply enterListen_canonical
    | split

theorem doQuietPeriodEnd_canonical {s : State} (h : s.canonical) :
    (s.doQuietPeriodEnd).canonical := by
  unfold State.doQuietPeriodEnd
  try dsimp only
  repeat' first
    | with_reducible exact h
    | with_reducible apply retreat_canonical
    | with_reducible apply enterListen_canonical
    | with_reducible refine onLife_canonical ?_
    | split

theorem enterActive_canonical {s : State} (h : s.canonical) :
    (s.enterActive).canonical := by
  unfold State.enterActive
  try dsimp only
  repeat' first
    | with_reducible exact h
    | with_reducible refine onPool_canonical (fun _ => rfl) ?_
    | with_reducible refine onNotice_canonical ?_
    | with_reducible refine onLife_canonical ?_
    | split

theorem doMapComplete_canonical {s : State} (h : s.canonical) :
    (s.doMapComplete).canonical := by
  unfold State.doMapComplete
  try dsimp only
  repeat' first
    | with_reducible exact h
    | with_reducible apply enterActive_canonical
    | with_reducible apply poolDecisions_canonical
    | with_reducible refine onPool_canonical (fun _ => rfl) ?_
    | with_reducible refine onMap_canonical (fun _ => rfl) (fun _ => rfl) ?_
    | split

theorem doTimingGood_canonical {s : State} (h : s.canonical) :
    (s.doTimingGood).canonical := by
  unfold State.doTimingGood
  try dsimp only
  repeat' first
    | with_reducible exact h
    | with_reducible refine onHwi_canonical ?_
    | split

theorem contextBlocks_canonical {s : State} (h : s.canonical) :
    (s.contextBlocks).canonical := by
  refine foldl_inv (fun s : State => s.canonical) _ (fun s a h => uplinkBlock_canonical a h) _ _ ?_
  exact canonical_contexts h (rising_mapValues h.1 _)

theorem quietBlock_canonical {s : State} (h : s.canonical) :
    (s.quietBlock).canonical := by
  unfold State.quietBlock
  try dsimp only
  repeat' first
    | with_reducible exact h
    | with_reducible apply retreat_canonical
    | with_reducible refine onLife_canonical ?_
    | split

theorem listenBlock_canonical {s : State} (h : s.canonical) :
    (s.listenBlock).canonical := by
  unfold State.listenBlock
  try dsimp only
  repeat' first
    | with_reducible exact h
    | with_reducible refine onMap_canonical (fun _ => rfl) (fun _ => rfl) ?_
    | split

theorem poolBlock_canonical {s : State} (o : BlockOrder) (h : s.canonical) :
    (s.poolBlock o).canonical := by
  unfold State.poolBlock
  try dsimp only
  repeat' first
    | with_reducible exact h
    | with_reducible apply ageRoster_canonical
    | with_reducible apply poolDecisions_canonical
    | with_reducible refine onPool_canonical (fun _ => rfl) ?_
    | split

theorem blockEvent_canonical {s : State} (o : BlockOrder) (h : s.canonical) :
    (s.blockEvent o).canonical := by
  unfold State.blockEvent
  try dsimp only
  repeat' first
    | with_reducible exact h
    | with_reducible apply contextBlocks_canonical
    | with_reducible apply quietBlock_canonical
    | with_reducible apply listenBlock_canonical
    | with_reducible apply poolBlock_canonical
    | with_reducible refine onEngines_canonical (fun _ => rfl) ?_
    | split

theorem doBlockEvent_canonical {s : State} (o : BlockOrder) (h : s.canonical) :
    (s.doBlockEvent o).canonical := by
  unfold State.doBlockEvent
  try dsimp only
  repeat' first
    | with_reducible exact h
    | with_reducible apply blockEvent_canonical
    | with_reducible refine onHwi_canonical ?_
    | split

theorem doBridgedBlockEvent_canonical {s : State} (o : BlockOrder) (h : s.canonical) :
    (s.doBridgedBlockEvent o).canonical := by
  unfold State.doBridgedBlockEvent
  try dsimp only
  repeat' first
    | with_reducible exact h
    | with_reducible apply count_canonical
    | with_reducible apply blockEvent_canonical
    | with_reducible refine onHwi_canonical ?_
    | split

end Sys2Proof.Laws
end

