-- ==== Sys2Proof/Laws/Contexts.lean ====
section
/-! SUPPORT. Reading a context after an update, and the operations that leave every context as it is while they change
reservations or notices: one lemma for each; what a TAKEN with the own φ and the shed decision look at; how long a
decoded block is; and what SO and PO show once every context is gone. -/

namespace Sys2Proof.Laws

set_option linter.all false

open Sys2Proof.Machine

/-! ### Reading contexts, records and roster entries after an update -/

theorem ctx_putCtx (c d : CtxNum) (x : Context) (s : State) :
    (s.putCtx c x).ctx d = if d = c then some x else s.ctx d := lookup_insert _ _ _ _

@[simp] theorem ctx_putCtx_self (c : CtxNum) (x : Context) (s : State) : (s.putCtx c x).ctx c = some x := by
  simp [ctx_putCtx]

theorem ctx_of_contexts {s t : State} (h : t.table.contexts = s.table.contexts) (d : CtxNum) : t.ctx d = s.ctx d := by
  unfold State.ctx; rw [h]

theorem ctxFor_of_contexts {s t : State} (h : t.table.contexts = s.table.contexts) (p : Pos) :
    t.ctxFor p = s.ctxFor p := by
  unfold State.ctxFor; rw [h]

theorem ctx_modCtx (c d : CtxNum) (f : Context → Context) (s : State) :
    (s.modCtx c f).ctx d = if d = c then (s.ctx c).map f else s.ctx d := by
  unfold State.modCtx
  cases h : s.ctx c with
  | none =>
    simp only
    split
    · rename_i hd; subst hd; rw [h]; rfl
    · rfl
  | some x => simp only [ctx_putCtx]; rfl

@[simp] theorem ctx_count (k : Counter) (s : State) (d : CtxNum) : (s.count k).ctx d = s.ctx d := rfl

@[simp] theorem ctx_countDriven (c : CtxNum) (k : Counter) (s : State) (d : CtxNum) :
    (s.countDriven c k).ctx d = s.ctx d := ctx_of_contexts (by simp) d

@[simp] theorem ctx_takeUps (s : State) (d : CtxNum) : s.takeUps.ctx d = s.ctx d := ctx_of_contexts (by simp) d

/-- A take-up reads the queue, the engines, the frame count and the halves of the contexts' codec state, nothing else. -/
theorem doJobTakeUp_engines_congr {s t : State} (he : s.engines = t.engines)
    (hf : s.hwi.frameCount = t.hwi.frameCount)
    (hc : ∀ c, (s.ctx c).map Context.halfFor = (t.ctx c).map Context.halfFor) :
    s.doJobTakeUp.engines = t.doJobTakeUp.engines := by
  have half : ∀ j : Job, (match s.ctx j.ctx with | some x => x.halfFor j.dir | none => default) =
      (match t.ctx j.ctx with | some x => x.halfFor j.dir | none => default) := by
    intro j
    have h := hc j.ctx
    cases hs : s.ctx j.ctx <;> cases ht : t.ctx j.ctx <;> simp_all
  unfold State.doJobTakeUp
  rw [← he]
  split
  · simp only [State.onEngines, hf, he]
    congr 3
    exact half _
  · exact he

@[simp] theorem ctx_doJobTakeUp (s : State) (d : CtxNum) : s.doJobTakeUp.ctx d = s.ctx d := ctx_of_contexts (by simp) d

/-- The same for every take-up that is open: what a posting finds (R66) does not depend on the posting context's other
fields. -/
theorem takeUps_engines_congr {s t : State} (he : s.engines = t.engines)
    (hf : s.hwi.frameCount = t.hwi.frameCount)
    (hc : ∀ c, (s.ctx c).map Context.halfFor = (t.ctx c).map Context.halfFor) :
    s.takeUps.engines = t.takeUps.engines := by
  unfold State.takeUps
  have one {s t : State} := @doJobTakeUp_engines_congr s t
  refine one (one (one (one he hf hc) ?_ ?_) ?_ ?_) ?_ ?_ <;> simpa

/-- A posting: the engines after the take-ups that were open, with the job placed in their queue (R65, R66). -/
theorem postJob_engines (j : Job) (s : State) :
    (s.postJob j).engines =
      { s.takeUps.engines with queue := insertJob s.hwi.frameCount j s.takeUps.engines.queue } := rfl

@[simp] theorem ctx_postJob (j : Job) (s : State) (d : CtxNum) : (s.postJob j).ctx d = s.ctx d :=
  ctx_of_contexts (by simp) d

/-- The station-wide count of a context's event (R26): while the context drives only. -/
theorem countDriven_report {c : CtxNum} {k : Counter} {s : State} {x : Context} (h : s.ctx c = some x) :
    (s.countDriven c k).report = if x.drives then s.report.counted k else s.report := by
  unfold State.countDriven
  rw [h]
  simp only
  split <;> rfl

theorem recAt_putRec (p q : Pos) (r : PosRecord) (s : State) :
    (s.putRec p r).recAt q = if q = p then r else s.recAt q := lookup_put _ _ _ _ _

theorem recAt_of_map {s t : State} (h : t.mapu.map = s.mapu.map) (p : Pos) : t.recAt p = s.recAt p := by
  unfold State.recAt; rw [h]

theorem rosterAt_putRoster (q x : Station) (e : RosterEntry) (s : State) :
    (s.putRoster q e).rosterAt x = if x = q then e else s.rosterAt x := lookup_put _ _ _ _ _

theorem rosterAt_of_roster {s t : State} (h : t.mapu.roster = s.mapu.roster) (x : Station) :
    t.rosterAt x = s.rosterAt x := by
  unfold State.rosterAt; rw [h]

theorem live_off {s : State} (f : State → State) (h : s.life.held = false) : s.live f = f s := by
  rw [State.live, if_neg (by simp [h])]

/-! ### Operations that keep every context -/

theorem requestReservation_contexts {p : Pos} {r : BidRole} {k : Nat} {s t : State}
    (h : s.requestReservation p r k = some t) : t.table.contexts = s.table.contexts := by
  unfold State.requestReservation at h
  split at h
  · cases h
  · cases h; rfl

@[simp] theorem releaseReservation_contexts {s : State} (p : Pos) :
    (s.releaseReservation p).table.contexts = s.table.contexts := by
  unfold State.releaseReservation
  try dsimp only
  (repeat' split) <;> simp

@[simp] theorem recostReservation_contexts {s : State} (p : Pos) (n : Nat) :
    (s.recostReservation p n).table.contexts = s.table.contexts := by
  unfold State.recostReservation
  try dsimp only
  (repeat' split) <;> simp

@[simp] theorem departed_contexts {s : State} (n : Notice) :
    (s.departed n).table.contexts = s.table.contexts := by
  unfold State.departed
  try dsimp only
  (repeat' split) <;> simp

@[simp] theorem place_contexts {s : State} (n : Notice) :
    (s.place n).table.contexts = s.table.contexts := by
  unfold State.place
  (repeat' split) <;> first | rfl | (rw [departed_contexts]; rfl)

@[simp] theorem removeNow_contexts {s : State} (f : Notice → Bool) :
    (s.removeNow f).table.contexts = s.table.contexts := by
  unfold State.removeNow
  exact foldl_keeps (fun s => s.table.contexts) _ (fun s (e : OutEntry) => departed_contexts e.notice) _ _

@[simp] theorem removeNotices_contexts {s : State} (r : Removal) :
    (s.removeNotices r).table.contexts = s.table.contexts := by
  simp [State.removeNotices]

@[simp] theorem removeLost_contexts {s : State} (q : Station) :
    (s.removeLost q).table.contexts = s.table.contexts := by
  unfold State.removeLost
  try dsimp only
  (repeat' split) <;> simp

@[simp] theorem withdrawBid_contexts {s : State} (p : Pos) :
    (s.withdrawBid p).table.contexts = s.table.contexts := by
  unfold State.withdrawBid
  try dsimp only
  (repeat' split) <;> simp

@[simp] theorem placeReport_contexts {s : State} (p : Pos) (i : BitVec 8) (v : BitVec 24) :
    (s.placeReport p i v).table.contexts = s.table.contexts := by
  unfold State.placeReport
  (repeat' split) <;> simp

@[simp] theorem raiseFlag_contexts {s : State} (f : FaultFlag) :
    (s.raiseFlag f).table.contexts = s.table.contexts := by
  unfold State.raiseFlag
  try dsimp only
  (repeat' split) <;> simp

@[simp] theorem enterListen_contexts {s : State} :
    (s.enterListen).table.contexts = s.table.contexts := by
  unfold State.enterListen
  try dsimp only
  (repeat' split) <;> simp

@[simp] theorem placeBid_contexts {s : State} (p : Pos) (r : BidRole) :
    (s.placeBid p r).table.contexts = s.table.contexts := by
  unfold State.placeBid
  split
  · rfl
  · split
    · split
      · rfl
      · rename_i ht
        rw [place_contexts]
        have h1 := requestReservation_contexts ht
        split
        · exact h1
        · exact h1
    · rfl

@[simp] theorem placeTaken_contexts {s : State} (p : Pos) (c : TakenCause) :
    (s.placeTaken p c).table.contexts = s.table.contexts := by
  unfold State.placeTaken
  (repeat' split) <;> simp

@[simp] theorem withdrawUnfit_contexts {s : State} (p : Pos) :
    (s.withdrawUnfit p).table.contexts = s.table.contexts := by
  unfold State.withdrawUnfit
  (repeat' split) <;> simp

@[simp] theorem keepOrWithdraw_contexts {s : State} (p : Pos) :
    (s.keepOrWithdraw p).table.contexts = s.table.contexts := by
  unfold State.keepOrWithdraw
  try dsimp only
  (repeat' split) <;> simp

@[simp] theorem placeShedderHold_contexts {s : State} (p : Pos) :
    (s.placeShedderHold p).table.contexts = s.table.contexts := by
  unfold State.placeShedderHold
  (repeat' split) <;> simp

@[simp] theorem answerChange_contexts {s : State} (p : Pos) (old new : PosRecord) :
    (s.answerChange p old new).table.contexts = s.table.contexts := by
  unfold State.answerChange
  try dsimp only
  (repeat' split) <;> simp

@[simp] theorem poolReact_contexts {s : State} (p : Pos) (old : PosRecord) :
    (s.poolReact p old).table.contexts = s.table.contexts := by
  unfold State.poolReact
  try dsimp only
  (repeat' split) <;> simp

@[simp] theorem decideShed_contexts {s : State} :
    (s.decideShed).table.contexts = s.table.contexts := by
  unfold State.decideShed
  try dsimp only
  (repeat' split) <;> simp

@[simp] theorem placeTakensDue_contexts {s : State} :
    (s.placeTakensDue).table.contexts = s.table.contexts := by
  unfold State.placeTakensDue
  exact foldl_keeps (fun s => s.table.contexts) _ (fun s a => by (try dsimp only); split <;> simp) _ _

@[simp] theorem shadowFill_contexts {s : State} :
    (s.shadowFill).table.contexts = s.table.contexts := by
  unfold State.shadowFill
  try dsimp only
  (repeat' split) <;> simp

@[simp] theorem census_contexts {s : State} :
    (s.census).table.contexts = s.table.contexts := by
  unfold State.census
  try dsimp only
  (repeat' split) <;> simp

@[simp] theorem examineLosses_contexts {s : State} :
    (s.examineLosses).table.contexts = s.table.contexts := by
  unfold State.examineLosses
  exact foldl_keeps (fun s => s.table.contexts) _ (fun s a => by (try dsimp only); split <;> simp) _ _

@[simp] theorem afterShed_contexts {s : State} :
    (s.afterShed).table.contexts = s.table.contexts := by
  unfold State.afterShed
  try dsimp only
  (repeat' split) <;> simp

@[simp] theorem poolDecisions_contexts {s : State} :
    (s.poolDecisions).table.contexts = s.table.contexts := by
  unfold State.poolDecisions
  try dsimp only
  (repeat' split) <;> simp

@[simp] theorem doShedDecision_contexts {s : State} :
    (s.doShedDecision).table.contexts = s.table.contexts := by
  unfold State.doShedDecision
  try dsimp only
  (repeat' split) <;> simp

@[simp] theorem doDeclareLost_contexts {s : State} :
    (s.doDeclareLost).table.contexts = s.table.contexts := by
  unfold State.doDeclareLost
  try dsimp only
  (repeat' split) <;> simp

@[simp] theorem doHeartbeat_contexts {s : State} :
    (s.doHeartbeat).table.contexts = s.table.contexts := by
  unfold State.doHeartbeat
  try dsimp only
  (repeat' split) <;> simp

@[simp] theorem answerUnknown_contexts {s : State} (i a : BitVec 8) :
    (s.answerUnknown i a).table.contexts = s.table.contexts := by
  unfold State.answerUnknown
  (repeat' split) <;> simp

@[simp] theorem answerSummary_contexts {s : State} (a : BitVec 8) :
    (s.answerSummary a).table.contexts = s.table.contexts := by
  unfold State.answerSummary
  (repeat' split) <;> simp

@[simp] theorem answerFlags_contexts {s : State} :
    (s.answerFlags).table.contexts = s.table.contexts := by
  unfold State.answerFlags
  (repeat' split) <;> simp

@[simp] theorem answerClearFlags_contexts {s : State} :
    (s.answerClearFlags).table.contexts = s.table.contexts := by
  unfold State.answerClearFlags
  try dsimp only
  (repeat' split) <;> simp

@[simp] theorem answerCounter_contexts {s : State} (i : BitVec 8) (k : Fin 32) :
    (s.answerCounter i k).table.contexts = s.table.contexts := by
  unfold State.answerCounter
  (repeat' split) <;> simp

@[simp] theorem answerPosition_contexts {s : State} (a : BitVec 8) :
    (s.answerPosition a).table.contexts = s.table.contexts := by
  unfold State.answerPosition
  try dsimp only
  (repeat' split) <;> simp

@[simp] theorem closeWindows_contexts {s : State} :
    (s.closeWindows).table.contexts = s.table.contexts := by
  unfold State.closeWindows
  exact foldl_keeps (fun s => s.table.contexts) _ (fun s a => by (try dsimp only); split <;> simp) _ _

@[simp] theorem hearStation_contexts {s : State} (q : Station) :
    (s.hearStation q).table.contexts = s.table.contexts := by
  unfold State.hearStation
  try dsimp only
  (repeat' split) <;> simp

@[simp] theorem bidStale_contexts {s : State} (p : Pos) (w : Bool) :
    (s.bidStale p w).table.contexts = s.table.contexts := by
  unfold State.bidStale
  try dsimp only
  (repeat' split) <;> simp

@[simp] theorem applyShedTo_contexts {s : State} (p : Pos) (g : CallTag) (q : Station) (w : Bool) :
    (s.applyShedTo p g q w).table.contexts = s.table.contexts := by
  unfold State.applyShedTo
  try dsimp only
  (repeat' split) <;> simp

@[simp] theorem holdRestates_contexts {s : State} (p : Pos) (g : CallTag) (l : Law) (ms : ModeSet) (m : Mode) (b : BlockIndex) (sh : Option Station) :
    (s.holdRestates p g l ms m b sh).table.contexts = s.table.contexts := by
  unfold State.holdRestates
  try dsimp only
  (repeat' split) <;> simp

@[simp] theorem holdTeaches_contexts {s : State} (p : Pos) (g : CallTag) (l : Law) (ms : ModeSet) (m : Mode) (b : BlockIndex) (sh : Option Station) (q : Station) :
    (s.holdTeaches p g l ms m b sh q).table.contexts = s.table.contexts := by
  unfold State.holdTeaches
  try dsimp only
  (repeat' split) <;> simp

@[simp] theorem dropJob_contexts {s : State} (c : CtxNum) (d : Direction) :
    (s.dropJob c d).table.contexts = s.table.contexts := by
  unfold State.dropJob
  try dsimp only
  (repeat' split) <;> simp

@[simp] theorem readAbandoned_contexts {s : State} (a : List PortAct) :
    (s.readAbandoned a).table.contexts = s.table.contexts := by
  unfold State.readAbandoned
  try dsimp only
  (repeat' split) <;> simp

@[simp] theorem doMissingAcknowledge_contexts {s : State} (k : Nat) (p : AckPoint) :
    (s.doMissingAcknowledge k p).table.contexts = s.table.contexts := by
  unfold State.doMissingAcknowledge
  try dsimp only
  (repeat' split) <;> simp

@[simp] theorem doSclHeldLow_contexts {s : State} (k : Nat) (x : ReadCut) :
    (s.doSclHeldLow k x).table.contexts = s.table.contexts := by
  unfold State.doSclHeldLow
  (repeat' split) <;> simp

@[simp] theorem doConfigurationReadEnd_contexts {s : State} (k : Nat) (i : List Byte) :
    (s.doConfigurationReadEnd k i).table.contexts = s.table.contexts := by
  unfold State.doConfigurationReadEnd
  try dsimp only
  (repeat' split) <;> simp

@[simp] theorem doEnterListen_contexts {s : State} :
    (s.doEnterListen).table.contexts = s.table.contexts := by
  unfold State.doEnterListen
  (repeat' split) <;> simp

@[simp] theorem doQuietPeriodEnd_contexts {s : State} :
    (s.doQuietPeriodEnd).table.contexts = s.table.contexts := by
  unfold State.doQuietPeriodEnd
  try dsimp only
  (repeat' split) <;> simp

@[simp] theorem doMapComplete_contexts {s : State} :
    (s.doMapComplete).table.contexts = s.table.contexts := by
  unfold State.doMapComplete
  try dsimp only
  (repeat' split) <;> simp

@[simp] theorem poolBlock_contexts {s : State} (o : BlockOrder) :
    (s.poolBlock o).table.contexts = s.table.contexts := by
  unfold State.poolBlock
  try dsimp only
  (repeat' split) <;> simp

/-! ### A TAKEN's φ (R13), and what the shed decision looks for (R141) -/

/-- A TAKEN that gives a context the φ it has changes its switch frame and nothing else (R13). -/
@[simp] theorem given_same (sf : FrameCount) (x : Context) :
    Context.given x.phase sf x = { x with switchFrame := some sf } := by
  simp [Context.given]

theorem shedCandidate_iff {s : State} {x : Context} : s.shedCandidate x = true ↔
    x.state = .primary ∧ (s.recAt x.position).state = .held ∧ (s.recAt x.position).switchFrame = none := by
  simp [State.shedCandidate, and_assoc]

theorem shedDue_iff {s : State} : s.shedDue = true ↔
    s.pool.shedGrace = s.life.settings.shedGrace ∧ s.pool.holdOff = 0 ∧ s.pool.shedding = none := by
  simp [State.shedDue, and_assoc]

theorem windowPassed_iff {s : State} {p : Pos} : s.windowPassed p = true ↔
    ∃ c, (s.recAt p).closing = some c ∧ atOrBefore s.mapu.mapTime c = false := by
  unfold State.windowPassed
  cases (s.recAt p).closing <;> simp

/-! ### Decoded blocks (R37) -/

theorem loweredBy_eq_iterate (law : Law) (n : Nat) : loweredBy law n = (Config.lower3dB law)^[n] := by
  induction n with
  | zero => rfl
  | succ n ih => funext v; rw [Function.iterate_succ_apply', ← ih]; rfl

@[simp] theorem concealBlock_length (x : Context) (half : CodecHalf) (level : Nat) :
    (x.concealBlock half level).length = 160 := by
  unfold Context.concealBlock
  split
  · exact List.length_replicate
  · rw [List.length_map, List.length_range]

@[simp] theorem deliveredBlock_length (x : Context) (half : CodecHalf) (w : DecodeWork) :
    (x.deliveredBlock half w).length = 160 := by
  cases w with
  | conceal level => exact concealBlock_length x half level
  | speech _ _ => exact (List.length_map _).trans List.length_range
  | sid _ => exact (List.length_map _).trans List.length_range
  | comfortNoise => exact (List.length_map _).trans List.length_range

/-! ### SO and PO -/

/-- SO and PO are a function of the contexts and of what was released in the frame. -/
theorem levels_of_eq {s t : State} (hc : t.table.contexts = s.table.contexts) (hr : t.released = s.released) (b : Nat) :
    t.soLevel b = s.soLevel b ∧ t.poLevel b = s.poLevel b := by
  unfold State.soLevel State.poLevel State.drivenBefore State.soSlot State.poNibble State.ctxFor
  rw [hc, hr]
  exact ⟨rfl, rfl⟩

/-- The slot that was on record for p first, cut at n, is what p's context drove. -/
theorem find_releasedAt (n : Nat) (p : Pos) (t : Table 64 Context) :
    (t.map (fun e => e.2.releasedAt n)).find? (fun r => decide (r.position = p)) =
      (t.find? (fun e => decide (e.2.position = p))).map (fun e => e.2.releasedAt n) := by
  rw [List.find?_map]; rfl

/-- Once every context is gone, cut at bit-time n, SO and PO stand up to n and are released from n on (R84). -/
theorem releasedFrom_of_cut {s t : State} {n : Nat} {l : List ReleasedSlot} (hs : s.released = [])
    (hr : t.released = s.table.contexts.map (fun e => e.2.releasedAt n) ++ l)
    (hl : ∀ r ∈ l, ∃ e ∈ s.table.contexts, e.2.position = r.position) (hc : t.table.contexts = []) :
    s.releasedFrom n t := by
  have driven : ∀ p b, t.drivenBefore p b =
      ((s.ctxFor p).map (fun e => e.2.releasedAt n)).filter (fun _ => decide (b < n)) := by
    intro p b
    unfold State.drivenBefore State.ctxFor
    rw [hr, List.find?_append, find_releasedAt]
    cases h : s.table.contexts.find? (fun e => decide (e.2.position = p)) with
    | some e => rfl
    | none =>
      have : l.find? (fun r => decide (r.position = p)) = none := by
        refine List.find?_eq_none.2 (fun r hm hd => ?_)
        obtain ⟨e, he, hp⟩ := hl r hm
        exact List.find?_eq_none.1 h e he (by simpa [hp] using hd)
      simp [this]
  have none' : ∀ p, t.ctxFor p = none := fun p => by unfold State.ctxFor; rw [hc]; rfl
  have before : ∀ p b, s.drivenBefore p b = none := fun p b => by unfold State.drivenBefore; rw [hs]; rfl
  intro b
  constructor
  · unfold State.soLevel State.soSlot
    simp only [driven, none', before]
    cases s.ctxFor (posOfCode (b / 8)) with
    | none => simp
    | some e =>
      by_cases hb : b < n
      · simp [hb, Option.filter, Context.releasedAt]
      · simp [hb]
  · unfold State.poLevel State.poNibble
    simp only [driven, none', before]
    cases s.ctxFor (posOfCode (b / 4)) with
    | none => simp
    | some e =>
      by_cases hb : b < n
      · simp [hb, Option.filter, Context.releasedAt]
      · simp [hb]
end Sys2Proof.Laws
end

