-- ==== Sys2Proof/Laws/PerInstr.lean ====
section
/-! SUPPORT. What holds of every command as it is written, command by command: which can be ill formed, and that none
has a word. -/

namespace Sys2Proof.Laws.Content

open Sys2Proof

/-- The command carries lengths or counts from outside that the check looks at. -/
def measured : Instr → Bool
  | .coldStart _ => false
  | .coldStartRelease _ => false
  | .missingAcknowledge _ _ => true
  | .loaderPauseEnd => false
  | .sclHeldLow _ => true
  | .configurationReadEnd _ _ => true
  | .frameReferenceSet _ => false
  | .frameEvent _ _ => true
  | .bridgedFrameEvent _ _ => true
  | .frameMarkerMiss => false
  | .strayFsync _ => true
  | .blockEvent _ => false
  | .bridgedBlockEvent _ => false
  | .timingGood => false
  | .hclkGap _ => true
  | .enterListen => false
  | .quietPeriodEnd => false
  | .mapComplete => false
  | .controlWindow _ _ => true
  | .applyEmptyMark => false
  | .applyLost => false
  | .applyTaken => false
  | .applyClear => false
  | .applyOffer => false
  | .applyBid => false
  | .applyShed => false
  | .applyHold => false
  | .applyPresent => false
  | .applyReport => false
  | .queryStationSummary => false
  | .queryFaultFlags => false
  | .queryClearFlags => false
  | .queryCounter => false
  | .queryPositionStatus => false
  | .queryUnknownItem => false
  | .sweepGroup => false
  | .switchFrame _ => false
  | .recordSwitchFrame _ => false
  | .warmUpEnd _ => false
  | .shedDecision => false
  | .declareLost => false
  | .heartbeat => false
  | .markerJudgement _ => false
  | .parcelCompletion _ => false
  | .need _ => false
  | .jobTakeUp => false
  | .decodeCompletion _ => false
  | .encodeCompletion _ => false
  | .jobDropped _ _ => false
  | .blockClose _ => false
  | .emissionStart _ => false
  | .fsyncAbsentInProve => false

/-- A command that carries nothing to measure is well formed, and no word spells the command. -/
def Statement (i : Instr) : Prop :=
  (measured i = false → i.wellFormed = true) ∧ ∀ nbits w, decodeTableWord nbits w ≠ some i

/-- No word spells a command. -/
theorem wordless (i : Instr) (nbits w : Nat) : decodeTableWord nbits w ≠ some i := nofun

theorem coldStart (cause : ColdStartCause) : Statement (.coldStart cause) := ⟨fun _ => rfl, wordless _⟩
theorem coldStartRelease (straps : Straps) : Statement (.coldStartRelease straps) := ⟨fun _ => rfl, wordless _⟩
theorem missingAcknowledge (clocks : Nat) (point : AckPoint) : Statement (.missingAcknowledge clocks point) :=
  ⟨nofun, wordless _⟩
theorem loaderPauseEnd : Statement .loaderPauseEnd := ⟨fun _ => rfl, wordless _⟩
theorem sclHeldLow (hold : ClockHold) : Statement (.sclHeldLow hold) := ⟨nofun, wordless _⟩
theorem configurationReadEnd (clocks : Nat) (image : List Byte) : Statement (.configurationReadEnd clocks image) :=
  ⟨nofun, wordless _⟩
theorem frameReferenceSet (bsync : Bool) : Statement (.frameReferenceSet bsync) := ⟨fun _ => rfl, wordless _⟩
theorem frameEvent (bsync : Bool) (lanes : Lanes) : Statement (.frameEvent bsync lanes) := ⟨nofun, wordless _⟩
theorem bridgedFrameEvent (bsync : Bool) (lanes : Lanes) : Statement (.bridgedFrameEvent bsync lanes) :=
  ⟨nofun, wordless _⟩
theorem frameMarkerMiss : Statement .frameMarkerMiss := ⟨fun _ => rfl, wordless _⟩
theorem strayFsync (edge : Nat) : Statement (.strayFsync edge) := ⟨nofun, wordless _⟩
theorem blockEvent (order : BlockOrder) : Statement (.blockEvent order) := ⟨fun _ => rfl, wordless _⟩
theorem bridgedBlockEvent (order : BlockOrder) : Statement (.bridgedBlockEvent order) := ⟨fun _ => rfl, wordless _⟩
theorem timingGood : Statement .timingGood := ⟨fun _ => rfl, wordless _⟩
theorem hclkGap (pause : ClockPause) : Statement (.hclkGap pause) :=
  ⟨nofun, wordless _⟩
theorem enterListen : Statement .enterListen := ⟨fun _ => rfl, wordless _⟩
theorem quietPeriodEnd : Statement .quietPeriodEnd := ⟨fun _ => rfl, wordless _⟩
theorem mapComplete : Statement .mapComplete := ⟨fun _ => rfl, wordless _⟩
theorem controlWindow (others noise : List Bool) : Statement (.controlWindow others noise) := ⟨nofun, wordless _⟩
theorem applyEmptyMark : Statement .applyEmptyMark := ⟨fun _ => rfl, wordless _⟩
theorem applyLost : Statement .applyLost := ⟨fun _ => rfl, wordless _⟩
theorem applyTaken : Statement .applyTaken := ⟨fun _ => rfl, wordless _⟩
theorem applyClear : Statement .applyClear := ⟨fun _ => rfl, wordless _⟩
theorem applyOffer : Statement .applyOffer := ⟨fun _ => rfl, wordless _⟩
theorem applyBid : Statement .applyBid := ⟨fun _ => rfl, wordless _⟩
theorem applyShed : Statement .applyShed := ⟨fun _ => rfl, wordless _⟩
theorem applyHold : Statement .applyHold := ⟨fun _ => rfl, wordless _⟩
theorem applyPresent : Statement .applyPresent := ⟨fun _ => rfl, wordless _⟩
theorem applyReport : Statement .applyReport := ⟨fun _ => rfl, wordless _⟩
theorem queryStationSummary : Statement .queryStationSummary := ⟨fun _ => rfl, wordless _⟩
theorem queryFaultFlags : Statement .queryFaultFlags := ⟨fun _ => rfl, wordless _⟩
theorem queryClearFlags : Statement .queryClearFlags := ⟨fun _ => rfl, wordless _⟩
theorem queryCounter : Statement .queryCounter := ⟨fun _ => rfl, wordless _⟩
theorem queryPositionStatus : Statement .queryPositionStatus := ⟨fun _ => rfl, wordless _⟩
theorem queryUnknownItem : Statement .queryUnknownItem := ⟨fun _ => rfl, wordless _⟩
theorem sweepGroup : Statement .sweepGroup := ⟨fun _ => rfl, wordless _⟩
theorem switchFrame (c : CtxNum) : Statement (.switchFrame c) := ⟨fun _ => rfl, wordless _⟩
theorem recordSwitchFrame (p : Pos) : Statement (.recordSwitchFrame p) := ⟨fun _ => rfl, wordless _⟩
theorem warmUpEnd (c : CtxNum) : Statement (.warmUpEnd c) := ⟨fun _ => rfl, wordless _⟩
theorem shedDecision : Statement .shedDecision := ⟨fun _ => rfl, wordless _⟩
theorem declareLost : Statement .declareLost := ⟨fun _ => rfl, wordless _⟩
theorem heartbeat : Statement .heartbeat := ⟨fun _ => rfl, wordless _⟩
theorem markerJudgement (c : CtxNum) : Statement (.markerJudgement c) := ⟨fun _ => rfl, wordless _⟩
theorem parcelCompletion (c : CtxNum) : Statement (.parcelCompletion c) := ⟨fun _ => rfl, wordless _⟩
theorem need (c : CtxNum) : Statement (.need c) := ⟨fun _ => rfl, wordless _⟩
theorem jobTakeUp : Statement .jobTakeUp := ⟨fun _ => rfl, wordless _⟩
theorem decodeCompletion (e : EngineNum) : Statement (.decodeCompletion e) := ⟨fun _ => rfl, wordless _⟩
theorem encodeCompletion (e : EngineNum) : Statement (.encodeCompletion e) := ⟨fun _ => rfl, wordless _⟩
theorem jobDropped (c : CtxNum) (d : Direction) : Statement (.jobDropped c d) := ⟨fun _ => rfl, wordless _⟩
theorem blockClose (c : CtxNum) : Statement (.blockClose c) := ⟨fun _ => rfl, wordless _⟩
theorem emissionStart (c : CtxNum) : Statement (.emissionStart c) := ⟨fun _ => rfl, wordless _⟩
theorem fsyncAbsentInProve : Statement .fsyncAbsentInProve := ⟨fun _ => rfl, wordless _⟩

end Sys2Proof.Laws.Content
end

