-- ==== Sys2Proof/Laws/Settle.lean ====
section
/-! SUPPORT. Settling, the timing commands and the control window keep the outbox sound, the tables canonical and the
queue as it is. -/

namespace Sys2Proof.Laws

open Sys2Proof.Machine

/-- A frame with no step due is settled as it stands. -/
theorem settle_of_quiet {s : State} (h : s.quiet = true) : s.settle = s := by
  unfold State.settle
  rw [if_pos h]

/-- Up to a pause of HCLK that falls outside a window, the frame is settled. -/
theorem untilGap_outside (noise : List Bool) (s : State) : s.untilGap [] noise = s.settle := by
  simp [State.untilGap]

theorem turn_rests (rest : Bool) : TurnKeeps (fun s => Rests rest s.notice) (fun s => Rests rest s.notice) where
  beginRecord r _ _ := beginRecord_rests r
  endRecord s h := by rw [show s.endRecord.notice = s.notice by simp]; exact h
  weaken _ h := h
  hearStation q _ := hearStation_rests q
  lost q _ h := by
    unfold State.applyLostTo
    dsimp only
    repeat' first
      | exact h
      | apply startSweep_rests
      | apply removeLost_rests
      | apply retreat_rests
      | apply raiseFlag_rests
      | split
  taken p g b t o _ := applyTakenTo_rests p g b t o
  clear p g _ := applyClearTo_rests p g
  offer p g l ms m q _ := applyOfferTo_rests p g l ms m q
  bid p g r q w _ := applyBidTo_rests p g r q w
  shed p g q w _ := applyShedTo_rests p g q w
  hold p g l ms m b sh q w _ := applyHoldTo_rests p g l ms m b sh q w
  present v f q w _ := applyPresentTo_rests v f q w
  summary a _ := answerSummary_rests a
  flags _ := answerFlags_rests
  clearFlags _ := answerClearFlags_rests
  counter i k _ := answerCounter_rests i k
  position a _ := answerPosition_rests a
  takeUps s h := by rw [show s.takeUps.notice = s.notice by simp]; exact h
  unknown i a _ := answerUnknown_rests i a
  sweep _ := doSweepGroup_rests

theorem steps_rests (rest : Bool) : StepKeeps (fun s => Rests rest s.notice) (fun s => Rests rest s.notice) where
  toTurnKeeps := turn_rests rest
  switchFrames _ := takeSwitchFrames_rests
  decodeCompletion e s h := by rw [show (s.doDecodeCompletion e).notice = s.notice by simp]; exact h
  encodeCompletion e s h := by rw [show (s.doEncodeCompletion e).notice = s.notice by simp]; exact h
  jobDropped c d _ := doJobDropped_rests c d
  judgement c s h := by rw [show (s.doMarkerJudgement c).notice = s.notice by simp]; exact h
  completion c s h := by rw [show (s.doParcelCompletion c).notice = s.notice by simp]; exact h
  need c _ := doNeed_rests c
  emission c _ := doEmissionStart_rests c
  close c s h := by rw [show (s.doBlockClose c).notice = s.notice by simp]; exact h
  block o _ := doBlockEvent_rests o
  bridgedBlock o _ := doBridgedBlockEvent_rests o
  timingGood s h := by rw [show s.doTimingGood.notice = s.notice by simp]; exact h
  warmUp c _ := doWarmUpEnd_rests c
  listen _ := doEnterListen_rests
  quietEnd _ := doQuietPeriodEnd_rests
  mapComplete _ := doMapComplete_rests
  decideShed _ := doShedDecision_rests
  declare _ := doDeclareLost_rests
  heartbeat _ := doHeartbeat_rests
  takeUp s h := by rw [show s.doJobTakeUp.notice = s.notice by simp]; exact h

theorem steps_canonical : StepKeeps State.canonical State.canonical where
  beginRecord r _ _ := beginRecord_canonical r
  endRecord _ := endRecord_canonical
  weaken _ h := h
  hearStation q _ := hearStation_canonical q
  lost q _ h := by
    unfold State.applyLostTo
    dsimp only
    repeat' first
      | exact h
      | apply startSweep_canonical
      | apply removeLost_canonical
      | apply putRoster_canonical
      | apply retreat_canonical
      | apply raiseFlag_canonical
      | split
  taken p g b t o _ := applyTakenTo_canonical p g b t o
  clear p g _ := applyClearTo_canonical p g
  offer p g l ms m q _ := applyOfferTo_canonical p g l ms m q
  bid p g r q w _ := applyBidTo_canonical p g r q w
  shed p g q w _ := applyShedTo_canonical p g q w
  hold p g l ms m b sh q w _ := applyHoldTo_canonical p g l ms m b sh q w
  present v f q w _ := applyPresentTo_canonical v f q w
  summary a _ := answerSummary_canonical a
  flags _ := answerFlags_canonical
  clearFlags _ := answerClearFlags_canonical
  counter i k _ := answerCounter_canonical i k
  position a _ := answerPosition_canonical a
  takeUps _ := takeUps_canonical
  unknown i a _ := answerUnknown_canonical i a
  sweep _ := doSweepGroup_canonical
  switchFrames _ := takeSwitchFrames_canonical
  decodeCompletion e _ := doDecodeCompletion_canonical e
  encodeCompletion e _ := doEncodeCompletion_canonical e
  jobDropped c d _ := doJobDropped_canonical c d
  judgement c _ := doMarkerJudgement_canonical c
  completion c _ := doParcelCompletion_canonical c
  need c _ := doNeed_canonical c
  emission c _ := doEmissionStart_canonical c
  close c _ := doBlockClose_canonical c
  block o _ := doBlockEvent_canonical o
  bridgedBlock o _ := doBridgedBlockEvent_canonical o
  timingGood _ := doTimingGood_canonical
  warmUp c _ := doWarmUpEnd_canonical c
  listen _ := doEnterListen_canonical
  quietEnd _ := doQuietPeriodEnd_canonical
  mapComplete _ := doMapComplete_canonical
  decideShed _ := doShedDecision_canonical
  declare _ := doDeclareLost_canonical
  heartbeat _ := doHeartbeat_canonical
  takeUp _ := doJobTakeUp_canonical

theorem settle_rests {rest : Bool} {s : State} (h : Rests rest s.notice) : Rests rest s.settle.notice := settle_keeps (steps_rests rest) h

theorem settle_canonical {s : State} (h : s.canonical) : s.settle.canonical := settle_keeps steps_canonical h

theorem applyLostTo_pending (q : Station) (s : State) : (s.applyLostTo q).pending = s.pending := by
  unfold State.applyLostTo
  dsimp only
  (repeat' split) <;> simp

/-- The steps of a frame leave the queue as it is. -/
theorem steps_pending (l : List Instr) : StepKeeps (fun s => s.pending = l) (fun s => s.pending = l) where
  beginRecord r s _ h := by simpa using h
  endRecord s h := by simpa using h
  weaken _ h := h
  hearStation q s h := by simpa using h
  lost q s h := by rw [applyLostTo_pending]; exact h
  taken p g b t o s h := by simpa using h
  clear p g s h := by simpa using h
  offer p g l ms m q s h := by simpa using h
  bid p g r q w s h := by simpa using h
  shed p g q w s h := by simpa using h
  hold p g l ms m b sh q w s h := by simpa using h
  present v f q w s h := by simpa using h
  summary a s h := by simpa using h
  flags s h := by simpa using h
  clearFlags s h := by simpa using h
  counter i k s h := by simpa using h
  position a s h := by simpa using h
  takeUps s h := by simpa using h
  unknown i a s h := by simpa using h
  sweep s h := by simpa using h
  switchFrames s h := by simpa using h
  decodeCompletion e s h := by simpa using h
  encodeCompletion e s h := by simpa using h
  jobDropped c d s h := by simpa using h
  judgement c s h := by simpa using h
  completion c s h := by simpa using h
  need c s h := by simpa using h
  emission c s h := by simpa using h
  close c s h := by simpa using h
  block o s h := by simpa using h
  bridgedBlock o s h := by simpa using h
  timingGood s h := by simpa using h
  warmUp c s h := by simpa using h
  listen s h := by simpa using h
  quietEnd s h := by simpa using h
  mapComplete s h := by simpa using h
  decideShed s h := by simpa using h
  declare s h := by simpa using h
  heartbeat s h := by simpa using h
  takeUp s h := by simpa using h

theorem settle_pending (s : State) : s.settle.pending = s.pending := settle_keeps (steps_pending s.pending) rfl

/-! ### The timing commands and the control window -/

theorem frameBegins_rests {rest : Bool} {s : State} (l : Lanes) (h : Rests rest s.notice) : Rests rest (s.frameBegins l).notice := h

theorem frameBegins_canonical {s : State} (l : Lanes) (h : s.canonical) : (s.frameBegins l).canonical :=
  onMap_canonical (s := ({ s with released := [] } : State).onTable _) (fun _ => rfl) (fun _ => rfl)
    (canonical_contexts (s := { s with released := [] }) h (rising_mapValues h.1 _))

theorem loseTimingAtFrame_rests {rest : Bool} {s : State} (h : Rests rest s.notice) :
    Rests rest s.loseTimingAtFrame.notice := loseTiming_rests (s := s.atEdge.cutSlots 2048 s.allContexts) h

theorem loseTimingAtFrame_canonical {s : State} (h : s.canonical) : s.loseTimingAtFrame.canonical :=
  loseTiming_canonical (s := s.atEdge.cutSlots 2048 s.allContexts) h

theorem frameBegins_pending (l : Lanes) (s : State) : (s.frameBegins l).pending = s.pending := rfl

theorem markedFrame_rests {rest : Bool} {s : State} (b : Bool) (l : Lanes) (h : Rests rest s.notice) :
    Rests rest (s.markedFrame b l).notice := by
  unfold State.markedFrame State.produceFrame State.abandonProving
  repeat' first
    | exact h
    | exact loseTimingAtFrame_rests h
    | split

theorem markedFrame_canonical {s : State} (b : Bool) (l : Lanes) (h : s.canonical) : (s.markedFrame b l).canonical := by
  unfold State.markedFrame State.produceFrame State.abandonProving
  repeat' first
    | exact h
    | exact loseTimingAtFrame_canonical h
    | with_reducible apply frameBegins_canonical
    | split

theorem markedFrame_pending (b : Bool) (l : Lanes) (s : State) : (s.markedFrame b l).pending = s.pending := by
  unfold State.markedFrame State.produceFrame
  (repeat' split) <;> simp [frameBegins_pending]

theorem bridgedFrame_rests {rest : Bool} {s : State} (b : Bool) (l : Lanes) (h : Rests rest s.notice) :
    Rests rest (s.bridgedFrame b l).notice := by
  unfold State.bridgedFrame State.produceFrame
  repeat' first
    | exact h
    | exact loseTimingAtFrame_rests h
    | split

theorem bridgedFrame_canonical {s : State} (b : Bool) (l : Lanes) (h : s.canonical) :
    (s.bridgedFrame b l).canonical := by
  unfold State.bridgedFrame State.produceFrame
  repeat' first
    | exact h
    | exact loseTimingAtFrame_canonical h
    | with_reducible apply count_canonical
    | with_reducible apply frameBegins_canonical
    | split

theorem bridgedFrame_pending (b : Bool) (l : Lanes) (s : State) : (s.bridgedFrame b l).pending = s.pending := by
  unfold State.bridgedFrame State.produceFrame
  (repeat' split) <;> simp [frameBegins_pending]

theorem runOn_rests {rest : Bool} {s : State} (h : Rests rest s.notice) : Rests rest s.runOn.notice := h

theorem runOn_canonical {s : State} (h : s.canonical) : s.runOn.canonical := h

theorem runOn_pending (s : State) : s.runOn.pending = s.pending := rfl

theorem count_rests {rest : Bool} {s : State} (k : Counter) (h : Rests rest s.notice) : Rests rest (s.count k).notice := h

theorem count_pending (k : Counter) (s : State) : (s.count k).pending = s.pending := rfl

theorem onlyIf_keeps {P : State → Prop} {c : Bool} {f : State → State} (hf : ∀ s, P s → P (f s)) {s : State} (h : P s) :
    P (s.onlyIf c f) := by
  unfold State.onlyIf
  split
  · exact hf s h
  · exact h

theorem dropSent_rests {rest : Bool} {k : NoticeCtl} (h : Rests rest k) : Rests rest k.dropSent :=
  ⟨sublist_ordered h.1 List.filter_sublist, h.2⟩

theorem noticeSucceeds_rests {rest : Bool} {s : State} (h : Rests rest s.notice) : Rests rest s.noticeSucceeds.notice := by
  have h0 := dropSent_rests h
  unfold State.noticeSucceeds
  dsimp only
  repeat' first
    | exact h
    | exact h0
    | split

/-- A retry count that stays below 32 keeps the outbox in order (R95). -/
theorem retrySent_rests {rest : Bool} {k : NoticeCtl} {e : OutEntry} (h : Rests rest k) (he : k.sentEntry = some e)
    (hr : ¬32 ≤ e.retries + 1) : Rests rest k.retrySent := by
  obtain ⟨⟨h1, h2, h3, h4⟩, h5⟩ := h
  have hs : k.sends e.notice = true := by simpa using List.find?_some he
  have he' : e ∈ k.outbox := List.mem_of_find?_eq_some he
  have one : ∀ x ∈ k.outbox, k.sends x.notice = true → x = e := by
    intro x hx hxs
    refine List.inj_on_of_nodup_map h3 hx he' ?_
    unfold NoticeCtl.sends at hs hxs
    cases hw : k.inWindow with
    | none => rw [hw] at hs; cases hs
    | some w => rw [hw] at hs hxs; exact (of_decide_eq_true hxs).trans (of_decide_eq_true hs).symm
  refine ⟨⟨by simpa [NoticeCtl.retrySent] using h1, ?_, ?_, ?_⟩, h5⟩
  · refine List.pairwise_map.2 (h2.imp ?_)
    intro a b hab
    unfold OutEntry.before at hab ⊢
    split <;> split <;> exact hab
  · have : (k.retrySent).outbox.map (fun e => e.notice.key) = k.outbox.map (fun e => e.notice.key) := by
      simp only [NoticeCtl.retrySent, List.map_map]
      refine List.map_congr_left (fun x _ => ?_)
      simp only [Function.comp]
      split <;> rfl
    rw [this]; exact h3
  · intro x hx
    obtain ⟨y, hy, rfl⟩ := List.mem_map.1 hx
    have := h4 y hy
    split
    · rename_i hys
      have hr' : ¬32 ≤ y.retries + 1 := one y hy hys ▸ hr
      exact ⟨this.1, by show y.retries + 1 ≤ 31; omega⟩
    · exact this

theorem noticeRefused_rests {rest : Bool} {s : State} (h : Rests rest s.notice) : Rests rest s.noticeRefused.notice := by
  have h0 := dropSent_rests h
  unfold State.noticeRefused
  split
  · exact h
  · rename_i e he
    dsimp only
    split
    · simp only [departed_blocks]; exact h0
    · exact retrySent_rests h he ‹_›

theorem windowEffect_rests {rest : Bool} {s : State} (w : Window) (h : Rests rest s.notice) : Rests rest (s.windowEffect w).notice := by
  unfold State.windowEffect
  dsimp only
  repeat' first
    | with_reducible exact h
    | with_reducible refine onlyIf_keeps (P := fun s => Rests rest s.notice) (fun s h => noticeSucceeds_rests h) ?_
    | with_reducible refine onlyIf_keeps (P := fun s => Rests rest s.notice) (fun s h => noticeRefused_rests h) ?_
    | with_reducible refine onlyIf_keeps (f := State.runOn) (P := fun s => Rests rest s.notice) (fun s h => runOn_rests h) ?_
    | with_reducible refine onlyIf_keeps (f := State.count _) (P := fun s => Rests rest s.notice) (fun s h => count_rests _ h) ?_
    | split
    | exact h

theorem enterRecord_rests {rest : Bool} {s : State} (w : Window) (h : Rests rest s.notice) : Rests rest (s.enterRecord w).notice := by
  unfold State.enterRecord
  split <;> exact h

theorem endWindow_rests {rest : Bool} {s : State} (d a : Bool) (w : Window) (h : Rests rest s.notice) :
    Rests rest (s.endWindow d a w).notice := by
  unfold State.endWindow
  repeat' first
    | exact retreat_rests _ (raiseFlag_rests _ h)
    | exact enterRecord_rests w h
    | split

theorem noticeSucceeds_canonical {s : State} (h : s.canonical) : s.noticeSucceeds.canonical := by
  unfold State.noticeSucceeds
  dsimp only
  repeat' first
    | with_reducible exact h
    | with_reducible apply count_canonical
    | with_reducible refine onPool_canonical (fun _ => rfl) ?_
    | with_reducible refine onNotice_canonical ?_
    | split

theorem noticeRefused_canonical {s : State} (h : s.canonical) : s.noticeRefused.canonical := by
  unfold State.noticeRefused
  dsimp only
  repeat' first
    | with_reducible exact h
    | with_reducible apply count_canonical
    | with_reducible apply departed_canonical
    | with_reducible refine onNotice_canonical ?_
    | split

theorem windowEffect_canonical {s : State} (w : Window) (h : s.canonical) : (s.windowEffect w).canonical := by
  unfold State.windowEffect
  dsimp only
  repeat' first
    | with_reducible exact h
    | with_reducible apply count_canonical
    | with_reducible apply cutSlots_canonical
    | with_reducible refine onlyIf_keeps (fun s h => noticeSucceeds_canonical h) ?_
    | with_reducible refine onlyIf_keeps (fun s h => noticeRefused_canonical h) ?_
    | with_reducible refine onlyIf_keeps (fun s h => count_canonical _ h) ?_
    | with_reducible refine onlyIf_keeps (f := State.runOn) (fun s h => runOn_canonical h) ?_
    | with_reducible refine onlyIf_keeps (f := State.count _) (fun s h => count_canonical _ h) ?_
    | split

theorem endWindow_canonical {s : State} (d a : Bool) (w : Window) (h : s.canonical) :
    (s.endWindow d a w).canonical := by
  unfold State.endWindow State.enterRecord
  repeat' first
    | with_reducible exact h
    | with_reducible apply retreat_canonical
    | with_reducible apply raiseFlag_canonical
    | with_reducible refine onMap_canonical (fun _ => rfl) (fun _ => rfl) ?_
    | split

theorem noticeSucceeds_pending (s : State) : s.noticeSucceeds.pending = s.pending := by
  unfold State.noticeSucceeds
  dsimp only
  (repeat' split) <;> simp

theorem noticeRefused_pending (s : State) : s.noticeRefused.pending = s.pending := by
  unfold State.noticeRefused
  dsimp only
  (repeat' split) <;> simp

theorem windowEffect_pending (w : Window) (s : State) : (s.windowEffect w).pending = s.pending := by
  unfold State.windowEffect
  dsimp only
  repeat' first
    | with_reducible rfl
    | with_reducible refine onlyIf_keeps (P := fun t => t.pending = s.pending) (fun t h => (noticeSucceeds_pending t).trans h) ?_
    | with_reducible refine onlyIf_keeps (P := fun t => t.pending = s.pending) (fun t h => (noticeRefused_pending t).trans h) ?_
    | with_reducible refine onlyIf_keeps (f := State.runOn) (P := fun t => t.pending = s.pending) (fun t h => (runOn_pending t).trans h) ?_
    | with_reducible refine onlyIf_keeps (f := State.count _) (P := fun t => t.pending = s.pending) (fun t h => (count_pending _ t).trans h) ?_
    | split
    | rfl

theorem endWindow_pending (d a : Bool) (w : Window) (s : State) : (s.endWindow d a w).pending = s.pending := by
  unfold State.endWindow State.enterRecord
  (repeat' split) <;> simp

/-- What the pieces of a control window keep: P between two windows, and P0 while an entry is in its window. -/
structure WindowKeeps (P P0 : State → Prop) : Prop where
  begins : ∀ s, P s → P0 s.beginWindow
  settles : ∀ s, P s → P s.settle
  settlesIn : ∀ s, P0 s → P0 s.settle
  effect : ∀ w s, P0 s → P0 (s.windowEffect w)
  leaves : ∀ s, P0 s → P s.leavesWindow
  onHwi : ∀ f s, P s → P (s.onHwi f)
  onTurn : ∀ s, P s → P (s.onMap (fun m => { m with turn := false }))
  finish : ∀ d a w s, P s → P (s.endWindow d a w)
  raise : ∀ f c s, P s → P ((s.raiseFlag f).retreat c)

section
variable {P P0 : State → Prop} (k : WindowKeeps P P0) {s : State}
include k

theorem atWindow_keeps (h : P s) : P s.atWindow := by
  unfold State.atWindow
  split
  · exact h
  · exact k.settles s h

theorem closeWindowOfFrame_keeps (out : List Bool) (h : P s) : P (s.closeWindowOfFrame out) := k.onTurn _ (k.onHwi _ _ h)

theorem takeWindow_keeps (others noise : List Bool) (h : P s) : P (s.takeWindow others noise) := by
  have h1 : P (s.inWindow.windowEffect (s.metWindow others noise)).leavesWindow :=
    k.leaves _ (k.effect _ _ (k.settlesIn _ (k.begins s h)))
  unfold State.takeWindow
  dsimp only
  exact k.onHwi _ _ (k.finish _ _ _ _ (closeWindowOfFrame_keeps k _ h1))

theorem doControlWindow_keeps (others noise : List Bool) (h : P s) : P (s.doControlWindow others noise) := by
  unfold State.doControlWindow
  split
  · split
    · exact takeWindow_keeps k others noise (atWindow_keeps k h)
    · exact closeWindowOfFrame_keeps k _ (k.settles _ (atWindow_keeps k h))
  · exact h

theorem cutWindow_keeps (n : Nat) (others noise : List Bool) (h : P s) : P (s.cutWindow n others noise) := by
  have h1 : ∀ w, P (((s.inWindow.windowEffect w).leavesWindow).onHwi (fun h => { h with windowTaken := true })) :=
    fun w => k.onHwi _ _ (k.leaves _ (k.effect w _ (k.settlesIn _ (k.begins s h))))
  unfold State.cutWindow
  dsimp only
  refine k.onHwi _ _ ?_
  split
  · exact k.raise _ _ _ (h1 _)
  · exact h1 _

theorem doHclkGap_keeps (n e : Nat) (others noise : List Bool) (h : P s) : P (s.doHclkGap n e others noise) := by
  have h1 : P (s.untilGap others noise) := by
    unfold State.untilGap
    split
    · split
      · exact takeWindow_keeps k others noise (atWindow_keeps k h)
      · exact cutWindow_keeps k _ others noise (atWindow_keeps k h)
    · exact k.settles s h
  unfold State.doHclkGap
  split
  · dsimp only
    split
    · exact k.onHwi _ _ (k.raise _ _ _ (k.onHwi _ _ (k.onHwi _ _ (k.onHwi _ _ h1))))
    · exact k.onHwi _ _ (k.onHwi _ _ h1)
    · exact k.onHwi _ _ h1
  · exact k.onHwi _ _ h

end

theorem windows_rests : WindowKeeps (fun s => Rests true s.notice) (fun s => Rests false s.notice) where
  begins s h := by
    unfold State.beginWindow
    split
    · exact ⟨h.1, fun hr => by cases hr⟩
    · exact ⟨h.1, fun hr => by cases hr⟩
  settles s h := settle_rests h
  settlesIn s h := settle_rests h
  effect w s h := windowEffect_rests w h
  leaves s h := leavesWindow_rests h
  onHwi _ _ h := h
  onTurn _ h := h
  finish d a w s h := endWindow_rests d a w h
  raise f c s h := retreat_rests c (raiseFlag_rests f h)

theorem windows_canonical : WindowKeeps State.canonical State.canonical where
  begins s h := by
    unfold State.beginWindow
    split <;> exact h
  settles s h := settle_canonical h
  settlesIn s h := settle_canonical h
  effect w s h := windowEffect_canonical w h
  leaves s h := leavesWindow_canonical h
  onHwi _ _ h := h
  onTurn _ h := h
  finish d a w s h := endWindow_canonical d a w h
  raise f c s h := retreat_canonical c (raiseFlag_canonical f h)

theorem windows_pending (l : List Instr) : WindowKeeps (fun s => s.pending = l) (fun s => s.pending = l) where
  begins s h := by
    unfold State.beginWindow
    split <;> exact h
  settles s h := (settle_pending s).trans h
  settlesIn s h := (settle_pending s).trans h
  effect w s h := (windowEffect_pending w s).trans h
  leaves s h := by simpa using h
  onHwi _ _ h := h
  onTurn _ h := h
  finish d a w s h := (endWindow_pending d a w s).trans h
  raise f c s h := by simpa using h

/-- The work of the timing commands and of CONTROL_WINDOW keeps the outbox sound. -/
theorem timing_rests {s : State} (h : Rests true s.notice) :
    (∀ b, Rests true (s.doFrameReferenceSet b).notice) ∧ (∀ b l, Rests true (s.doFrameEvent b l).notice) ∧
      (∀ b l, Rests true (s.doBridgedFrameEvent b l).notice) ∧ Rests true s.doFrameMarkerMiss.notice ∧
      Rests true s.doFsyncAbsentInProve.notice ∧ (∀ e, Rests true (s.doStrayFsync e).notice) ∧
      (∀ n e o v, Rests true (s.doHclkGap n e o v).notice) ∧ ∀ o n, Rests true (s.doControlWindow o n).notice := by
  refine ⟨fun b => ?_, fun b l => ?_, fun b l => ?_, ?_, ?_, fun e => ?_, fun n e o v => ?_, fun o n => ?_⟩
  · unfold State.doFrameReferenceSet
    refine atTiming_keeps (steps_rests true) (P := fun s => Rests true s.notice) (fun s h => ?_) h
    exact h
  · exact atTiming_keeps (steps_rests true) (P := fun s => Rests true s.notice) (fun s h => markedFrame_rests b l h) h
  · exact atTiming_keeps (steps_rests true) (P := fun s => Rests true s.notice) (fun s h => bridgedFrame_rests b l h) h
  · exact atTiming_keeps (steps_rests true) (P := fun s => Rests true s.notice)
      (fun s h => loseTimingAtFrame_rests h) h
  · unfold State.doFsyncAbsentInProve State.abandonProving
    refine atTiming_keeps (steps_rests true) (P := fun s => Rests true s.notice) (fun s h => ?_) h
    exact h
  · unfold State.doStrayFsync
    split
    · refine atTiming_keeps (steps_rests true) (P := fun s => Rests true s.notice) (fun s h => ?_) h
      dsimp only
      split <;> exact h
    · exact h
  · exact doHclkGap_keeps windows_rests n e o v h
  · exact doControlWindow_keeps windows_rests o n h

/-- The work of the timing commands and of CONTROL_WINDOW keeps the tables canonical. -/
theorem timing_canonical {s : State} (h : s.canonical) :
    (∀ b, (s.doFrameReferenceSet b).canonical) ∧ (∀ b l, (s.doFrameEvent b l).canonical) ∧
      (∀ b l, (s.doBridgedFrameEvent b l).canonical) ∧ s.doFrameMarkerMiss.canonical ∧
      s.doFsyncAbsentInProve.canonical ∧ (∀ e, (s.doStrayFsync e).canonical) ∧
      (∀ n e o v, (s.doHclkGap n e o v).canonical) ∧ ∀ o n, (s.doControlWindow o n).canonical := by
  refine ⟨fun b => ?_, fun b l => ?_, fun b l => ?_, ?_, ?_, fun e => ?_, fun n e o v => ?_, fun o n => ?_⟩
  · unfold State.doFrameReferenceSet
    refine atTiming_keeps steps_canonical (fun s h => ?_) h
    exact h
  · exact atTiming_keeps steps_canonical (fun s h => markedFrame_canonical b l h) h
  · exact atTiming_keeps steps_canonical (fun s h => bridgedFrame_canonical b l h) h
  · exact atTiming_keeps steps_canonical (fun s h => loseTimingAtFrame_canonical h) h
  · unfold State.doFsyncAbsentInProve State.abandonProving
    refine atTiming_keeps steps_canonical (fun s h => ?_) h
    exact h
  · unfold State.doStrayFsync
    split
    · refine atTiming_keeps steps_canonical (fun s h => ?_) h
      dsimp only
      split <;> exact h
    · exact h
  · exact doHclkGap_keeps windows_canonical n e o v h
  · exact doControlWindow_keeps windows_canonical o n h

/-- The work of the timing commands and of CONTROL_WINDOW leaves the queue as it is. -/
theorem timing_pending (s : State) :
    (∀ b, (s.doFrameReferenceSet b).pending = s.pending) ∧ (∀ b l, (s.doFrameEvent b l).pending = s.pending) ∧
      (∀ b l, (s.doBridgedFrameEvent b l).pending = s.pending) ∧ s.doFrameMarkerMiss.pending = s.pending ∧
      s.doFsyncAbsentInProve.pending = s.pending ∧ (∀ e, (s.doStrayFsync e).pending = s.pending) ∧
      (∀ n e o v, (s.doHclkGap n e o v).pending = s.pending) ∧ ∀ o n, (s.doControlWindow o n).pending = s.pending := by
  have k := steps_pending s.pending
  refine ⟨fun b => ?_, fun b l => ?_, fun b l => ?_, ?_, ?_, fun e => ?_, fun n e o v => ?_, fun o n => ?_⟩
  · unfold State.doFrameReferenceSet
    refine atTiming_keeps k (P := fun t => t.pending = s.pending) (fun t h => ?_) rfl
    exact h
  · exact atTiming_keeps k (P := fun t => t.pending = s.pending) (fun t h => (markedFrame_pending b l t).trans h) rfl
  · exact atTiming_keeps k (P := fun t => t.pending = s.pending) (fun t h => (bridgedFrame_pending b l t).trans h) rfl
  · exact atTiming_keeps k (P := fun t => t.pending = s.pending) (fun t h => by simpa using h) rfl
  · unfold State.doFsyncAbsentInProve State.abandonProving
    refine atTiming_keeps k (P := fun t => t.pending = s.pending) (fun t h => ?_) rfl
    exact h
  · unfold State.doStrayFsync
    split
    · refine atTiming_keeps k (P := fun t => t.pending = s.pending) (fun t h => ?_) rfl
      dsimp only
      split <;> exact h
    · rfl
  · exact doHclkGap_keeps (windows_pending s.pending) n e o v rfl
  · exact doControlWindow_keeps (windows_pending s.pending) o n rfl

end Sys2Proof.Laws
end

