-- ==== Sys2Proof/Laws/Permitted.lean ====
section
/-! SUPPORT. What the station state permits: the operations that keep the station state, the timing state, the intake and
the stage of the decisions keep the emptiness of the contexts and of the outbox where the station state asks for it. -/

namespace Sys2Proof.Laws

set_option linter.all false

open Sys2Proof.Machine

/-- A station in station state σ and timing state τ with intake l and stage g of the Pool Controller's decisions, without
contexts and reservations out of ACTIVE and without notices out of LISTEN and ACTIVE. -/
structure Fixed (σ : StationState) (τ : Timing) (l : List Record) (g : PoolStage) (s : State) : Prop where
  station : s.life.station = σ
  timing : s.hwi.timing = τ
  intake : s.mapu.intake = l
  stage : s.pool.stage = g
  contexts : σ ≠ .active → s.table.contexts = [] ∧ s.table.reservations = []
  outbox : σ ≠ .listen → σ ≠ .active → s.notice.outbox = []

section
variable {σ : StationState} {τ : Timing} {l : List Record} {g : PoolStage}

theorem active_of_ctx {s : State} {c : CtxNum} {x : Context} (h : Fixed σ τ l g s) (hc : s.ctx c = some x) :
    σ = .active := by
  by_contra hn
  unfold State.ctx at hc
  rw [(h.contexts hn).1] at hc
  cases hc

theorem active_of_ctxFor {s : State} {p : Pos} {e : CtxNum × Context} (h : Fixed σ τ l g s)
    (hc : s.ctxFor p = some e) : σ = .active := by
  by_contra hn
  unfold State.ctxFor at hc
  rw [(h.contexts hn).1] at hc
  cases hc

theorem onHwi_fixed {s : State} {f : Hwi → Hwi} (hf : ∀ x, (f x).timing = x.timing) (h : Fixed σ τ l g s) :
    Fixed σ τ l g (s.onHwi f) :=
  ⟨h.station, (hf _).trans h.timing, h.intake, h.stage, h.contexts, h.outbox⟩

theorem onTable_fixed {s : State} {f : CtxTable → CtxTable}
    (hf : ∀ t, t.contexts = [] → t.reservations = [] → (f t).contexts = [] ∧ (f t).reservations = [])
    (h : Fixed σ τ l g s) : Fixed σ τ l g (s.onTable f) :=
  ⟨h.station, h.timing, h.intake, h.stage, fun hn => hf _ (h.contexts hn).1 (h.contexts hn).2, h.outbox⟩

theorem onEngines_fixed {s : State} {f : Engines → Engines} (h : Fixed σ τ l g s) : Fixed σ τ l g (s.onEngines f) :=
  ⟨h.station, h.timing, h.intake, h.stage, h.contexts, h.outbox⟩

theorem onReport_fixed {s : State} {f : ReportUnit → ReportUnit} (h : Fixed σ τ l g s) :
    Fixed σ τ l g (s.onReport f) :=
  ⟨h.station, h.timing, h.intake, h.stage, h.contexts, h.outbox⟩

theorem onNotice_fixed {s : State} {f : NoticeCtl → NoticeCtl} (hf : ∀ k, k.outbox = [] → (f k).outbox = [])
    (h : Fixed σ τ l g s) : Fixed σ τ l g (s.onNotice f) :=
  ⟨h.station, h.timing, h.intake, h.stage, h.contexts, fun h1 h2 => hf _ (h.outbox h1 h2)⟩

theorem onMap_fixed {s : State} {f : MapUnit → MapUnit} (hf : ∀ m, (f m).intake = m.intake) (h : Fixed σ τ l g s) :
    Fixed σ τ l g (s.onMap f) :=
  ⟨h.station, h.timing, (hf _).trans h.intake, h.stage, h.contexts, h.outbox⟩

theorem onPool_fixed {s : State} {f : Pool → Pool} (hf : ∀ q, (f q).stage = q.stage) (h : Fixed σ τ l g s) :
    Fixed σ τ l g (s.onPool f) :=
  ⟨h.station, h.timing, h.intake, (hf _).trans h.stage, h.contexts, h.outbox⟩

theorem onLife_fixed {s : State} {f : Life → Life} (hf : ∀ k, (f k).station = k.station) (h : Fixed σ τ l g s) :
    Fixed σ τ l g (s.onLife f) :=
  ⟨(hf _).trans h.station, h.timing, h.intake, h.stage, h.contexts, h.outbox⟩

theorem released_fixed {s : State} {r : List ReleasedSlot} (h : Fixed σ τ l g s) :
    Fixed σ τ l g { s with released := r } :=
  ⟨h.station, h.timing, h.intake, h.stage, h.contexts, h.outbox⟩

theorem requestReservation_fixed {p : Pos} {r : BidRole} {k : Nat} {s t : State}
    (ht : s.requestReservation p r k = some t) (ha : σ = .active) (h : Fixed σ τ l g s) : Fixed σ τ l g t := by
  subst ha
  unfold State.requestReservation at ht
  split at ht
  · cases ht
  · cases ht
    exact ⟨h.station, h.timing, h.intake, h.stage, fun hn => absurd rfl hn, h.outbox⟩

theorem count_fixed {s : State} (k : Counter) (h : Fixed σ τ l g s) :
    Fixed σ τ l g (s.count k) := by
  unfold State.count
  try dsimp only
  repeat' first
    | with_reducible exact h
    | with_reducible apply onReport_fixed
    | exact active_of_ctx h ‹_›
    | exact active_of_ctxFor h ‹_›
    | exact Or.inr (active_of_ctx h ‹_›)
    | exact Or.inr (active_of_ctxFor h ‹_›)
    | split

theorem putCtx_fixed {s : State} (c : CtxNum) (x : Context) (ha : σ = .active) (h : Fixed σ τ l g s) :
    Fixed σ τ l g (s.putCtx c x) := by
  subst ha
  exact ⟨h.station, h.timing, h.intake, h.stage, fun hn => absurd rfl hn, h.outbox⟩

theorem modCtx_fixed {s : State} (c : CtxNum) (f : Context → Context) (h : Fixed σ τ l g s) :
    Fixed σ τ l g (s.modCtx c f) := by
  unfold State.modCtx
  split
  · exact putCtx_fixed c _ (active_of_ctx h ‹_›) h
  · exact h

theorem modCtxFor_fixed {s : State} (p : Pos) (f : Context → Context) (h : Fixed σ τ l g s) :
    Fixed σ τ l g (s.modCtxFor p f) := by
  unfold State.modCtxFor
  split
  · exact putCtx_fixed _ _ (active_of_ctxFor h ‹_›) h
  · exact h

theorem countDriven_fixed {s : State} (c : CtxNum) (k : Counter) (h : Fixed σ τ l g s) :
    Fixed σ τ l g (s.countDriven c k) := by
  unfold State.countDriven
  repeat' first
    | with_reducible exact h
    | with_reducible apply count_fixed
    | exact active_of_ctx h ‹_›
    | exact active_of_ctxFor h ‹_›
    | exact Or.inr (active_of_ctx h ‹_›)
    | exact Or.inr (active_of_ctxFor h ‹_›)
    | split

theorem releaseReservation_fixed {s : State} (p : Pos) (h : Fixed σ τ l g s) :
    Fixed σ τ l g (s.releaseReservation p) := by
  exact onTable_fixed (fun t hc hr => by simp [hc, hr]) h

theorem recostReservation_fixed {s : State} (p : Pos) (n : Nat) (h : Fixed σ τ l g s) :
    Fixed σ τ l g (s.recostReservation p n) := by
  exact onTable_fixed (fun t hc hr => by simp [hc, hr]) h

theorem putRec_fixed {s : State} (p : Pos) (r : PosRecord) (h : Fixed σ τ l g s) :
    Fixed σ τ l g (s.putRec p r) := by
  unfold State.putRec
  try dsimp only
  repeat' first
    | with_reducible exact h
    | with_reducible refine onMap_fixed (fun _ => rfl) ?_
    | exact active_of_ctx h ‹_›
    | exact active_of_ctxFor h ‹_›
    | exact Or.inr (active_of_ctx h ‹_›)
    | exact Or.inr (active_of_ctxFor h ‹_›)
    | split

theorem putRoster_fixed {s : State} (q : Station) (e : RosterEntry) (h : Fixed σ τ l g s) :
    Fixed σ τ l g (s.putRoster q e) := by
  unfold State.putRoster
  try dsimp only
  repeat' first
    | with_reducible exact h
    | with_reducible refine onMap_fixed (fun _ => rfl) ?_
    | exact active_of_ctx h ‹_›
    | exact active_of_ctxFor h ‹_›
    | exact Or.inr (active_of_ctx h ‹_›)
    | exact Or.inr (active_of_ctxFor h ‹_›)
    | split

theorem setTakenMark_fixed {s : State} (p : Pos) (h : Fixed σ τ l g s) :
    Fixed σ τ l g (s.setTakenMark p) := by
  unfold State.setTakenMark
  try dsimp only
  repeat' first
    | with_reducible exact h
    | with_reducible refine onPool_fixed (fun _ => rfl) ?_
    | exact active_of_ctx h ‹_›
    | exact active_of_ctxFor h ‹_›
    | exact Or.inr (active_of_ctx h ‹_›)
    | exact Or.inr (active_of_ctxFor h ‹_›)
    | split

theorem clearTakenMark_fixed {s : State} (p : Pos) (h : Fixed σ τ l g s) :
    Fixed σ τ l g (s.clearTakenMark p) := by
  unfold State.clearTakenMark
  try dsimp only
  repeat' first
    | with_reducible exact h
    | with_reducible refine onPool_fixed (fun _ => rfl) ?_
    | exact active_of_ctx h ‹_›
    | exact active_of_ctxFor h ‹_›
    | exact Or.inr (active_of_ctx h ‹_›)
    | exact Or.inr (active_of_ctxFor h ‹_›)
    | split

theorem departed_fixed {s : State} (n : Notice) (h : Fixed σ τ l g s) :
    Fixed σ τ l g (s.departed n) := by
  unfold State.departed
  try dsimp only
  repeat' first
    | with_reducible exact h
    | with_reducible apply releaseReservation_fixed
    | with_reducible apply clearTakenMark_fixed
    | with_reducible refine onPool_fixed (fun _ => rfl) ?_
    | exact active_of_ctx h ‹_›
    | exact active_of_ctxFor h ‹_›
    | exact Or.inr (active_of_ctx h ‹_›)
    | exact Or.inr (active_of_ctxFor h ‹_›)
    | split

theorem joinOutbox_fixed {s : State} (n : Notice) (hp : σ = .listen ∨ σ = .active) (h : Fixed σ τ l g s) :
    Fixed σ τ l g (s.joinOutbox n) := by
  exact ⟨h.station, h.timing, h.intake, h.stage, h.contexts, fun h1 h2 => absurd hp (by simp [h1, h2])⟩

theorem place_fixed {s : State} (n : Notice) (hp : σ = .listen ∨ σ = .active) (h : Fixed σ τ l g s) :
    Fixed σ τ l g (s.place n) := by
  unfold State.place
  try dsimp only
  repeat' first
    | with_reducible exact h
    | with_reducible refine joinOutbox_fixed _ ?_ ?_
    | with_reducible apply count_fixed
    | with_reducible apply departed_fixed
    | refine onNotice_fixed (fun k hk => by simpa [NoticeCtl.defer] using hk) h
    | with_reducible refine onNotice_fixed (fun k hk => by simp [hk, replaceEntry]) ?_
    | exact hp
    | split

theorem removeNow_fixed {s : State} (f : Notice → Bool) (h : Fixed σ τ l g s) :
    Fixed σ τ l g (s.removeNow f) := by
  unfold State.removeNow
  refine foldl_inv (Fixed σ τ l g) _ (fun s e h => departed_fixed _ h) _ _ ?_
  exact onNotice_fixed (fun k hk => by simp [hk]) h

theorem removeNotices_fixed {s : State} (r : Removal) (h : Fixed σ τ l g s) :
    Fixed σ τ l g (s.removeNotices r) := removeNow_fixed _ (onNotice_fixed (fun _ hk => hk) h)

theorem leavesWindow_fixed {s : State} (hp : σ = .listen ∨ σ = .active) (h : Fixed σ τ l g s) :
    Fixed σ τ l g s.leavesWindow := by
  unfold State.leavesWindow
  split
  · exact h
  · refine foldl_inv (Fixed σ τ l g) _ (fun s r h => ?_) _ _ (onNotice_fixed (fun _ hk => hk) h)
    unfold State.takeRequest
    split
    · exact place_fixed _ hp h
    · exact removeNow_fixed _ h

theorem removeLost_fixed {s : State} (q : Station) (h : Fixed σ τ l g s) :
    Fixed σ τ l g (s.removeLost q) := by
  unfold State.removeLost
  try dsimp only
  repeat' first
    | with_reducible exact h
    | with_reducible apply removeNotices_fixed
    | exact active_of_ctx h ‹_›
    | exact active_of_ctxFor h ‹_›
    | exact Or.inr (active_of_ctx h ‹_›)
    | exact Or.inr (active_of_ctxFor h ‹_›)
    | split

theorem withdrawBid_fixed {s : State} (p : Pos) (h : Fixed σ τ l g s) :
    Fixed σ τ l g (s.withdrawBid p) := by
  unfold State.withdrawBid
  try dsimp only
  repeat' first
    | with_reducible exact h
    | with_reducible apply removeNotices_fixed
    | exact active_of_ctx h ‹_›
    | exact active_of_ctxFor h ‹_›
    | exact Or.inr (active_of_ctx h ‹_›)
    | exact Or.inr (active_of_ctxFor h ‹_›)
    | split

theorem placeReport_fixed {s : State} (p : Pos) (i : BitVec 8) (v : BitVec 24) (hp : σ = .listen ∨ σ = .active) (h : Fixed σ τ l g s) :
    Fixed σ τ l g (s.placeReport p i v) := by
  unfold State.placeReport
  repeat' first
    | with_reducible exact h
    | with_reducible refine place_fixed _ ?_ ?_
    | exact hp
    | split

theorem raiseFlag_fixed {s : State} (f : FaultFlag) (h : Fixed σ τ l g s) :
    Fixed σ τ l g (s.raiseFlag f) := by
  unfold State.raiseFlag
  dsimp only
  split
  · exact h
  · split
    · rename_i hp
      have hs : (s.onReport (fun r => r.withFlag f)).life.station = σ := h.station
      rw [State.participates, hs] at hp
      exact placeReport_fixed _ _ _ (by simpa using hp) (onReport_fixed h)
    · exact onReport_fixed h

theorem doJobTakeUp_fixed {s : State} (h : Fixed σ τ l g s) :
    Fixed σ τ l g (s.doJobTakeUp) := by
  unfold State.doJobTakeUp
  try dsimp only
  repeat' first
    | with_reducible exact h
    | with_reducible apply onEngines_fixed
    | exact active_of_ctx h ‹_›
    | exact active_of_ctxFor h ‹_›
    | exact Or.inr (active_of_ctx h ‹_›)
    | exact Or.inr (active_of_ctxFor h ‹_›)
    | split

theorem takeUps_fixed {s : State} (h : Fixed σ τ l g s) : Fixed σ τ l g s.takeUps :=
  doJobTakeUp_fixed (doJobTakeUp_fixed (doJobTakeUp_fixed (doJobTakeUp_fixed h)))

theorem postJob_fixed {s : State} (j : Job) (h : Fixed σ τ l g s) :
    Fixed σ τ l g (s.postJob j) :=
  onEngines_fixed (takeUps_fixed h)

theorem withdrawJobs_fixed {s : State} (f : Job → Bool) (h : Fixed σ τ l g s) :
    Fixed σ τ l g (s.withdrawJobs f) := by
  unfold State.withdrawJobs
  try dsimp only
  repeat' first
    | with_reducible exact h
    | with_reducible apply onEngines_fixed
    | exact active_of_ctx h ‹_›
    | exact active_of_ctxFor h ‹_›
    | exact Or.inr (active_of_ctx h ‹_›)
    | exact Or.inr (active_of_ctxFor h ‹_›)
    | split

theorem endShed_fixed {s : State} (p : Pos) (h : Fixed σ τ l g s) :
    Fixed σ τ l g (s.endShed p) := by
  unfold State.endShed
  try dsimp only
  repeat' first
    | with_reducible exact h
    | with_reducible refine onPool_fixed (fun _ => rfl) ?_
    | exact active_of_ctx h ‹_›
    | exact active_of_ctxFor h ‹_›
    | exact Or.inr (active_of_ctx h ‹_›)
    | exact Or.inr (active_of_ctxFor h ‹_›)
    | split

theorem releaseCtx_fixed {s : State} (c : CtxNum) (h : Fixed σ τ l g s) :
    Fixed σ τ l g (s.releaseCtx c) := by
  unfold State.releaseCtx
  split
  · exact h
  · dsimp only
    refine endShed_fixed _ (clearTakenMark_fixed _ (onTable_fixed (fun t hc hr => ?_) (removeNotices_fixed _ (withdrawJobs_fixed _ (released_fixed h)))))
    simp [hc, hr, Table.erase]

theorem releaseFor_fixed {s : State} (p : Pos) (h : Fixed σ τ l g s) :
    Fixed σ τ l g (s.releaseFor p) := by
  unfold State.releaseFor
  repeat' first
    | with_reducible exact h
    | with_reducible apply releaseCtx_fixed
    | exact active_of_ctx h ‹_›
    | exact active_of_ctxFor h ‹_›
    | exact Or.inr (active_of_ctx h ‹_›)
    | exact Or.inr (active_of_ctxFor h ‹_›)
    | split

theorem releaseUnnamed_fixed {s : State} (p : Pos) (h : Fixed σ τ l g s) :
    Fixed σ τ l g (s.releaseUnnamed p) := by
  unfold State.releaseUnnamed
  repeat' first
    | with_reducible exact h
    | with_reducible apply releaseFor_fixed
    | exact active_of_ctx h ‹_›
    | exact active_of_ctxFor h ‹_›
    | exact Or.inr (active_of_ctx h ‹_›)
    | exact Or.inr (active_of_ctxFor h ‹_›)
    | split

theorem allocate_fixed {s : State} (p : Pos) (st : CtxState) (r : Option Role) (ha : σ = .active) (h : Fixed σ τ l g s) :
    Fixed σ τ l g (s.allocate p st r) := by
  unfold State.allocate
  try dsimp only
  repeat' first
    | with_reducible exact h
    | with_reducible apply releaseReservation_fixed
    | with_reducible refine putCtx_fixed _ _ ?_ ?_
    | exact ha
    | exact Or.inr ha
    | split

theorem placeBid_fixed {s : State} (p : Pos) (r : BidRole) (ha : σ = .active) (h : Fixed σ τ l g s) :
    Fixed σ τ l g (s.placeBid p r) := by
  unfold State.placeBid
  split
  · exact h
  · split
    · split
      · exact h
      · rename_i ht
        have ht' := requestReservation_fixed ht ha h
        apply place_fixed _ (Or.inr ha)
        split
        · exact onPool_fixed (fun _ => rfl) ht'
        · exact ht'
    · exact h

theorem placeTaken_fixed {s : State} (p : Pos) (c : TakenCause) (h : Fixed σ τ l g s) :
    Fixed σ τ l g (s.placeTaken p c) := by
  unfold State.placeTaken
  repeat' first
    | with_reducible exact h
    | with_reducible apply setTakenMark_fixed
    | with_reducible refine place_fixed _ ?_ ?_
    | exact active_of_ctx h ‹_›
    | exact active_of_ctxFor h ‹_›
    | exact Or.inr (active_of_ctx h ‹_›)
    | exact Or.inr (active_of_ctxFor h ‹_›)
    | split

theorem withdrawUnfit_fixed {s : State} (p : Pos) (h : Fixed σ τ l g s) :
    Fixed σ τ l g (s.withdrawUnfit p) := by
  unfold State.withdrawUnfit
  repeat' first
    | with_reducible exact h
    | with_reducible apply withdrawBid_fixed
    | exact active_of_ctx h ‹_›
    | exact active_of_ctxFor h ‹_›
    | exact Or.inr (active_of_ctx h ‹_›)
    | exact Or.inr (active_of_ctxFor h ‹_›)
    | split

theorem keepOrWithdraw_fixed {s : State} (p : Pos) (h : Fixed σ τ l g s) :
    Fixed σ τ l g (s.keepOrWithdraw p) := by
  unfold State.keepOrWithdraw
  try dsimp only
  repeat' first
    | with_reducible exact h
    | with_reducible apply recostReservation_fixed
    | with_reducible apply withdrawBid_fixed
    | exact active_of_ctx h ‹_›
    | exact active_of_ctxFor h ‹_›
    | exact Or.inr (active_of_ctx h ‹_›)
    | exact Or.inr (active_of_ctxFor h ‹_›)
    | split

theorem placeShedderHold_fixed {s : State} (p : Pos) (h : Fixed σ τ l g s) :
    Fixed σ τ l g (s.placeShedderHold p) := by
  unfold State.placeShedderHold
  repeat' first
    | with_reducible exact h
    | with_reducible refine place_fixed _ ?_ ?_
    | exact active_of_ctx h ‹_›
    | exact active_of_ctxFor h ‹_›
    | exact Or.inr (active_of_ctx h ‹_›)
    | exact Or.inr (active_of_ctxFor h ‹_›)
    | split

theorem shedEnds_fixed {s : State} (p : Pos) (old new : PosRecord) (h : Fixed σ τ l g s) :
    Fixed σ τ l g (s.shedEnds p old new) := by
  unfold State.shedEnds
  try dsimp only
  repeat' first
    | with_reducible exact h
    | with_reducible apply endShed_fixed
    | exact active_of_ctx h ‹_›
    | exact active_of_ctxFor h ‹_›
    | exact Or.inr (active_of_ctx h ‹_›)
    | exact Or.inr (active_of_ctxFor h ‹_›)
    | split

theorem answerChange_fixed {s : State} (p : Pos) (old new : PosRecord) (ha : σ = .active) (h : Fixed σ τ l g s) :
    Fixed σ τ l g (s.answerChange p old new) := by
  unfold State.answerChange
  try dsimp only
  repeat' first
    | with_reducible exact h
    | with_reducible apply placeShedderHold_fixed
    | with_reducible apply placeTaken_fixed
    | with_reducible refine placeBid_fixed _ _ ?_ ?_
    | exact ha
    | exact Or.inr ha
    | split

theorem poolReact_fixed {s : State} (p : Pos) (old : PosRecord) (h : Fixed σ τ l g s) :
    Fixed σ τ l g (s.poolReact p old) := by
  have hl : ((s.shedEnds p old (s.recAt p)).withdrawUnfit p).life = s.life := by simp
  have h1 := withdrawUnfit_fixed p (shedEnds_fixed p old (s.recAt p) h)
  unfold State.poolReact
  dsimp only
  split
  · exact h
  · split
    · rename_i hi
      have hi' : σ = .active := by
        rw [State.isActive, hl, h.station] at hi
        simpa using hi
      exact answerChange_fixed p old _ hi' h1
    · exact h1

theorem shedUpdate_fixed {s : State} (h : Fixed σ τ l g s) :
    Fixed σ τ l g (s.shedUpdate) := by
  unfold State.shedUpdate
  try dsimp only
  repeat' first
    | with_reducible exact h
    | with_reducible refine onPool_fixed (fun _ => rfl) ?_
    | exact active_of_ctx h ‹_›
    | exact active_of_ctxFor h ‹_›
    | exact Or.inr (active_of_ctx h ‹_›)
    | exact Or.inr (active_of_ctxFor h ‹_›)
    | split

theorem decideShed_fixed {s : State} (ha : σ = .active) (h : Fixed σ τ l g s) :
    Fixed σ τ l g (s.decideShed) := by
  unfold State.decideShed
  try dsimp only
  repeat' first
    | with_reducible exact h
    | with_reducible refine place_fixed _ ?_ ?_
    | with_reducible refine onPool_fixed (fun _ => rfl) ?_
    | exact ha
    | exact Or.inr ha
    | split

theorem placeTakensDue_fixed {s : State} (ha : σ = .active) (h : Fixed σ τ l g s) :
    Fixed σ τ l g (s.placeTakensDue) := by
  unfold State.placeTakensDue
  refine foldl_inv (Fixed σ τ l g) _ (fun s a h => ?_) _ _ ?_
  all_goals
  try dsimp only
  repeat' first
      | with_reducible exact h
      | with_reducible apply placeTaken_fixed
      | exact ha
      | exact Or.inr ha
      | split

theorem shadowFill_fixed {s : State} (ha : σ = .active) (h : Fixed σ τ l g s) :
    Fixed σ τ l g (s.shadowFill) := by
  unfold State.shadowFill
  try dsimp only
  repeat' first
    | with_reducible exact h
    | with_reducible refine placeBid_fixed _ _ ?_ ?_
    | exact ha
    | exact Or.inr ha
    | split

theorem census_fixed {s : State} (ha : σ = .active) (h : Fixed σ τ l g s) :
    Fixed σ τ l g (s.census) := by
  unfold State.census
  try dsimp only
  repeat' first
    | with_reducible exact h
    | with_reducible refine place_fixed _ ?_ ?_
    | with_reducible refine onPool_fixed (fun _ => rfl) ?_
    | exact ha
    | exact Or.inr ha
    | split

theorem examineLosses_fixed {s : State} (hp : σ = .listen ∨ σ = .active) (h : Fixed σ τ l g s) :
    Fixed σ τ l g (s.examineLosses) := by
  unfold State.examineLosses
  refine foldl_inv (Fixed σ τ l g) _ (fun s a h => ?_) _ _ ?_
  all_goals
  try dsimp only
  repeat' first
      | with_reducible exact h
      | with_reducible refine place_fixed _ ?_ ?_
      | exact hp
      | split

theorem ageRoster_fixed {s : State} (h : Fixed σ τ l g s) :
    Fixed σ τ l g (s.ageRoster) := by
  exact onMap_fixed (fun _ => rfl) h

theorem doSwitchFrame_fixed {s : State} (c : CtxNum) (h : Fixed σ τ l g s) :
    Fixed σ τ l g (s.doSwitchFrame c) := by
  unfold State.doSwitchFrame
  repeat' first
    | with_reducible exact h
    | with_reducible refine putCtx_fixed _ _ ?_ ?_
    | with_reducible apply releaseCtx_fixed
    | exact active_of_ctx h ‹_›
    | exact active_of_ctxFor h ‹_›
    | exact Or.inr (active_of_ctx h ‹_›)
    | exact Or.inr (active_of_ctxFor h ‹_›)
    | split

theorem switchContexts_fixed {s : State} (h : Fixed σ τ l g s) :
    Fixed σ τ l g (s.switchContexts) := by
  unfold State.switchContexts
  refine foldl_inv (Fixed σ τ l g) _ (fun s a h => ?_) _ _ ?_
  all_goals
  try dsimp only
  repeat' first
      | with_reducible exact h
      | with_reducible apply doSwitchFrame_fixed
      | exact active_of_ctx h ‹_›
      | exact active_of_ctxFor h ‹_›
      | exact Or.inr (active_of_ctx h ‹_›)
      | exact Or.inr (active_of_ctxFor h ‹_›)
      | split

theorem doWarmUpEnd_fixed {s : State} (c : CtxNum) (h : Fixed σ τ l g s) :
    Fixed σ τ l g (s.doWarmUpEnd c) := by
  unfold State.doWarmUpEnd
  try dsimp only
  repeat' first
    | with_reducible exact h
    | with_reducible refine putCtx_fixed _ _ ?_ ?_
    | with_reducible apply placeTaken_fixed
    | exact active_of_ctx h ‹_›
    | exact active_of_ctxFor h ‹_›
    | exact Or.inr (active_of_ctx h ‹_›)
    | exact Or.inr (active_of_ctxFor h ‹_›)
    | split

theorem answerUnknown_fixed {s : State} (i a : BitVec 8) (hp : σ = .listen ∨ σ = .active) (h : Fixed σ τ l g s) :
    Fixed σ τ l g (s.answerUnknown i a) := by
  unfold State.answerUnknown
  repeat' first
    | with_reducible exact h
    | with_reducible refine placeReport_fixed _ _ _ ?_ ?_
    | exact hp
    | split

theorem answerSummary_fixed {s : State} (a : BitVec 8) (hp : σ = .listen ∨ σ = .active) (h : Fixed σ τ l g s) :
    Fixed σ τ l g (s.answerSummary a) := by
  unfold State.answerSummary
  repeat' first
    | with_reducible exact h
    | with_reducible refine placeReport_fixed _ _ _ ?_ ?_
    | with_reducible refine answerUnknown_fixed _ _ ?_ ?_
    | exact hp
    | split

theorem answerFlags_fixed {s : State} (hp : σ = .listen ∨ σ = .active) (h : Fixed σ τ l g s) :
    Fixed σ τ l g (s.answerFlags) := by
  unfold State.answerFlags
  repeat' first
    | with_reducible exact h
    | with_reducible refine placeReport_fixed _ _ _ ?_ ?_
    | exact hp
    | split

theorem answerClearFlags_fixed {s : State} (hp : σ = .listen ∨ σ = .active) (h : Fixed σ τ l g s) :
    Fixed σ τ l g (s.answerClearFlags) := by
  unfold State.answerClearFlags
  try dsimp only
  repeat' first
    | with_reducible exact h
    | with_reducible refine placeReport_fixed _ _ _ ?_ ?_
    | with_reducible apply onReport_fixed
    | exact hp
    | split

theorem answerCounter_fixed {s : State} (i : BitVec 8) (k : Fin 32) (hp : σ = .listen ∨ σ = .active) (h : Fixed σ τ l g s) :
    Fixed σ τ l g (s.answerCounter i k) := by
  unfold State.answerCounter
  repeat' first
    | with_reducible exact h
    | with_reducible refine placeReport_fixed _ _ _ ?_ ?_
    | exact hp
    | split

theorem answerPosition_fixed {s : State} (a : BitVec 8) (hp : σ = .listen ∨ σ = .active) (h : Fixed σ τ l g s) :
    Fixed σ τ l g (s.answerPosition a) := by
  unfold State.answerPosition
  try dsimp only
  repeat' first
    | with_reducible exact h
    | with_reducible refine placeReport_fixed _ _ _ ?_ ?_
    | with_reducible apply onReport_fixed
    | exact hp
    | split

theorem doRecordSwitchFrame_fixed {s : State} (p : Pos) (h : Fixed σ τ l g s) :
    Fixed σ τ l g (s.doRecordSwitchFrame p) := by
  unfold State.doRecordSwitchFrame
  repeat' first
    | with_reducible exact h
    | with_reducible apply putRec_fixed
    | exact active_of_ctx h ‹_›
    | exact active_of_ctxFor h ‹_›
    | exact Or.inr (active_of_ctx h ‹_›)
    | exact Or.inr (active_of_ctxFor h ‹_›)
    | split

theorem switchRecords_fixed {s : State} (h : Fixed σ τ l g s) :
    Fixed σ τ l g (s.switchRecords) := by
  unfold State.switchRecords
  refine foldl_inv (Fixed σ τ l g) _ (fun s a h => ?_) _ _ ?_
  all_goals
  try dsimp only
  repeat' first
      | with_reducible exact h
      | with_reducible apply doRecordSwitchFrame_fixed
      | exact active_of_ctx h ‹_›
      | exact active_of_ctxFor h ‹_›
      | exact Or.inr (active_of_ctx h ‹_›)
      | exact Or.inr (active_of_ctxFor h ‹_›)
      | split

theorem takeSwitchFrames_fixed {s : State} (h : Fixed σ τ l g s) :
    Fixed σ τ l g (s.takeSwitchFrames) := by
  unfold State.takeSwitchFrames
  repeat' first
    | with_reducible exact h
    | with_reducible apply switchContexts_fixed
    | with_reducible apply switchRecords_fixed
    | exact active_of_ctx h ‹_›
    | exact active_of_ctxFor h ‹_›
    | exact Or.inr (active_of_ctx h ‹_›)
    | exact Or.inr (active_of_ctxFor h ‹_›)
    | split

theorem shedLapse_fixed {s : State} (p : Pos) (h : Fixed σ τ l g s) :
    Fixed σ τ l g (s.shedLapse p) := by
  unfold State.shedLapse
  try dsimp only
  repeat' first
    | with_reducible exact h
    | with_reducible refine onPool_fixed (fun _ => rfl) ?_
    | exact active_of_ctx h ‹_›
    | exact active_of_ctxFor h ‹_›
    | exact Or.inr (active_of_ctx h ‹_›)
    | exact Or.inr (active_of_ctxFor h ‹_›)
    | split

theorem closeWindow_fixed {s : State} (p : Pos) (h : Fixed σ τ l g s) :
    Fixed σ τ l g (s.closeWindow p) := by
  unfold State.closeWindow
  try dsimp only
  repeat' first
    | with_reducible exact h
    | with_reducible apply putRec_fixed
    | with_reducible apply count_fixed
    | with_reducible apply shedLapse_fixed
    | exact active_of_ctx h ‹_›
    | exact active_of_ctxFor h ‹_›
    | exact Or.inr (active_of_ctx h ‹_›)
    | exact Or.inr (active_of_ctxFor h ‹_›)
    | split

theorem closeWindows_fixed {s : State} (h : Fixed σ τ l g s) :
    Fixed σ τ l g (s.closeWindows) := by
  unfold State.closeWindows
  refine foldl_inv (Fixed σ τ l g) _ (fun s a h => ?_) _ _ ?_
  all_goals
  try dsimp only
  repeat' first
      | with_reducible exact h
      | with_reducible apply closeWindow_fixed
      | with_reducible apply poolReact_fixed
      | exact active_of_ctx h ‹_›
      | exact active_of_ctxFor h ‹_›
      | exact Or.inr (active_of_ctx h ‹_›)
      | exact Or.inr (active_of_ctxFor h ‹_›)
      | split

theorem beginRecord_fixed {s : State} (r : Record) (h : Fixed σ τ l g s) :
    Fixed σ τ l g (s.beginRecord r) := by
  unfold State.beginRecord
  try dsimp only
  repeat' first
    | with_reducible exact h
    | with_reducible apply takeSwitchFrames_fixed
    | with_reducible apply closeWindows_fixed
    | with_reducible refine onMap_fixed (fun _ => rfl) ?_
    | exact active_of_ctx h ‹_›
    | exact active_of_ctxFor h ‹_›
    | exact Or.inr (active_of_ctx h ‹_›)
    | exact Or.inr (active_of_ctxFor h ‹_›)
    | split

theorem hearStation_fixed {s : State} (q : Station) (h : Fixed σ τ l g s) :
    Fixed σ τ l g (s.hearStation q) := by
  unfold State.hearStation
  try dsimp only
  repeat' first
    | with_reducible exact h
    | with_reducible apply putRoster_fixed
    | with_reducible apply removeLost_fixed
    | exact active_of_ctx h ‹_›
    | exact active_of_ctxFor h ‹_›
    | exact Or.inr (active_of_ctx h ‹_›)
    | exact Or.inr (active_of_ctxFor h ‹_›)
    | split

theorem removeStation_fixed {s : State} (q : Station) (p : Pos) (h : Fixed σ τ l g s) :
    Fixed σ τ l g (s.removeStation q p) := by
  unfold State.removeStation
  try dsimp only
  repeat' first
    | with_reducible exact h
    | with_reducible apply putRec_fixed
    | with_reducible apply count_fixed
    | with_reducible apply modCtxFor_fixed
    | with_reducible apply releaseUnnamed_fixed
    | with_reducible apply poolReact_fixed
    | exact active_of_ctx h ‹_›
    | exact active_of_ctxFor h ‹_›
    | exact Or.inr (active_of_ctx h ‹_›)
    | exact Or.inr (active_of_ctxFor h ‹_›)
    | split

theorem sweepPositions_fixed {s : State} (q : Station) (k : Nat) (h : Fixed σ τ l g s) :
    Fixed σ τ l g (s.sweepPositions q k) := by
  unfold State.sweepPositions
  refine foldl_inv (Fixed σ τ l g) _ (fun s a h => ?_) _ _ ?_
  all_goals
  try dsimp only
  repeat' first
      | with_reducible exact h
      | with_reducible apply removeStation_fixed
      | exact active_of_ctx h ‹_›
      | exact active_of_ctxFor h ‹_›
      | exact Or.inr (active_of_ctx h ‹_›)
      | exact Or.inr (active_of_ctxFor h ‹_›)
      | split

theorem startSweep_fixed {s : State} (q : Station) (h : Fixed σ τ l g s) :
    Fixed σ τ l g (s.startSweep q) := by
  unfold State.startSweep
  try dsimp only
  repeat' first
    | with_reducible exact h
    | with_reducible apply sweepPositions_fixed
    | with_reducible refine onMap_fixed (fun _ => rfl) ?_
    | exact active_of_ctx h ‹_›
    | exact active_of_ctxFor h ‹_›
    | exact Or.inr (active_of_ctx h ‹_›)
    | exact Or.inr (active_of_ctxFor h ‹_›)
    | split

theorem takeOver_fixed {s : State} (t : Station) (p : Pos) (b : BlockIndex) (h : Fixed σ τ l g s) :
    Fixed σ τ l g (s.takeOver t p b) := by
  unfold State.takeOver
  try dsimp only
  repeat' first
    | with_reducible exact h
    | with_reducible apply putRec_fixed
    | with_reducible apply count_fixed
    | with_reducible apply modCtxFor_fixed
    | with_reducible apply releaseUnnamed_fixed
    | with_reducible apply poolReact_fixed
    | exact active_of_ctx h ‹_›
    | exact active_of_ctxFor h ‹_›
    | exact Or.inr (active_of_ctx h ‹_›)
    | exact Or.inr (active_of_ctxFor h ‹_›)
    | split

theorem strayTaken_fixed {s : State} (t : Station) (p : Pos) (o : Bool) (h : Fixed σ τ l g s) :
    Fixed σ τ l g (s.strayTaken t p o) := by
  unfold State.strayTaken
  try dsimp only
  repeat' first
    | with_reducible exact h
    | with_reducible apply count_fixed
    | with_reducible apply removeStation_fixed
    | with_reducible apply releaseFor_fixed
    | exact active_of_ctx h ‹_›
    | exact active_of_ctxFor h ‹_›
    | exact Or.inr (active_of_ctx h ‹_›)
    | exact Or.inr (active_of_ctxFor h ‹_›)
    | split

theorem applyTakenTo_fixed {s : State} (p : Pos) (k : CallTag) (b : BlockIndex) (t : Station) (o : Bool) (h : Fixed σ τ l g s) :
    Fixed σ τ l g (s.applyTakenTo p k b t o) := by
  unfold State.applyTakenTo
  try dsimp only
  repeat' first
    | with_reducible exact h
    | with_reducible apply clearTakenMark_fixed
    | with_reducible apply takeOver_fixed
    | with_reducible apply strayTaken_fixed
    | exact active_of_ctx h ‹_›
    | exact active_of_ctxFor h ‹_›
    | exact Or.inr (active_of_ctx h ‹_›)
    | exact Or.inr (active_of_ctxFor h ‹_›)
    | split

theorem clearPosition_fixed {s : State} (p : Pos) (h : Fixed σ τ l g s) :
    Fixed σ τ l g (s.clearPosition p) := by
  unfold State.clearPosition
  try dsimp only
  repeat' first
    | with_reducible exact h
    | with_reducible apply putRec_fixed
    | with_reducible apply releaseFor_fixed
    | with_reducible apply removeNotices_fixed
    | with_reducible apply poolReact_fixed
    | exact active_of_ctx h ‹_›
    | exact active_of_ctxFor h ‹_›
    | exact Or.inr (active_of_ctx h ‹_›)
    | exact Or.inr (active_of_ctxFor h ‹_›)
    | split

theorem applyClearTo_fixed {s : State} (p : Pos) (k : CallTag) (h : Fixed σ τ l g s) :
    Fixed σ τ l g (s.applyClearTo p k) := by
  unfold State.applyClearTo
  try dsimp only
  repeat' first
    | with_reducible exact h
    | with_reducible apply clearPosition_fixed
    | with_reducible apply count_fixed
    | exact active_of_ctx h ‹_›
    | exact active_of_ctxFor h ‹_›
    | exact Or.inr (active_of_ctx h ‹_›)
    | exact Or.inr (active_of_ctxFor h ‹_›)
    | split

theorem applyOfferTo_fixed {s : State} (p : Pos) (k : CallTag) (y : Law) (ms : ModeSet) (m : Mode) (q : BitVec 4) (h : Fixed σ τ l g s) :
    Fixed σ τ l g (s.applyOfferTo p k y ms m q) := by
  unfold State.applyOfferTo
  dsimp only
  have h1 : Fixed σ τ l g (if (s.recAt p).state ≠ .free then (s.clearPosition p).count .offersOverHeld else s) := by
    split
    · exact count_fixed _ (clearPosition_fixed p h)
    · exact h
  generalize (if (s.recAt p).state ≠ .free then (s.clearPosition p).count .offersOverHeld else s) = t at h1 ⊢
  have h2 := poolReact_fixed p (t.recAt p)
    (putRec_fixed p (PosRecord.offer k y ms m q (t.mapu.mapTime + t.claimLength)) h1)
  split
  · rename_i hi
    rw [State.isActive, h2.station] at hi
    exact placeBid_fixed p .offer (by simpa using hi) h2
  · exact h2

theorem endFill_fixed {s : State} (p : Pos) (h : Fixed σ τ l g s) :
    Fixed σ τ l g (s.endFill p) := by
  unfold State.endFill
  try dsimp only
  repeat' first
    | with_reducible exact h
    | with_reducible refine onPool_fixed (fun _ => rfl) ?_
    | exact active_of_ctx h ‹_›
    | exact active_of_ctxFor h ‹_›
    | exact Or.inr (active_of_ctx h ‹_›)
    | exact Or.inr (active_of_ctxFor h ‹_›)
    | split

theorem allocateFor_fixed {s : State} (p : Pos) (o : BidOutcome) (h : Fixed σ τ l g s) :
    Fixed σ τ l g (s.allocateFor p o) := by
  unfold State.allocateFor
  split
  · rename_i hi
    rw [State.isActive, h.station] at hi
    have hi' : σ = .active := by simpa using hi
    split
    · exact allocate_fixed _ _ _ hi' h
    · exact allocate_fixed _ _ _ hi' h
    · exact allocate_fixed _ _ _ hi' h
    · exact h
  · exact h

theorem bidFits_fixed {s : State} (p : Pos) (q : Station) (o : BidOutcome) (w : Bool) (h : Fixed σ τ l g s) :
    Fixed σ τ l g (s.bidFits p q o w) := by
  unfold State.bidFits
  try dsimp only
  repeat' first
    | with_reducible exact h
    | with_reducible apply putRec_fixed
    | with_reducible apply allocateFor_fixed
    | with_reducible apply endFill_fixed
    | with_reducible apply keepOrWithdraw_fixed
    | with_reducible apply poolReact_fixed
    | exact active_of_ctx h ‹_›
    | exact active_of_ctxFor h ‹_›
    | exact Or.inr (active_of_ctx h ‹_›)
    | exact Or.inr (active_of_ctxFor h ‹_›)
    | split

theorem bidStale_fixed {s : State} (p : Pos) (w : Bool) (h : Fixed σ τ l g s) :
    Fixed σ τ l g (s.bidStale p w) := by
  unfold State.bidStale
  try dsimp only
  repeat' first
    | with_reducible exact h
    | with_reducible apply count_fixed
    | with_reducible apply releaseReservation_fixed
    | with_reducible apply endFill_fixed
    | exact active_of_ctx h ‹_›
    | exact active_of_ctxFor h ‹_›
    | exact Or.inr (active_of_ctx h ‹_›)
    | exact Or.inr (active_of_ctxFor h ‹_›)
    | split

theorem applyBidTo_fixed {s : State} (p : Pos) (k : CallTag) (r : BidRole) (q : Station) (w : Bool) (h : Fixed σ τ l g s) :
    Fixed σ τ l g (s.applyBidTo p k r q w) := by
  unfold State.applyBidTo
  repeat' first
    | with_reducible exact h
    | with_reducible apply bidStale_fixed
    | with_reducible apply bidFits_fixed
    | exact active_of_ctx h ‹_›
    | exact active_of_ctxFor h ‹_›
    | exact Or.inr (active_of_ctx h ‹_›)
    | exact Or.inr (active_of_ctxFor h ‹_›)
    | split

theorem applyShedTo_fixed {s : State} (p : Pos) (k : CallTag) (q : Station) (w : Bool) (h : Fixed σ τ l g s) :
    Fixed σ τ l g (s.applyShedTo p k q w) := by
  unfold State.applyShedTo
  try dsimp only
  repeat' first
    | with_reducible exact h
    | with_reducible apply putRec_fixed
    | with_reducible apply poolReact_fixed
    | with_reducible apply count_fixed
    | with_reducible apply endShed_fixed
    | exact active_of_ctx h ‹_›
    | exact active_of_ctxFor h ‹_›
    | exact Or.inr (active_of_ctx h ‹_›)
    | exact Or.inr (active_of_ctxFor h ‹_›)
    | split

theorem holdRestates_fixed {s : State} (p : Pos) (k : CallTag) (y : Law) (ms : ModeSet) (m : Mode) (b : BlockIndex) (sh : Option Station) (h : Fixed σ τ l g s) :
    Fixed σ τ l g (s.holdRestates p k y ms m b sh) := by
  unfold State.holdRestates
  try dsimp only
  repeat' first
    | with_reducible exact h
    | with_reducible apply putRec_fixed
    | with_reducible apply count_fixed
    | with_reducible apply poolReact_fixed
    | exact active_of_ctx h ‹_›
    | exact active_of_ctxFor h ‹_›
    | exact Or.inr (active_of_ctx h ‹_›)
    | exact Or.inr (active_of_ctxFor h ‹_›)
    | split

theorem holdTeaches_fixed {s : State} (p : Pos) (k : CallTag) (y : Law) (ms : ModeSet) (m : Mode) (b : BlockIndex) (sh : Option Station) (q : Station) (h : Fixed σ τ l g s) :
    Fixed σ τ l g (s.holdTeaches p k y ms m b sh q) := by
  unfold State.holdTeaches
  try dsimp only
  repeat' first
    | with_reducible exact h
    | with_reducible apply putRec_fixed
    | with_reducible apply poolReact_fixed
    | exact active_of_ctx h ‹_›
    | exact active_of_ctxFor h ‹_›
    | exact Or.inr (active_of_ctx h ‹_›)
    | exact Or.inr (active_of_ctxFor h ‹_›)
    | split

theorem holdConflicts_fixed {s : State} (p : Pos) (q : Station) (w : Bool) (h : Fixed σ τ l g s) :
    Fixed σ τ l g (s.holdConflicts p q w) := by
  unfold State.holdConflicts
  try dsimp only
  repeat' first
    | with_reducible exact h
    | with_reducible apply count_fixed
    | with_reducible apply removeStation_fixed
    | with_reducible apply releaseFor_fixed
    | exact active_of_ctx h ‹_›
    | exact active_of_ctxFor h ‹_›
    | exact Or.inr (active_of_ctx h ‹_›)
    | exact Or.inr (active_of_ctxFor h ‹_›)
    | split

theorem applyHoldTo_fixed {s : State} (p : Pos) (k : CallTag) (y : Law) (ms : ModeSet) (m : Mode) (b : BlockIndex) (sh : Option Station) (q : Station) (w : Bool) (h : Fixed σ τ l g s) :
    Fixed σ τ l g (s.applyHoldTo p k y ms m b sh q w) := by
  unfold State.applyHoldTo
  try dsimp only
  repeat' first
    | with_reducible exact h
    | with_reducible apply holdRestates_fixed
    | with_reducible apply count_fixed
    | with_reducible apply holdTeaches_fixed
    | with_reducible apply holdConflicts_fixed
    | exact active_of_ctx h ‹_›
    | exact active_of_ctxFor h ‹_›
    | exact Or.inr (active_of_ctx h ‹_›)
    | exact Or.inr (active_of_ctxFor h ‹_›)
    | split

theorem applyPresentTo_fixed {s : State} (v : LastValues) (f : Bool) (q : Station) (w : Bool) (h : Fixed σ τ l g s) :
    Fixed σ τ l g (s.applyPresentTo v f q w) := by
  unfold State.applyPresentTo
  try dsimp only
  repeat' first
    | with_reducible exact h
    | with_reducible apply putRoster_fixed
    | with_reducible apply startSweep_fixed
    | exact active_of_ctx h ‹_›
    | exact active_of_ctxFor h ‹_›
    | exact Or.inr (active_of_ctx h ‹_›)
    | exact Or.inr (active_of_ctxFor h ‹_›)
    | split

theorem countGood_fixed {s : State} (c : CtxNum) (h : Fixed σ τ l g s) :
    Fixed σ τ l g (s.countGood c) := by
  unfold State.countGood
  try dsimp only
  repeat' first
    | with_reducible exact h
    | with_reducible apply modCtx_fixed
    | with_reducible apply countDriven_fixed
    | exact active_of_ctx h ‹_›
    | exact active_of_ctxFor h ‹_›
    | exact Or.inr (active_of_ctx h ‹_›)
    | exact Or.inr (active_of_ctxFor h ‹_›)
    | split

theorem countBad_fixed {s : State} (c : CtxNum) (h : Fixed σ τ l g s) :
    Fixed σ τ l g (s.countBad c) := by
  unfold State.countBad
  try dsimp only
  repeat' first
    | with_reducible exact h
    | with_reducible apply modCtx_fixed
    | with_reducible apply countDriven_fixed
    | exact active_of_ctx h ‹_›
    | exact active_of_ctxFor h ‹_›
    | exact Or.inr (active_of_ctx h ‹_›)
    | exact Or.inr (active_of_ctxFor h ‹_›)
    | split

theorem countMissing_fixed {s : State} (c : CtxNum) (h : Fixed σ τ l g s) :
    Fixed σ τ l g (s.countMissing c) := by
  unfold State.countMissing
  try dsimp only
  repeat' first
    | with_reducible exact h
    | with_reducible apply modCtx_fixed
    | with_reducible apply countDriven_fixed
    | exact active_of_ctx h ‹_›
    | exact active_of_ctxFor h ‹_›
    | exact Or.inr (active_of_ctx h ‹_›)
    | exact Or.inr (active_of_ctxFor h ‹_›)
    | split

theorem countDiscarded_fixed {s : State} (c : CtxNum) (h : Fixed σ τ l g s) :
    Fixed σ τ l g (s.countDiscarded c) := by
  unfold State.countDiscarded
  try dsimp only
  repeat' first
    | with_reducible exact h
    | with_reducible apply modCtx_fixed
    | with_reducible apply countDriven_fixed
    | exact active_of_ctx h ‹_›
    | exact active_of_ctxFor h ‹_›
    | exact Or.inr (active_of_ctx h ‹_›)
    | exact Or.inr (active_of_ctxFor h ‹_›)
    | split

theorem countTrimmed_fixed {s : State} (c : CtxNum) (h : Fixed σ τ l g s) :
    Fixed σ τ l g (s.countTrimmed c) := by
  unfold State.countTrimmed
  try dsimp only
  repeat' first
    | with_reducible exact h
    | with_reducible apply modCtx_fixed
    | with_reducible apply countDriven_fixed
    | exact active_of_ctx h ‹_›
    | exact active_of_ctxFor h ‹_›
    | exact Or.inr (active_of_ctx h ‹_›)
    | exact Or.inr (active_of_ctxFor h ‹_›)
    | split

theorem postDecode_fixed {s : State} (c : CtxNum) (x : Context) (r : ParcelResult) (h : Fixed σ τ l g s) :
    Fixed σ τ l g (s.postDecode c x r) := by
  unfold State.postDecode
  try dsimp only
  repeat' first
    | with_reducible exact h
    | with_reducible apply postJob_fixed
    | with_reducible apply modCtx_fixed
    | exact active_of_ctx h ‹_›
    | exact active_of_ctxFor h ‹_›
    | exact Or.inr (active_of_ctx h ‹_›)
    | exact Or.inr (active_of_ctxFor h ‹_›)
    | split

theorem bumpNeeds_fixed {s : State} (c : CtxNum) (h : Fixed σ τ l g s) :
    Fixed σ τ l g (s.bumpNeeds c) := by
  unfold State.bumpNeeds
  try dsimp only
  repeat' first
    | with_reducible exact h
    | with_reducible refine putCtx_fixed _ _ ?_ ?_
    | with_reducible apply raiseFlag_fixed
    | with_reducible refine placeReport_fixed _ _ _ ?_ ?_
    | exact active_of_ctx h ‹_›
    | exact active_of_ctxFor h ‹_›
    | exact Or.inr (active_of_ctx h ‹_›)
    | exact Or.inr (active_of_ctxFor h ‹_›)
    | split

theorem deliver_fixed {s : State} (c : CtxNum) (r : ParcelResult) (h : Fixed σ τ l g s) :
    Fixed σ τ l g (s.deliver c r) := by
  unfold State.deliver
  try dsimp only
  repeat' first
    | with_reducible exact h
    | with_reducible refine putCtx_fixed _ _ ?_ ?_
    | with_reducible apply postDecode_fixed
    | with_reducible apply countDiscarded_fixed
    | exact active_of_ctx h ‹_›
    | exact active_of_ctxFor h ‹_›
    | exact Or.inr (active_of_ctx h ‹_›)
    | exact Or.inr (active_of_ctxFor h ‹_›)
    | split

theorem goodEffects_fixed {s : State} (c : CtxNum) (k : GoodParcel) (h : Fixed σ τ l g s) :
    Fixed σ τ l g (s.goodEffects c k) := by
  unfold State.goodEffects
  try dsimp only
  repeat' first
    | with_reducible exact h
    | with_reducible refine putCtx_fixed _ _ ?_ ?_
    | with_reducible apply countDriven_fixed
    | with_reducible apply modCtx_fixed
    | exact active_of_ctx h ‹_›
    | exact active_of_ctxFor h ‹_›
    | exact Or.inr (active_of_ctx h ‹_›)
    | exact Or.inr (active_of_ctxFor h ‹_›)
    | split

theorem completeGood_fixed {s : State} (c : CtxNum) (k : GoodParcel) (h : Fixed σ τ l g s) :
    Fixed σ τ l g (s.completeGood c k) := by
  unfold State.completeGood
  repeat' first
    | with_reducible exact h
    | with_reducible apply countGood_fixed
    | with_reducible apply goodEffects_fixed
    | with_reducible apply deliver_fixed
    | exact active_of_ctx h ‹_›
    | exact active_of_ctxFor h ‹_›
    | exact Or.inr (active_of_ctx h ‹_›)
    | exact Or.inr (active_of_ctxFor h ‹_›)
    | split

theorem doMarkerJudgement_fixed {s : State} (c : CtxNum) (h : Fixed σ τ l g s) :
    Fixed σ τ l g (s.doMarkerJudgement c) := by
  unfold State.doMarkerJudgement
  try dsimp only
  repeat' first
    | with_reducible exact h
    | with_reducible refine putCtx_fixed _ _ ?_ ?_
    | with_reducible apply countDriven_fixed
    | with_reducible apply countBad_fixed
    | with_reducible apply deliver_fixed
    | exact active_of_ctx h ‹_›
    | exact active_of_ctxFor h ‹_›
    | exact Or.inr (active_of_ctx h ‹_›)
    | exact Or.inr (active_of_ctxFor h ‹_›)
    | split

theorem doParcelCompletion_fixed {s : State} (c : CtxNum) (h : Fixed σ τ l g s) :
    Fixed σ τ l g (s.doParcelCompletion c) := by
  unfold State.doParcelCompletion
  try dsimp only
  repeat' first
    | with_reducible exact h
    | with_reducible refine putCtx_fixed _ _ ?_ ?_
    | with_reducible apply completeGood_fixed
    | with_reducible apply countBad_fixed
    | with_reducible apply deliver_fixed
    | exact active_of_ctx h ‹_›
    | exact active_of_ctxFor h ‹_›
    | exact Or.inr (active_of_ctx h ‹_›)
    | exact Or.inr (active_of_ctxFor h ‹_›)
    | split

theorem trimRing_fixed {s : State} (c : CtxNum) (h : Fixed σ τ l g s) :
    Fixed σ τ l g (s.trimRing c) := by
  unfold State.trimRing
  repeat' first
    | with_reducible exact h
    | with_reducible refine putCtx_fixed _ _ ?_ ?_
    | with_reducible apply countTrimmed_fixed
    | exact active_of_ctx h ‹_›
    | exact active_of_ctxFor h ‹_›
    | exact Or.inr (active_of_ctx h ‹_›)
    | exact Or.inr (active_of_ctxFor h ‹_›)
    | split

theorem postNeed_fixed {s : State} (c : CtxNum) (h : Fixed σ τ l g s) :
    Fixed σ τ l g (s.postNeed c) := by
  unfold State.postNeed
  try dsimp only
  repeat' first
    | with_reducible exact h
    | with_reducible apply postDecode_fixed
    | with_reducible apply bumpNeeds_fixed
    | with_reducible apply postJob_fixed
    | exact active_of_ctx h ‹_›
    | exact active_of_ctxFor h ‹_›
    | exact Or.inr (active_of_ctx h ‹_›)
    | exact Or.inr (active_of_ctxFor h ‹_›)
    | split

theorem doNeed_fixed {s : State} (c : CtxNum) (h : Fixed σ τ l g s) :
    Fixed σ τ l g (s.doNeed c) := by
  unfold State.doNeed
  repeat' first
    | with_reducible exact h
    | with_reducible refine putCtx_fixed _ _ ?_ ?_
    | with_reducible apply trimRing_fixed
    | with_reducible apply postNeed_fixed
    | exact active_of_ctx h ‹_›
    | exact active_of_ctxFor h ‹_›
    | exact Or.inr (active_of_ctx h ‹_›)
    | exact Or.inr (active_of_ctxFor h ‹_›)
    | split

theorem uplinkBlock_fixed {s : State} (c : CtxNum) (h : Fixed σ τ l g s) :
    Fixed σ τ l g (s.uplinkBlock c) := by
  unfold State.uplinkBlock
  try dsimp only
  repeat' first
    | with_reducible exact h
    | with_reducible apply countMissing_fixed
    | with_reducible apply bumpNeeds_fixed
    | exact active_of_ctx h ‹_›
    | exact active_of_ctxFor h ‹_›
    | exact Or.inr (active_of_ctx h ‹_›)
    | exact Or.inr (active_of_ctxFor h ‹_›)
    | split

theorem replaceStart_fixed {s : State} (c : CtxNum) (h : Fixed σ τ l g s) :
    Fixed σ τ l g (s.replaceStart c) := by
  unfold State.replaceStart
  try dsimp only
  repeat' first
    | with_reducible exact h
    | with_reducible apply withdrawJobs_fixed
    | with_reducible apply modCtx_fixed
    | exact active_of_ctx h ‹_›
    | exact active_of_ctxFor h ‹_›
    | exact Or.inr (active_of_ctx h ‹_›)
    | exact Or.inr (active_of_ctxFor h ‹_›)
    | split

theorem scheduleEncode_fixed {s : State} (c : CtxNum) (b : List Sample) (h : Fixed σ τ l g s) :
    Fixed σ τ l g (s.scheduleEncode c b) := by
  unfold State.scheduleEncode
  try dsimp only
  repeat' first
    | with_reducible exact h
    | with_reducible apply replaceStart_fixed
    | with_reducible apply modCtx_fixed
    | with_reducible apply postJob_fixed
    | exact active_of_ctx h ‹_›
    | exact active_of_ctxFor h ‹_›
    | exact Or.inr (active_of_ctx h ‹_›)
    | exact Or.inr (active_of_ctxFor h ‹_›)
    | split

theorem doBlockClose_fixed {s : State} (c : CtxNum) (h : Fixed σ τ l g s) :
    Fixed σ τ l g (s.doBlockClose c) := by
  unfold State.doBlockClose
  try dsimp only
  repeat' first
    | with_reducible exact h
    | with_reducible refine putCtx_fixed _ _ ?_ ?_
    | with_reducible apply scheduleEncode_fixed
    | exact active_of_ctx h ‹_›
    | exact active_of_ctxFor h ‹_›
    | exact Or.inr (active_of_ctx h ‹_›)
    | exact Or.inr (active_of_ctxFor h ‹_›)
    | split

theorem countFiller_fixed {s : State} (c : CtxNum) (h : Fixed σ τ l g s) :
    Fixed σ τ l g (s.countFiller c) := by
  unfold State.countFiller
  try dsimp only
  repeat' first
    | with_reducible exact h
    | with_reducible apply modCtx_fixed
    | with_reducible apply countDriven_fixed
    | exact active_of_ctx h ‹_›
    | exact active_of_ctxFor h ‹_›
    | exact Or.inr (active_of_ctx h ‹_›)
    | exact Or.inr (active_of_ctxFor h ‹_›)
    | split

theorem fixContent_fixed {s : State} (c : CtxNum) (h : Fixed σ τ l g s) :
    Fixed σ τ l g (s.fixContent c) := by
  unfold State.fixContent
  try dsimp only
  repeat' first
    | with_reducible exact h
    | with_reducible refine putCtx_fixed _ _ ?_ ?_
    | with_reducible apply countFiller_fixed
    | exact active_of_ctx h ‹_›
    | exact active_of_ctxFor h ‹_›
    | exact Or.inr (active_of_ctx h ‹_›)
    | exact Or.inr (active_of_ctxFor h ‹_›)
    | split

theorem beginEmission_fixed {s : State} (c : CtxNum) (h : Fixed σ τ l g s) :
    Fixed σ τ l g (s.beginEmission c) := by
  unfold State.beginEmission
  try dsimp only
  repeat' first
    | with_reducible exact h
    | with_reducible refine putCtx_fixed _ _ ?_ ?_
    | with_reducible apply fixContent_fixed
    | exact active_of_ctx h ‹_›
    | split

theorem doEmissionStart_fixed {s : State} (c : CtxNum) (h : Fixed σ τ l g s) :
    Fixed σ τ l g (s.doEmissionStart c) := by
  unfold State.doEmissionStart
  try dsimp only
  repeat' first
    | with_reducible exact h
    | with_reducible apply beginEmission_fixed
    | with_reducible apply doSwitchFrame_fixed
    | exact active_of_ctx h ‹_›
    | exact active_of_ctxFor h ‹_›
    | exact Or.inr (active_of_ctx h ‹_›)
    | exact Or.inr (active_of_ctxFor h ‹_›)
    | split

theorem contentAfterJob_fixed {s : State} (c : CtxNum) (h : Fixed σ τ l g s) :
    Fixed σ τ l g (s.contentAfterJob c) := by
  unfold State.contentAfterJob
  repeat' first
    | with_reducible exact h
    | with_reducible apply fixContent_fixed
    | exact active_of_ctx h ‹_›
    | exact active_of_ctxFor h ‹_›
    | exact Or.inr (active_of_ctx h ‹_›)
    | exact Or.inr (active_of_ctxFor h ‹_›)
    | split

theorem freeEngine_fixed {s : State} (e : EngineNum) (h : Fixed σ τ l g s) :
    Fixed σ τ l g (s.freeEngine e) := by
  unfold State.freeEngine
  try dsimp only
  repeat' first
    | with_reducible exact h
    | with_reducible apply onEngines_fixed
    | exact active_of_ctx h ‹_›
    | exact active_of_ctxFor h ‹_›
    | exact Or.inr (active_of_ctx h ‹_›)
    | exact Or.inr (active_of_ctxFor h ‹_›)
    | split

theorem doDecodeCompletion_fixed {s : State} (e : EngineNum) (h : Fixed σ τ l g s) :
    Fixed σ τ l g (s.doDecodeCompletion e) := by
  unfold State.doDecodeCompletion
  repeat' first
    | with_reducible exact h
    | with_reducible apply freeEngine_fixed
    | with_reducible apply modCtx_fixed
    | exact active_of_ctx h ‹_›
    | exact active_of_ctxFor h ‹_›
    | exact Or.inr (active_of_ctx h ‹_›)
    | exact Or.inr (active_of_ctxFor h ‹_›)
    | split

theorem doEncodeCompletion_fixed {s : State} (e : EngineNum) (h : Fixed σ τ l g s) :
    Fixed σ τ l g (s.doEncodeCompletion e) := by
  unfold State.doEncodeCompletion
  repeat' first
    | with_reducible exact h
    | with_reducible apply freeEngine_fixed
    | with_reducible apply modCtx_fixed
    | with_reducible apply contentAfterJob_fixed
    | exact active_of_ctx h ‹_›
    | exact active_of_ctxFor h ‹_›
    | exact Or.inr (active_of_ctx h ‹_›)
    | exact Or.inr (active_of_ctxFor h ‹_›)
    | split

theorem dropJob_fixed {s : State} (c : CtxNum) (d : Direction) (h : Fixed σ τ l g s) :
    Fixed σ τ l g (s.dropJob c d) := by
  unfold State.dropJob
  try dsimp only
  repeat' first
    | with_reducible exact h
    | with_reducible apply raiseFlag_fixed
    | with_reducible apply onEngines_fixed
    | exact active_of_ctx h ‹_›
    | exact active_of_ctxFor h ‹_›
    | exact Or.inr (active_of_ctx h ‹_›)
    | exact Or.inr (active_of_ctxFor h ‹_›)
    | split

theorem tellDrop_fixed {s : State} (j : Job) (h : Fixed σ τ l g s) :
    Fixed σ τ l g (s.tellDrop j) := by
  unfold State.tellDrop
  try dsimp only
  repeat' first
    | with_reducible exact h
    | with_reducible apply modCtx_fixed
    | with_reducible apply countDriven_fixed
    | with_reducible apply contentAfterJob_fixed
    | exact active_of_ctx h ‹_›
    | exact active_of_ctxFor h ‹_›
    | exact Or.inr (active_of_ctx h ‹_›)
    | exact Or.inr (active_of_ctxFor h ‹_›)
    | split

theorem doJobDropped_fixed {s : State} (c : CtxNum) (d : Direction) (h : Fixed σ τ l g s) :
    Fixed σ τ l g (s.doJobDropped c d) := by
  unfold State.doJobDropped
  repeat' first
    | with_reducible exact h
    | with_reducible apply dropJob_fixed
    | with_reducible apply tellDrop_fixed
    | exact active_of_ctx h ‹_›
    | exact active_of_ctxFor h ‹_›
    | exact Or.inr (active_of_ctx h ‹_›)
    | exact Or.inr (active_of_ctxFor h ‹_›)
    | split

theorem readAbandoned_fixed {s : State} (a : List PortAct) (h : Fixed σ τ l g s) :
    Fixed σ τ l g (s.readAbandoned a) := by
  unfold State.readAbandoned
  try dsimp only
  repeat' first
    | with_reducible exact h
    | with_reducible apply raiseFlag_fixed
    | with_reducible refine onLife_fixed (fun _ => rfl) ?_
    | exact active_of_ctx h ‹_›
    | exact active_of_ctxFor h ‹_›
    | exact Or.inr (active_of_ctx h ‹_›)
    | exact Or.inr (active_of_ctxFor h ‹_›)
    | split

theorem doMissingAcknowledge_fixed {s : State} (k : Nat) (p : AckPoint) (h : Fixed σ τ l g s) :
    Fixed σ τ l g (s.doMissingAcknowledge k p) := by
  unfold State.doMissingAcknowledge
  try dsimp only
  repeat' first
    | with_reducible exact h
    | with_reducible apply readAbandoned_fixed
    | with_reducible refine onLife_fixed (fun _ => rfl) ?_
    | exact active_of_ctx h ‹_›
    | exact active_of_ctxFor h ‹_›
    | exact Or.inr (active_of_ctx h ‹_›)
    | exact Or.inr (active_of_ctxFor h ‹_›)
    | split

theorem doLoaderPauseEnd_fixed {s : State} (h : Fixed σ τ l g s) :
    Fixed σ τ l g (s.doLoaderPauseEnd) := by
  unfold State.doLoaderPauseEnd
  try dsimp only
  repeat' first
    | with_reducible exact h
    | with_reducible refine onLife_fixed (fun _ => rfl) ?_
    | exact active_of_ctx h ‹_›
    | exact active_of_ctxFor h ‹_›
    | exact Or.inr (active_of_ctx h ‹_›)
    | exact Or.inr (active_of_ctxFor h ‹_›)
    | split

theorem doSclHeldLow_fixed {s : State} (k : Nat) (x : ReadCut) (h : Fixed σ τ l g s) :
    Fixed σ τ l g (s.doSclHeldLow k x) := by
  unfold State.doSclHeldLow
  repeat' first
    | with_reducible exact h
    | with_reducible apply readAbandoned_fixed
    | exact active_of_ctx h ‹_›
    | exact active_of_ctxFor h ‹_›
    | exact Or.inr (active_of_ctx h ‹_›)
    | exact Or.inr (active_of_ctxFor h ‹_›)
    | split

theorem doConfigurationReadEnd_fixed {s : State} (k : Nat) (i : List Byte) (h : Fixed σ τ l g s) :
    Fixed σ τ l g (s.doConfigurationReadEnd k i) := by
  unfold State.doConfigurationReadEnd
  try dsimp only
  repeat' first
    | with_reducible exact h
    | with_reducible apply raiseFlag_fixed
    | with_reducible refine onLife_fixed (fun _ => rfl) ?_
    | exact active_of_ctx h ‹_›
    | exact active_of_ctxFor h ‹_›
    | exact Or.inr (active_of_ctx h ‹_›)
    | exact Or.inr (active_of_ctxFor h ‹_›)
    | split

theorem contextBlocks_fixed {s : State} (h : Fixed σ τ l g s) :
    Fixed σ τ l g (s.contextBlocks) := by
  refine foldl_inv (Fixed σ τ l g) _ (fun s a h => uplinkBlock_fixed a h) _ _ ?_
  exact onTable_fixed (fun t hc hr => by simp [hc, hr, Table.mapValues]) h

theorem quietBlock_fixed {s : State} (h : Fixed σ τ l g s) :
    Fixed σ τ l g (s.quietBlock) := by
  unfold State.quietBlock
  try dsimp only
  repeat' first
    | with_reducible exact h
    | with_reducible refine onLife_fixed (fun _ => rfl) ?_
    | exact active_of_ctx h ‹_›
    | exact active_of_ctxFor h ‹_›
    | exact Or.inr (active_of_ctx h ‹_›)
    | exact Or.inr (active_of_ctxFor h ‹_›)
    | split

theorem listenBlock_fixed {s : State} (h : Fixed σ τ l g s) :
    Fixed σ τ l g (s.listenBlock) := by
  unfold State.listenBlock
  try dsimp only
  repeat' first
    | with_reducible exact h
    | with_reducible refine onMap_fixed (fun _ => rfl) ?_
    | exact active_of_ctx h ‹_›
    | exact active_of_ctxFor h ‹_›
    | exact Or.inr (active_of_ctx h ‹_›)
    | exact Or.inr (active_of_ctxFor h ‹_›)
    | split

end

/-! ### From the fixed figures to what is permitted -/

theorem permitted_fixed {s : State} (h : s.permitted) :
    Fixed s.life.station s.hwi.timing s.mapu.intake s.pool.stage s := by
  refine ⟨rfl, rfl, rfl, rfl, fun hn => ?_, fun h1 h2 => ?_⟩
  · have := h.2.1 (by simp [State.isActive, hn])
    exact ⟨this.1, this.2.1⟩
  · exact (h.2.2.1 (by simp [State.participates, h1, h2])).1

/-- The figures a permitted state can have. -/
structure Allowed (σ : StationState) (τ : Timing) (l : List Record) (g : PoolStage) : Prop where
  timing : σ = .listen ∨ σ = .active → τ = .good
  stage : σ ≠ .active → g ≠ .shed ∧ g ≠ .loss
  rest : σ ≠ .listen → σ ≠ .active → l = [] ∧ g = .idle
  intake : l.length ≤ 8

theorem permitted_allowed {s : State} (h : s.permitted) :
    Allowed s.life.station s.hwi.timing s.mapu.intake s.pool.stage := by
  refine ⟨fun hp => h.1 (by simpa [State.participates] using hp), fun hn => ?_, fun h1 h2 => ?_, h.2.2.2⟩
  · exact (h.2.1 (by simp [State.isActive, hn])).2.2
  · exact (h.2.2.1 (by simp [State.participates, h1, h2])).2

theorem fixed_permitted {σ : StationState} {τ : Timing} {l : List Record} {g : PoolStage} {s : State}
    (a : Allowed σ τ l g) (h : Fixed σ τ l g s) : s.permitted := by
  obtain ⟨h1, h2, h3, h4, h5, h6⟩ := h
  unfold State.permitted State.participates State.isActive
  rw [h1, h2, h3, h4]
  refine ⟨fun hp => a.timing (by simpa using hp), fun hn => ?_, fun hn => ?_, a.intake⟩
  · have hn' : σ ≠ .active := by simpa using hn
    exact ⟨(h5 hn').1, (h5 hn').2, a.stage hn'⟩
  · have hn' : σ ≠ .listen ∧ σ ≠ .active := by simpa using hn
    exact ⟨h6 hn'.1 hn'.2, a.rest hn'.1 hn'.2⟩

/-- An operation that keeps the figures keeps what is permitted. -/
theorem permitted_of {s t : State} (h : s.permitted)
    (f : Fixed s.life.station s.hwi.timing s.mapu.intake s.pool.stage s →
      Fixed s.life.station s.hwi.timing s.mapu.intake s.pool.stage t) : t.permitted :=
  fixed_permitted (permitted_allowed h) (f (permitted_fixed h))

theorem part_of {s : State} (h : s.participates = true) : s.life.station = .listen ∨ s.life.station = .active := by
  simpa [State.participates] using h

theorem onHwi_permitted {s : State} {f : Hwi → Hwi} (hf : ∀ x, (f x).timing = x.timing) (h : s.permitted) :
    (s.onHwi f).permitted :=
  permitted_of h (onHwi_fixed hf)

section
variable {σ : StationState} {τ : Timing} {l : List Record} {g : PoolStage} {s : State}

theorem timing_fixed {f : Hwi → Hwi} {τ' : Timing} (hf : (f s.hwi).timing = τ') (h : Fixed σ τ l g s) :
    Fixed σ τ' l g (s.onHwi f) :=
  ⟨h.station, hf, h.intake, h.stage, h.contexts, h.outbox⟩

theorem stage_fixed {f : Pool → Pool} {g' : PoolStage} (hf : (f s.pool).stage = g') (h : Fixed σ τ l g s) :
    Fixed σ τ l g' (s.onPool f) :=
  ⟨h.station, h.timing, h.intake, hf, h.contexts, h.outbox⟩

theorem intake_fixed {f : MapUnit → MapUnit} {l' : List Record} (hf : (f s.mapu).intake = l') (h : Fixed σ τ l g s) :
    Fixed σ τ l' g (s.onMap f) :=
  ⟨h.station, h.timing, hf, h.stage, h.contexts, h.outbox⟩

/-- Figures out of LISTEN and ACTIVE do not depend on the timing state. -/
theorem Allowed.unlocked (a : Allowed σ τ l g) (h1 : σ ≠ .listen) (h2 : σ ≠ .active) (τ' : Timing) :
    Allowed σ τ' l g :=
  ⟨fun h => absurd h (by simp [h1, h2]), a.stage, a.rest, a.intake⟩

theorem Allowed.locked (a : Allowed σ τ l g) : Allowed σ .good l g := ⟨fun _ => rfl, a.stage, a.rest, a.intake⟩

/-- A new stage of the decisions of a participating station; shed and loss in ACTIVE only. -/
theorem Allowed.restage (a : Allowed σ τ l g) (hp : σ = .listen ∨ σ = .active) {g' : PoolStage}
    (hg : σ ≠ .active → g' ≠ .shed ∧ g' ≠ .loss) : Allowed σ τ l g' :=
  ⟨a.timing, hg, fun h1 h2 => absurd hp (by simp [h1, h2]), a.intake⟩

theorem Allowed.tail (a : Allowed σ τ l g) : Allowed σ τ l.tail g :=
  ⟨a.timing, a.stage, fun h1 h2 => by rw [(a.rest h1 h2).1]; exact ⟨rfl, (a.rest h1 h2).2⟩,
    by have := a.intake; simp only [List.length_tail]; omega⟩

end

theorem retreat_permitted {s : State} (c : RetreatCause) (h : s.participates = false → s.permitted) :
    (s.retreat c).permitted := by
  unfold State.retreat
  split
  · refine ⟨fun hp => ?_, fun _ => ⟨rfl, rfl, ?_, ?_⟩, fun _ => ⟨rfl, rfl, rfl⟩, Nat.zero_le _⟩
    · simp [State.participates] at hp
    · simp
    · simp
  · exact h (by simp_all)

theorem loseTiming_permitted {s : State} (h : s.permitted) : s.loseTiming.permitted := by
  unfold State.loseTiming
  dsimp only
  have h1 := raiseFlag_fixed .timingLost
    (timing_fixed (f := fun h => { h.toSeek with clOut := clReleased }) (τ' := .seek) rfl (permitted_fixed h))
  refine retreat_permitted _ (fun hp => ?_)
  rw [State.participates, h1.station] at hp
  have hp' : s.life.station ≠ .listen ∧ s.life.station ≠ .active := by simpa using hp
  exact fixed_permitted ((permitted_allowed h).unlocked hp'.1 hp'.2 .seek) h1

/-- Out of GOOD the station is neither in LISTEN nor in ACTIVE. -/
theorem permitted_unlocked {s : State} (h : s.permitted) (ht : s.hwi.timing ≠ .good) :
    s.life.station ≠ .listen ∧ s.life.station ≠ .active := by
  have : s.participates = false := by
    by_contra hp
    exact ht (h.1 (by simpa using hp))
  simpa [State.participates] using this

theorem timing_permitted {s : State} {f : Hwi → Hwi} (h : s.permitted) (ht : s.hwi.timing ≠ .good) :
    (s.onHwi f).permitted := by
  have hp := permitted_unlocked h ht
  exact fixed_permitted ((permitted_allowed h).unlocked hp.1 hp.2 _) (timing_fixed rfl (permitted_fixed h))

theorem enterListen_permitted {s : State} (h : s.permitted) (ht : s.hwi.timing = .good)
    (hs : s.life.station ≠ .listen ∧ s.life.station ≠ .active) : s.enterListen.permitted := by
  have h0 := permitted_fixed h
  have a0 : Allowed .listen s.hwi.timing [] .idle :=
    ⟨fun _ => ht, fun _ => by simp, fun h1 => absurd rfl h1, Nat.zero_le _⟩
  have hst : s.pool.stage = .idle := ((permitted_allowed h).rest hs.1 hs.2).2
  have h1 : Fixed .listen s.hwi.timing s.mapu.intake .idle (s.onLife (fun l => { l with station := .listen })) :=
    ⟨rfl, rfl, rfl, hst, fun _ => h0.contexts hs.2, fun hn => absurd rfl hn⟩
  have h2 : Fixed .listen s.hwi.timing [] .idle
      (((s.onLife (fun l => { l with station := .listen })).onNotice
        (fun _ => NoticeCtl.empty)).onMap
          (fun m => { m with intake := [], listenCount := 0 })) :=
    ⟨rfl, rfl, rfl, hst, fun _ => h0.contexts hs.2, fun hn => absurd rfl hn⟩
  unfold State.enterListen
  dsimp only
  refine fixed_permitted a0 ?_
  repeat' first
    | with_reducible exact h2
    | with_reducible refine placeReport_fixed _ _ _ ?_ ?_
    | with_reducible refine place_fixed _ ?_ ?_
    | with_reducible refine onPool_fixed (fun _ => rfl) ?_
    | with_reducible refine putRoster_fixed _ _ ?_
    | exact Or.inl rfl
    | split

theorem endRecord_permitted {s : State} (h : s.permitted) : s.endRecord.permitted := by
  unfold State.endRecord
  split
  · exact h
  · exact fixed_permitted (permitted_allowed h).tail (intake_fixed rfl (permitted_fixed h))

theorem doSweepGroup_permitted {s : State} (h : s.permitted) : s.doSweepGroup.permitted := by
  unfold State.doSweepGroup
  split
  · split
    · exact h
    · rename_i w _
      dsimp only
      have h1 := sweepPositions_fixed w.station w.group
        (onMap_fixed (f := fun m => { m with turn := false }) (fun _ => rfl) (takeSwitchFrames_fixed (permitted_fixed h)))
      generalize State.sweepPositions _ _ _ = t at h1 ⊢
      split
      · exact fixed_permitted (permitted_allowed h) (onMap_fixed (fun _ => rfl) h1)
      · exact fixed_permitted (permitted_allowed h).tail (intake_fixed (by simp [h1.intake]) h1)
  · exact h

theorem applyLostTo_permitted {s : State} (q : Station) (h : s.permitted) : (s.applyLostTo q).permitted := by
  unfold State.applyLostTo
  dsimp only
  split
  · exact retreat_permitted _ (fun _ => permitted_of h (raiseFlag_fixed _))
  · refine permitted_of h (fun h => ?_)
    repeat' first
      | with_reducible exact h
      | with_reducible apply startSweep_fixed
      | with_reducible apply removeLost_fixed
      | with_reducible apply putRoster_fixed
      | split

section
variable {σ : StationState} {τ : Timing} {l : List Record} {g : PoolStage} {s : State}

theorem afterLoss_fixed (h : Fixed σ τ l g s) :
    ∃ g', (g' = .idle ∨ g' = .heartbeat) ∧ Fixed σ τ l g' s.afterLoss := by
  unfold State.afterLoss
  dsimp only
  have h1 : Fixed σ τ l g (if s.pool.ageingDue = true then
      (s.ageRoster).onPool (fun q => { q with ageingDue := false }) else s) := by
    split
    · exact onPool_fixed (fun _ => rfl) (ageRoster_fixed h)
    · exact h
  generalize (if s.pool.ageingDue = true then
      (s.ageRoster).onPool (fun q => { q with ageingDue := false }) else s) = t at h1 ⊢
  refine ⟨_, ?_, stage_fixed rfl h1⟩
  dsimp only
  split
  · exact Or.inr rfl
  · exact Or.inl rfl

theorem afterShed_fixed (ha : σ = .active) (h : Fixed σ τ l g s) : ∃ g', Fixed σ τ l g' s.afterShed := by
  unfold State.afterShed
  dsimp only
  have h1 := census_fixed ha (shadowFill_fixed ha (placeTakensDue_fixed ha h))
  generalize ((s.placeTakensDue).shadowFill).census = t at h1 ⊢
  split
  · exact ⟨_, stage_fixed rfl h1⟩
  · obtain ⟨g', _, h2⟩ := afterLoss_fixed h1
    exact ⟨g', h2⟩

theorem poolDecisions_fixed (h : Fixed σ τ l g s) :
    ∃ g', (σ ≠ .active → g' ≠ .shed ∧ g' ≠ .loss) ∧ Fixed σ τ l g' s.poolDecisions := by
  unfold State.poolDecisions
  split
  · rename_i hi
    rw [State.isActive, h.station] at hi
    have ha : σ = .active := by simpa using hi
    dsimp only
    have h1 := shedUpdate_fixed h
    generalize s.shedUpdate = t at h1 ⊢
    split
    · exact ⟨_, fun hn => absurd ha hn, stage_fixed rfl h1⟩
    · obtain ⟨g', h2⟩ := afterShed_fixed ha h1
      exact ⟨g', fun hn => absurd ha hn, h2⟩
  · obtain ⟨g', hg, h1⟩ := afterLoss_fixed h
    refine ⟨g', fun _ => ?_, h1⟩
    rcases hg with rfl | rfl <;> simp

end

theorem doShedDecision_permitted {s : State} (h : s.permitted) : s.doShedDecision.permitted := by
  unfold State.doShedDecision
  split
  · rename_i hs
    have ha : s.life.station = .active := by
      by_contra hn
      exact ((permitted_allowed h).stage hn).1 hs
    obtain ⟨g', h1⟩ := afterShed_fixed ha
      (stage_fixed (f := fun q => { q with stage := .idle }) (g' := .idle) rfl (decideShed_fixed ha (permitted_fixed h)))
    exact fixed_permitted ((permitted_allowed h).restage (Or.inr ha) (fun hn => absurd ha hn)) h1
  · exact h

theorem doDeclareLost_permitted {s : State} (h : s.permitted) : s.doDeclareLost.permitted := by
  unfold State.doDeclareLost
  split
  · rename_i hs
    have ha : s.life.station = .active := by
      by_contra hn
      exact ((permitted_allowed h).stage hn).2 hs
    obtain ⟨g', _, h1⟩ := afterLoss_fixed
      (stage_fixed (f := fun q => { q with stage := .idle }) (g' := .idle) rfl
        (examineLosses_fixed (Or.inr ha) (permitted_fixed h)))
    exact fixed_permitted ((permitted_allowed h).restage (Or.inr ha) (fun hn => absurd ha hn)) h1
  · exact h

theorem doHeartbeat_permitted {s : State} (h : s.permitted) : s.doHeartbeat.permitted := by
  unfold State.doHeartbeat
  split
  · rename_i hs
    have hp : s.life.station = .listen ∨ s.life.station = .active := by
      by_contra hn
      rw [not_or] at hn
      have := ((permitted_allowed h).rest hn.1 hn.2).2
      rw [hs] at this
      cases this
    exact fixed_permitted ((permitted_allowed h).restage hp (g' := .idle) (fun _ => by simp))
      (stage_fixed rfl (place_fixed _ hp (permitted_fixed h)))
  · exact h

theorem doEnterListen_permitted {s : State} (h : s.permitted) : s.doEnterListen.permitted := by
  unfold State.doEnterListen
  split
  · rename_i hd
    simp only [State.listenDue, Bool.and_eq_true, decide_eq_true_eq] at hd
    exact enterListen_permitted h hd.1.1.2 (by simp [hd.1.1.1])
  · exact h

theorem doQuietPeriodEnd_permitted {s : State} (h : s.permitted) : s.doQuietPeriodEnd.permitted := by
  unfold State.doQuietPeriodEnd
  split
  · rename_i hr
    dsimp only
    have h1 : (s.onLife (fun l => { l with quietJudge := false })).permitted := permitted_of h (onLife_fixed (fun _ => rfl))
    split
    · rename_i hq
      exact enterListen_permitted h1 hq.2 (by
        show s.life.station ≠ .listen ∧ s.life.station ≠ .active
        simp [hr.1])
    · exact h1
  · exact h

theorem doMapComplete_permitted {s : State} (h : s.permitted) : s.doMapComplete.permitted := by
  unfold State.doMapComplete
  split
  · rename_i hd
    simp only [State.mapDue, Bool.and_eq_true, decide_eq_true_eq] at hd
    have hl : s.life.station = .listen := hd.1.1.1
    have a := permitted_allowed h
    have a1 : Allowed .active s.hwi.timing s.mapu.intake s.pool.stage :=
      ⟨fun _ => a.timing (Or.inl hl), fun hn => absurd rfl hn, fun _ hn => absurd rfl hn, a.intake⟩
    have h1 : Fixed .active s.hwi.timing s.mapu.intake s.pool.stage
        ((s.onMap (fun m => { m with mapComplete := true })).enterActive) :=
      ⟨rfl, rfl, rfl, rfl, fun hn => absurd rfl hn, fun _ hn => absurd rfl hn⟩
    dsimp only
    generalize ((s.onMap (fun m => { m with mapComplete := true })).enterActive) = t at h1 ⊢
    split
    · obtain ⟨g', hg, h2⟩ := poolDecisions_fixed
        (stage_fixed (f := fun q => { q with stage := .idle }) (g' := .idle) rfl h1)
      exact fixed_permitted (a1.restage (Or.inr rfl) hg) h2
    · exact fixed_permitted a1 h1
  · exact h

theorem doTimingGood_permitted {s : State} (h : s.permitted) : s.doTimingGood.permitted := by
  unfold State.doTimingGood
  split
  · exact fixed_permitted (permitted_allowed h).locked (timing_fixed rfl (permitted_fixed h))
  · exact h

theorem poolBlock_permitted {s : State} (o : BlockOrder) (h : s.permitted) : (s.poolBlock o).permitted := by
  unfold State.poolBlock
  split
  · rename_i hp
    have hp := part_of hp
    dsimp only
    have h1 : Fixed s.life.station s.hwi.timing s.mapu.intake s.pool.stage
        (if o.agesFirst = true then s.ageRoster else s.onPool (fun q => { q with ageingDue := true })) := by
      split
      · exact ageRoster_fixed (permitted_fixed h)
      · exact onPool_fixed (fun _ => rfl) (permitted_fixed h)
    generalize (if o.agesFirst = true then s.ageRoster else s.onPool (fun q => { q with ageingDue := true })) = t at h1 ⊢
    split
    · exact fixed_permitted ((permitted_allowed h).restage hp (g' := .entry) (fun _ => by simp)) (stage_fixed rfl h1)
    · obtain ⟨g', hg, h2⟩ := poolDecisions_fixed h1
      exact fixed_permitted ((permitted_allowed h).restage hp hg) h2
  · exact h

theorem blockEvent_permitted {s : State} (o : BlockOrder) (h : s.permitted) : (s.blockEvent o).permitted := by
  unfold State.blockEvent
  refine poolBlock_permitted o (permitted_of h (fun h => ?_))
  exact listenBlock_fixed (quietBlock_fixed (contextBlocks_fixed (onEngines_fixed h)))

theorem doBlockEvent_permitted {s : State} (o : BlockOrder) (h : s.permitted) : (s.doBlockEvent o).permitted := by
  unfold State.doBlockEvent
  split
  · exact blockEvent_permitted o (onHwi_permitted (fun _ => rfl) h)
  · exact h

theorem doBridgedBlockEvent_permitted {s : State} (o : BlockOrder) (h : s.permitted) :
    (s.doBridgedBlockEvent o).permitted := by
  unfold State.doBridgedBlockEvent
  split
  · exact blockEvent_permitted o (permitted_of h (fun h => count_fixed _ (onHwi_fixed (fun _ => rfl) h)))
  · exact h

/-- A rule of the Map Unit's turn that keeps the figures. -/
theorem steps_permitted : StepKeeps State.permitted (fun s => s.permitted ∧ s.participates = true) where
  beginRecord r s hp h := by
    have h1 := beginRecord_fixed r (permitted_fixed h)
    refine ⟨fixed_permitted (permitted_allowed h) h1, ?_⟩
    unfold State.participates at hp ⊢
    rw [h1.station]
    exact hp
  endRecord _ := endRecord_permitted
  weaken _ h := h.1
  hearStation q s h := by
    have h1 := hearStation_fixed q (permitted_fixed h.1)
    refine ⟨fixed_permitted (permitted_allowed h.1) h1, ?_⟩
    have hp := h.2
    unfold State.participates at hp ⊢
    rw [h1.station]
    exact hp
  lost q _ h := applyLostTo_permitted q h.1
  taken p k b t o _ h := permitted_of h.1 (applyTakenTo_fixed p k b t o)
  clear p k _ h := permitted_of h.1 (applyClearTo_fixed p k)
  offer p k y ms m q _ h := permitted_of h.1 (applyOfferTo_fixed p k y ms m q)
  bid p k r q w _ h := permitted_of h.1 (applyBidTo_fixed p k r q w)
  shed p k q w _ h := permitted_of h.1 (applyShedTo_fixed p k q w)
  hold p k y ms m b sh q w _ h := permitted_of h.1 (applyHoldTo_fixed p k y ms m b sh q w)
  present v f q w _ h := permitted_of h.1 (applyPresentTo_fixed v f q w)
  summary a _ h := permitted_of h.1 (answerSummary_fixed a (part_of h.2))
  flags _ h := permitted_of h.1 (answerFlags_fixed (part_of h.2))
  clearFlags _ h := permitted_of h.1 (answerClearFlags_fixed (part_of h.2))
  counter i k _ h := permitted_of h.1 (answerCounter_fixed i k (part_of h.2))
  position a _ h := permitted_of h.1 (answerPosition_fixed a (part_of h.2))
  takeUps s h := ⟨permitted_of h.1 takeUps_fixed, by
    have hp := h.2
    unfold State.participates at hp ⊢
    rw [show s.takeUps.life = s.life by simp]
    exact hp⟩
  unknown i a _ h := permitted_of h.1 (answerUnknown_fixed i a (part_of h.2))
  sweep _ := doSweepGroup_permitted
  switchFrames _ h := permitted_of h takeSwitchFrames_fixed
  decodeCompletion e _ h := permitted_of h (doDecodeCompletion_fixed e)
  encodeCompletion e _ h := permitted_of h (doEncodeCompletion_fixed e)
  jobDropped c d _ h := permitted_of h (doJobDropped_fixed c d)
  judgement c _ h := permitted_of h (doMarkerJudgement_fixed c)
  completion c _ h := permitted_of h (doParcelCompletion_fixed c)
  need c _ h := permitted_of h (doNeed_fixed c)
  emission c _ h := permitted_of h (doEmissionStart_fixed c)
  close c _ h := permitted_of h (doBlockClose_fixed c)
  block o _ := doBlockEvent_permitted o
  bridgedBlock o _ := doBridgedBlockEvent_permitted o
  timingGood _ := doTimingGood_permitted
  warmUp c _ h := permitted_of h (doWarmUpEnd_fixed c)
  listen _ := doEnterListen_permitted
  quietEnd _ := doQuietPeriodEnd_permitted
  mapComplete _ := doMapComplete_permitted
  decideShed _ := doShedDecision_permitted
  declare _ := doDeclareLost_permitted
  heartbeat _ := doHeartbeat_permitted
  takeUp _ h := permitted_of h doJobTakeUp_fixed

theorem settle_permitted {s : State} (h : s.permitted) : s.settle.permitted := settle_keeps steps_permitted h

theorem frameBegins_permitted {s : State} (y : Lanes) (h : s.permitted) : (s.frameBegins y).permitted := by
  refine permitted_of h (fun h => ?_)
  unfold State.frameBegins
  exact onMap_fixed (fun _ => rfl) (onTable_fixed (fun t hc hr => by simp [hc, hr, Table.mapValues]) (released_fixed h))

theorem released_permitted {s : State} {r : List ReleasedSlot} (h : s.permitted) :
    ({ s with released := r } : State).permitted := permitted_of h released_fixed

theorem loseTimingAtFrame_permitted {s : State} (h : s.permitted) : s.loseTimingAtFrame.permitted :=
  loseTiming_permitted (released_permitted (onHwi_permitted (fun _ => rfl) h))

theorem markedFrame_permitted {s : State} (b : Bool) (y : Lanes) (h : s.permitted) : (s.markedFrame b y).permitted := by
  unfold State.markedFrame State.produceFrame State.abandonProving
  split
  · exact frameBegins_permitted y (onHwi_permitted (fun _ => rfl) h)
  · split
    · exact loseTimingAtFrame_permitted h
    · exact timing_permitted (timing_permitted h ‹_›) ‹_›

theorem count_permitted {s : State} (k : Counter) (h : s.permitted) : (s.count k).permitted :=
  permitted_of h (fun h => count_fixed k h)

theorem bridgedFrame_permitted {s : State} (b : Bool) (y : Lanes) (h : s.permitted) :
    (s.bridgedFrame b y).permitted := by
  unfold State.bridgedFrame State.produceFrame
  split
  · refine count_permitted _ ?_
    exact frameBegins_permitted y (onHwi_permitted (fun _ => rfl) h)
  · exact loseTimingAtFrame_permitted h

section
variable {σ : StationState} {τ : Timing} {l : List Record} {g : PoolStage} {s : State}
  (hp : σ = .listen ∨ σ = .active)
include hp

theorem anyNotice_fixed {f : NoticeCtl → NoticeCtl} (h : Fixed σ τ l g s) : Fixed σ τ l g (s.onNotice f) :=
  ⟨h.station, h.timing, h.intake, h.stage, h.contexts, fun h1 h2 => absurd hp (by simp [h1, h2])⟩

theorem runOn_fixed (h : Fixed σ τ l g s) : Fixed σ τ l g s.runOn := anyNotice_fixed hp h

theorem noticeSucceeds_fixed (h : Fixed σ τ l g s) : Fixed σ τ l g s.noticeSucceeds := by
  unfold State.noticeSucceeds
  repeat' first
    | with_reducible exact h
    | with_reducible apply anyNotice_fixed hp
    | with_reducible apply count_fixed
    | with_reducible refine onPool_fixed (fun _ => rfl) ?_
    | split

theorem noticeRefused_fixed (h : Fixed σ τ l g s) : Fixed σ τ l g s.noticeRefused := by
  unfold State.noticeRefused
  dsimp only
  repeat' first
    | with_reducible exact h
    | with_reducible apply anyNotice_fixed hp
    | with_reducible apply count_fixed
    | with_reducible apply departed_fixed
    | split

theorem windowEffect_fixed (w : Window) (h : Fixed σ τ l g s) : Fixed σ τ l g (s.windowEffect w) := by
  unfold State.windowEffect
  dsimp only
  repeat' first
    | with_reducible exact h
    | with_reducible apply count_fixed
    | exact released_fixed h
    | with_reducible refine onlyIf_keeps (P := Fixed σ τ l g) (fun s h => noticeSucceeds_fixed hp h) ?_
    | with_reducible refine onlyIf_keeps (P := Fixed σ τ l g) (fun s h => noticeRefused_fixed hp h) ?_
    | with_reducible refine onlyIf_keeps (f := State.runOn) (P := Fixed σ τ l g) (fun s h => runOn_fixed hp h) ?_
    | with_reducible refine onlyIf_keeps (f := State.count _) (P := Fixed σ τ l g) (fun s h => count_fixed _ h) ?_
    | split

end

theorem windowEffect_permitted {s : State} (w : Window) (hp : s.participates = true) (h : s.permitted) :
    (s.windowEffect w).permitted :=
  permitted_of h (windowEffect_fixed (part_of hp) w)

theorem closeWindowOfFrame_permitted {s : State} (out : List Bool) (h : s.permitted) :
    (s.closeWindowOfFrame out).permitted :=
  permitted_of h (fun h => onMap_fixed (fun _ => rfl) (onHwi_fixed (fun _ => rfl) h))

theorem endWindow_permitted {s : State} (d a : Bool) (w : Window) (h : s.permitted) : (s.endWindow d a w).permitted := by
  unfold State.endWindow State.enterRecord
  split
  · exact retreat_permitted _ (fun _ => permitted_of h (raiseFlag_fixed _))
  · split
    · exact retreat_permitted _ (fun _ => permitted_of h (raiseFlag_fixed _))
    · split
      · exact h
      · rename_i hc
        simp only [not_or, Bool.not_eq_true, Bool.not_eq_false, not_le] at hc
        have a := permitted_allowed h
        have hp := part_of hc.2.2
        refine fixed_permitted ⟨a.timing, a.stage, fun h1 h2 => absurd hp (by simp [h1, h2]), ?_⟩
          (intake_fixed rfl (permitted_fixed h))
        have := hc.2.1
        simp only [List.length_append, List.length_singleton]
        omega

theorem inWindow_permitted {s : State} (h : s.permitted) : s.inWindow.permitted := by
  refine settle_permitted ?_
  unfold State.beginWindow
  split
  · exact permitted_of h (onNotice_fixed (fun _ hk => hk))
  · exact h

theorem atWindow_permitted {s : State} (h : s.permitted) : s.atWindow.permitted := by
  unfold State.atWindow
  split
  · exact h
  · exact settle_permitted h

/-- The outcome of a window and the requests that waited for it, in a station that takes part. -/
theorem windowOutcome_permitted {s : State} (w : Window) (hp : s.takesPart = true) (h : s.permitted) :
    (s.inWindow.windowEffect w).leavesWindow.permitted := by
  have hp' : s.inWindow.participates = true := by
    simp only [State.takesPart, Bool.and_eq_true] at hp; exact hp.2
  exact permitted_of (inWindow_permitted h)
    (fun h => leavesWindow_fixed (part_of hp') (windowEffect_fixed (part_of hp') w h))

theorem takeWindow_permitted {s : State} (o n : List Bool) (hp : s.takesPart = true) (h : s.permitted) :
    (s.takeWindow o n).permitted := by
  unfold State.takeWindow
  dsimp only
  exact onHwi_permitted (fun _ => rfl) (endWindow_permitted _ _ _ (closeWindowOfFrame_permitted _
    (windowOutcome_permitted _ hp h)))

theorem cutWindow_permitted {s : State} (k : Nat) (o n : List Bool) (hp : s.takesPart = true) (h : s.permitted) :
    (s.cutWindow k o n).permitted := by
  have h1 : ∀ w, (((s.inWindow.windowEffect w).leavesWindow).onHwi (fun h => { h with windowTaken := true })).permitted :=
    fun w => onHwi_permitted (fun _ => rfl) (windowOutcome_permitted w hp h)
  unfold State.cutWindow
  dsimp only
  refine onHwi_permitted (fun _ => rfl) ?_
  split
  · exact retreat_permitted _ (fun _ => permitted_of (h1 _) (raiseFlag_fixed _))
  · exact h1 _

theorem untilGap_permitted {s : State} (o n : List Bool) (h : s.permitted) : (s.untilGap o n).permitted := by
  unfold State.untilGap
  split
  · rename_i hc
    split
    · exact takeWindow_permitted o n hc.2.2 (atWindow_permitted h)
    · exact cutWindow_permitted _ o n hc.2.2 (atWindow_permitted h)
  · exact settle_permitted h

/-- The work of the timing commands and of CONTROL_WINDOW keeps what is permitted. -/
theorem timings_permitted {s : State} (h : s.permitted) :
    (∀ b, (s.doFrameReferenceSet b).permitted) ∧ (∀ b y, (s.doFrameEvent b y).permitted) ∧
      (∀ b y, (s.doBridgedFrameEvent b y).permitted) ∧ s.doFrameMarkerMiss.permitted ∧
      s.doFsyncAbsentInProve.permitted ∧ (∀ e, (s.doStrayFsync e).permitted) ∧
      (∀ n e o v, (s.doHclkGap n e o v).permitted) ∧ ∀ o n, (s.doControlWindow o n).permitted := by
  have hs := settle_permitted h
  refine ⟨fun b => ?_, fun b y => ?_, fun b y => ?_, ?_, ?_, fun e => ?_, fun n e o v => ?_, fun o n => ?_⟩
  · unfold State.doFrameReferenceSet State.atTiming
    split
    · rename_i ht
      have ht' : s.settle.hwi.timing ≠ .good := by
        have : s.settle.hwi.timing = .seek := by simpa using ht
        simp [this]
      clear ht
      dsimp only
      generalize s.settle = u at hs ht'
      exact permitted_of (timing_permitted (released_permitted (r := []) hs) ht') (onMap_fixed (fun _ => rfl))
    · exact h
  · exact atTiming_keeps steps_permitted (fun s h => markedFrame_permitted b y h) h
  · exact atTiming_keeps steps_permitted (fun s h => bridgedFrame_permitted b y h) h
  · exact atTiming_keeps steps_permitted (fun s h => loseTimingAtFrame_permitted h) h
  · unfold State.doFsyncAbsentInProve State.atTiming State.abandonProving
    split
    · rename_i ht
      have ht' : s.settle.hwi.timing ≠ .good := by
        have : s.settle.hwi.timing = .prove := by simpa using ht
        simp [this]
      exact timing_permitted hs ht'
    · exact h
  · unfold State.doStrayFsync
    split
    · refine atTiming_keeps steps_permitted (fun s h => ?_) h
      dsimp only
      have h1 : (s.onHwi (fun h => { h with hclkCount := e, clockWatch := 0 })).permitted :=
        onHwi_permitted (fun _ => rfl) h
      split
      · rename_i ht
        exact timing_permitted h1 (by rw [ht]; simp)
      · exact h1
    · exact h
  · unfold State.doHclkGap
    split
    · dsimp only
      have h1 : ((s.untilGap o v).onHwi (fun h => { h with clockWatch := n })).permitted :=
        onHwi_permitted (fun _ => rfl) (untilGap_permitted o v h)
      split
      · exact onHwi_permitted (fun _ => rfl) (loseTiming_permitted (onHwi_permitted (fun _ => rfl) h1))
      · rename_i ht
        exact timing_permitted h1 (by rw [ht]; simp)
      · exact h1
    · exact onHwi_permitted (fun _ => rfl) h
  · unfold State.doControlWindow
    split
    · split
      · exact takeWindow_permitted o n ‹_› (atWindow_permitted h)
      · exact closeWindowOfFrame_permitted _ (settle_permitted (atWindow_permitted h))
    · exact h

end Sys2Proof.Laws
end

