-- ==== Sys2Proof/Tests/Slice0.lean ====
section
/-! SUPPORT. Tests of the model: ill-formed commands, the worked examples of the manual, and for each statement with
hypotheses a concrete state and operands that meet them, with what the command makes of that state. -/

namespace Sys2Proof.Tests

set_option linter.all false
set_option Elab.async false

open Sys2Proof.Machine

/-! ### Ill-formed commands are refused by the check -/

theorem test_wf_missingAcknowledge_clocks : (Instr.missingAcknowledge 10 .offset).wellFormed = false := by decide +kernel
theorem test_wf_missingAcknowledge_recovery : (Instr.missingAcknowledge 3 .recovery).wellFormed = false := by decide +kernel
theorem test_wf_missingAcknowledge_ok : (Instr.missingAcknowledge 9 .recovery).wellFormed = true := by decide +kernel
theorem test_wf_configurationReadEnd_clocks :
    (Instr.configurationReadEnd 10 (List.replicate 11 0)).wellFormed = false := by decide +kernel
theorem test_wf_configurationReadEnd_short :
    (Instr.configurationReadEnd 0 (List.replicate 10 0)).wellFormed = false := by decide +kernel
theorem test_wf_frameEvent_short_si :
    (Instr.frameEvent true { si := [], pi := List.replicate 256 0 }).wellFormed = false := by decide +kernel
theorem test_wf_frameEvent_short_pi :
    (Instr.frameEvent true { si := List.replicate 256 0, pi := [] }).wellFormed = false := by decide +kernel
theorem test_wf_bridgedFrameEvent_short :
    (Instr.bridgedFrameEvent true { si := [], pi := [] }).wellFormed = false := by decide +kernel
theorem test_wf_strayFsync_zero : (Instr.strayFsync 0).wellFormed = false := by decide +kernel
theorem test_wf_strayFsync_at_count : (Instr.strayFsync 2048).wellFormed = false := by decide +kernel
theorem test_wf_strayFsync_ok : (Instr.strayFsync 2047).wellFormed = true := by decide +kernel
theorem test_wf_controlWindow_others :
    (Instr.controlWindow [] (List.replicate 72 false)).wellFormed = false := by decide +kernel
theorem test_wf_controlWindow_noise :
    (Instr.controlWindow (List.replicate 72 true) []).wellFormed = false := by decide +kernel

def readCut (clocks bytes acts bits : Nat) : ReadCut :=
  { clocks := clocks, image := List.replicate bytes 0, acts := acts, bits := bits }
theorem test_wf_sclHeldLow :
    (Instr.sclHeldLow ⟨0, readCut 10 11 0 0⟩).wellFormed = false ∧ (Instr.sclHeldLow ⟨0, readCut 9 10 0 0⟩).wellFormed = false ∧
      (Instr.sclHeldLow ⟨0, readCut 9 11 26 0⟩).wellFormed = false ∧
      (Instr.sclHeldLow ⟨0, readCut 9 11 0 9⟩).wellFormed = false ∧
      (Instr.sclHeldLow ⟨0, readCut 9 11 25 8⟩).wellFormed = true := by decide +kernel
theorem test_wf_hclkGap :
    let cut (edge n : Nat) := (Instr.hclkGap ⟨0, edge, List.replicate n true, List.replicate n false⟩).wellFormed
    (Instr.hclkGap ⟨0, 12, [true], []⟩).wellFormed = false ∧ cut 2047 73 = false ∧ cut 2048 0 = false ∧
      cut 11 1 = false ∧ cut 28 1 = false ∧ cut 1147 72 = false ∧ cut 12 1 = true ∧ cut 27 1 = true ∧
      cut 2047 72 = true ∧ cut 2047 0 = true := by decide +kernel

/-! ### States to test on -/

/-- The state a command answers. -/
def after (o : Host.Outcome State Fault Refusal) : State :=
  match o with
  | .next t => t
  | .fault _ => State.reset
  | .refused _ => State.reset

/-- The canonical form of a table, entry by entry. -/
def canonicalTable {n : Nat} {α : Type} [DecidableEq α] (d : α) (t : Table n α) : Bool :=
  Table.rising t && t.all (fun e => decide (e.2 ≠ d))

theorem canonicalTable_met {n : Nat} {α : Type} [DecidableEq α] (d : α) (t : Table n α)
    (h : canonicalTable d t = true) : Table.canonical d t := by
  rw [canonicalTable, Bool.and_eq_true, List.all_eq_true] at h
  exact ⟨h.1, fun e he => of_decide_eq_true (h.2 e he)⟩

/-- The canonical form of a state, table by table. -/
def isCanonical (s : State) : Bool :=
  Table.rising s.table.contexts && (Table.rising s.engines.running && (canonicalTable PosRecord.free s.mapu.map &&
    (canonicalTable RosterEntry.unknown s.mapu.roster && (Table.rising s.pool.takenMarks &&
      canonicalTable 0 s.report.counters))))

theorem canonical_of (s : State) (h : isCanonical s = true) : s.canonical := by
  simp only [isCanonical, Bool.and_eq_true] at h
  obtain ⟨h1, h2, h3, h4, h5, h6⟩ := h
  exact ⟨h1, h2, canonicalTable_met _ _ h3, canonicalTable_met _ _ h4, h5, canonicalTable_met _ _ h6⟩

/-- In START, reading the configuration for the first time. -/
def reading : State :=
  { State.reset with life := { State.reset.life with held := false, loader := .reading, attempt := 1 } }

/-- Station 5 in ACTIVE with a PRESENT peer 2, at frame 1000 with block index 10, nothing due. -/
def active : State :=
  { State.reset with
    hwi := { State.reset.hwi with timing := .good, frameCount := 1000, blockIndex := some 10, windowTaken := false }
    life := { State.reset.life with held := false, station := .active, number := 5, loader := .done, result := .image }
    mapu := { State.reset.mapu with
      mapComplete := true, roster := [(2, ⟨.present, 3, none⟩), (5, ⟨.present, 0, none⟩)] } }

def listening : State :=
  { active with life := { active.life with station := .listen }, mapu := { active.mapu with mapComplete := false } }

def retreated : State := { active with life := { active.life with station := .retreat } }

def proving : State :=
  { State.reset with
    hwi := { State.reset.hwi with timing := .prove, frameCount := 60, blockIndex := some 10, provingRun := 3 }
    life := { State.reset.life with held := false, loader := .reading, attempt := 1 } }

def call : Call := { tag := 0x123, law := .aLaw, modeSet := 0xF, mode := 1, phase := 40, offerer := some 9 }

def speaker : Context :=
  { Context.fresh .primary none 7 call 2 with encoder := { token := 0 }, decoder := { token := 0 } }

def heldBy (q : Station) (shadow : Option Station) : PosRecord :=
  { PosRecord.free with state := .held, call := some call, primary := some q, shadow := shadow }

/-- The station holds context x as context 3 for position 7, whose record is r. -/
def inCall (x : Context) (r : PosRecord) : State :=
  { active with
    table := { active.table with contexts := [(3, x)] }
    mapu := { active.mapu with map := [(7, r)] } }

/-- Position 7 has record r and the station no context for it. -/
def outOfCall (r : PosRecord) : State := { active with mapu := { active.mapu with map := [(7, r)] } }

def heard (sender : BitVec 4) (n : Notice) : Heard := { sender := sender, grade := 0, notice := n, own := decide (sender = 5) }

/-- The Map Unit's turn with one record, stamped 999, of a notice. -/
def withNotice (sender : BitVec 4) (n : Notice) (s : State) : State :=
  { s with mapu := { s.mapu with intake := [{ stamp := 999, heard := some (heard sender n) }], turn := true } }

/-- The notices of the outbox. -/
def replies (s : State) : List Notice := s.notice.outbox.map (fun e => e.notice)

def released : List Bool := List.replicate 72 true
def clean : List Bool := List.replicate 72 false

/-! ### The queue -/

theorem test_step_front :
    step { State.reset with pending := [.coldStartRelease ⟨true, false, true⟩] } =
      exec (.coldStartRelease ⟨true, false, true⟩) State.reset := rfl

theorem test_step_idles : State.reset.pending = [] ∧ step State.reset = .next State.reset := ⟨rfl, rfl⟩

theorem test_no_word_spells : decodeTableWord 16 0xFFFF = none ∧ State.reset.withFetchWord 16 7 = State.reset := ⟨rfl, rfl⟩

/-! ### Life cycle -/

theorem test_held_keeps : State.reset.life.held = true ∧ after (exec .timingGood State.reset) = State.reset := by decide +kernel

theorem test_coldStart_boundary :
    after (exec (.coldStart (.resetLow 1000)) active) = State.reset ∧
      after (exec (.coldStart (.resetLow 999)) active) = active := by decide +kernel

theorem test_release :
    State.reset.life.held = true ∧ (after (exec (.coldStartRelease ⟨true, false, true⟩) State.reset)).life.number = 5 ∧
      reading.life.held = false ∧ after (exec (.coldStartRelease ⟨true, true, true⟩) reading) = reading := by decide +kernel

theorem test_read_first_failure :
    reading.participates = false ∧ reading.life.loader = .reading ∧ reading.life.attempt = 1 ∧
      (after (exec (.missingAcknowledge 2 .offset) reading)).life.loader = .pause := by decide +kernel

def paused : State := after (exec (.missingAcknowledge 9 .recovery) reading)

theorem test_read_second_failure :
    let s := after (exec .loaderPauseEnd paused)
    paused.life.loader = .pause ∧ paused.participates = false ∧ s.life.loader = .reading ∧ s.life.attempt = 2 ∧
      s.participates = false ∧ (after (exec (.missingAcknowledge 0 .addressRead) s)).life.result = .absent ∧
      (after (exec (.missingAcknowledge 0 .addressRead) s)).alertLow = true := by decide +kernel

theorem test_scl_boundary :
    let cut (acts bits : Nat) : ReadCut := { clocks := 1, image := List.replicate 11 0x6C, acts := acts, bits := bits }
    let port (acts bits : Nat) := (after (exec (.sclHeldLow ⟨10001, cut acts bits⟩) reading)).life.port
    port 0 0 = [.heldClock true, .releaseLines] ∧
      port 3 0 = [.recoveryClock, .startCondition, .sendByte 0xA0 true, .heldClock false, .releaseLines] ∧
      port 2 3 = [.recoveryClock, .startCondition, .sendBits [true, false, true], .heldClock false, .releaseLines] ∧
      (port 6 8).getLast? = some .releaseLines ∧ (port 6 8).contains (.receiveBits (bitsOf 8 0x6C)) = true ∧
      (cut 17 8).within = true ∧ (port 17 8).contains .stopCondition = false ∧
      after (exec (.sclHeldLow ⟨10000, cut 3 0⟩) reading) = reading := by decide +kernel

/-- SDA of the clock that is held: the next bit of a byte sent, released for its acknowledge and for the bits of a byte
received, and low for the acknowledge of a byte that another one follows. -/
theorem test_held_clock :
    let held (acts bits : Nat) :=
      (cutActs { clocks := 1, image := List.replicate 11 0x6C, acts := acts, bits := bits }).reverse.take 2
    held 2 2 = [.releaseLines, .heldClock true] ∧ held 2 3 = [.releaseLines, .heldClock false] ∧
      held 2 8 = [.releaseLines, .heldClock true] ∧ held 6 3 = [.releaseLines, .heldClock true] ∧
      held 6 8 = [.releaseLines, .heldClock false] ∧ held 16 8 = [.releaseLines, .heldClock true] ∧
      held 17 0 = [.releaseLines, .heldClock false] := by decide +kernel

/-- No STOP on the port where a read is cut off after the START, after a bit 0 sent, in a driven acknowledge or before the
STOP itself; and one at the end of every other attempt. -/
theorem test_no_stop_at_held_clock :
    let cut (acts bits : Nat) : ReadCut := { clocks := 1, image := List.replicate 11 0x6C, acts := acts, bits := bits }
    [(2, 0), (2, 4), (2, 8), (6, 8), (17, 0)].all (fun x =>
        (cut x.1 x.2).within && !(sendsStop ((cutActs (cut x.1 x.2)).flatMap PortAct.levels))) = true ∧
      sendsStop ((failedActs 0 .addressWrite).flatMap PortAct.levels) = true ∧
      sendsStop ((completeActs 0 (List.replicate 11 0x6C)).flatMap PortAct.levels) = true := by decide +kernel

/-- The first clocks of the byte 0xA0, sent with SDA released at the ninth. -/
theorem test_port_levels :
    (PortAct.levels (.sendByte 0xA0#8 true)).take 6 =
        [(false, true), (true, true), (false, false), (true, false), (false, true), (true, true)] ∧
      (PortAct.levels (.sendByte 0xA0#8 true)).length = 18 ∧
      (PortAct.levels (.receiveByte 0x00#8 true)).drop 16 = [(false, false), (true, false)] ∧
      PortAct.levels .stopCondition = [(false, false), (true, false), (true, true)] := by decide +kernel

/-- The image of 9.9 with its shed grace out of range, and the default image. -/
theorem test_image_partial :
    (judgeImage [0x6C, 200, 4, 32, 2, 1, 8, 16, 50, 20, 0x47]).2 = .partialImage ∧
      (judgeImage [0x6C, 200, 4, 32, 2, 1, 8, 16, 50, 20, 0x47]).1.budget = 200 ∧
      (judgeImage [0x6C, 200, 4, 32, 2, 1, 8, 16, 50, 20, 0x47]).1.shedGrace = 4 := by decide +kernel

theorem test_image_default_and_bad :
    judgeImage [0x6C, 240, 4, 32, 2, 1, 8, 16, 50, 4, 0x2F] = (Config.defaults, .image) ∧
      judgeImage [0x6C, 200, 4, 32, 2, 1, 8, 16, 50, 16, 0x47] = (Config.defaults, .bad) := by decide +kernel

theorem test_read_end :
    (after (exec (.configurationReadEnd 0 [0x6C, 240, 4, 32, 2, 1, 8, 16, 50, 4, 0x2F]) reading)).life.loader = .done ∧
      (after (exec (.configurationReadEnd 0 (List.replicate 11 0)) reading)).report.isSet .configBad = true := by
  decide +kernel

theorem test_enterListen :
    let s : State := { active with life := { active.life with station := .start } }
    s.life.held = false ∧ s.hwi.timing = .good ∧ s.life.station = .start ∧ s.life.loader = .done ∧
      s.hwi.blockDue = none ∧ (after (exec .enterListen s)).notice.outbox =
        [{ notice := .present 0 240 64 true false, age := 0, retries := 0 }] := by decide +kernel

theorem test_quietPeriodEnd :
    let s (n : Nat) : State := { active with life := { active.life with
      station := .retreat, quietJudge := true, quietCount := n } }
    (s 16).life.settings.quietPeriod ≤ (s 16).life.quietCount ∧ (s 16).hwi.timing = .good ∧
      (after (exec .quietPeriodEnd (s 16))).life.station = .listen ∧
      (s 15).life.quietCount < (s 15).life.settings.quietPeriod ∧
      (after (exec .quietPeriodEnd (s 15))).life.station = .retreat := by decide +kernel

theorem test_mapComplete :
    let s : State := { listening with mapu := { listening.mapu with listenCount := 72 } }
    s.life.held = false ∧ s.life.station = .listen ∧ s.mapu.listenCount = 72 ∧ s.mapu.mapComplete = false ∧
      s.notice.inWindow = none ∧ s.pool.stage = .idle ∧ (after (exec .mapComplete s)).life.station = .active := by
  decide +kernel

/-- The decisions that waited for the entry follow it; an entry that came in between waits for them. -/
theorem test_mapComplete_stages :
    let s (stage : PoolStage) : State :=
      { listening with
        mapu := { listening.mapu with listenCount := 72 }
        pool := { listening.pool with stage := stage }
        notice := { NoticeCtl.empty with outbox := [{ notice := .present 0 240 64 true false, age := 0, retries := 0 }] } }
    let t (stage : PoolStage) := after (exec .mapComplete (s stage))
    (t .entry).life.station = .active ∧ (t .entry).pool.stage = .idle ∧ (t .entry).pool.heartbeat = 1 ∧
      (t .entry).notice.outbox.map (fun e => e.notice) = [.present 0 240 64 false true] ∧
      t .heartbeat = s .heartbeat := by decide +kernel

/-! ### Timing -/

theorem test_bsync_good :
    let h (b : BlockIndex) (n : Nat) : Hwi := { active.hwi with blockIndex := some b, blockMisses := n }
    (h 159 0).bsyncVerdict true = .goes (some 0) false (some .marked) ∧
      (h 159 0).bsyncVerdict false = .goes (some 0) false (some .bridged) ∧ (h 159 1).bsyncVerdict false = .fault ∧
      (h 158 0).bsyncVerdict true = .fault ∧ (h 158 0).bsyncVerdict false = .goes (some 159) false none ∧
      (h 0 0).bsyncVerdict false = .goes (some 1) false none := by decide +kernel

theorem test_bsync_prove :
    let h (b : Option BlockIndex) : Hwi := { proving.hwi with blockIndex := b }
    (h (some 159)).bsyncVerdict true = .goes (some 0) true (some .marked) ∧ (h (some 159)).bsyncVerdict false = .fault ∧
      (h (some 158)).bsyncVerdict true = .fault ∧ (h (some 0)).bsyncVerdict false = .goes (some 1) false none ∧
      (h none).bsyncVerdict true = .goes (some 0) false (some .marked) := by decide +kernel

theorem test_reference :
    reading.life.held = false ∧ reading.settle.hwi.timing = .seek ∧
      (after (exec (.frameReferenceSet true) reading)).hwi.timing = .prove ∧ active.settle.hwi.timing ≠ .seek ∧
      after (exec (.frameReferenceSet true) active) = active := by decide +kernel

theorem test_timingGood :
    let s : State := { proving with hwi := { proving.hwi with provingRun := 16 } }
    s.life.held = false ∧ s.hwi.timing = .prove ∧ s.hwi.provingRun = 16 ∧ s.hwi.blockDue = none ∧
      (after (exec .timingGood s)).hwi.timing = .good ∧ proving.hwi.provingRun ≠ 16 ∧
      after (exec .timingGood proving) = proving := by decide +kernel

theorem test_frameEvent :
    active.life.held = false ∧ active.settle.hwi.timing ≠ .seek ∧
      active.settle.hwi.bsyncVerdict false = .goes (some 11) false none ∧
      (after (exec (.frameEvent false { si := [], pi := [] }) active)).hwi.frameCount = 1001 ∧
      reading.settle.hwi.timing = .seek ∧ after (exec (.frameEvent false { si := [], pi := [] }) reading) = reading := by
  decide +kernel

/-- A frame's sample and nibble reach the context of their position, of 162 samples the latest 161 stay, and the frame
after a step toward later is not compared with φ. -/
theorem test_frameStep :
    let lanes : Lanes := { si := List.replicate 7 0 ++ [0x99], pi := List.replicate 7 0 ++ [0xC] }
    let x (n : Nat) (later : Bool) : Context :=
      { speaker with sampleBlock := List.replicate n 0x11, steppedLater := later, markerWindow := [0xA, 0x5, 0x3] }
    let y (n : Nat) (later : Bool) := Context.frameStep 103 lanes (x n later)
    (y 161 false).sampleBlock = List.replicate 160 0x11 ++ [0x99] ∧ (y 0 false).sampleBlock = [0x99] ∧
      (y 0 false).due.closeCheck = true ∧ (y 0 true).due.closeCheck = false ∧ (y 0 true).steppedLater = false ∧
      (y 0 false).rxState = .confirm ∧ (y 0 false).presentedNibble = some 0xF ∧
      (Context.presentNibble { speaker with emitting := some { sent := 3, content := none, mode := 0 } }).presentedNibble =
        some 0xC := by decide +kernel

theorem test_bridgedFrameEvent :
    active.settle.hwi.timing = .good ∧ active.settle.hwi.frameMisses < 2 ∧
      active.settle.hwi.bsyncVerdict false = .goes (some 11) false none ∧
      (after (exec (.bridgedFrameEvent false { si := [], pi := [] }) active)).hwi.frameMisses = 1 ∧
      after (exec (.bridgedFrameEvent false { si := [], pi := [] }) proving) = proving := by decide +kernel

theorem test_bridged_third :
    let s : State := { active with hwi := { active.hwi with frameMisses := 2 } }
    2 ≤ s.settle.hwi.frameMisses ∧ after (exec (.bridgedFrameEvent false { si := [], pi := [] }) s) = s ∧
      s.settle.hwi.timing = .good ∧ s.settle.participates = true ∧
      (after (exec .frameMarkerMiss s)).life.lastCause = .timing := by decide +kernel

theorem test_nibble :
    let x : Context := { speaker with markerWindow := [0xA#4, 0x5#4, 0x3#4] }
    x.rxState = .hunt ∧ (Context.takeNibble 103 0xC#4 x).rxState = .confirm ∧
      (Context.takeNibble 103 0xC#4 x).markerPhase = 100 ∧ (Context.takeNibble 2 0xC#4 x).markerPhase = 159 ∧
      (Context.takeNibble 103 0xD#4 x).rxState = .hunt := by decide +kernel

theorem test_nibble_collected :
    let x : Context := { speaker with rxState := .synced, markerPhase := 100, collected := [1#4] }
    x.rxState ≠ .hunt ∧ (Context.takeNibble 100 0xA#4 x).collected = [0xA#4] ∧
      (Context.takeNibble 101 0x5#4 x).collected = [1#4, 0x5#4] ∧
      (Context.takeNibble 103 0x5#4 x).due.judgement = true ∧ (Context.takeNibble 99 0x5#4 x).due.completion = true := by
  decide +kernel

theorem test_presents :
    let x : Context := { speaker with playState := .running, playout := List.replicate 81 0x11#8 }
    let y : Context := { speaker with emitting := some { sent := 158, content := some (0xA5#8 :: 0x3C#8 :: List.replicate 78 0x12#8), mode := 0 } }
    speaker.playState ≠ .running ∧ (Context.presentSample speaker).presentedSample = some 0xD5#8 ∧
      (Context.presentSample x).due.need = true ∧ (Context.presentSample x).playout.length = 80 ∧
      (Context.presentNibble speaker).presentedNibble = some 0xF#4 ∧
      (Context.presentNibble y).presentedNibble = some 0x1#4 ∧
      (Context.presentNibble (Context.presentNibble y)).presentedNibble = some 0x2#4 ∧
      (Context.presentNibble (Context.presentNibble y)).emitting = none := by decide +kernel

theorem test_hclkGap_boundary :
    active.settle.hwi.timing = .good ∧ (after (exec (.hclkGap ⟨10001, 300, [], []⟩) active)).hwi.timing = .seek ∧
      (after (exec (.hclkGap ⟨10000, 300, [], []⟩) active)).hwi = { active.hwi with clockWatch := 10000 } ∧
      reading.settle.hwi.timing = .seek ∧ (after (exec (.hclkGap ⟨10001, 300, [], []⟩) reading)).hwi.clockWatch = 10001 := by
  decide +kernel

theorem test_bsync_fault :
    active.settle.hwi.bsyncVerdict true = .fault ∧
      (after (exec (.frameEvent true { si := [], pi := [] }) active)).report.isSet .timingLost = true ∧
      (after (exec (.bridgedFrameEvent true { si := [], pi := [] }) active)).life.station = .retreat := by decide +kernel

theorem test_timing_lost_in_start :
    let s : State := { active with life := { active.life with station := .start, loader := .reading } }
    s.settle.participates = false ∧ (after (exec (.hclkGap ⟨20000, 300, [], []⟩) s)).life = s.life := by decide +kernel

theorem test_proving_abandoned :
    proving.life.held = false ∧ proving.settle.hwi.timing = .prove ∧
      (after (exec .fsyncAbsentInProve proving)).hwi.timing = .seek ∧
      (after (exec (.strayFsync 1) proving)).hwi.timing = .seek ∧
      (after (exec (.strayFsync 2047) proving)).hwi.hclkCount = 2047 ∧
      (after (exec (.strayFsync 2047) active)).hwi.timing = .good ∧
      (after (exec (.hclkGap ⟨10001, 300, [], []⟩) proving)).hwi.timing = .seek := by decide +kernel

/-- A BSYNC that R78 does not allow: the frame event counts, and the proving run is abandoned. -/
theorem test_bsync_fault_in_prove :
    let t := after (exec (.frameEvent true { si := [], pi := [] }) proving)
    proving.settle.hwi.bsyncVerdict true = .fault ∧ t.hwi.timing = .seek ∧ t.hwi.frameCount = 61 ∧ t.report.flags = 0 := by
  decide +kernel

def atBlock (s : State) (k : BlockMark) : State := { s with hwi := { s.hwi with blockDue := some k } }

/-- The roster ages at a block event, and the heartbeat counts; an entry that comes first leaves the decisions waiting. -/
theorem test_blockEvent_roster :
    let o (a e : Bool) : BlockOrder := { agesFirst := a, entryFirst := e }
    let t (a e : Bool) (s : State) := after (exec (.blockEvent (o a e)) (atBlock s .marked))
    let full : State := { listening with mapu := { listening.mapu with listenCount := 71 } }
    active.pool.ageingDue = false ∧ ((t true true active).rosterAt 2).age = 4 ∧ ((t false true active).rosterAt 2).age = 4 ∧
      ((t true true active).rosterAt 5).age = 0 ∧ (t true true listening).pool.heartbeat = 1 ∧
      (t true true full).pool.stage = .entry ∧ (t true true full).mapu.listenCount = 72 ∧
      (t false true full).pool.ageingDue = true ∧ (t true false full).pool.stage = .idle := by decide +kernel

/-- A block event in a context that warms up, hunts and has not begun to run. -/
theorem test_contextBlocks :
    let x : Context := { speaker with state := .warming, role := some .shadow, warmUp := some 2 }
    let y : Context := { speaker with needsWithoutGood := 49 }
    let t (z : Context) := (inCall z (heldBy 5 none)).contextBlocks
    isCanonical (inCall x (heldBy 5 none)) = true ∧
      ((t x).ctx 3).map (fun z => (z.warmUp, z.counters.missing, z.needsWithoutGood)) = some (some 1, 1, 1) ∧
      (t x).report = active.report ∧ ((t y).ctx 3).map (fun z => (z.streamLost, z.needsWithoutGood)) = some (true, 50) ∧
      replies (t y) = [.report 0 2 0x40, .report 7 0x41 50] ∧ (t y).report.isSet .streamLost = true ∧
      replies (t { speaker with needsWithoutGood := 48 }) = [] ∧
      (t { speaker with playState := .running }).report.counter .missingParcels = 1 ∧
      ((t { speaker with playState := .running }).ctx 3).map (fun z => z.needsWithoutGood) = some 0 := by decide +kernel

/-- Two contexts that reach the stream-lost limit at one block event: their REPORTs in rising context number (log 34). -/
theorem test_contextBlocks_two :
    let x (p : Pos) : Context := { speaker with position := p, needsWithoutGood := 49 }
    let s : State := { active with table := { active.table with contexts := [(3, x 9), (5, x 7)] } }
    isCanonical s = true ∧ replies s.contextBlocks = [.report 0 2 0x40, .report 9 0x41 50, .report 7 0x41 50] := by
  decide +kernel

/-- The decisions of a block event stand at a shed that is due, or at a peer that is lost. -/
theorem test_poolDecisions :
    let s (budget age : Nat) : State := { inCall speaker (heldBy 5 none) with
      life := { active.life with settings := { Config.defaults with budget := budget, shedGrace := 1 } }
      mapu := { active.mapu with map := [(7, heldBy 5 none)], roster := [(2, ⟨.present, age, none⟩)] } }
    (s 2 0).poolDecisions.pool.stage = .shed ∧ (s 240 18).poolDecisions.pool.stage = .loss ∧
      (s 240 17).poolDecisions.pool.stage = .idle ∧ (s 240 17).poolDecisions.pool.cursor = 7 := by decide +kernel

theorem test_blockEvent :
    let due (s : State) (k : BlockMark) : State := { s with hwi := { s.hwi with blockDue := some k } }
    let o : BlockOrder := { agesFirst := true, entryFirst := true }
    (after (exec (.blockEvent o) (due retreated .marked))).life.quietCount = 1 ∧
      (after (exec (.bridgedBlockEvent o) (due listening .bridged))).mapu.listenCount = 1 ∧
      (due retreated .marked).participates = false ∧ (due retreated .marked).table.contexts = [] ∧
      (after (exec (.bridgedBlockEvent o) (due retreated .bridged))).report.counter .bridgedBlockMarkers = 1 := by
  decide +kernel

theorem test_shedGrace :
    let x : Context := { speaker with downMode := 3 }
    let s : State := { inCall x (heldBy 5 none) with
      hwi := { active.hwi with blockDue := some .marked }
      life := { active.life with settings := { Config.defaults with budget := 4 } }
      pool := { active.pool with holdOff := 8 } }
    let t := after (exec (.blockEvent { agesFirst := true, entryFirst := true }) s)
    s.life.station = .active ∧ s.budget < s.load ∧ t.pool.shedGrace = 1 ∧ t.pool.holdOff = 7 := by decide +kernel

theorem test_shedGrace_listen :
    let s : State := { listening with hwi := { listening.hwi with blockDue := some .bridged } }
    s.life.station = .listen ∧ (s.participates = true → s.hwi.timing = .good) ∧ s.table.contexts = [] ∧ s.load = 0 ∧
      (after (exec (.bridgedBlockEvent { agesFirst := false, entryFirst := true }) s)).pool.shedGrace = 0 := by
  decide +kernel

/-! ### The control window -/

/-- The customary check inputs of the two polynomials. -/
theorem test_checks :
    let ascii : List Byte := [0x31, 0x32, 0x33, 0x34, 0x35, 0x36, 0x37, 0x38, 0x39]
    crc8 (ascii.flatMap (fun b => bitsOf 8 b.toNat)) = 0xF4#8 ∧ crc16 ascii = 0xAEE7#16 := by decide +kernel

/-- TAKEN 0xA5, tag 0x123, promotion, phase 159, from station 5: bit by bit from R87 and 11.1. -/
theorem test_notice_bits :
    encodeNotice (.taken 0xA5 0x123 .promotion 159) 0 5 =
      [false, false, true, false] ++ List.replicate 8 false ++ [false, true, false, true] ++
        [true, false, true, false, false, true, false, true] ++
        [false, false, false, true, false, false, true, false, false, false, true, true] ++ [false, true] ++
        [true, false, false, true, true, true, true, true] ++ List.replicate 10 false := by decide +kernel

def sampleNotices : List Notice :=
  [.lost 7 255, .taken 255 0xFFF .orphan 159, .clear 0 0, .offer 3 0x456 .muLaw 0x8 3, .bid 200 1 .orphan 15,
    .shed 9 0x800 5, .hold 61 0x0AB .muLaw 0x1 0 159 none, .hold 62 0 .aLaw 0xF 2 0 (some 7),
    .present 255 1 64 true false, .query 12 7 0x40, .report 255 0xFF 0xABCDEF]

theorem test_notices_round_trip :
    sampleNotices.all (fun n => n.admitted && ((List.range 16).filter (fun q => validSender n.kindCode q)).all (fun q =>
      decide (decodeNotice (encodeNotice n 0x5A (BitVec.ofNat 4 q)) = some (BitVec.ofNat 4 q, n)))) = true := by
  decide +kernel

theorem test_malformed_notices :
    Notice.admitted (.offer 3 1 .aLaw 0x7 3) = false ∧
      decodeNotice (encodeNotice (.offer 3 1 .aLaw 0x7 3) 0 9) = none ∧
      decodeNotice (encodeNotice (.clear 3 1) 0 5) = none ∧ decodeNotice (encodeNotice (.lost 3 1) 0 9) = none ∧
      decodeNotice (List.replicate 56 false) = none := by decide +kernel

def entry (n : Notice) (retries : Nat) : OutEntry := { notice := n, age := 0, retries := retries }

def present : Notice := .present 0 240 64 true false

/-- The station with notices in its outbox. -/
def sending (box : List OutEntry) (s : State) : State := { s with notice := { s.notice with outbox := box, nextAge := 9 } }

def idleMark : Record := { stamp := 1000, heard := none }

theorem test_idle_window :
    active.atQuietWindow ∧ active.notice.outbox = [] ∧ active.mapu.intake.length < 8 ∧
      (after (exec (.controlWindow released clean) active)).mapu.intake = [idleMark] := by decide +kernel

theorem test_window_elsewhere :
    let past : State := { retreated with hwi := { active.hwi with windowTaken := true } }
    retreated.life.held = false ∧ retreated.participates = false ∧ retreated.quiet = true ∧
      retreated.hwi.windowAhead = true ∧ (after (exec (.controlWindow clean clean) retreated)).hwi.windowTaken = true ∧
      past.quiet = true ∧ past.participates = false ∧ past.hwi.windowAhead = false ∧
      after (exec (.controlWindow clean clean) past) = past := by decide +kernel

theorem test_carried :
    let s := sending [entry present 31] active
    let t := after (exec (.controlWindow released clean) s)
    s.atQuietWindow ∧ s.mapu.intake.length < 8 ∧ present.admitted = true ∧
      validSender present.kindCode s.own.val = true ∧ t.notice.outbox = [] ∧ t.report.counter .noticesSent = 1 ∧
      t.mapu.intake = [{ stamp := 1000, heard := some (heard 5 present) }] := by decide +kernel

def rejecting : List Bool := List.replicate 65 true ++ false :: List.replicate 6 true

theorem test_rejected :
    let s (n : Nat) := sending [entry present n] active
    let t (n : Nat) := after (exec (.controlWindow rejecting clean) (s n))
    (s 30).atQuietWindow ∧ (t 30).notice.outbox = [entry present 31] ∧ (t 30).mapu.intake = [idleMark] ∧
      (s 31).atQuietWindow ∧ (t 31).life.station = .retreat ∧ (t 31).life.lastCause = .abandoned ∧
      (t 31).report.isSet .noticeAbandoned = true := by decide +kernel

theorem test_full_intake :
    let full : State := { active with mapu := { active.mapu with intake := List.replicate 8 idleMark } }
    full.atQuietWindow ∧ 8 ≤ full.mapu.intake.length ∧
      (after (exec (.controlWindow released clean) full)).hwi.clOut.getD 66 true = false ∧
      (after (exec (.controlWindow released clean) full)).mapu.intake = full.mapu.intake ∧
      (sending [entry present 30] full).atQuietWindow ∧
      (after (exec (.controlWindow released clean) (sending [entry present 30] full))).notice.outbox =
        [entry present 31] ∧ (sending [entry present 31] full).atQuietWindow ∧
      (after (exec (.controlWindow released clean) (sending [entry present 31] full))).life.lastCause = .abandoned := by
  decide +kernel

theorem test_arbitration_lost :
    let s := sending [entry present 3] active
    let t := after (exec (.controlWindow (windowBits (encodeNotice present 0 4) ++ List.replicate 7 true) clean) s)
    s.atQuietWindow ∧ present.arbitrationField 0 4 < present.arbitrationField (s.grade present) s.ownSender ∧
      t.notice = s.notice ∧ t.report.counter .arbitrationsLost = 1 ∧
      t.mapu.intake = [{ stamp := 1000, heard := some (heard 4 present) }] := by decide +kernel

theorem test_two_senders :
    let low := windowBits (encodeNotice present 0 4)
    let high := windowBits (encodeNotice present 0 5)
    low.length = 65 ∧ high.length = 65 ∧ low.getD 0 true = false ∧ high.getD 0 true = false ∧
      ofBits ((low.drop 1).take 16) + 1 = ofBits ((high.drop 1).take 16) ∧
      (contend (low ++ List.replicate 7 true) clean 0 high).mismatch = some 16 := by decide +kernel

theorem test_check_failed :
    let bits := encodeNotice present 0 4
    let check := bitsOf 8 ((crc8 bits).toNat + 1)
    active.atQuietWindow ∧ active.notice.outbox = [] ∧ bits.length = 56 ∧ check.length = 8 ∧
      check ≠ bitsOf 8 (crc8 bits).toNat ∧
      (after (exec (.controlWindow (false :: (bits ++ (check ++ List.replicate 7 true))) clean) active)).report.counter
        .checkFailures = 1 := by decide +kernel

/-- Disturbed after the arbitration field, for the third time: DUPLICATE_NUMBER and a retreat. -/
theorem test_third_collision :
    let s (n : Nat) : State := { sending [entry present 0] active with
      notice := { outbox := [entry present 0], nextAge := 1, collisionRun := n, inWindow := none } }
    let t (n : Nat) := after (exec (.controlWindow released (List.replicate 17 false ++ true :: List.replicate 54 false)) (s n))
    (t 1).notice.collisionRun = 2 ∧ (t 1).life.station = .active ∧ (t 2).life.station = .retreat ∧
      (t 2).life.lastCause = .duplicate := by decide +kernel

/-- A collision at the first bit after the arbitration field and at the last bit compared: what the station drove stays on
the lane up to it, and the window, rejected by another party, leaves an empty mark. -/
theorem test_collision :
    let s := sending [entry present 4] active
    let own := windowBits (encodeNotice present (s.grade present) s.ownSender)
    let noise (k : Nat) : List Bool := List.replicate k false ++ true :: List.replicate (71 - k) false
    let t (k : Nat) := after (exec (.controlWindow rejecting (noise k)) s)
    s.atQuietWindow ∧ s.notice.collisionRun < 2 ∧ (t 17).hwi.clOut.take 65 = own.take 18 ++ List.replicate 47 true ∧
      (t 64).hwi.clOut.take 65 = own ∧ (t 17).notice = { s.notice with collisionRun := 1 } ∧
      (t 64).report.counter .collisions = 1 ∧ (t 17).mapu.intake = [idleMark] := by decide +kernel

/-- A CLEAR from a station and a notice with the own number: misrouted, and the latter counts in the collision run. -/
theorem test_misrouted :
    let s (n : Nat) : State := { active with notice := { active.notice with collisionRun := n } }
    let t (n : Nat) (x : Notice) (q : BitVec 4) :=
      after (exec (.controlWindow (windowBits (encodeNotice x 0 q) ++ List.replicate 7 true) clean) (s n))
    (s 1).atQuietWindow ∧ ofBits ((encodeNotice (.clear 7 1) 0 4).take 4) = 3 ∧ (t 1 (.clear 7 1) 4).notice.collisionRun = 1 ∧
      (t 1 (.clear 7 1) 4).report.counter .misrouted = 1 ∧ (t 1 (.clear 7 1) 4).mapu.intake = [idleMark] ∧
      (t 1 present 5).notice.collisionRun = 2 ∧ (t 1 present 5).mapu.intake = [idleMark] ∧
      (t 2 present 5).life.lastCause = .duplicate := by decide +kernel

/-- The bits of a notice with a field of w bits at a place set to a number. -/
def withField (at_ w v : Nat) (n : Notice) (sender : BitVec 4) : List Bool :=
  let bits := encodeNotice n 0 sender
  bits.take at_ ++ bitsOf w v ++ bits.drop (at_ + w)

/-- The boundary of each value that R97 does not admit: the last one admitted and the first one malformed. -/
theorem test_malformed_boundaries :
    let reads (at_ w v : Nat) (n : Notice) (q : BitVec 4) : Bool := (decodeNotice (withField at_ w v n q)).isSome
    let between (at_ w ok bad : Nat) (n : Notice) (q : BitVec 4) : Bool := reads at_ w ok n q && !(reads at_ w bad n q)
    let hold : Notice := .hold 7 1 .aLaw 0x3 1 0 none
    between 16 8 7 8 (.lost 1 0) 4 = true ∧ between 36 2 2 3 (.taken 7 1 .handOff 0) 4 = true ∧
      between 38 8 159 160 (.taken 7 1 .handOff 0) 4 = true ∧ between 41 2 1 2 (.offer 7 1 .aLaw 0x3 1) 9 = true ∧
      between 37 4 2 0 (.offer 7 1 .aLaw 0x3 1) 9 = true ∧ between 41 2 0 2 hold 4 = true ∧
      between 43 8 159 160 hold 4 = true ∧ between 51 4 7 8 hold 4 = true ∧ between 51 4 15 14 hold 4 = true ∧
      between 40 7 64 65 present 4 = true ∧ between 24 4 7 8 (.query 1 1 1) 14 = true := by decide +kernel

/-- A malformed notice is misrouted, and a well-formed one of another party is entered as heard. -/
theorem test_heard :
    let t (v : Nat) := after (exec (.controlWindow (windowBits (withField 40 7 v present 4) ++ List.replicate 7 true) clean) active)
    active.atQuietWindow ∧ (t 65).report.counter .misrouted = 1 ∧ (t 65).mapu.intake = [idleMark] ∧
      (t 64).report = active.report ∧
      (t 64).mapu.intake = [{ stamp := 1000, heard := some (heard 4 present) }] := by decide +kernel

/-- A pause of HCLK in a window with the third collision, after its check has failed: no reject is driven (R107). -/
theorem test_pause_after_third_collision :
    let s : State := { sending [entry present 0] active with
      notice := { outbox := [entry present 0], nextAge := 1, collisionRun := 2, inWindow := none } }
    let own := windowBits (encodeNotice present (s.grade present) s.ownSender)
    let t := after (exec (.hclkGap ⟨10001, 1060, List.replicate 66 true, List.replicate 40 false ++ true :: List.replicate 25 false⟩) s)
    s.atQuietWindow ∧ t.hwi.clOut = own.take 41 ++ List.replicate 31 true ∧ t.life.lastCause = .duplicate ∧
      t.mapu.intake = [] := by decide +kernel

/-- A pause of HCLK after the first bit-time of a window, and after the bit-time before its judgement. -/
theorem test_pause_in_window :
    let s := sending [entry present 4] active
    let own := windowBits (encodeNotice present (s.grade present) s.ownSender)
    let t (k : Nat) := after (exec (.hclkGap ⟨10001, 16 * k, List.replicate k true, List.replicate k false⟩) s)
    s.atQuietWindow ∧ s.hwi.timing = .good ∧ (t 1).hwi.clOut = false :: List.replicate 71 true ∧
      (t 65).hwi.clOut = own ++ List.replicate 7 true ∧ (t 65).life.lastCause = .timing ∧ (t 65).mapu.intake = [] ∧
      (t 1).hwi.clockWatch = 10001 := by decide +kernel

/-! ### The outbox -/

theorem test_place :
    let s := sending [entry (.clear 1 1) 0, { entry (.report 0 2 0) 5 with age := 1 }] active
    s.notice.sound ∧ (s.place (.lost 3 4)).notice.outbox.map (fun e => e.notice.kindCode) = [1, 3, 10] ∧
      (s.place (.report 0 3 7)).notice.outbox =
        [entry (.clear 1 1) 0, { notice := .report 0 3 7, age := 1, retries := 5 }] := by
  unfold NoticeCtl.sound NoticeCtl.ordered OutEntry.before; decide +kernel

/-- Sixteen entries of kind REPORT. -/
def fullBox : State :=
  { active with notice := { active.notice with
      outbox := (List.range 16).map (fun i => { notice := .report (posOfCode i) 2 0, age := i, retries := 0 })
      nextAge := 16 } }

theorem test_place_full :
    fullBox.notice.sound ∧ fullBox.notice.outbox.length = 16 ∧
      (fullBox.place (.lost 3 4)).notice.outbox.length = 16 ∧
      (fullBox.place (.lost 3 4)).notice.outbox.head?.map (fun e => e.notice) = some (.lost 3 4) ∧
      (fullBox.place (.report 99 2 0)).notice.outbox = fullBox.notice.outbox ∧
      (fullBox.place (.report 99 2 0)).report.counter .outboxDrops = 1 := by
  unfold NoticeCtl.sound NoticeCtl.ordered OutEntry.before; decide +kernel

/-- A replacement of the entry in its window waits, and joins as a new one if the entry has left by success. -/
theorem test_place_in_window :
    let s := sending [entry (.lost 3 4) 5] active
    let w := s.beginWindow.place (.lost 3 9)
    (.lost 3 9 : Notice).key = (.lost 3 4 : Notice).key ∧ w.notice.outbox = [entry (.lost 3 4) 5] ∧
      w.leavesWindow.notice.outbox = [entry (.lost 3 9) 5] ∧
      ({ w with notice := { w.notice with outbox := [] } } : State).leavesWindow.notice.outbox =
        [{ notice := .lost 3 9, age := 9, retries := 0 }] := by decide +kernel

/-- An outbox of sixteen BIDs, the last of them for position 0, and its reservation. -/
def fullOfBids : State :=
  { active with
    notice := { active.notice with
      outbox := (List.range 16).map (fun i => { notice := .bid (posOfCode (15 - i)) 1 .shadow 2, age := i, retries := 0 })
      nextAge := 16 }
    table := { active.table with reservations := [{ position := 0, role := .shadow, cost := 2 }] }
    pool := { active.pool with fill := some 0, shedding := some 9, takenMarks := [(3, ())] } }

/-- What an evicted BID, a dropped BID, a dropped SHED and a dropped TAKEN leave behind (R9, R142, R148). -/
theorem test_place_unsent :
    let t (n : Notice) := fullOfBids.place n
    let u : State := { sending (List.replicate 16 (entry (.lost 3 0) 0)) active with pool := fullOfBids.pool }
    fullOfBids.notice.sound ∧ (t (.lost 3 4)).table.reservations = [] ∧ (t (.lost 3 4)).pool.fill = none ∧
      (t (.bid 0 1 .shadow 2)).table = fullOfBids.table ∧ (t (.bid 99 1 .offer 2)).notice.outbox = fullOfBids.notice.outbox ∧
      (t (.shed 9 1 2)).pool.shedding = none ∧ (t (.shed 8 1 2)).pool.shedding = some 9 ∧
      (u.place (.taken 3 1 .handOff 0)).pool.takenMarks = [] := by
  unfold NoticeCtl.sound NoticeCtl.ordered OutEntry.before; decide +kernel

/-- Where the last entry of a full outbox is the one in its window, a notice of a lower kind is dropped (log 32). -/
theorem test_place_full_in_window :
    let box := (List.range 15).map (fun i => entry (.lost (Fin.ofNat 8 i) 0) 0) ++ [entry (.report 0 2 0) 0]
    let s : State := { active with notice := { outbox := box, nextAge := 1, collisionRun := 0,
                                               inWindow := some { key := (10, 0), waiting := [] } } }
    (s.place (.clear 1 1)).notice = s.notice ∧ (s.place (.clear 1 1)).report.counter .outboxDrops = 1 := by decide +kernel

/-- A removal takes the entries that are not in their window at once; the one in its window leaves after it (R103). -/
theorem test_removal_in_window :
    let s : State := { sending [entry (.bid 7 1 .offer 3) 0, { entry (.hold 7 1 .aLaw 0xF 1 40 none) 0 with age := 1 }] active with
      table := { active.table with reservations := [{ position := 7, role := .offer, cost := 3 }] } }
    let w := s.beginWindow.removeNotices (.forPosition 7)
    s.notice.sound ∧ Removal.names (.forPosition 7) (.bid 7 1 .offer 3) = true ∧ replies w = [.bid 7 1 .offer 3] ∧
      w.table = s.table ∧ replies w.leavesWindow = [] ∧ w.leavesWindow.table.reservations = [] ∧
      ({ w with notice := { w.notice with outbox := [] } } : State).leavesWindow.table = s.table := by
  unfold NoticeCtl.sound NoticeCtl.ordered OutEntry.before; decide +kernel

/-! ### The intake, the map and the roster -/

def empty : State :=
  { active with mapu := { active.mapu with intake := [{ stamp := 999, heard := none }], turn := true } }

theorem test_emptyMark :
    empty.atTurn { stamp := 999, heard := none } ∧ (after (exec .applyEmptyMark empty)).mapu.intake = [] ∧
      (after (exec .applyEmptyMark empty)).mapu.mapTime = 999 := by decide +kernel

theorem test_closures :
    let s (st : PosState) : State :=
      { outOfCall { PosRecord.free with state := st, call := some call, closing := some 998 } with
        pool := { active.pool with shedding := some 7 } }
    let t (st : PosState) := (s st).closeWindow 7
    (t .offered).recAt 7 = PosRecord.free ∧ (t .held).recAt 7 = { PosRecord.free with state := .held, call := some call } ∧
      (t .shedding).pool.holdOff = 8 ∧ (t .shedding).pool.shedding = none ∧ (t .orphaned).recAt 7 = PosRecord.free ∧
      (t .orphaned).report.counter .orphanLapses = 1 := by decide +kernel

/-- The steps before a record: a switch frame of this frame in a record and in a context, and the claim windows that
closed before the stamp 999, and not the one that closes at it. -/
theorem test_beginRecord :
    let lapsed (c : FrameCount) : PosRecord := { PosRecord.free with state := .offered, call := some call, closing := some c }
    let s : State := { inCall { speaker with state := .standby, role := some .taker, switchFrame := some 1000 } (heldBy 5 none) with
      mapu := { active.mapu with turn := true, map := [(7, { heldBy 5 none with switchFrame := some 1000, yielding := some 2 }),
        (8, lapsed 998), (9, lapsed 999), (10, { heldBy 2 none with closing := some 998 })] } }
    let t := s.beginRecord { stamp := 999, heard := none }
    isCanonical s = true ∧ t.recAt 7 = heldBy 5 none ∧ t.recAt 8 = PosRecord.free ∧ t.recAt 9 = lapsed 999 ∧
      t.recAt 10 = heldBy 2 none ∧ (t.ctx 3).map (fun x => (x.state, x.role, x.switchFrame)) = some (.primary, none, none) ∧
      t.mapu.mapTime = 999 ∧ t.report.counter .offerLapses = 1 := by decide +kernel

theorem test_report :
    let s := withNotice 2 (.report 1 2 3) active
    s.atTurn { stamp := 999, heard := some (heard 2 (.report 1 2 3)) } ∧
      (heard 2 (.report 1 2 3)).station = some 2 ∧ ((after (exec .applyReport s)).rosterAt 2).age = 0 ∧
      (s.rosterAt 2).age = 3 ∧ (after (exec .applyReport s)).mapu.intake = [] := by decide +kernel

theorem test_present :
    let n (fresh : Bool) : Notice := .present 10 20 30 fresh true
    let t (q : BitVec 4) (fresh : Bool) := after (exec .applyPresent (withNotice q (n fresh) active))
    (withNotice 2 (n true) active).atTurn { stamp := 999, heard := some (heard 2 (n true)) } ∧
      (t 2 true).mapu.sweep = some { station := 2, group := 1 } ∧ (t 2 true).mapu.intake.length = 1 ∧
      (t 2 false).mapu.sweep = none ∧ (t 2 false).mapu.intake = [] ∧ (t 3 true).mapu.sweep = none ∧
      ((t 3 true).rosterAt 3).last = some { headroom := 20, freeContexts := 30, active := true } ∧
      (t 5 true).mapu.sweep = none := by decide +kernel

theorem test_lost :
    let t (x : Station) := after (exec .applyLost (withNotice 1 (.lost x 19) active))
    (withNotice 1 (.lost 2 19) active).atTurn { stamp := 999, heard := some (heard 1 (.lost 2 19)) } ∧
      (t 2).mapu.sweep = some { station := 2, group := 1 } ∧ ((t 2).rosterAt 2).state = .lost ∧
      (t 7).mapu.sweep = none ∧ ((t 7).rosterAt 7).state = .lost ∧ (t 7).mapu.intake = [] ∧
      (t 5).life.station = .retreat ∧ (t 5).life.lastCause = .declared := by decide +kernel

/-- The sweep begins with positions 0 to 31 at once. -/
theorem test_swept_at_once :
    let s (n : Notice) : State := withNotice 2 n
      { active with mapu := { active.mapu with map := [(0, heldBy 2 none), (31, heldBy 2 none), (32, heldBy 2 none)] } }
    let p := after (exec .applyPresent (s (.present 1 2 3 true true)))
    let l := after (exec .applyLost (s (.lost 2 19)))
    isCanonical (s (.lost 2 19)) = true ∧ (p.recAt 31).state = .orphaned ∧ (p.recAt 0).state = .orphaned ∧
      p.recAt 32 = heldBy 2 none ∧ (l.recAt 31).state = .orphaned ∧ l.recAt 32 = heldBy 2 none := by decide +kernel

theorem test_removal :
    let r := heldBy 1 none
    ({ r with yielding := some 2, switchFrame := some 4 }).without 1 999 32 = heldBy 2 none ∧
      r.without 1 999 32 = { PosRecord.free with state := .orphaned, call := some call, closing := some 1031 } ∧
      (heldBy 1 (some 2)).without 1 999 32 =
        { PosRecord.free with state := .orphaned, call := some call, shadow := some 2 } ∧
      ({ r with state := .shedding, shadow := some 2 }).without 2 999 32 =
        { r with state := .shedding, closing := some 1031 } ∧ (heldBy 1 (some 2)).without 2 999 32 = r ∧
      ({ r with state := .shedding, taker := some 2 }).without 2 999 32 = r ∧
      ({ r with state := .orphaned, primary := none, taker := some 2 }).without 2 999 32 = PosRecord.free ∧
      ({ r with yielding := some 2 }).without 2 999 32 = { r with yielding := none } ∧
      r.names 3 = false ∧ r.without 3 999 32 = r := by decide +kernel

/-- A sweep of station 2 at a group, with a position of groups 0 and 7 each. -/
def sweeping (g : Nat) : State :=
  { active with mapu := { active.mapu with
      map := [(31, heldBy 2 none), (224, heldBy 2 none)], sweep := some { station := 2, group := g }, turn := true
      intake := [idleMark] } }

theorem test_sweep :
    (sweeping 7).life.held = false ∧ (sweeping 7).participates = true ∧ (sweeping 7).mapu.turn = true ∧
      (after (exec .sweepGroup (sweeping 7))).mapu.sweep = none ∧
      (after (exec .sweepGroup (sweeping 7))).mapu.intake = [] ∧
      ((after (exec .sweepGroup (sweeping 7))).recAt 224).state = .orphaned ∧
      (after (exec .sweepGroup (sweeping 7))).recAt 31 = heldBy 2 none ∧
      (after (exec .sweepGroup (sweeping 6))).mapu.sweep = some { station := 2, group := 7 } := by decide +kernel

theorem test_sweep_canonical : (sweeping 7).canonical := canonical_of _ (by decide +kernel)

/-- What a removal of station 1 moves in the own station: R15, R17, R146 and R147. -/
theorem test_removal_reactions :
    let yielder : Context := { speaker with state := .yielding, switchFrame := some 1100 }
    let standby : Context := { speaker with state := .standby, role := some .shadow }
    let yields := (inCall yielder { heldBy 1 none with yielding := some 5, switchFrame := some 1100 }).removeStation 1 7
    let promotes := (inCall standby (heldBy 1 (some 5))).removeStation 1 7
    let takes := (inCall standby { heldBy 1 none with state := .shedding, taker := some 5 }).removeStation 1 7
    let bids := (outOfCall (heldBy 1 none)).removeStation 1 7
    let released_ := (inCall speaker (heldBy 5 none)).removeStation 5 7
    (yields.ctx 3).map (fun x => (x.state, x.switchFrame)) = some (.primary, none) ∧
      yields.recAt 7 = heldBy 5 none ∧ replies promotes = [.taken 7 0x123 .promotion 40] ∧
      replies takes = [.taken 7 0x123 .orphan 40] ∧ replies bids = [.bid 7 0x123 .orphan 3] ∧
      released_.ctx 3 = none := by decide +kernel

theorem test_recordSwitch :
    let r := { heldBy 2 none with yielding := some 1, switchFrame := some 1000 }
    (outOfCall r).life.held = false ∧ ((outOfCall r).recAt 7).switchFrame = some (outOfCall r).hwi.frameCount ∧
      (after (exec (.recordSwitchFrame 7) (outOfCall r))).recAt 7 = heldBy 2 none ∧
      ((outOfCall (heldBy 2 none)).recAt 7).switchFrame ≠ some 1000 ∧
      after (exec (.recordSwitchFrame 7) (outOfCall (heldBy 2 none))) = outOfCall (heldBy 2 none) := by decide +kernel

theorem test_clear :
    let s (tag : CallTag) := withNotice 9 (.clear 7 tag) (inCall speaker (heldBy 5 none))
    let r (tag : CallTag) : Record := { stamp := 999, heard := some (heard 9 (.clear 7 tag)) }
    (s 0x123).atTurn (r 0x123) ∧ (s 0x124).atTurn (r 0x124) ∧ (after (exec .applyClear (s 0x123))).recAt 7 = PosRecord.free ∧
      (after (exec .applyClear (s 0x123))).table.contexts = [] ∧
      (after (exec .applyClear (s 0x124))).recAt 7 = heldBy 5 none ∧
      (after (exec .applyClear (s 0x124))).report.counter .clearsRefused = 1 := by decide +kernel

theorem test_offer :
    let n : Notice := .offer 7 0x123 .aLaw 0xF 3
    let s (budget : Nat) := withNotice 9 n { active with life := { active.life with
      settings := { Config.defaults with budget := budget } } }
    let t (b : Nat) := after (exec .applyOffer (s b))
    (s 5).atTurn { stamp := 999, heard := some (heard 9 n) } ∧ ((s 5).recAt 7) = PosRecord.free ∧
      (s 5).waitingBid 7 = none ∧ (s 5).load + primaryCost 3 = (s 5).budget ∧
      (t 5).table.reservations = [{ position := 7, role := .offer, cost := 5 }] ∧
      (t 5).notice.outbox.map (fun e => e.notice) = [.bid 7 0x123 .offer 5] ∧ ((t 5).recAt 7).closing = some 1031 ∧
      (t 4).table.reservations = [] ∧ (t 4).notice.outbox = [] ∧ ((t 4).recAt 7).state = .offered := by decide +kernel

theorem test_offer_listening :
    let n : Notice := .offer 7 0x123 .aLaw 0xF 3
    let s := withNotice 9 n listening
    s.atTurn { stamp := 999, heard := some (heard 9 n) } ∧ s.life.station = .listen ∧ s.recAt 7 = PosRecord.free ∧
      ((after (exec .applyOffer s)).recAt 7).state = .offered ∧ (after (exec .applyOffer s)).notice.outbox = [] := by
  decide +kernel

/-- An OFFER over a held position: what stood there goes, and is counted. -/
theorem test_offer_over_held :
    let n : Notice := .offer 7 0x456 .muLaw 0x1 0
    let s := withNotice 9 n (sending [entry (.taken 7 0x123 .orphan 40) 0] (inCall speaker (heldBy 5 none)))
    let c := (s.beginRecord { stamp := 999, heard := some (heard 9 n) }).clearPosition 7
    let t := after (exec .applyOffer s)
    s.atTurn { stamp := 999, heard := some (heard 9 n) } ∧ (s.recAt 7).state ≠ .free ∧ c.recAt 7 = PosRecord.free ∧
      c.waitingBid 7 = none ∧ c.ctx 3 = none ∧ t.table.contexts = [] ∧ replies t = [.bid 7 0x456 .offer 3] ∧
      t.report.counter .offersOverHeld = 1 ∧ (t.recAt 7).state = .offered := by decide +kernel

/-- The four roles of a decision to bid, at a load that leaves just room and one that does not. -/
theorem test_placeBid :
    let s (budget : Nat) : State := { outOfCall (heldBy 1 none) with
      life := { active.life with settings := { Config.defaults with budget := budget } } }
    let t (budget : Nat) (role : BidRole) := (s budget).placeBid 7 role
    replies (t 3 .offer) = [.bid 7 0x123 .offer 3] ∧ t 2 .offer = s 2 ∧ replies (t 4 .shadow) = [.bid 7 0x123 .shadow 2] ∧
      t 3 .shadow = s 3 ∧ (t 4 .shadow).pool.fill = some 7 ∧ replies (t 3 .take) = [.bid 7 0x123 .take 2] ∧
      t 2 .take = s 2 ∧ replies (t 3 .orphan) = [.bid 7 0x123 .orphan 3] ∧ t 2 .orphan = s 2 := by decide +kernel

theorem test_shadowFill :
    let s (fill : Option Pos) : State := { active with
      mapu := { active.mapu with map := [(3, heldBy 5 none), (8, heldBy 1 none), (9, heldBy 1 none)] }
      pool := { active.pool with fill := fill } }
    isCanonical (s none) = true ∧ replies (s none).shadowFill = [.bid 8 0x123 .shadow 2] ∧
      (s (some 8)).shadowFill = s (some 8) := by decide +kernel

def offered : PosRecord := { PosRecord.free with state := .offered, call := some call, closing := some 999 }

theorem test_bid_primary :
    let n : Notice := .bid 7 0x123 .offer 5
    let t (q : BitVec 4) (r : PosRecord) := after (exec .applyBid (withNotice q n (outOfCall r)))
    (withNotice 5 n (outOfCall offered)).atTurn { stamp := 999, heard := some (heard 5 n) } ∧
      ((t 5 offered).recAt 7).primary = some 5 ∧
      ((t 5 offered).ctx 0).map (fun x => (x.state, x.position, x.cost)) = some (.primary, 7, 3) ∧
      ((t 2 offered).recAt 7).primary = some 2 ∧ (t 2 offered).table.contexts = [] ∧
      (t 2 { offered with closing := some 998 }).mapu.map = [] := by decide +kernel

/-- A fitting own BID consumes its reservation, and the context starts from its values at allocation (R2, R9, R10). -/
theorem test_bid_consumes :
    let n : Notice := .bid 7 0x123 .offer 5
    let s : State := { outOfCall offered with
      table := { active.table with reservations := [{ position := 7, role := .offer, cost := 3 }] } }
    let t := after (exec .applyBid (withNotice 5 n s))
    (withNotice 5 n s).atTurn { stamp := 999, heard := some (heard 5 n) } ∧ (withNotice 5 n s).life.station = .active ∧
      t.reservationFor 7 = none ∧
      (t.ctx 0).map (fun x => (x.rxState, x.playState, x.firstBlock, x.playout, x.needsWithoutGood)) =
        some (.hunt, .priming, true, [], 0) := by decide +kernel

theorem test_bid_shadow :
    let n : Notice := .bid 7 0x123 .shadow 2
    let t (q : BitVec 4) := after (exec .applyBid (withNotice q n (outOfCall (heldBy 1 none))))
    (withNotice 5 n (outOfCall (heldBy 1 none))).atTurn { stamp := 999, heard := some (heard 5 n) } ∧
      (t 5).recAt 7 = heldBy 1 (some 5) ∧
      ((t 5).ctx 0).map (fun x => (x.state, x.role, x.warmUp)) = some (.warming, some .shadow, some 2) ∧
      (t 1).report.counter .staleBids = 1 ∧ (t 1).recAt 7 = heldBy 1 none := by decide +kernel

theorem test_bid_taker :
    let shed : PosRecord := { heldBy 1 none with state := .shedding, closing := some 999 }
    let orphan : PosRecord := { shed with state := .orphaned, primary := none }
    let t (role : BidRole) (r : PosRecord) :=
      after (exec .applyBid (withNotice 2 (.bid 7 0x123 role 3) (outOfCall r)))
    ((t .take shed).recAt 7).taker = some 2 ∧ ((t .orphan orphan).recAt 7).taker = some 2 ∧
      (t .take orphan).report.counter .staleBids = 1 ∧ ((t .take orphan).recAt 7).taker = none := by decide +kernel

/-- Another station's BID over the own waiting offer BID (R136): kept at the standby cost, or withdrawn. -/
theorem test_bid_beaten :
    let n : Notice := .bid 7 0x123 .offer 3
    let s (shadowing : Bool) : State :=
      { sending [entry (.bid 7 0x123 .offer 3) 0] (outOfCall offered) with
        table := { active.table with reservations := [{ position := 7, role := .offer, cost := 3 }] }
        life := { active.life with settings := { Config.defaults with shadowing := shadowing } } }
    let t (shadowing : Bool) := after (exec .applyBid (withNotice 2 n (s shadowing)))
    (withNotice 2 n (s true)).atTurn { stamp := 999, heard := some (heard 2 n) } ∧
      (s true).waitingBid 7 = some (0x123, .offer) ∧ (t true).table.reservations.map (fun x => x.cost) = [2] ∧
      replies (t true) = [.bid 7 0x123 .offer 3] ∧ (t false).table.reservations = [] ∧ replies (t false) = [] := by
  decide +kernel

/-- The primary of a SHEDDING position restates the call when a taker appears (R145). -/
theorem test_taker_restated :
    let shed : PosRecord := { heldBy 5 none with state := .shedding, closing := some 999 }
    let s := withNotice 2 (.bid 7 0x123 .take 3) (inCall speaker shed)
    s.atTurn { stamp := 999, heard := some (heard 2 (.bid 7 0x123 .take 3)) } ∧
      replies (after (exec .applyBid s)) = [.hold 7 0x123 .aLaw 0xF 1 40 none] := by decide +kernel

/-- An own BID that no longer fits its record is withdrawn, and one that fits stays (R137). -/
theorem test_withdrawUnfit :
    let s (role : BidRole) (r : PosRecord) : State :=
      { sending [entry (.bid 7 0x123 role 3) 0] (outOfCall r) with
        table := { active.table with reservations := [{ position := 7, role := role, cost := 3 }] } }
    let shed : PosRecord := { heldBy 1 none with state := .shedding, closing := some 0 }
    let kept (role : BidRole) (r : PosRecord) : Bool := decide ((s role r).withdrawUnfit 7 = s role r)
    (s .offer offered).notice.inWindow = none ∧ kept .shadow (heldBy 1 none) = true ∧ kept .take shed = true ∧
      kept .orphan { shed with state := .orphaned, primary := none } = true ∧ kept .take (heldBy 1 none) = false ∧
      kept .offer { offered with closing := some 0 } = true ∧ kept .shadow (heldBy 1 (some 2)) = false ∧
      replies ((s .shadow (heldBy 1 (some 2))).withdrawUnfit 7) = [] ∧
      ((s .shadow (heldBy 1 (some 2))).withdrawUnfit 7).table.reservations = [] := by decide +kernel

/-- φ 40, stamp 999 with block index 9: the switch frame is 160 + 71 frames after. -/
theorem test_taken :
    let n : Notice := .taken 7 0x123 .promotion 40
    let r := heldBy 1 (some 2)
    let t := after (exec .applyTaken (withNotice 2 n (outOfCall r)))
    (withNotice 2 n (outOfCall r)).atTurn { stamp := 999, heard := some (heard 2 n) } ∧
      (withNotice 2 n (outOfCall r)).hwi.blockIndex = some 10 ∧ (t.recAt 7).primary = some 2 ∧
      (t.recAt 7).shadow = none ∧ (t.recAt 7).switchFrame = some 1230 ∧ (t.recAt 7).yielding = none ∧
      t.report.counter .takeovers = 1 := by decide +kernel

theorem test_taken_own :
    let n : Notice := .taken 7 0x123 .handOff 41
    let standby : Context := { speaker with state := .standby, role := some .taker }
    let own := after (exec .applyTaken (withNotice 5 n (inCall standby { heldBy 2 none with state := .shedding, taker := some 5 })))
    let yields := after (exec .applyTaken (withNotice 2 n (inCall speaker { heldBy 5 none with state := .shedding, taker := some 2 })))
    (own.ctx 3).map (fun x => (x.phase, x.switchFrame)) = some (41, some 1231) ∧ (own.recAt 7).yielding = some 2 ∧
      (yields.ctx 3).map (fun x => (x.state, x.switchFrame)) = some (.yielding, some 1231) ∧
      (yields.recAt 7).yielding = some 5 := by decide +kernel

/-- The own TAKEN clears its mark, and one with the context's own φ leaves a step toward later as it was (R13, R46). -/
theorem test_taken_same_phase :
    let n (ph : BlockIndex) : Notice := .taken 7 0x123 .handOff ph
    let standby : Context := { speaker with state := .standby, role := some .taker, phase := 41, steppedLater := true }
    let s : State := { inCall standby { heldBy 2 none with state := .shedding, taker := some 5 } with
      pool := { active.pool with takenMarks := [(7, ())] } }
    let t (ph : BlockIndex) := after (exec .applyTaken (withNotice 5 (n ph) s))
    ((t 41).ctx 3).map (fun x => (x.phase, x.steppedLater)) = some (41, true) ∧
      ((t 40).ctx 3).map (fun x => (x.phase, x.steppedLater)) = some (40, false) ∧ s.takenMark 7 = true ∧
      (t 41).takenMark 7 = false ∧ (t 41).report.counter .takeovers = 1 := by decide +kernel

theorem test_taken_stray :
    let n : Notice := .taken 7 0x123 .promotion 40
    let t := after (exec .applyTaken (withNotice 3 n (outOfCall (heldBy 1 none))))
    (heldBy 1 none).names 3 = false ∧ t.recAt 7 = heldBy 1 none ∧ t.report.counter .strays = 1 := by decide +kernel

/-- A stray TAKEN of a station that the record names removes it, and the own one releases the own context (R123). -/
theorem test_taken_stray_named :
    let n : Notice := .taken 7 0x124 .promotion 40
    let t := after (exec .applyTaken (withNotice 2 n (outOfCall (heldBy 1 (some 2)))))
    let own := after (exec .applyTaken (withNotice 5 n (inCall { speaker with state := .standby } (heldBy 1 (some 5)))))
    (heldBy 1 (some 2)).names 2 = true ∧ t.recAt 7 = heldBy 1 none ∧ t.report.counter .strays = 1 ∧
      own.recAt 7 = heldBy 1 none ∧ own.ctx 3 = none := by decide +kernel

theorem test_shed :
    let t (r : PosRecord) := after (exec .applyShed (withNotice 2 (.shed 7 0x123 4) (outOfCall r)))
    (withNotice 2 (.shed 7 0x123 4) (outOfCall (heldBy 2 none))).atTurn
        { stamp := 999, heard := some (heard 2 (.shed 7 0x123 4)) } ∧
      (t (heldBy 2 (some 1))).recAt 7 = { heldBy 2 (some 1) with state := .shedding } ∧
      (t (heldBy 2 none)).recAt 7 = { heldBy 2 none with state := .shedding, closing := some 1031 } ∧
      (t (heldBy 1 none)).recAt 7 = heldBy 1 none ∧ (t (heldBy 1 none)).report.counter .shedsRefused = 1 ∧
      replies (t (heldBy 2 none)) = [.bid 7 0x123 .take 2] := by decide +kernel

/-- The own shadow announces the hand-off once its context stands by (R143). -/
theorem test_shed_shadow :
    let t (st : CtxState) := after (exec .applyShed (withNotice 2 (.shed 7 0x123 4)
      (inCall { speaker with state := st, role := some .shadow } (heldBy 2 (some 5)))))
    replies (t .standby) = [.taken 7 0x123 .handOff 40] ∧ replies (t .warming) = [] := by decide +kernel

theorem test_hold_restates :
    let n (sh : Option Station) : Notice := .hold 7 0x124 .muLaw 0x3 1 99 sh
    let told : Call := { tag := 0x124, law := .muLaw, modeSet := 0x3, mode := 1, phase := 99, offerer := some 9 }
    let t (sh : Option Station) (r : PosRecord) := (after (exec .applyHold (withNotice 1 (n sh) (outOfCall r)))).recAt 7
    (withNotice 1 (n none) (outOfCall (heldBy 1 none))).atTurn { stamp := 999, heard := some (heard 1 (n none)) } ∧
      t none (heldBy 1 none) = { heldBy 1 none with call := some told } ∧
      t (some 2) (heldBy 1 none) = { heldBy 1 (some 2) with call := some told } ∧
      t (some 3) (heldBy 1 none) = { heldBy 1 none with call := some told } ∧
      t (some 2) (heldBy 1 (some 4)) = { heldBy 1 (some 4) with call := some told } := by decide +kernel

theorem test_hold_other :
    let n (sh : Option Station) : Notice := .hold 7 0x123 .aLaw 0xF 1 40 sh
    let t (q : BitVec 4) (sh : Option Station) (r : PosRecord) := after (exec .applyHold (withNotice q (n sh) (outOfCall r)))
    ((t 1 (some 2) PosRecord.free).recAt 7).shadow = some 2 ∧ ((t 1 (some 3) PosRecord.free).recAt 7).shadow = none ∧
      ((t 1 none PosRecord.free).recAt 7).call.map (fun k => k.offerer) = some none ∧
      (t 5 none PosRecord.free).recAt 7 = PosRecord.free ∧
      (t 2 none { heldBy 1 none with yielding := some 2 }).report.counter .censusMismatches = 1 ∧
      (t 3 none (heldBy 1 none)).recAt 7 = heldBy 1 none ∧ (t 2 none (heldBy 1 (some 2))).recAt 7 = heldBy 1 none := by
  decide +kernel

/-- The own HOLD over a call of another station releases the own context (R125), with one mismatch. -/
theorem test_hold_own_conflict :
    let n : Notice := .hold 7 0x123 .aLaw 0xF 1 40 none
    let t := after (exec .applyHold (withNotice 5 n (inCall { speaker with state := .standby } (heldBy 1 (some 5)))))
    t.recAt 7 = heldBy 1 none ∧ t.ctx 3 = none ∧ t.report.counter .censusMismatches = 1 := by decide +kernel

theorem test_hold_two_mismatches :
    let n (tag : CallTag) (sh : Option Station) : Notice := .hold 7 tag .aLaw 0xF 1 40 sh
    let count (tag : CallTag) (sh : Option Station) :=
      (after (exec .applyHold (withNotice 1 (n tag sh) (outOfCall (heldBy 1 (some 2)))))).report.counter .censusMismatches
    count 0x123 (some 2) = 0 ∧ count 0x124 (some 2) = 1 ∧ count 0x123 none = 1 ∧ count 0x124 (some 3) = 2 := by
  decide +kernel

/-- The census goes round from the position after its cursor. -/
theorem test_census :
    let x (p : Pos) : Context := { speaker with position := p }
    let s (cursor : Pos) : State := { active with
      table := { active.table with contexts := [(1, x 9), (2, x 3)] }, pool := { active.pool with cursor := cursor } }
    let next (cursor : Pos) := (s cursor).census.pool.cursor
    (s 3).ctxFor 9 = some (1, x 9) ∧ (s 3).ctxFor 3 = some (2, x 3) ∧ next 255 = 3 ∧ next 3 = 9 ∧ next 9 = 3 ∧
      replies (s 3).census = [.hold 9 0x123 .aLaw 0xF 1 40 none] ∧ (s 3).census.census = (s 3).census := by decide +kernel

/-! ### Queries -/

def job (kind : JobKind) (d : Direction) (deadline : FrameCount) : Job :=
  { ctx := 3, dir := d, kind := kind, deadline := deadline, service := 3, cls := .primary }

def asked (argument item : BitVec 8) (s : State) : State := withNotice 14 (.query argument 5 item) s

def flagged : State := { active with report := { active.report with flags := 0x81#8 } }

theorem test_queries :
    (asked 12 0x01 active).atTurn { stamp := 999, heard := some (heard 14 (.query 12 5 0x01)) } ∧
      replies (after (exec .queryStationSummary (asked 1 0x01 active))) = [.report 0 0x01 0x100F00] ∧
      replies (after (exec .queryStationSummary (asked 12 0x01 active))) = [.report 0 0x01 0xC00000] ∧
      replies (after (exec .queryStationSummary (asked 13 0x01 active))) = [.report 0 0xFF 0x00010D] ∧
      replies (after (exec .queryFaultFlags (asked 0 0x02 flagged))) = [.report 0 0x02 0x000081] ∧
      (after (exec .queryFaultFlags (asked 0 0x02 flagged))).alertLow = true ∧
      replies (after (exec .queryClearFlags (asked 0 0x03 flagged))) = [.report 0 0x03 0x000081] ∧
      (after (exec .queryClearFlags (asked 0 0x03 flagged))).alertLow = false := by decide +kernel

theorem test_outputsAndFlags :
    let s : State := inCall { speaker with presentedSample := some 0x55#8, presentedNibble := some 0xA#4 } (heldBy 5 none)
    let y : State := inCall { speaker with state := .standby } (heldBy 5 none)
    (s.ctxFor speaker.position).isSome = true ∧ s.soSlot speaker.position = some 0x55#8 ∧
      s.poNibble speaker.position = some 0xA#4 ∧ (y.ctxFor speaker.position).isSome = true ∧
      y.soSlot speaker.position = none ∧ (s.ctxFor (speaker.position + 1)).isNone = true ∧
      flagged.raiseFlag .overload = flagged ∧ flagged.report.isSet .timingLost = false ∧ flagged.participates = true ∧
      replies (flagged.raiseFlag .timingLost) = [.report 0 0x02 0x000085] ∧
      (State.reset.raiseFlag .overload).report.flags = 0x80#8 ∧ State.reset.participates = false ∧
      (State.reset.raiseFlag .overload).notice = State.reset.notice := by decide +kernel

/-- Four open take-ups come before the answer: word 3 shows four running jobs and one waiting, not five waiting. -/
theorem test_query_engines :
    let j := job (.conceal 0) .decodeSide 1070
    let s (n : Nat) : State := asked 3 0x01 { inCall speaker (heldBy 5 none) with
      engines := { queue := List.replicate n j, running := [], lateCount := 7 } }
    replies (after (exec .queryStationSummary (s 5))) = [.report 0 0x01 (3 * 2 ^ 20 + 1 * 2 ^ 12 + 4 * 2 ^ 9 + 7 * 2)] ∧
      (s 5).takeUps.engines.queue = [j] ∧ (s 5).takeUps.engines.running.length = 4 ∧
      (s 3).takeUps.engines.queue = [] ∧ (s 3).takeUps.engines.running.length = 3 := by decide +kernel

theorem test_query_counter :
    let s (n : Nat) : State := { active with report := { active.report with counters := [(0, 3), (31, 0xFFFFFF)] } }
    replies (after (exec .queryCounter (asked 0 0x10 (s 0)))) = [.report 0 0x10 3] ∧
      replies (after (exec .queryCounter (asked 0 0x2F (s 0)))) = [.report 0 0x2F 0xFFFFFF] ∧
      replies (after (exec .queryUnknownItem (asked 7 0x0F active))) = [.report 0 0xFF 0x000F07] ∧
      replies (after (exec .queryUnknownItem (asked 7 0x30 active))) = [.report 0 0xFF 0x003007] ∧
      (s 0).report.counted .fillers = (s 0).report := by decide +kernel

theorem test_query_position :
    let s (w : Option (Pos × Nat)) : State := { inCall speaker (heldBy 5 none) with report := { active.report with cursor := w } }
    let t (w : Option (Pos × Nat)) := after (exec .queryPositionStatus (asked 7 0x40 (s w)))
    (asked 7 0x40 (s none)).atTurn { stamp := 999, heard := some (heard 14 (.query 7 5 0x40)) } ∧
      replies (t none) = [.report 7 0x40 (2 * 2 ^ 16 + 5 * 2 ^ 12 + 0xFFF)] ∧ (t none).report.cursor = some (7, 1) ∧
      (t (some (7, 16))).report.cursor = some (7, 0) ∧ replies (t (some (7, 16))) = [.report 7 0x40 0xB00000] ∧
      (t (some (8, 3))).report.cursor = some (7, 1) := by decide +kernel

/-- Without an own context words 0 to 4 are all there are; a cursor beyond them begins anew. -/
theorem test_query_position_without_context :
    let s (w : Option (Pos × Nat)) (r : PosRecord) : State :=
      { outOfCall r with report := { active.report with cursor := w } }
    let t (w : Nat) (r : PosRecord) := after (exec .queryPositionStatus (asked 7 0x40 (s (some (7, w)) r)))
    (t 4 (heldBy 1 none)).report.cursor = some (7, 0) ∧ (t 5 (heldBy 1 none)).report.cursor = some (7, 1) ∧
      replies (t 1 (heldBy 1 none)) = [.report 7 0x40 (1 * 2 ^ 19 + 0x123 * 2 ^ 7 + 0 + 0xF * 4 + 1)] ∧
      replies (t 3 { heldBy 1 none with switchFrame := some 5 }) = [.report 7 0x40 (3 * 2 ^ 19 + 5 * 8)] ∧
      (∀ w, (some (7, 5) : Option (Pos × Nat)) = some (7, w) → ¬w ≤ 4) := by
  refine ⟨by decide +kernel, by decide +kernel, by decide +kernel, by decide +kernel, fun w h => ?_⟩
  cases h; decide

/-! ### SO and PO -/

/-- The station drives 1010 0101 in SO slot 7 and 0110 in PO nibble 7. -/
def driving (x : Context) : State :=
  inCall { x with presentedSample := some 0xA5, presentedNibble := some 0x6 } (heldBy 5 none)

/-- The levels from a bit-time on. -/
def so (s : State) (b n : Nat) : List (Option Bool) := (List.range n).map (fun i => s.soLevel (b + i))
def po (s : State) (b n : Nat) : List (Option Bool) := (List.range n).map (fun i => s.poLevel (b + i))

theorem test_levels :
    let s := driving speaker
    let bits (l : List Bool) : List (Option Bool) := none :: (l.map some ++ [none])
    s.released = [] ∧ so s 55 10 = bits [true, false, true, false, false, true, false, true] ∧
      po s 27 6 = bits [false, true, true, false] ∧ s.poLevel 1052 = none ∧ s.soLevel 2104 = none ∧
      so (driving { speaker with state := .standby }) 56 8 = List.replicate 8 none := by decide +kernel

/-- Released at HCLK count 58: two bits of slot 7 have been driven, and all of nibble 7; and before the frame's first
bit-time, nothing. -/
theorem test_released_midway :
    let s (n : Nat) : State := { driving speaker with hwi := { active.hwi with hclkCount := n } }
    let t (n : Nat) := (s n).releaseCtx 3
    (s 58).released = [] ∧ isCanonical (s 58) = true ∧
      so (t 58) 56 8 = [some true, some false] ++ List.replicate 6 none ∧
      po (t 58) 28 4 = po (s 58) 28 4 ∧ so (t 0) 0 2048 = List.replicate 2048 none ∧
      (t 58).released = [{ position := 7, sample := some 0xA5, nibble := some 0x6, bitTime := 58 }] ∧
      (t 58).soSlot 7 = none := by decide +kernel

/-- Lost at the third missing FSYNC, the frame before has run to its end; lost in a pause, its slots stand to the edge;
and the next frame begins with nothing on record. -/
theorem test_released_at_loss :
    let s : State := { driving speaker with hwi := { active.hwi with frameMisses := 2 } }
    let late := after (exec .frameMarkerMiss s)
    let cut := after (exec (.hclkGap ⟨10001, 57, [], []⟩) s)
    s.settle.released = [] ∧ s.settle.participates = true ∧ so late 56 8 = so s 56 8 ∧ po late 28 4 = po s 28 4 ∧
      so cut 56 8 = some true :: List.replicate 7 none ∧ po cut 28 4 = po s 28 4 ∧
      (after (exec (.frameReferenceSet false) late)).released = [] := by decide +kernel

/-- A third collision at control bit-time 17 releases the lanes at bit-time 284, and a notice abandoned at the judgement
at 1068: slot 7 is over, slot 133 stands in its fifth bit. -/
theorem test_released_in_window :
    let s (run retries : Nat) : State := { driving { speaker with position := 35 } with
      notice := { outbox := [entry present retries], nextAge := 1, collisionRun := run, inWindow := none } }
    let u (run retries : Nat) : State := { driving { speaker with position := 133 } with
      notice := { outbox := [entry present retries], nextAge := 1, collisionRun := run, inWindow := none } }
    let noise := List.replicate 17 false ++ true :: List.replicate 54 false
    let t := after (exec (.controlWindow rejecting noise) (s 2 0))
    let v := after (exec (.controlWindow rejecting clean) (u 0 31))
    (s 2 0).atQuietWindow ∧ (u 0 31).atQuietWindow ∧ t.life.lastCause = .duplicate ∧
      v.life.lastCause = .abandoned ∧ so t 280 8 = [some true, some false, some true, some false] ++ List.replicate 4 none ∧
      so v 1064 8 = [some true, some false, some true, some false] ++ List.replicate 4 none := by decide +kernel

/-! ### Contexts -/

theorem test_switchFrame :
    let at_ (st : CtxState) (f : FrameCount) : State :=
      inCall { speaker with state := st, role := some .taker, switchFrame := some f } (heldBy 5 none)
    let t (st : CtxState) := after (exec (.switchFrame 3) (at_ st 1000))
    (at_ .warming 1000).life.held = false ∧ ((at_ .warming 1000).ctx 3).isSome = true ∧
      ((t .warming).ctx 3).map (fun x => (x.state, x.role, x.switchFrame)) = some (.primary, none, none) ∧
      ((t .standby).ctx 3).map (fun x => x.state) = some .primary ∧ (t .yielding).ctx 3 = none ∧
      after (exec (.switchFrame 3) (at_ .standby 1001)) = at_ .standby 1001 := by decide +kernel

theorem test_release_ctx :
    let s := sending [entry (.taken 7 0x123 .orphan 40) 0, { entry (.report 0 2 0) 0 with age := 1 }]
      (inCall speaker (heldBy 5 none))
    (s.ctx 3).isSome = true ∧ (s.releaseCtx 3).ctx 3 = none ∧ replies (s.releaseCtx 3) = [.report 0 2 0] := by
  decide +kernel

theorem test_warmUpEnd :
    let at_ (n : Nat) (r : PosRecord) : State :=
      inCall { speaker with state := .warming, role := some .shadow, warmUp := some n } r
    let t (r : PosRecord) := after (exec (.warmUpEnd 3) (at_ 0 r))
    (at_ 0 (heldBy 1 (some 5))).life.held = false ∧
      ((t (heldBy 1 (some 5))).ctx 3).map (fun x => (x.state, x.role, x.warmUp)) = some (.standby, some .shadow, none) ∧
      replies (t (heldBy 1 (some 5))) = [] ∧
      replies (t { heldBy 1 (some 5) with state := .shedding }) = [.taken 7 0x123 .handOff 40] ∧
      after (exec (.warmUpEnd 3) (at_ 1 (heldBy 1 (some 5)))) = at_ 1 (heldBy 1 (some 5)) := by decide +kernel

/-- A TAKEN is announced once, by a context without a switch frame. -/
theorem test_placeTaken :
    let standby : Context := { speaker with state := .standby, role := some .shadow }
    let s : State := inCall standby { heldBy 1 (some 5) with state := .shedding }
    let t := s.placeTaken 7 .handOff
    s.takenMark 7 = false ∧ (s.recAt 7).call = some call ∧ replies t = [.taken 7 0x123 .handOff 40] ∧
      t.takenMark 7 = true ∧ t.placeTaken 7 .handOff = t ∧
      replies ((inCall { standby with switchFrame := some 9 } (heldBy 1 (some 5))).placeTaken 7 .orphan) = [] ∧
      s.takenDue 7 = some .handOff ∧ isCanonical s = true ∧ s.placeTakensDue = t ∧
      (inCall standby { heldBy 1 (some 5) with state := .orphaned, primary := none }).takenDue 7 = some .promotion ∧
      (inCall standby { heldBy 1 none with state := .orphaned, primary := none, taker := some 5 }).takenDue 7 =
        some .orphan := by decide +kernel

/-! ### The Pool Controller -/

theorem test_shedDecision :
    let s (r : PosRecord) : State := { inCall speaker r with
      pool := { active.pool with stage := .shed, shedGrace := 4 } }
    let t := after (exec .shedDecision (s (heldBy 5 (some 2))))
    (s (heldBy 5 (some 2))).life.held = false ∧ (s (heldBy 5 (some 2))).pool.stage = .shed ∧
      (s (heldBy 5 (some 2))).shedDue = true ∧ (s (heldBy 5 (some 2))).shedChoice = some speaker ∧
      ((s (heldBy 5 (some 2))).recAt speaker.position).call = some call ∧
      ((s (heldBy 5 (some 2))).recAt speaker.position).shadow.isSome = true ∧ t.pool.shedding = some 7 ∧
      t.pool.shedGrace = 0 ∧ (replies t).head? = some (.shed 7 0x123 3) ∧
      (after (exec .shedDecision (s (heldBy 5 none)))).pool.shedding = none := by decide +kernel

/-- Without a shadow a peer must have room: active, a free context, headroom for the cost; else nothing is placed. -/
theorem test_shedDecision_room :
    let s (v : LastValues) : State := { inCall speaker (heldBy 5 none) with
      pool := { active.pool with stage := .shed, shedGrace := 4 }
      mapu := { active.mapu with map := [(7, heldBy 5 none)], roster := [(2, ⟨.present, 0, some v⟩)] } }
    let shed (v : LastValues) : Option Pos := (after (exec .shedDecision (s v))).pool.shedding
    speaker.cost = 3 ∧ shed ⟨3, 1, true⟩ = some 7 ∧ shed ⟨2, 1, true⟩ = none ∧ shed ⟨3, 0, true⟩ = none ∧
      shed ⟨3, 1, false⟩ = none ∧ after (exec .shedDecision active) = active := by decide +kernel

theorem test_shedChoice :
    let x (p : Pos) (m : Mode) : Context := { speaker with position := p, downMode := m, upMode := m }
    let s : State := { active with
      table := { active.table with contexts := [(1, x 9 2), (2, x 8 2), (4, x 3 1)] }
      mapu := { active.mapu with map := [(3, heldBy 5 none), (8, heldBy 5 none), (9, heldBy 5 none)] } }
    s.shedChoice.map (fun y => y.position) = some 8 ∧ s.shedCandidate (x 8 2) = true := by decide +kernel

theorem test_declareLost :
    let s (age : Nat) : State := { active with
      pool := { active.pool with stage := .loss }
      mapu := { active.mapu with roster := [(2, ⟨.present, age, none⟩), (5, ⟨.present, 0, none⟩)] } }
    (s 18).life.held = false ∧ (s 18).pool.stage = .loss ∧ (∀ x, (s 18).lossDue x = true ↔ x = 2) ∧
      replies (after (exec .declareLost (s 18))) = [.lost 2 18] ∧ (s 17).lossDue 2 = false := by decide +kernel

/-- Two peers lost at one block event, declared in rising order; one whose LOST waits is not declared again. -/
theorem test_declareLost_two :
    let s : State := { sending [entry (.lost 3 20) 0] active with
      pool := { active.pool with stage := .loss }
      mapu := { active.mapu with roster := [(1, ⟨.present, 18, none⟩), (3, ⟨.present, 90, none⟩), (6, ⟨.present, 255, none⟩)] } }
    (∀ q, s.lossDue q = true ↔ q = 1 ∨ q = 6) ∧
      replies (after (exec .declareLost s)) = [.lost 3 20, .lost 1 18, .lost 6 255] ∧
      after (exec .declareLost active) = active := by decide +kernel

theorem test_heartbeat :
    let s : State := { active with pool := { active.pool with stage := .heartbeat, heartbeat := 4 } }
    s.life.held = false ∧ s.pool.stage = .heartbeat ∧ (after (exec .heartbeat s)).pool.heartbeat = 0 ∧
      replies (after (exec .heartbeat s)) = [.present 0 240 64 false true] := by decide +kernel

/-- Costs by mode and state, and the load they make (R6, R7). -/
theorem test_costs :
    let x (st : CtxState) (down up : Mode) : Context := { speaker with state := st, downMode := down, upMode := up }
    let s : State := { inCall (x .primary 0 3) (heldBy 5 none) with
      table := { contexts := [(3, x .primary 0 3)], reservations := [{ position := 8, role := .offer, cost := 4 }] } }
    [0, 1, 2, 3].map (fun m => ((x .yielding m 0).cost, (x .warming 0 m).cost)) = [(3, 2), (3, 2), (4, 3), (5, 3)] ∧
      s.load = 9 ∧ s.headroom = 231 ∧ s.freeContexts = 62 ∧ capped255 256 = 255 := by decide +kernel

theorem test_afterLoss :
    let s (n : Nat) (due : Bool) : State := { active with pool := { active.pool with heartbeat := n, ageingDue := due } }
    (s 3 false).afterLoss.pool.stage = .heartbeat ∧ (s 2 false).afterLoss.pool.stage = .idle ∧
      ((s 2 true).afterLoss.rosterAt 2).age = 4 ∧ ((s 2 false).afterLoss.rosterAt 2).age = 3 := by decide +kernel

/-! ### The uplink -/

def due (d : Due) (x : Context) : State := inCall { x with due := d } (heldBy 5 none)

theorem test_markerJudgement :
    let x (st : RxState) (good : Bool) (misses : Nat) : State := due { Due.none with judgement := true }
      { speaker with rxState := st, missCount := misses
                     collected := if good then markerNibbles else [0xA#4, 0x5#4, 0x3#4, 0xD#4] }
    let t (st : RxState) (good : Bool) (n : Nat) :=
      ((after (exec (.markerJudgement 3) (x st good n))).ctx 3).map (fun y => (y.rxState, y.missCount))
    (x .confirm true 0).life.held = false ∧ t .confirm true 0 = some (.synced, 0) ∧ t .confirm false 0 = some (.hunt, 0) ∧
      t .synced true 2 = some (.synced, 0) ∧ t .synced false 1 = some (.synced, 2) ∧ t .synced false 2 = some (.hunt, 0) := by
  decide +kernel

theorem test_syncLoss_ring :
    let x (ring : List RingEntry) : State := due { Due.none with judgement := true }
      { speaker with rxState := .synced, missCount := 2, ring := ring, playState := .running }
    let e : RingEntry := { result := .bad .crc, completed := 1 }
    let t (ring : List RingEntry) := ((after (exec (.markerJudgement 3) (x ring))).ctx 3).map (fun y => y.ring.length)
    let counts (ring : List RingEntry) := (after (exec (.markerJudgement 3) (x ring))).report
    t [e, e] = some 3 ∧ t [e, e, e] = some 3 ∧ (counts [e]).counter .syncLosses = 1 ∧ (counts [e]).counter .badParcels = 1 ∧
      (counts [e, e, e]).counter .ringDiscards = 1 := by decide +kernel

/-- The parcel SPEECH, mode 1, as another station would build it. -/
def parcel (impaired : Bool) : List Nibble :=
  (List.range 160).map (parcelNibble (buildParcel .speech 1 2 impaired false (List.replicate 20 0x5A#8)))

def changeNibble (k : Nat) (n : Nibble) (l : List Nibble) : List Nibble := l.take k ++ n :: l.drop (k + 1)

theorem test_parcel_checks :
    judgeParcel 0xF#4 (changeNibble 3 0#4 (parcel false)) = .bad .marker ∧
      judgeParcel 0xF#4 (changeNibble 4 0xF#4 (parcel false)) = .bad .header ∧
      judgeParcel 0xF#4 (changeNibble 9 0#4 (parcel false)) = .bad .crc ∧
      judgeParcel 0x1#4 (parcel false) = .bad .mode ∧ judgeParcel 0xF#4 (parcel true) = .bad .impaired ∧
      judgeParcel 0xF#4 (changeNibble 159 0#4 (parcel false)) =
        .good { kind := .speech, mode := 1, payload := List.replicate 20 0x5A#8, rateRequest := 2, advance := 0 } := by
  decide +kernel

theorem test_parcel_bytes :
    (buildParcel .noData 3 3 false true []).take 4 = [0xA5, 0x3C, 0xBD, 0x00] ∧
      (buildParcel .noData 3 3 false true []).length = 80 ∧ (List.replicate 20 0x5A#8).length = payloadLength .speech 1 ∧
      ModeSet.member 0xF#4 1 = true := by decide +kernel

theorem test_parcelCompletion_good :
    let x (ring : List RingEntry) : State := due { Due.none with completion := true }
      { speaker with rxState := .synced, collected := parcel false, ring := ring, playState := .running }
    let e : RingEntry := { result := .bad .crc, completed := 1 }
    let t (ring : List RingEntry) := ((after (exec (.parcelCompletion 3) (x ring))).ctx 3).map
      (fun y => (y.ring.length, y.counters.good, y.pendingDownMode, y.upMode))
    (x []).life.held = false ∧ t [e, e] = some (3, 1, some 2, 1) ∧ t [e, e, e] = some (3, 1, some 2, 1) ∧
      ModeSet.member speaker.modeSet 2 = true := by decide +kernel

/-- A result that joins an empty ring in PRIMING is posted at once, one that joins in STARTING begins the playout, and a
rate request outside the mode set is refused (R27, R32, R33). -/
theorem test_parcelCompletion_first :
    let s (st : PlayState) (rx : RxState) (modes : ModeSet) (impaired : Bool) : State := due { Due.none with completion := true }
      { speaker with rxState := rx, collected := parcel impaired, playState := st, modeSet := modes, needsWithoutGood := 4,
                     streamLost := true }
    let t (st : PlayState) (rx : RxState) (modes : ModeSet) (impaired : Bool) :=
      after (exec (.parcelCompletion 3) (s st rx modes impaired))
    let shown (u : State) := (u.ctx 3).map (fun y => (y.playState, y.needsWithoutGood, y.streamLost))
    let jobs (u : State) := u.engines.queue.map (fun j => (j.deadline, j.service))
    jobs (t .priming .synced 0xF false) = [(1070, 3)] ∧ shown (t .priming .synced 0xF false) = some (.priming, 0, false) ∧
      jobs (t .priming .synced 0xF true) = [(1070, 3)] ∧ shown (t .priming .synced 0xF true) = some (.priming, 4, true) ∧
      jobs (t .priming .confirm 0xF true) = [] ∧ jobs (t .starting .synced 0xF true) = [] ∧
      shown (t .starting .synced 0xF true) = some (.running, 4, true) ∧
      (t .running .synced 0xF false).report.counter .goodParcels = 1 ∧
      (t .running .synced 0xF false).report.counter .rateRequestsRefused = 0 ∧
      (t .running .synced 0x2 false).report.counter .rateRequestsRefused = 1 := by decide +kernel

/-- A full ring in SYNCED discards a BAD result. -/
theorem test_parcelCompletion_full :
    let e : RingEntry := { result := .bad .crc, completed := 1 }
    let s : State := due { Due.none with completion := true }
      { speaker with rxState := .synced, collected := parcel true, ring := [e, e, e], playState := .running }
    let t := after (exec (.parcelCompletion 3) s)
    (t.ctx 3).map (fun y => (y.ring, y.counters.discarded)) = some ([e, e, e], 1) ∧ t.report.counter .ringDiscards = 1 ∧
      t.report.counter .badParcels = 1 := by decide +kernel

theorem test_parcelCompletion_bad :
    let x (st : RxState) : State := due { Due.none with completion := true }
      { speaker with rxState := st, collected := parcel true, playState := .running }
    let t (st : RxState) := ((after (exec (.parcelCompletion 3) (x st))).ctx 3).map (fun y => (y.ring.length, y.counters.bad))
    t .confirm = some (0, 1) ∧ t .synced = some (1, 1) := by decide +kernel

theorem test_need :
    let x (ring : List RingEntry) (q : QuietState) : State := due { Due.none with need := true }
      { speaker with ring := ring, quietState := q, concealLevel := 3, needsWithoutGood := 4, playState := .running }
    let bad (n : FrameCount) : RingEntry := { result := .bad .crc, completed := n }
    let good : RingEntry := { result := .good .noData 1 [], completed := 2 }
    let t (ring : List RingEntry) (q : QuietState) := after (exec (.need 3) (x ring q))
    let kinds (s : State) := s.engines.queue.map (fun j => (j.kind, j.deadline))
    (x [] .speech).life.held = false ∧ kinds (t [] .speech) = [(.conceal 3, 1070)] ∧
      kinds (t [] .quiet) = [(.comfortNoise, 1070)] ∧
      kinds (t [bad 1, good, bad 3] .speech) = [(.decode (.good .noData 1 []) .speech 3, 1070)] ∧
      ((t [bad 1, good, bad 3] .speech).ctx 3).map (fun y => (y.ring.length, y.needsWithoutGood)) = some (2, 0) ∧
      ((t [bad 1, bad 2] .speech).ctx 3).map (fun y => (y.ring.length, y.needsWithoutGood)) = some (2, 5) := by
  decide +kernel

/-- The need that brings the count to its limit begins the episode, and a full ring loses its oldest entry. -/
theorem test_stream_lost :
    let bad : RingEntry := { result := .bad .crc, completed := 1 }
    let x (n : Nat) : State := due { Due.none with need := true }
      { speaker with ring := [bad, bad, bad], needsWithoutGood := n, playState := .running }
    let t (n : Nat) := after (exec (.need 3) (x n))
    (x 49).life.settings.streamLostLimit = 50 ∧ ((t 49).ctx 3).map (fun y => (y.streamLost, y.counters.trimmed)) = some (true, 1) ∧
      replies (t 49) = [.report 0 2 0x40, .report 7 0x41 50] ∧ (t 49).report.counter .trims = 1 ∧
      (t 49).report.isSet .streamLost = true ∧ replies (t 48) = [] ∧
      ((t 48).ctx 3).map (fun y => y.streamLost) = some false := by decide +kernel

/-! ### The engines -/

def posted (queue : List Job) (running : Table 4 Running) (x : Context) : State :=
  { inCall x (heldBy 5 none) with engines := { queue := queue, running := running, lateCount := 7 } }

def running (j : Job) (doneAt : FrameCount) : Running := { job := j, half := { token := 1 }, doneAt := doneAt }

theorem test_jobTakeUp :
    let j := job (.conceal 0) .decodeSide 1070
    let s := posted [j, j] [(0, running j 1005)] speaker
    let t := after (exec .jobTakeUp s)
    s.life.held = false ∧ Table.lookup s.engines.running 1 = none ∧ t.engines.queue = [j] ∧
      Table.lookup t.engines.running 1 = some { job := j, half := { token := 0 }, doneAt := 1003 } ∧
      after (exec .jobTakeUp (posted [] [] speaker)) = posted [] [] speaker ∧
      (posted [j] [(0, running j 1), (1, running j 1), (2, running j 1), (3, running j 1)] speaker) =
        after (exec .jobTakeUp
          (posted [j] [(0, running j 1), (1, running j 1), (2, running j 1), (3, running j 1)] speaker)) := by
  decide +kernel

/-- A take-up that is open comes before the posting: the idle engine takes the standby job that waits, which the new job
would have come before; with no engine idle the new job goes ahead of it (R66). -/
theorem test_post_after_takeUp :
    let r := running (job .comfortNoise .encode 1040) 1005
    let waits : Job := { job (.conceal 1) .decodeSide 1070 with ctx := 2, cls := .standby }
    let s (n : Nat) : State := { due { Due.none with need := true } { speaker with playState := .running } with
      engines := { queue := [waits], running := [(0, r), (1, r), (2, r), (3, r)].take n, lateCount := 7 } }
    let t (n : Nat) := (after (exec (.need 3) (s n))).engines
    isCanonical (s 3) = true ∧ (t 3).queue.map (fun j => j.ctx) = [3] ∧
      (Table.lookup (t 3).running 3).map (fun x => x.job) = some waits ∧
      (t 4).queue.map (fun j => j.ctx) = [3, 2] ∧ (t 4).running = (s 4).engines.running ∧ (t 4).lateCount = 7 := by
  decide +kernel

/-- A delivery and the end of the head entry's job in one frame, at a full ring, in the two orders of the queue (log 35). -/
theorem test_ring_orders :
    let e : RingEntry := { result := .bad .crc, completed := 1 }
    let s : State := posted [] [(2, running (job (.decode (.bad .crc) .speech 0) .decodeSide 1070) 1000)] { speaker with
      due := { Due.none with completion := true }, rxState := .synced, collected := parcel false, ring := [e, e, e],
      playState := .running }
    let shown (u : State) := (u.ctx 3).map (fun y => (y.ring.length, y.counters.discarded))
    shown (after (exec (.parcelCompletion 3) (after (exec (.decodeCompletion 2) s)))) = some (3, 0) ∧
      shown (after (exec (.decodeCompletion 2) (after (exec (.parcelCompletion 3) s)))) = some (2, 1) := by decide +kernel

theorem test_job_order :
    let a : Job := { job (.conceal 0) .decodeSide 1070 with cls := .standby }
    let b := job (.conceal 0) .decodeSide 1070
    let c := job (.encode [] 1) .encode 1070
    let d := job (.conceal 0) .decodeSide 1069
    insertJob 1000 a (insertJob 1000 b (insertJob 1000 c (insertJob 1000 d []))) = [d, b, c, a] := by decide +kernel

/-- Each key of R65 alone, and the distance to a deadline over the wrap. -/
theorem test_job_keys :
    let a := job (.conceal 0) .decodeSide 2
    jobBefore 0xFFF0 a { a with cls := .standby, deadline := 1 } = true ∧ jobBefore 0xFFF0 { a with deadline := 0xFFFF } a = true ∧
      jobBefore 0xFFF0 { a with ctx := 2, dir := .encode } a = true ∧ jobBefore 0xFFF0 a { a with dir := .encode } = true ∧
      jobBefore 0xFFF0 a a = false := by decide +kernel

theorem test_decodeCompletion :
    let j := job (.conceal 15) .decodeSide 1070
    let s := posted [] [(2, running j 1000)] { speaker with playState := .priming }
    let t := after (exec (.decodeCompletion 2) s)
    s.life.held = false ∧ Table.lookup s.engines.running 2 = some (running j 1000) ∧ (s.ctx 3).isSome = true ∧
      t.engines.running = [] ∧
      (t.ctx 3).map (fun y => (y.concealLevel, y.playState, y.playout.length)) = some (16, .starting, 160) ∧
      (t.ctx 3).map (fun y => decide (y.playout = List.replicate 160 0xD5#8)) = some true := by decide +kernel

theorem test_decodeCompletion_canonical :
    (posted [] [(2, running (job (.conceal 15) .decodeSide 1070) 1000)] speaker).canonical := canonical_of _ (by decide +kernel)

/-- What a decode-side job leaves: QUIET or not, the concealment level, the ring's entries and the buffered samples. -/
def decoded (k : JobKind) : Option (Bool × Nat × Nat × Nat) :=
  let e : RingEntry := { result := .bad .crc, completed := 1 }
  let s := posted [] [(2, running (job k .decodeSide 1070) 1000)]
    { speaker with playState := .running, ring := [e, e], concealLevel := 3, lastBlock := some (List.replicate 160 0x20#8) }
  ((after (exec (.decodeCompletion 2) s)).ctx 3).map (fun z =>
    (decide (z.quietState = .quiet), z.concealLevel, z.ring.length, z.playout.length))

/-- A BAD entry is concealed in SPEECH, a level up, and gets comfort noise in QUIET; a SID makes QUIET. -/
theorem test_decodeCompletion_kinds :
    [.decode (.bad .crc) .speech 3, .decode (.bad .crc) .quiet 3, .decode (.good .noData 1 []) .speech 15, .conceal 0,
        .decode (.good .sid 1 [1, 2, 3, 4, 5]) .speech 3, .comfortNoise].map decoded =
      [some (false, 4, 1, 160), some (false, 3, 1, 160), some (false, 16, 1, 160), some (false, 1, 2, 160),
        some (true, 0, 1, 160), some (false, 3, 2, 160)] := by decide +kernel

theorem test_encodeCompletion :
    let j := job (.encode (List.replicate 160 0xD5#8) 1) .encode 1040
    let s := posted [] [(0, running j 1000)] { speaker with encodeInFlight := true }
    let t := after (exec (.encodeCompletion 0) s)
    s.life.held = false ∧ Table.lookup s.engines.running 0 = some (running j 1000) ∧ speaker.emitting = none ∧
      t.engines.running = [] ∧ (t.ctx 3).map (fun y => y.encodeInFlight) = some false := by decide +kernel

/-- While an earlier parcel is emitted the result is ready; an emission that awaits it takes it, with the limit flag. -/
theorem test_encodeCompletion_emitting :
    let s (content : Option (List Byte)) := posted [] [(0, running (job (.encode [] 1) .encode 1040) 1000)]
      { speaker with encodeInFlight := true, phaseLimit := true, emitting := some { sent := 2, content := content, mode := 1 } }
    let y (content : Option (List Byte)) := ((after (exec (.encodeCompletion 0) (s content))).ctx 3).map
      (fun z => (z.ready.isSome, z.phaseLimit, (z.emitting.bind (fun e => e.content)).isSome))
    isCanonical (s none) = true ∧ y (some []) = some (true, true, true) ∧ y none = some (false, false, true) := by decide +kernel

theorem test_jobDropped :
    let j (d : Direction) := job (if d = .encode then .encode [] 1 else .conceal 0) d 1000
    let t (d : Direction) := after (exec (.jobDropped 3 d) (posted [j d] [] { speaker with encodeInFlight := true }))
    (t .decodeSide).engines.queue = [] ∧ (t .decodeSide).engines.lateCount = 8 ∧
      ((t .decodeSide).ctx 3).map (fun y => (y.counters.lateDecode, y.concealLevel, y.playout.length)) = some (1, 1, 160) ∧
      ((t .encode).ctx 3).map (fun y => y.encodeInFlight) = some false := by decide +kernel

/-- The ninth late job of a block raises OVERLOAD; a running job is aborted at its deadline unless it completes there. -/
theorem test_jobDropped_running :
    let j : Job := job (.conceal 3) .decodeSide 1000
    let s (late : Nat) (doneAt : FrameCount) : State := { posted [] [(1, running j doneAt)] { speaker with
        playState := .running, lastBlock := some (List.replicate 160 0x20#8) } with
      engines := { queue := [], running := [(1, running j doneAt)], lateCount := late } }
    let t (late : Nat) := after (exec (.jobDropped 3 .decodeSide) (s late 1001))
    isCanonical (s 8 1001) = true ∧ (t 8).engines.running = [] ∧ (t 8).engines.lateCount = 9 ∧ (t 8).report.isSet .overload = true ∧
      (t 7).report.isSet .overload = false ∧ (t 9).report.isSet .overload = false ∧
      ((t 8).ctx 3).map (fun y => y.playout.length) = some 160 ∧ (t 8).report.counter .lateDecodes = 1 ∧
      after (exec (.jobDropped 3 .decodeSide) (s 8 1000)) = s 8 1000 ∧
      after (exec (.jobDropped 3 .encode) (s 8 1001)) = s 8 1001 := by decide +kernel

/-- The one late job of the context and direction is the running one. -/
theorem test_jobDropped_late :
    let j : Job := job (.conceal 3) .decodeSide 1000
    let s : State := posted [] [(1, running j 1001)] speaker
    ∀ k : Job, (k.ctx = 3 ∧ k.dir = .decodeSide ∧ k.deadline = s.hwi.frameCount ∧ (k ∈ s.engines.queue ∨
      ∃ e run, (e, run) ∈ s.engines.running ∧ run.job = k ∧ run.doneAt ≠ s.hwi.frameCount)) ↔ k = j := by
  intro j s k
  refine ⟨fun h => ?_, fun h => ?_⟩
  · obtain ⟨_, _, _, hq | ⟨e, r, hm, hj, _⟩⟩ := h
    · cases hq
    · cases List.mem_singleton.mp hm; exact hj.symm
  · subst h
    exact ⟨rfl, rfl, rfl, Or.inr ⟨1, running j 1001, List.mem_singleton.mpr rfl, rfl, by decide +kernel⟩⟩

/-- A dropped encode job for which an emission waits: the filler goes out. -/
theorem test_jobDropped_filler :
    let s (content : Option (List Byte)) := posted [job (.encode [] 1) .encode 1000] [] { speaker with
      encodeInFlight := true, phaseLimit := true, emitting := some { sent := 2, content := content, mode := 1 } }
    let t (content : Option (List Byte)) := after (exec (.jobDropped 3 .encode) (s content))
    (t none).report.counter .fillers = 1 ∧ (t none).report.counter .lateEncodes = 1 ∧
      ((t none).ctx 3).map (fun y => (y.encodeInFlight, y.phaseLimit, y.emitting)) = some (false, false,
        some { sent := 2, content := some (buildParcel .noData 1 3 true true []), mode := 1 }) ∧
      (t (some [])).report.counter .fillers = 0 := by decide +kernel

/-! ### The downlink -/

theorem test_formBlock :
    let x (n : Nat) (first : Bool) : Context := { speaker with sampleBlock := (List.range n).map (BitVec.ofNat 8), firstBlock := first }
    (x 161 true).formBlock.head? = some 1 ∧ (x 159 true).formBlock.head? = some 0xD5 ∧
      (x 159 false).formBlock.getLast? = some 158 ∧ (x 160 false).formBlock.length = 160 ∧
      (x 0 false).formBlock = List.replicate 160 0xD5#8 := by decide +kernel

theorem test_blockClose :
    let s (x : Context) : State := due { Due.none with closeCheck := true } { x with phase := 10 }
    let y (shift : BitVec 4) := (after (exec (.blockClose 3) (s { speaker with pendingShift := shift, pendingDownMode := some 3 }))).ctx 3
    (s speaker).life.held = false ∧ (s speaker).hwi.blockIndex = some 10 ∧
      (y 0).map (fun z => (z.phase, z.downMode, z.encodeInFlight, z.schedule)) =
        some (10, 3, true, some { frame := 1040, jobPosted := true, mode := 3 }) ∧
      (y 2).map (fun z => (z.phase, z.pendingShift)) = some (9, 1) ∧
      (y (-8)).map (fun z => (z.phase, z.pendingShift)) = some (11, -7) := by decide +kernel

theorem test_blockClose_limit :
    let s (b : BlockIndex) (shift : BitVec 4) : State :=
      { due { Due.none with closeCheck := true } { speaker with phase := b, pendingShift := shift } with
        hwi := { active.hwi with blockIndex := some b } }
    let y (b : BlockIndex) (shift : BitVec 4) := ((after (exec (.blockClose 3) (s b shift))).ctx 3).map
      (fun z => (z.phase, z.pendingShift, z.phaseLimit))
    y 0 1 = some (0, 0, true) ∧ y 159 (-1) = some (159, 0, true) ∧ y 1 1 = some (0, 0, false) ∧
      y 158 (-1) = some (159, 0, false) := by decide +kernel

/-- A step toward later leaves the mark that keeps the next frame from being compared; a step earlier leaves none. -/
theorem test_blockClose_later :
    let s (b : BlockIndex) (shift : BitVec 4) : State :=
      { due { Due.none with closeCheck := true } { speaker with phase := b, pendingShift := shift } with
        hwi := { active.hwi with blockIndex := some b } }
    let y (b : BlockIndex) (shift : BitVec 4) := ((after (exec (.blockClose 3) (s b shift))).ctx 3).map
      (fun z => (z.phase, z.steppedLater))
    y 10 (-1) = some (11, true) ∧ y 10 1 = some (9, false) ∧ y 159 (-1) = some (159, false) ∧
      y 158 (-1) = some (159, true) := by decide +kernel

/-- A close that finds the encode job in flight posts none, and one that finds an emission start pending replaces it. -/
theorem test_blockClose_busy :
    let e : EmissionStart := { frame := 1001, jobPosted := true, mode := 1 }
    let ready : ReadyEntry := { kind := .noData, mode := 1, payload := [] }
    let s (start : Option EmissionStart) : State := { due { Due.none with closeCheck := true }
        { speaker with phase := 10, encodeInFlight := true, schedule := start, ready := some ready } with
      engines := { queue := [job (.encode [] 1) .encode 1001, job (.conceal 0) .decodeSide 1001]
                   running := [(0, running (job (.encode [] 1) .encode 1001) 1002)], lateCount := 0 } }
    let t (start : Option EmissionStart) := after (exec (.blockClose 3) (s start))
    let y (start : Option EmissionStart) := ((t start).ctx 3).map (fun z => (z.encodeInFlight, z.ready, z.schedule))
    y none = some (true, some ready, some { frame := 1040, jobPosted := false, mode := 1 }) ∧ (t none).engines = (s none).engines ∧
      y (some e) = some (false, none, some { frame := 1040, jobPosted := false, mode := 1 }) ∧
      (t (some e)).engines = { queue := [job (.conceal 0) .decodeSide 1001], running := [], lateCount := 0 } := by
  decide +kernel

theorem test_emissionStart :
    let e (posted : Bool) : EmissionStart := { frame := 1000, jobPosted := posted, mode := 1 }
    let s (ready : Option ReadyEntry) (posted inFlight : Bool) : State := inCall
      { speaker with schedule := some (e posted), ready := ready, encodeInFlight := inFlight, phaseLimit := true }
      (heldBy 5 none)
    let y (ready : Option ReadyEntry) (posted inFlight : Bool) :=
      (after (exec (.emissionStart 3) (s ready posted inFlight))).ctx 3
    let sid : ReadyEntry := { kind := .sid, mode := 1, payload := List.replicate 5 0x11#8 }
    (s none true true).life.held = false ∧
      (y (some sid) true false).map (fun z => z.emitting) =
        some (some { sent := 1, content := some (buildParcel .sid 1 3 true false (List.replicate 5 0x11#8)), mode := 1 }) ∧
      (y none true true).map (fun z => (z.emitting, z.phaseLimit)) =
        some (some { sent := 1, content := none, mode := 1 }, true) ∧
      (y none true false).map (fun z => (z.counters.lateEncode, z.phaseLimit)) = some (1, false) ∧
      (y none false true).map (fun z => z.counters.lateEncode) = some 1 := by decide +kernel

/-- A switch frame in the frame of an emission start comes first: the filler of the new primary counts. -/
theorem test_emissionStart_switch :
    let e : EmissionStart := { frame := 1000, jobPosted := false, mode := 1 }
    let s (st : CtxState) : State := inCall { speaker with state := st, switchFrame := some 1000, schedule := some e }
      (heldBy 1 (some 5))
    let t (st : CtxState) := after (exec (.emissionStart 3) (s st))
    isCanonical (s .standby) = true ∧ ((t .standby).ctx 3).map (fun y => y.state) = some .primary ∧
      (t .standby).report.counter .fillers = 1 ∧ (t .yielding).ctx 3 = none ∧
      (t .yielding).report.counter .fillers = 0 := by decide +kernel

/-! ### Invariants -/

theorem test_canonical_met : active.canonical := canonical_of _ (by decide +kernel)

theorem test_permitted_met : active.permitted := by
  unfold State.permitted; decide +kernel

theorem test_step_from_invariants :
    step { active with pending := [.heartbeat] } = .next active := rfl

end Sys2Proof.Tests
end

/-! Proofs: the invariants of a step (O58, O59) and the station after cold start (O60, O4). -/

namespace Sys2Proof.Proofs

open Sys2Proof Sys2Proof.Machine Sys2Proof.Laws

/-! ### What a step keeps -/

/-- A property that the work of every command keeps: the steps of a frame (`StepKeeps`), and beside them the cold start,
the configuration read, the timing lines, the control window and the switch frames taken one by one. The release from cold
start is left to the use: it changes the station state whatever the blocks hold. -/
structure CommandKeeps (P Q : State → Prop) : Prop extends StepKeeps P Q where
  coldStart : ∀ cause s, P s → P (s.doColdStart cause)
  missingAcknowledge : ∀ n a s, P s → P (s.doMissingAcknowledge n a)
  pauseEnd : ∀ s, P s → P s.doLoaderPauseEnd
  sclHeldLow : ∀ n x s, P s → P (s.doSclHeldLow n x)
  readEnd : ∀ n i s, P s → P (s.doConfigurationReadEnd n i)
  reference : ∀ b s, P s → P (s.doFrameReferenceSet b)
  frame : ∀ b l s, P s → P (s.doFrameEvent b l)
  bridgedFrame : ∀ b l s, P s → P (s.doBridgedFrameEvent b l)
  markerMiss : ∀ s, P s → P s.doFrameMarkerMiss
  absent : ∀ s, P s → P s.doFsyncAbsentInProve
  stray : ∀ e s, P s → P (s.doStrayFsync e)
  gap : ∀ n e o v s, P s → P (s.doHclkGap n e o v)
  window : ∀ o v s, P s → P (s.doControlWindow o v)
  switchFrame : ∀ c s, P s → P (s.doSwitchFrame c)
  recordSwitchFrame : ∀ p s, P s → P (s.doRecordSwitchFrame p)

/-- Every command keeps what the work of every command keeps. -/
theorem exec_keeps {P Q : State → Prop} (k : CommandKeeps P Q) {c : Instr} {s t : State}
    (release : ∀ straps, P (s.doColdStartRelease straps)) (h : P s) (he : exec c s = .next t) : P t := by
  have turn := k.toTurnKeeps
  cases c <;> cases he
  case coldStart cause => exact k.coldStart cause s h
  case coldStartRelease straps => exact release straps
  case missingAcknowledge n a => exact live_keeps (k.missingAcknowledge n a) h
  case loaderPauseEnd => exact live_keeps k.pauseEnd h
  case sclHeldLow hold => exact live_keeps (k.sclHeldLow _ _) h
  case configurationReadEnd n i => exact live_keeps (k.readEnd n i) h
  case frameReferenceSet b => exact live_keeps (k.reference b) h
  case frameEvent b l => exact live_keeps (k.frame b l) h
  case bridgedFrameEvent b l => exact live_keeps (k.bridgedFrame b l) h
  case frameMarkerMiss => exact live_keeps k.markerMiss h
  case strayFsync e => exact live_keeps (k.stray e) h
  case blockEvent o => exact live_keeps (k.block o) h
  case bridgedBlockEvent o => exact live_keeps (k.bridgedBlock o) h
  case timingGood => exact live_keeps k.timingGood h
  case hclkGap pause => exact live_keeps (k.gap _ _ _ _) h
  case enterListen => exact live_keeps k.listen h
  case quietPeriodEnd => exact live_keeps k.quietEnd h
  case mapComplete => exact live_keeps k.mapComplete h
  case controlWindow o v => exact live_keeps (k.window o v) h
  case applyEmptyMark => exact live_keeps (fun _ h => doApplyEmptyMark_keeps turn h) h
  case applyLost => exact live_keeps (fun _ h => doApplyLost_keeps turn h) h
  case applyTaken => exact live_keeps (fun _ h => doApplyTaken_keeps turn h) h
  case applyClear => exact live_keeps (fun _ h => doApplyClear_keeps turn h) h
  case applyOffer => exact live_keeps (fun _ h => doApplyOffer_keeps turn h) h
  case applyBid => exact live_keeps (fun _ h => doApplyBid_keeps turn h) h
  case applyShed => exact live_keeps (fun _ h => doApplyShed_keeps turn h) h
  case applyHold => exact live_keeps (fun _ h => doApplyHold_keeps turn h) h
  case applyPresent => exact live_keeps (fun _ h => doApplyPresent_keeps turn h) h
  case applyReport => exact live_keeps (fun _ h => doApplyReport_keeps turn h) h
  case queryStationSummary => exact live_keeps (fun _ h => doQueryStationSummary_keeps turn h) h
  case queryFaultFlags => exact live_keeps (fun _ h => doQueryFaultFlags_keeps turn h) h
  case queryClearFlags => exact live_keeps (fun _ h => doQueryClearFlags_keeps turn h) h
  case queryCounter => exact live_keeps (fun _ h => doQueryCounter_keeps turn h) h
  case queryPositionStatus => exact live_keeps (fun _ h => doQueryPositionStatus_keeps turn h) h
  case queryUnknownItem => exact live_keeps (fun _ h => doQueryUnknownItem_keeps turn h) h
  case sweepGroup => exact live_keeps k.sweep h
  case switchFrame c => exact live_keeps (k.switchFrame c) h
  case recordSwitchFrame p => exact live_keeps (k.recordSwitchFrame p) h
  case warmUpEnd c => exact live_keeps (k.warmUp c) h
  case shedDecision => exact live_keeps k.decideShed h
  case declareLost => exact live_keeps k.declare h
  case heartbeat => exact live_keeps k.heartbeat h
  case markerJudgement c => exact live_keeps (k.judgement c) h
  case parcelCompletion c => exact live_keeps (k.completion c) h
  case need c => exact live_keeps (k.need c) h
  case jobTakeUp => exact live_keeps k.takeUp h
  case decodeCompletion e => exact live_keeps (k.decodeCompletion e) h
  case encodeCompletion e => exact live_keeps (k.encodeCompletion e) h
  case jobDropped c d => exact live_keeps (k.jobDropped c d) h
  case blockClose c => exact live_keeps (k.close c) h
  case emissionStart c => exact live_keeps (k.emission c) h
  case fsyncAbsentInProve => exact live_keeps k.absent h

/-- A step keeps what every command keeps, where the queue has no part in it. -/
theorem step_keeps {P Q : State → Prop} (k : CommandKeeps P Q) (queue : ∀ l s, P s → P { s with pending := l })
    {s t : State} (release : ∀ l straps, P (({ s with pending := l } : State).doColdStartRelease straps)) (h : P s)
    (he : step s = .next t) : P t := by
  unfold step at he
  split at he
  · cases he; exact h
  · exact exec_keeps k (release _) (queue _ s h) he

/-! ### The station after cold start -/

theorem reset_sound : State.reset.notice.sound := by
  simp [NoticeCtl.sound, NoticeCtl.ordered, State.reset, NoticeCtl.empty]

theorem reset_canonical : State.reset.canonical := by
  simp [State.canonical, State.reset, Table.rising, Table.canonical]

theorem reset_permitted : State.reset.permitted := by
  simp [State.permitted, State.participates, State.isActive, State.reset, NoticeCtl.empty]

/-- Settles O60: after cold start the outbox and the tables are empty, and the station state is START. -/
theorem resetIsSound : Obligations.ResetIsSound := ⟨reset_sound, reset_canonical, reset_permitted⟩

/-- A station without contexts, which has released none in the frame, drives neither SO nor PO. -/
theorem levels_of_no_context {s : State} (hc : s.table.contexts = []) (hr : s.released = []) :
    (∀ p, s.soSlot p = none ∧ s.poNibble p = none) ∧ ∀ b, s.soLevel b = none ∧ s.poLevel b = none := by
  have ctxFor : ∀ p, s.ctxFor p = none := fun p => by simp [State.ctxFor, hc]
  have before : ∀ p b, s.drivenBefore p b = none := fun p b => by simp [State.drivenBefore, hr]
  have so : ∀ p, s.soSlot p = none := fun p => by simp [State.soSlot, ctxFor]
  have po : ∀ p, s.poNibble p = none := fun p => by simp [State.poNibble, ctxFor]
  exact ⟨fun p => ⟨so p, po p⟩, fun b => ⟨by simp [State.soLevel, before, so], by simp [State.poLevel, before, po]⟩⟩

/-- Settles O4: each field of the station after cold start, and SO and PO, which no context drives. -/
theorem resetValues : Obligations.ResetValues := by
  have flags : ∀ f, State.reset.report.isSet f = false := fun f => by cases f <;> rfl
  obtain ⟨slots, levels⟩ := levels_of_no_context (s := State.reset) rfl rfl
  exact ⟨rfl, rfl, rfl, rfl, rfl, rfl, rfl, rfl, rfl, rfl, rfl, rfl, rfl, rfl, rfl, rfl, fun _ => rfl, rfl, rfl, rfl, rfl,
    rfl, rfl, rfl, rfl, fun _ => rfl, fun _ => rfl, rfl, rfl, rfl, rfl, rfl, rfl, rfl, fun _ => rfl, rfl, rfl, rfl,
    fun _ => rfl, flags, rfl, rfl, rfl, slots, levels⟩

/-! ### The tables -/

theorem commands_canonical : CommandKeeps State.canonical State.canonical where
  toStepKeeps := steps_canonical
  coldStart cause s h := by
    unfold State.doColdStart
    split
    · exact reset_canonical
    · exact h
  missingAcknowledge n a _ := doMissingAcknowledge_canonical n a
  pauseEnd _ := doLoaderPauseEnd_canonical
  sclHeldLow n x _ := doSclHeldLow_canonical n x
  readEnd n i _ := doConfigurationReadEnd_canonical n i
  reference b _ h := let ⟨k, _⟩ := timing_canonical h; k b
  frame b l _ h := let ⟨_, k, _⟩ := timing_canonical h; k b l
  bridgedFrame b l _ h := let ⟨_, _, k, _⟩ := timing_canonical h; k b l
  markerMiss _ h := let ⟨_, _, _, k, _⟩ := timing_canonical h; k
  absent _ h := let ⟨_, _, _, _, k, _⟩ := timing_canonical h; k
  stray e _ h := let ⟨_, _, _, _, _, k, _⟩ := timing_canonical h; k e
  gap n e o v _ h := let ⟨_, _, _, _, _, _, k, _⟩ := timing_canonical h; k n e o v
  window o v _ h := let ⟨_, _, _, _, _, _, _, k⟩ := timing_canonical h; k o v
  switchFrame c _ := doSwitchFrame_canonical c
  recordSwitchFrame p _ := doRecordSwitchFrame_canonical p

theorem doColdStartRelease_canonical (straps : Straps) {s : State} (h : s.canonical) :
    (s.doColdStartRelease straps).canonical := by
  unfold State.doColdStartRelease
  split
  · exact onLife_canonical h
  · exact h

/-- Settles O58: every command keeps the canonical form, and the queue is no table. -/
theorem tablesStayCanonical : Obligations.TablesStayCanonical := fun s _ h =>
  step_keeps commands_canonical (fun _ _ h => h)
    (fun l straps => doColdStartRelease_canonical straps (s := { s with pending := l }) h) h

/-! ### What the station state permits -/

theorem commands_permitted : CommandKeeps State.permitted (fun s => s.permitted ∧ s.participates = true) where
  toStepKeeps := steps_permitted
  coldStart cause s h := by
    unfold State.doColdStart
    split
    · exact reset_permitted
    · exact h
  missingAcknowledge n a _ h := permitted_of h (doMissingAcknowledge_fixed n a)
  pauseEnd _ h := permitted_of h doLoaderPauseEnd_fixed
  sclHeldLow n x _ h := permitted_of h (doSclHeldLow_fixed n x)
  readEnd n i _ h := permitted_of h (doConfigurationReadEnd_fixed n i)
  reference b _ h := let ⟨k, _⟩ := timings_permitted h; k b
  frame b l _ h := let ⟨_, k, _⟩ := timings_permitted h; k b l
  bridgedFrame b l _ h := let ⟨_, _, k, _⟩ := timings_permitted h; k b l
  markerMiss _ h := let ⟨_, _, _, k, _⟩ := timings_permitted h; k
  absent _ h := let ⟨_, _, _, _, k, _⟩ := timings_permitted h; k
  stray e _ h := let ⟨_, _, _, _, _, k, _⟩ := timings_permitted h; k e
  gap n e o v _ h := let ⟨_, _, _, _, _, _, k, _⟩ := timings_permitted h; k n e o v
  window o v _ h := let ⟨_, _, _, _, _, _, _, k⟩ := timings_permitted h; k o v
  switchFrame c _ h := permitted_of h (doSwitchFrame_fixed c)
  recordSwitchFrame p _ h := permitted_of h (doRecordSwitchFrame_fixed p)

/-- The release from cold start keeps what is permitted in a station that is held in START, as R153 has it. -/
theorem doColdStartRelease_permitted (straps : Straps) {s : State} (hs : s.life.held = true → s.life.station = .start)
    (h : s.permitted) : (s.doColdStartRelease straps).permitted := by
  unfold State.doColdStartRelease
  split
  · rename_i hh
    exact permitted_of h (fun f => ⟨(hs hh).symm, f.timing, f.intake, f.stage, f.contexts, f.outbox⟩)
  · exact h

/-- What a step keeps of O59: the station state permits what it did, in every station that is held in START only. -/
theorem step_permitted {s t : State} (hs : s.life.held = true → s.life.station = .start) (h : s.permitted)
    (he : step s = .next t) : t.permitted :=
  step_keeps commands_permitted (fun _ _ h => h)
    (fun l straps => doColdStartRelease_permitted straps (s := { s with pending := l }) hs h) h he

/-- A station held in cold start that the state nevertheless calls listening, with a record in its intake. -/
def heldListening : State :=
  { State.reset with
    hwi := { State.reset.hwi with timing := .good }
    mapu := { State.reset.mapu with intake := [{ stamp := 0, heard := none }] }
    life := { State.reset.life with held := true, station := .listen }
    pending := [.coldStartRelease { stn2 := false, stn1 := false, stn0 := false }] }

theorem heldListening_permitted : heldListening.permitted := by
  simp [State.permitted, State.participates, State.isActive, heldListening, State.reset, NoticeCtl.empty]

/-- Refutes O59: what is permitted does not say that a held station is in START. The release from cold start enters START
whatever the blocks hold, so from a held station in LISTEN it leaves the intake's record in START. -/
theorem not_stationStateIsKept : ¬ Obligations.StationStateIsKept := by
  intro kept
  have after : ∃ t, step heldListening = .next t ∧ t.life.station = .start ∧ t.mapu.intake ≠ [] :=
    ⟨_, rfl, rfl, by decide⟩
  obtain ⟨t, hstep, hstart, hintake⟩ := after
  obtain ⟨-, -, outside, -⟩ := kept _ _ heldListening_permitted hstep
  exact hintake (outside (by simp [State.participates, hstart])).2.1

end Sys2Proof.Proofs

/-! Proofs: walks over a table in the order of its numbers, and reading contexts, counters and reservations after the
shared operations. -/

namespace Sys2Proof.Proofs

open Sys2Proof Sys2Proof.Machine Sys2Proof.Laws

/-! ### Walks over a table -/

section
variable {n : Nat} {α : Type}

theorem mem_keys_iff {t : Table n α} {k : Fin n} : k ∈ Table.keys t ↔ (Table.lookup t k).isSome = true := by
  induction t with
  | nil => simp [Table.keys, Table.lookup]
  | cons e t ih =>
    obtain ⟨j, v⟩ := e
    simp only [Table.keys, List.map_cons, List.mem_cons, Table.lookup] at ih ⊢
    by_cases hj : j = k
    · simp [hj]
    · simp [hj, Ne.symm hj, ih]

/-- In a rising table the numbers listed are, among all numbers in their order, those that are listed. -/
theorem keys_eq_filter {t : Table n α} (ht : Table.rising t = true) :
    Table.keys t = (List.finRange n).filter (fun k => (Table.lookup t k).isSome) := by
  have hkeys : (Table.keys t).Pairwise (· < ·) := List.pairwise_map.2 ((rising_iff t).1 ht)
  have hfin : ((List.finRange n).filter (fun k => (Table.lookup t k).isSome)).Pairwise (· < ·) :=
    (List.pairwise_lt_finRange n).filter _
  refine List.Perm.eq_of_pairwise (fun a b _ _ hab hba => absurd hab (lt_asymm hba)) hkeys hfin ?_
  refine (List.perm_ext_iff_of_nodup (hkeys.imp ne_of_lt) (hfin.imp ne_of_lt)).2 (fun k => ?_)
  simp [mem_keys_iff]

theorem keys_nodup {t : Table n α} (ht : Table.rising t = true) : (Table.keys t).Nodup := by
  rw [keys_eq_filter ht]
  exact (List.nodup_finRange n).filter _

end

section
variable {σ κ : Type}

/-- A walk may leave out what it would do nothing at. P holds along the walk. -/
theorem foldl_filter_skip (P : σ → Prop) (f : σ → κ → σ) (q : κ → Bool) (keep : ∀ s k, P s → P (f s k))
    (skip : ∀ s k, P s → q k = false → f s k = s) (l : List κ) {s : σ} (hs : P s) :
    (l.filter q).foldl f s = l.foldl f s := by
  induction l generalizing s with
  | nil => rfl
  | cons k l ih =>
    cases hq : q k with
    | true => simpa [hq] using ih (keep s k hs)
    | false => simpa [hq, skip s k hs hq] using ih hs

/-- A walk that at each number changes what is read there, and nothing that is read elsewhere. P holds along the walk. -/
theorem foldl_pointwise [DecidableEq κ] {β : Type} (P : σ → Prop) (g : σ → κ → β) (f : σ → κ → σ) (h : κ → β → β)
    (keep : ∀ s k, P s → P (f s k)) (here : ∀ s k, P s → g (f s k) k = h k (g s k))
    (elsewhere : ∀ s k j, P s → j ≠ k → g (f s k) j = g s j) {l : List κ} (hl : l.Nodup) {s : σ} (hs : P s) (j : κ) :
    g (l.foldl f s) j = if j ∈ l then h j (g s j) else g s j := by
  induction l generalizing s with
  | nil => simp
  | cons k l ih =>
    obtain ⟨hk, hl⟩ := List.nodup_cons.1 hl
    rw [List.foldl_cons, ih hl (keep s k hs)]
    by_cases hj : j = k
    · subst hj; simp [hk, here s j hs]
    · simp [hj, elsewhere s k j hs hj]

/-- A walk of steps that each do nothing. -/
theorem foldl_id {f : σ → κ → σ} {s : σ} (l : List κ) (h : ∀ k, f s k = s) : l.foldl f s = s := by
  induction l with
  | nil => rfl
  | cons k l ih => rw [List.foldl_cons, h, ih]

end

/-! ### Running a command -/

/-- A command of a station that is not held does its work. -/
theorem next_live {f : State → State} {s : State} (h : s.life.held = false) :
    (.next (s.live f) : Host.Outcome State Fault Refusal) = .next (f s) := by
  rw [live_off f h]

/-! ### Reading contexts -/

/-- The context that is found for a position is for that position, and stands in the table. -/
theorem mem_of_ctxFor {s : State} {p : Pos} {c : CtxNum} {x : Context} (h : s.ctxFor p = some (c, x)) :
    (c, x) ∈ s.table.contexts ∧ x.position = p :=
  ⟨List.mem_of_find?_eq_some h, by simpa using List.find?_some h⟩

theorem ctx_isSome_of_ctxFor {s : State} {p : Pos} {c : CtxNum} {x : Context} (h : s.ctxFor p = some (c, x)) :
    (s.ctx c).isSome = true :=
  mem_keys_iff.1 (List.mem_map.2 ⟨_, (mem_of_ctxFor h).1, rfl⟩)

/-- In a canonical state the context that is found for a position is the one with its number. -/
theorem ctx_of_ctxFor {s : State} (hs : s.canonical) {p : Pos} {c : CtxNum} {x : Context}
    (h : s.ctxFor p = some (c, x)) : s.ctx c = some x :=
  lookup_of_mem hs.1 (mem_of_ctxFor h).1

theorem ctx_modCtxFor {s : State} {p : Pos} {c : CtxNum} {x : Context} (f : Context → Context)
    (h : s.ctxFor p = some (c, x)) : (s.modCtxFor p f).ctx c = some (f x) := by
  simp [State.modCtxFor, h]

theorem modCtxFor_none {s : State} {p : Pos} (f : Context → Context) (h : s.ctxFor p = none) : s.modCtxFor p f = s := by
  simp [State.modCtxFor, h]

/-! ### The load -/

theorem sum_insert_of_eq {n : Nat} {α : Type} (f : α → Nat) {t : Table n α} {k : Fin n} {v w : α}
    (ht : Table.rising t = true) (h : Table.lookup t k = some v) (hf : f w = f v) :
    ((Table.insert t k w).map (fun e => f e.2)).sum = (t.map (fun e => f e.2)).sum := by
  rw [rising_iff] at ht
  induction t with
  | nil => cases h
  | cons e t ih =>
    obtain ⟨j, u⟩ := e
    obtain ⟨hj, ht⟩ := List.pairwise_cons.1 ht
    by_cases hjk : j = k
    · subst hjk
      have huv : u = v := by simpa [Table.lookup] using h
      simp [Table.insert, hf, huv]
    · have hl : Table.lookup t k = some v := by simpa [Table.lookup, hjk] using h
      have hlt : ¬ k < j := not_lt.2 (le_of_lt (hj _ (mem_of_lookup hl)))
      simp [Table.insert, hlt, Ne.symm hjk, ih ht hl]

/-- A change of a context that keeps its cost keeps the load (R7). -/
theorem load_putCtx {s : State} (hs : s.canonical) {c : CtxNum} {x y : Context} (h : s.ctx c = some x)
    (hc : y.cost = x.cost) : (s.putCtx c y).load = s.load := by
  unfold State.load
  rw [show (s.putCtx c y).table.reservations = s.table.reservations from rfl]
  exact congrArg (· + _) (sum_insert_of_eq Context.cost hs.1 h hc)

/-- The rate request looks at the load and the budget only (R56). -/
theorem rateRequest_putCtx {s : State} (hs : s.canonical) {c : CtxNum} {x y : Context} (h : s.ctx c = some x)
    (hc : y.cost = x.cost) (ms : ModeSet) : (s.putCtx c y).rateRequest ms = s.rateRequest ms := by
  unfold State.rateRequest
  rw [load_putCtx hs h hc]
  rfl

/-! ### Release of a context (R16) -/

theorem erase_of_lookup_none {n : Nat} {α : Type} {t : Table n α} {k : Fin n} (h : Table.lookup t k = none) :
    Table.erase t k = t := by
  have hk : k ∉ Table.keys t := fun hk => by simp [mem_keys_iff, h] at hk
  refine List.filter_eq_self.2 (fun e he => ?_)
  simpa using fun hek : e.1 = k => hk (hek ▸ List.mem_map_of_mem he)

theorem releaseCtx_none {s : State} {c : CtxNum} (h : s.ctx c = none) : s.releaseCtx c = s := by
  simp [State.releaseCtx, h]

theorem releaseCtx_contexts (c : CtxNum) (s : State) :
    (s.releaseCtx c).table.contexts = Table.erase s.table.contexts c := by
  cases h : s.ctx c with
  | none => rw [releaseCtx_none h, erase_of_lookup_none h]
  | some x => simp [State.releaseCtx, h]

theorem ctx_releaseCtx (c d : CtxNum) (s : State) :
    (s.releaseCtx c).ctx d = if d = c then none else s.ctx d := by
  unfold State.ctx
  rw [releaseCtx_contexts, lookup_erase]

theorem releaseCtx_released {s : State} {c : CtxNum} {x : Context} (h : s.ctx c = some x) :
    (s.releaseCtx c).released = s.released ++ [x.releasedAt s.hwi.hclkCount] := by
  simp [State.releaseCtx, h]

end Sys2Proof.Proofs

/-! Proofs: the switch frame (O40) and the release (O41) of a context. -/

namespace Sys2Proof.Proofs

open Sys2Proof Sys2Proof.Machine Sys2Proof.Laws

/-! ### The switch frame of a context (O40) -/

theorem doSwitchFrame_promotes {s : State} {c : CtxNum} {x : Context} (h : s.ctx c = some x)
    (hx : x.switchFrame = some s.hwi.frameCount) (hst : x.state = .warming ∨ x.state = .standby) :
    s.doSwitchFrame c = s.putCtx c x.promoted := by
  rcases hst with hst | hst <;> simp [State.doSwitchFrame, h, State.switchDue, hx, hst]

theorem doSwitchFrame_releases {s : State} {c : CtxNum} {x : Context} (h : s.ctx c = some x)
    (hx : x.switchFrame = some s.hwi.frameCount) (hst : x.state = .yielding) :
    s.doSwitchFrame c = s.releaseCtx c := by
  simp [State.doSwitchFrame, h, State.switchDue, hx, hst]

theorem doSwitchFrame_primary {s : State} {c : CtxNum} {x : Context} (h : s.ctx c = some x) (hst : x.state = .primary) :
    s.doSwitchFrame c = s := by
  simp [State.doSwitchFrame, h, hst]

theorem doSwitchFrame_of_ne {s : State} {c : CtxNum}
    (hx : ∀ x, s.ctx c = some x → x.switchFrame ≠ some s.hwi.frameCount) : s.doSwitchFrame c = s := by
  unfold State.doSwitchFrame
  split
  · rfl
  · rename_i x h
    simp [State.switchDue, hx x h]

/-- Settles O40: by the state of the context whose switch frame this is. -/
theorem contextSwitches : Obligations.ContextSwitches := by
  intro s c x hheld hc
  have run : exec (.switchFrame c) s = .next (s.doSwitchFrame c) := next_live hheld
  rw [run]
  refine ⟨fun hx hst => ⟨_, rfl, ?_⟩, fun hx hst => ⟨_, rfl, ?_⟩, fun hx => ?_⟩
  · rw [doSwitchFrame_promotes hc hx hst]
    exact ⟨ctx_putCtx_self .., fun d hd => by rw [ctx_putCtx, if_neg hd], rfl⟩
  · rw [doSwitchFrame_releases hc hx hst]
    exact ⟨by simp [ctx_releaseCtx], fun d hd => by rw [ctx_releaseCtx, if_neg hd], by simp, by simp, by simp, by simp,
      releaseCtx_released hc⟩
  · rw [doSwitchFrame_of_ne (fun y hy => by rwa [Option.some.inj (hc.symm.trans hy)] at hx)]

/-! ### The release of a context (O41) -/

theorem removeNow_outbox (f : Notice → Bool) (s : State) :
    (s.removeNow f).notice = { s.notice with outbox := s.notice.outbox.filter (fun e => !(f e.notice)) } := by
  unfold State.removeNow
  rw [foldl_keeps (fun s => s.notice) _ (fun s a => by simp)]
  rfl

/-- Outside a window a release takes every notice for the position out of the outbox. -/
theorem releaseCtx_outbox {s : State} {c : CtxNum} {x : Context} (h : s.ctx c = some x) (hw : s.notice.inWindow = none) :
    (s.releaseCtx c).notice.outbox = s.notice.outbox.filter (fun e => !(Notice.isFor x.position e.notice)) := by
  simp only [State.releaseCtx, h, endShed_blocks, clearTakenMark_blocks, onTable_notice]
  rw [removeNotices_outside _ (by simpa using hw), removeNow_outbox]
  simp [Removal.names]

theorem releaseCtx_engines {s : State} {c : CtxNum} {x : Context} (h : s.ctx c = some x) :
    (s.releaseCtx c).engines = { s.engines with
      queue := s.engines.queue.filter (fun j => !decide (j.ctx = c))
      running := s.engines.running.filter (fun e => !decide (e.2.job.ctx = c)) } := by
  simp [State.releaseCtx, h, State.withdrawJobs]

theorem endShed_shedding (p : Pos) (s : State) : (s.endShed p).pool.shedding ≠ some p := by
  unfold State.endShed
  split
  · simp
  · assumption

@[simp] theorem takenMark_clearTakenMark (p q : Pos) (s : State) :
    (s.clearTakenMark p).takenMark q = if q = p then false else s.takenMark q := by
  simp only [State.takenMark, State.clearTakenMark, onPool_pool, lookup_erase]
  split <;> rfl

@[simp] theorem takenMark_endShed (p q : Pos) (s : State) : (s.endShed p).takenMark q = s.takenMark q := by
  unfold State.endShed
  split <;> rfl

theorem releaseCtx_pool {s : State} {c : CtxNum} {x : Context} (h : s.ctx c = some x) :
    (s.releaseCtx c).takenMark x.position = false ∧ (s.releaseCtx c).pool.shedding ≠ some x.position := by
  simp only [State.releaseCtx, h]
  exact ⟨by simp, endShed_shedding _ _⟩

/-- The one context for a position is found for it. -/
theorem ctxFor_of_unique {s : State} {c : CtxNum} {x : Context} (h : s.ctx c = some x) (hs : s.canonical)
    (one : ∀ e ∈ s.table.contexts, e.2.position = x.position → e.1 = c) : s.ctxFor x.position = some (c, x) := by
  have hm := mem_of_lookup h
  obtain ⟨e, he⟩ : ∃ e, s.ctxFor x.position = some e :=
    Option.isSome_iff_exists.1 (List.find?_isSome.2 ⟨_, hm, by simp⟩)
  obtain ⟨d, y⟩ := e
  obtain ⟨hy, hp⟩ := mem_of_ctxFor he
  obtain rfl : d = c := one _ hy hp
  rw [he, Option.some.inj ((ctx_of_ctxFor hs he).symm.trans h)]

/-- A release of the one context for a position leaves none for it, and those of the other positions. -/
theorem ctxFor_releaseCtx {s : State} {c : CtxNum} {x : Context} (h : s.ctx c = some x) (hs : s.canonical)
    (one : ∀ e ∈ s.table.contexts, e.2.position = x.position → e.1 = c) (p : Pos) :
    (s.releaseCtx c).ctxFor p = if p = x.position then none else s.ctxFor p := by
  unfold State.ctxFor
  rw [releaseCtx_contexts]
  split
  · rename_i hp
    refine List.find?_eq_none.2 (fun e he => ?_)
    obtain ⟨hm, hk⟩ := List.mem_filter.1 he
    simpa [hp] using fun hpos => of_decide_eq_true hk (one e hm hpos)
  · rename_i hp
    unfold Table.erase
    rw [List.find?_filter]
    refine List.find?_congr (fun e he => ?_)
    have : e.2.position = p → e.1 ≠ c := by
      intro hpos hec
      have hl := lookup_of_mem hs.1 (show (c, e.2) ∈ s.table.contexts from hec ▸ he)
      exact hp (by rw [← hpos, Option.some.inj (hl.symm.trans h)])
    by_cases hpos : e.2.position = p <;> simp [hpos, this]

/-- What was on record for a position before a release that is not the position's first. -/
theorem drivenBefore_of_released {s t : State} {x : Context} {n : Nat} (ht : t.released = s.released ++ [x.releasedAt n])
    (hs : ∀ r ∈ s.released, r.position ≠ x.position) (p : Pos) (b : Nat) :
    t.drivenBefore p b = if p = x.position then (if b < n then some (x.releasedAt n) else none)
      else s.drivenBefore p b := by
  unfold State.drivenBefore
  rw [ht, List.find?_append]
  split
  · rename_i hp
    have : s.released.find? (fun r => decide (r.position = p)) = none :=
      List.find?_eq_none.2 (fun r hr => by simpa [hp] using hs r hr)
    rw [this]
    by_cases hb : b < n <;> simp [Context.releasedAt, hp, hb, Option.filter]
  · rename_i hp
    have : [x.releasedAt n].find? (fun r => decide (r.position = p)) = none := by
      simpa [Context.releasedAt] using Ne.symm hp
    simp [this]

/-- SO and PO once the one context for a position is released (R84): its bit-times from the release on are released. -/
theorem levels_releaseCtx {s : State} {c : CtxNum} {x : Context} (h : s.ctx c = some x) (hs : s.canonical)
    (one : ∀ e ∈ s.table.contexts, e.2.position = x.position → e.1 = c)
    (first : ∀ r ∈ s.released, r.position ≠ x.position) (b : Nat) :
    (b / 8 = x.position.val →
      (s.releaseCtx c).soLevel b = if b < s.hwi.hclkCount then s.soLevel b else none) ∧
    (b / 8 ≠ x.position.val → (s.releaseCtx c).soLevel b = s.soLevel b) ∧
    (b / 4 = x.position.val →
      (s.releaseCtx c).poLevel b = if b < s.hwi.hclkCount then s.poLevel b else none) ∧
    (b / 4 ≠ x.position.val → (s.releaseCtx c).poLevel b = s.poLevel b) := by
  have driven := drivenBefore_of_released (releaseCtx_released h) first
  have found := ctxFor_releaseCtx h hs one
  have own := ctxFor_of_unique h hs one
  have before : s.drivenBefore x.position b = none := by
    have : s.released.find? (fun r => decide (r.position = x.position)) = none :=
      List.find?_eq_none.2 (fun r hr => by simpa using first r hr)
    simp [State.drivenBefore, this]
  have pos : ∀ k, k < 256 → (posOfCode k = x.position ↔ k = x.position.val) := fun k hk => by
    simp [Fin.ext_iff, posOfCode, Nat.mod_eq_of_lt hk]
  have hp := x.position.isLt
  refine ⟨fun hb => ?_, fun hb => ?_, fun hb => ?_, fun hb => ?_⟩
  · have hlt : b < 2048 := by omega
    have hpos : posOfCode (b / 8) = x.position := (pos _ (by omega)).2 hb
    simp only [State.soLevel, if_pos hlt, hpos, driven, before, State.soSlot, found, own, if_true]
    by_cases hn : b < s.hwi.hclkCount <;> simp [hn, Context.releasedAt]
  · unfold State.soLevel
    split
    · have hpos : posOfCode (b / 8) ≠ x.position := fun he => hb ((pos _ (by omega)).1 he)
      simp only [driven, State.soSlot, found, if_neg hpos]
    · rfl
  · have hlt : b < 1024 := by omega
    have hpos : posOfCode (b / 4) = x.position := (pos _ (by omega)).2 hb
    simp only [State.poLevel, if_pos hlt, hpos, driven, before, State.poNibble, found, own, if_true]
    by_cases hn : b < s.hwi.hclkCount <;> simp [hn, Context.releasedAt]
  · unfold State.poLevel
    split
    · have hpos : posOfCode (b / 4) ≠ x.position := fun he => hb ((pos _ (by omega)).1 he)
      simp only [driven, State.poNibble, found, if_neg hpos]
    · rfl

/-- Settles O41: the release block by block, and SO and PO from what it puts on record. -/
theorem releaseOfContext : Obligations.ReleaseOfContext := by
  intro s c x hc hw
  have engines := releaseCtx_engines hc
  obtain ⟨hmark, hshed⟩ := releaseCtx_pool hc
  refine ⟨by simp [ctx_releaseCtx], fun d hd => by rw [ctx_releaseCtx, if_neg hd], ?_, ?_, ?_, releaseCtx_outbox hc hw,
    hmark, hshed, by simp, by simp, by simp, by simp, ?_, fun hs one first b => levels_releaseCtx hc hs one first b⟩
  · simp [engines]
  · simp [engines]
  · simp [engines]
  · rw [releaseCtx_released hc]
    simp [Context.releasedAt, Context.drives]

end Sys2Proof.Proofs

/-! Proofs: the end of a warm-up and the TAKENs that are due (O42), and the heartbeat (O45). -/

namespace Sys2Proof.Proofs

open Sys2Proof Sys2Proof.Machine Sys2Proof.Laws

/-! ### The end of a warm-up and the TAKENs (O42) -/

theorem warmUpOver_iff {x : Context} : x.warmUpOver = true ↔ x.state = .warming ∧ x.warmUp = some 0 := by
  simp [Context.warmUpOver]

/-- A decision to announce a takeover, where the context for the position holds no switch frame and the mark is clear. -/
theorem placeTaken_places {s : State} {p : Pos} {c : CtxNum} {x : Context} {k : Call} (cause : TakenCause)
    (hx : s.ctxFor p = some (c, x)) (hk : (s.recAt p).call = some k) (hm : s.takenMark p = false)
    (hsf : x.switchFrame = none) :
    s.placeTaken p cause = (s.setTakenMark p).place (.taken p k.tag cause x.phase) := by
  simp [State.placeTaken, hx, hk, hm, hsf]

theorem placeTaken_marked {s : State} {p : Pos} (cause : TakenCause) (hm : s.takenMark p = true) :
    s.placeTaken p cause = s := by
  unfold State.placeTaken
  split <;> simp [hm]

theorem placeTaken_switching {s : State} {p : Pos} {c : CtxNum} {x : Context} (cause : TakenCause)
    (hx : s.ctxFor p = some (c, x)) (hsf : x.switchFrame ≠ none) : s.placeTaken p cause = s := by
  have : x.switchFrame.isSome = true := Option.isSome_iff_ne_none.2 hsf
  simp only [State.placeTaken, hx]
  split <;> simp_all

theorem takenDue_free {s : State} {p : Pos} (h : (s.recAt p).state = .free) : s.takenDue p = none := by
  unfold State.takenDue
  split <;> simp [h]

theorem placeTaken_recAt (p q : Pos) (cause : TakenCause) (s : State) : (s.placeTaken p cause).recAt q = s.recAt q :=
  recAt_of_map (by simp) q

/-- A position that is not listed has a FREE record. -/
theorem recAt_unlisted {s : State} {p : Pos} (h : (Table.lookup s.mapu.map p).isSome = false) :
    s.recAt p = PosRecord.free := by
  have hn : Table.lookup s.mapu.map p = none := by simpa using h
  simp [State.recAt, hn]

/-- The positions whose records are not FREE, among all positions in their order. -/
theorem recordedPositions_eq {s : State} (hs : s.canonical) :
    s.recordedPositions = (List.finRange 256).filter (fun p => (Table.lookup s.mapu.map p).isSome) :=
  keys_eq_filter hs.2.2.1.1

/-- What the TAKENs due ask for at one position. -/
def takenStep (u : State) (p : Pos) : State :=
  match u.takenDue p with
  | some cause => u.placeTaken p cause
  | none => u

theorem takenStep_recAt (u : State) (p q : Pos) : (takenStep u p).recAt q = u.recAt q := by
  unfold takenStep
  split
  · exact placeTaken_recAt ..
  · rfl

/-- The TAKENs due are found by asking every position, the FREE ones in vain. -/
theorem placeTakensDue_eq {s : State} (hs : s.canonical) :
    s.placeTakensDue = (List.finRange 256).foldl takenStep s := by
  unfold State.placeTakensDue
  rw [recordedPositions_eq hs]
  refine foldl_filter_skip (fun u => ∀ p, u.recAt p = s.recAt p) takenStep _ (fun u p hu q => ?_) (fun u p hu hp => ?_) _
    (fun _ => rfl)
  · rw [takenStep_recAt, hu]
  · have : (u.recAt p).state = .free := by rw [hu, recAt_unlisted hp]; rfl
    simp [takenStep, takenDue_free this]

/-- The TAKEN that is due, in the order in which its three conditions are asked. -/
theorem takenDue_iff (s : State) (p : Pos) :
    let r := s.recAt p
    (s.takenDue p = some .handOff ↔ (∃ c x, s.ctxFor p = some (c, x) ∧ x.state = .standby) ∧ r.state = .shedding ∧
      (r.shadow = some s.own ∨ r.taker = some s.own)) ∧
    (s.takenDue p = some .promotion ↔ (∃ e, s.ctxFor p = some e) ∧ r.state = .orphaned ∧ r.shadow = some s.own) ∧
    (s.takenDue p = some .orphan ↔ (∃ e, s.ctxFor p = some e) ∧ r.state = .orphaned ∧ r.shadow ≠ some s.own ∧
      r.taker = some s.own) := by
  intro r
  unfold State.takenDue
  cases hx : s.ctxFor p with
  | none => simp
  | some e =>
    obtain ⟨c, x⟩ := e
    simp only [PosRecord.shadows, PosRecord.takes, decide_eq_true_eq]
    by_cases h1 : r.state = .shedding
    · have h2 : r.state ≠ .orphaned := by simp [h1]
      by_cases h3 : (r.shadow = some s.own ∨ r.taker = some s.own) ∧ x.state = .standby
      · simp [r, h1, h3]
      · simp [r, h1, h3]
        tauto
    · by_cases h2 : r.state = .orphaned
      · by_cases h3 : r.shadow = some s.own
        · simp [r, h2, h3]
        · by_cases h4 : r.taker = some s.own <;> simp [r, h2, h3, h4]
      · simp [r, h1, h2]

/-- The end of a warm-up: STANDBY, and the TAKEN of the hand-off where the own station is to take over. -/
theorem doWarmUpEnd_ends {s : State} {c : CtxNum} {x : Context} (h : s.ctx c = some x) (hx : x.warmUpOver = true) :
    s.doWarmUpEnd c =
      if s.life.station = .active ∧ (s.recAt x.position).state = .shedding ∧
          ((s.recAt x.position).shadow = some s.own ∨ (s.recAt x.position).taker = some s.own) then
        (s.putCtx c { x with state := .standby, warmUp := none }).placeTaken x.position .handOff
      else s.putCtx c { x with state := .standby, warmUp := none } := by
  simp only [State.doWarmUpEnd, h, hx, if_true, State.isActive, PosRecord.shadows, PosRecord.takes, decide_eq_true_eq]
  rfl

theorem doWarmUpEnd_goes_on {s : State} {c : CtxNum} {x : Context} (h : s.ctx c = some x)
    (hx : ¬x.warmUpOver = true) : s.doWarmUpEnd c = s := by
  simp [State.doWarmUpEnd, h, hx]

/-- Settles O42: the end of a warm-up, the decision to announce a takeover, and the TAKENs due at a block event. -/
theorem warmUpEnds : Obligations.WarmUpEnds := by
  refine ⟨fun s c x hheld hc => ?_, fun s p cause => ⟨fun c x k hx hk hm hsf => ?_, placeTaken_marked cause,
    fun c x hx => placeTaken_switching cause hx⟩, takenDue_iff, fun s hs => placeTakensDue_eq hs⟩
  · have run : exec (.warmUpEnd c) s = .next (s.doWarmUpEnd c) := next_live hheld
    rw [run]
    refine ⟨fun hst hw => ⟨_, rfl, ?_⟩, fun hgo => ?_⟩
    · have ends := doWarmUpEnd_ends hc (warmUpOver_iff.2 ⟨hst, hw⟩)
      have contexts : (s.doWarmUpEnd c).table.contexts =
          (s.putCtx c { x with state := .standby, warmUp := none }).table.contexts := by
        rw [ends]; split <;> simp
      refine ⟨?_, fun d hd => ?_, by simp, by simp, by simp, by simp, by simp, fun hh => ?_, fun hh => ?_⟩
      · rw [ctx_of_contexts contexts, ctx_putCtx_self]
      · rw [ctx_of_contexts contexts, ctx_putCtx, if_neg hd]
      · rw [ends, if_pos hh]
      · rw [ends, if_neg hh]; rfl
    · rw [doWarmUpEnd_goes_on hc (by rw [warmUpOver_iff]; tauto)]
  · refine ⟨_, placeTaken_places cause hx hk hm hsf, fun q => ?_⟩
    rw [lookup_insert]
    by_cases hq : q = p <;> simp [hq, State.takenMark]

/-! ### The heartbeat (O45) -/

theorem lookup_map_of_keys {n : Nat} {α : Type} (t : Table n α) (f : Fin n → α → α) (k : Fin n) :
    Table.lookup (List.map (fun e => (e.1, f e.1 e.2)) t : Table n α) k = (Table.lookup t k).map (f k) := by
  induction t with
  | nil => rfl
  | cons e t ih =>
    obtain ⟨j, v⟩ := e
    simp only [List.map_cons, Table.lookup]
    split
    · rename_i hj; subst hj; rfl
    · exact ih

/-- The entry of a station as a block event ages it (R130). -/
def agedEntry (s : State) (q : Station) : RosterEntry :=
  if (s.rosterAt q).state = .present ∧ q ≠ s.own then
    { s.rosterAt q with age := min ((s.rosterAt q).age + 1) 255 } else s.rosterAt q

theorem rosterAt_ageRoster (s : State) (q : Station) : s.ageRoster.rosterAt q = agedEntry s q := by
  have entries : s.ageRoster.mapu.roster = List.map (fun e => (e.1,
      if e.2.state = .present ∧ e.1 ≠ s.own then { e.2 with age := min (e.2.age + 1) 255 } else e.2)) s.mapu.roster := by
    refine List.map_congr_left (fun e _ => ?_)
    split <;> rfl
  unfold agedEntry State.rosterAt
  rw [entries, lookup_map_of_keys s.mapu.roster
    (fun q e => if e.state = .present ∧ q ≠ s.own then { e with age := min (e.age + 1) 255 } else e)]
  cases Table.lookup s.mapu.roster q with
  | none => simp [RosterEntry.unknown]
  | some e => simp

/-- What follows the loss examination: the heartbeat count, and the ageing where it was left for here. -/
theorem afterLoss_eq (s : State) :
    s.afterLoss = { s with
      mapu := { s.mapu with roster := if s.pool.ageingDue then s.ageRoster.mapu.roster else s.mapu.roster }
      pool := { s.pool with
        heartbeat := s.pool.heartbeat + 1, ageingDue := false
        stage := if s.life.settings.heartbeatPeriod ≤ s.pool.heartbeat + 1 then .heartbeat else .idle } } := by
  unfold State.afterLoss
  cases h : s.pool.ageingDue <;> simp [State.onPool, State.ageRoster, State.onMap, h]

theorem costs_of_modes : ∀ m : Mode, primaryCost m = [3, 3, 4, 5].getD m.val 0 ∧
    standbyCost m = [2, 2, 3, 3].getD m.val 0 := by decide

/-- The HEARTBEAT step. -/
theorem doHeartbeat_beats {s : State} (h : s.pool.stage = .heartbeat) :
    s.doHeartbeat = (s.place (s.presentNotice s.pool.freshPending)).onPool
      (fun q => { q with heartbeat := 0, stage := .idle }) := by
  simp [State.doHeartbeat, h]

/-- Settles O45: the figures of R6, R7 and R149, and the HEARTBEAT and the count at a block event. -/
theorem heartbeatIsPlaced : Obligations.HeartbeatIsPlaced := by
  refine ⟨costs_of_modes, fun x => ?_, fun s => ⟨rfl, rfl, ?_⟩, fun n => ?_, fun s hheld hst => ?_, fun s => ⟨?_, ?_, ?_⟩⟩
  · simp [Context.cost, Context.drives]
  · exact Nat.mod_eq_of_lt (by omega)
  · exact Nat.mod_eq_of_lt (by omega)
  · have run : exec .heartbeat s = .next s.doHeartbeat := next_live hheld
    rw [run, doHeartbeat_beats hst]
    refine ⟨_, rfl, rfl, rfl, ?_⟩
    simp
  · simp [afterLoss_eq s]
  · intro h
    simp [afterLoss_eq s, h]
  · intro h q
    rw [rosterAt_of_roster (t := s.afterLoss) (s := s.ageRoster) (by simp [afterLoss_eq s, h]), rosterAt_ageRoster]
    rfl

end Sys2Proof.Proofs

/-! Proofs: the end of an encode job (O53) and the emission start (O56). -/

namespace Sys2Proof.Proofs

open Sys2Proof Sys2Proof.Machine Sys2Proof.Laws

/-! ### The content of the emitting entry (R55 to R57) -/

/-- What the context holds once the content of its emitting entry is fixed as some bytes. -/
def Context.withContent (em : Emitting) (bytes : List Byte) (x : Context) : Context :=
  { x with emitting := some { em with content := some bytes }, ready := none, phaseLimit := false }

/-- The late encode of a filler in the context's own counter (R57). -/
def Context.lateEncoded (x : Context) : Context :=
  Context.onCounters (fun k => { k with lateEncode := countUp k.lateEncode }) x

/-- With a ready entry the content is its parcel. -/
theorem fixContent_ready {s : State} {c : CtxNum} {x : Context} {em : Emitting} {r : ReadyEntry} (h : s.ctx c = some x)
    (hem : x.emitting = some em) (hr : x.ready = some r) :
    s.fixContent c = s.putCtx c (Context.withContent em
      (buildParcel r.kind r.mode (s.rateRequest x.modeSet) x.phaseLimit false r.payload) x) := by
  simp [State.fixContent, h, hem, hr, Context.parcelOf, Context.withContent]

/-- Without one it is a filler, which is counted. -/
theorem fixContent_filler {s : State} {c : CtxNum} {x : Context} {em : Emitting} (h : s.ctx c = some x)
    (hem : x.emitting = some em) (hr : x.ready = none) :
    s.fixContent c = (s.putCtx c (Context.withContent em
      (buildParcel .noData em.mode (s.rateRequest x.modeSet) x.phaseLimit true []) x)).countFiller c := by
  simp [State.fixContent, h, hem, hr, Context.parcelOf, Context.withContent]

theorem ctx_countFiller {s : State} {c : CtxNum} (d : CtxNum) :
    (s.countFiller c).ctx d = if d = c then (s.ctx c).map Context.lateEncoded else s.ctx d := by
  simp only [State.countFiller, ctx_countDriven, ctx_modCtx]
  rfl

theorem countFiller_report {s : State} {c : CtxNum} {x : Context} (h : s.ctx c = some x) :
    (s.countFiller c).report = if x.drives then (s.report.counted .lateEncodes).counted .fillers else s.report := by
  have hm : ∀ f : Context → Context, (s.modCtx c f).ctx c = some (f x) := fun f => by simp [ctx_modCtx, h]
  unfold State.countFiller
  rw [countDriven_report ((ctx_countDriven ..).trans (hm _)), countDriven_report (hm _)]
  rw [show (Context.onCounters (fun k => { k with lateEncode := countUp k.lateEncode }) x).drives = x.drives from rfl]
  cases x.drives <;> simp

/-! ### The end of an encode job (O53) -/

theorem encoded_cost (half : CodecHalf) (block : List Sample) (m : Mode) (x : Context) :
    (x.encoded half block m).cost = x.cost := rfl

/-- The completion of an encode job: the engine idle, the context with its ready entry, and the content that waited. -/
theorem doEncodeCompletion_completes {s : State} {e : EngineNum} {run : Running} {x : Context} {block : List Sample}
    {m : Mode} (hrun : Table.lookup s.engines.running e = some run) (hdir : run.job.dir = .encode)
    (hkind : run.job.kind = .encode block m) (hdone : run.doneAt = s.hwi.frameCount)
    (hx : s.ctx run.job.ctx = some x) :
    s.doEncodeCompletion e =
      ((s.freeEngine e).putCtx run.job.ctx (x.encoded run.half block m)).contentAfterJob run.job.ctx := by
  have hx' : (s.freeEngine e).ctx run.job.ctx = some x := hx
  simp only [State.doEncodeCompletion, hrun, hkind, State.completes, hdone, hdir, decide_true, and_self, if_true,
    State.modCtx, hx']

theorem contentAfterJob_waits_not {s : State} {c : CtxNum} {x : Context} (h : s.ctx c = some x)
    (hw : x.awaitsContent = false) : s.contentAfterJob c = s := by
  simp [State.contentAfterJob, h, hw]

theorem contentAfterJob_waits {s : State} {c : CtxNum} {x : Context} (h : s.ctx c = some x)
    (hw : x.awaitsContent = true) : s.contentAfterJob c = s.fixContent c := by
  simp [State.contentAfterJob, h, hw]

/-- The parcel kind and the quiet count of R53. -/
theorem quietStep_eq (active : Bool) (count : Nat) : quietStep active count =
    (if active then .speech else if count = 0 then .sid else .noData,
      if active then 0 else if count = 0 then 1 else if 7 ≤ count then 0 else count + 1) := by
  unfold quietStep
  split
  · rfl
  · split <;> rfl

/-- Settles O53: the context with its ready entry, and where its emission waits for the content, with the parcel built
from that entry at the load of the station, which the completion does not change. -/
theorem encodeCompletes : Obligations.EncodeCompletes := by
  intro s e run x block m hheld hs hrun hdir hkind hdone hx active kind rate
  have go : exec (.encodeCompletion e) s = .next (s.doEncodeCompletion e) := next_live hheld
  rw [go, doEncodeCompletion_completes hrun hdir hkind hdone hx]
  have hx' : (s.freeEngine e).ctx run.job.ctx = some x := hx
  let y := x.encoded run.half block m
  let u := (s.freeEngine e).putCtx run.job.ctx y
  have hy : u.ctx run.job.ctx = some y := ctx_putCtx_self ..
  have others : ∀ d, d ≠ run.job.ctx → u.ctx d = s.ctx d := fun d hd => by
    rw [ctx_putCtx, if_neg hd]; rfl
  have step := quietStep_eq active x.downQuietCount
  have ready : y.ready = some { kind := kind, mode := m, payload := encodedPayload run.half block m kind } := by
    simp only [y, Context.encoded, step, active, kind]
  have hrate : u.rateRequest x.modeSet = rate :=
    (rateRequest_putCtx (freeEngine_canonical e hs) hx' (encoded_cost ..) _).trans rfl
  have hlen : (encodedPayload run.half block m kind).length = payloadLength kind m := by simp [encodedPayload]
  have hy_eq : y = { x with
      encodeInFlight := false
      encoder := Config.encodeNext run.half block m
      downQuietCount := if active then 0 else if x.downQuietCount = 0 then 1
        else if 7 ≤ x.downQuietCount then 0 else x.downQuietCount + 1
      ready := some { kind := kind, mode := m, payload := encodedPayload run.half block m kind } } := by
    simp only [y, Context.encoded, step, active, kind]
  cases hw : y.awaitsContent with
  | false =>
    rw [contentAfterJob_waits_not hy hw]
    refine ⟨u, y, _, rfl, hy, others, by simp [u, State.freeEngine], by simp [u, State.freeEngine], by simp [u],
      by simp [u], by simp [u], by simp [u], by simp [u], by simp [u], by simp [u], hlen, fun _ => hy_eq,
      fun em hem hc => ?_⟩
    have : y.awaitsContent = true := by simp [y, Context.awaitsContent, Context.encoded, hem, hc]
    rw [hw] at this
    cases this
  | true =>
    obtain ⟨em, hem, hc⟩ : ∃ em, x.emitting = some em ∧ em.content = none := by
      cases hem : x.emitting with
      | none => simp [y, Context.awaitsContent, Context.encoded, hem] at hw
      | some em => exact ⟨em, rfl, by simpa [y, Context.awaitsContent, Context.encoded, hem] using hw⟩
    rw [contentAfterJob_waits hy hw, fixContent_ready hy (em := em) hem ready]
    refine ⟨_, _, _, rfl, ctx_putCtx_self .., fun d hd => ?_, by simp [u, State.freeEngine],
      by simp [u, State.freeEngine], by simp [u], by simp [u], by simp [u], by simp [u], by simp [u], by simp [u],
      by simp [u], hlen, fun hno => absurd hc (hno em hem), fun em' hem' _ => ?_⟩
    · rw [ctx_putCtx, if_neg hd, others d hd]
    · obtain rfl : em = em' := Option.some.inj (hem.symm.trans hem')
      rw [show y.modeSet = x.modeSet from rfl, hrate, hy_eq]
      rfl

/-! ### The emission start (O56) -/

/-- The context as an emission start leaves it, before its content is fixed. -/
def Context.emitsFrom (mode : Mode) (x : Context) : Context :=
  { x with
    schedule := none
    emitting := some { sent := 1, content := none, mode := mode }
    presentedNibble := some 0xA#4 }

theorem doEmissionStart_due {s : State} {c : CtxNum} {x : Context} {start : EmissionStart} (h : s.ctx c = some x)
    (hs : x.schedule = some start) (hf : start.frame = s.hwi.frameCount) :
    s.doEmissionStart c = (s.doSwitchFrame c).beginEmission c := by
  simp [State.doEmissionStart, h, State.emissionDue, hs, hf]

theorem beginEmission_none {s : State} {c : CtxNum} (h : s.ctx c = none) : s.beginEmission c = s := by
  simp [State.beginEmission, h]

/-- An emission begins: the content waits while the job of its close is in flight, and is fixed at once otherwise. -/
theorem beginEmission_begins {s : State} {c : CtxNum} {x : Context} {start : EmissionStart} (h : s.ctx c = some x)
    (hs : x.schedule = some start) :
    s.beginEmission c =
      if x.ready = none ∧ start.jobPosted = true ∧ x.encodeInFlight = true then
        s.putCtx c (Context.emitsFrom start.mode x)
      else (s.putCtx c (Context.emitsFrom start.mode x)).fixContent c := by
  simp [State.beginEmission, h, hs, Context.emitsFrom]

/-- The outcomes of an emission start of a context that is not released by its switch frame, case by case. -/
theorem beginEmission_outcome {s : State} (hs : s.canonical) {c : CtxNum} {x : Context} {start : EmissionStart}
    (h : s.ctx c = some x) (hsch : x.schedule = some start) :
    let t := s.beginEmission c
    let rate := s.rateRequest x.modeSet
    let begun (bytes : Option (List Byte)) : Option Emitting := some { sent := 1, content := bytes, mode := start.mode }
    ∃ y, t.ctx c = some y ∧ (∀ d, d ≠ c → t.ctx d = s.ctx d) ∧
      y.state = x.state ∧ y.schedule = none ∧ y.presentedNibble = some 0xA#4 ∧
      (∀ r, x.ready = some r → y.ready = none ∧ y.phaseLimit = false ∧ t.report = s.report ∧
        y.emitting = begun (some (buildParcel r.kind r.mode rate x.phaseLimit false r.payload))) ∧
      (x.ready = none → start.jobPosted = true → x.encodeInFlight = true →
        y.emitting = begun none ∧ y.phaseLimit = x.phaseLimit ∧ t.report = s.report) ∧
      (x.ready = none → start.jobPosted = false ∨ x.encodeInFlight = false →
        y.phaseLimit = false ∧ y.counters.lateEncode = countUp x.counters.lateEncode ∧
        y.emitting = begun (some (buildParcel .noData start.mode rate x.phaseLimit true [])) ∧
        t.report = if x.drives then (s.report.counted .lateEncodes).counted .fillers else s.report) := by
  intro t rate begun
  let z := Context.emitsFrom start.mode x
  have hz : (s.putCtx c z).ctx c = some z := ctx_putCtx_self ..
  have others : ∀ d, d ≠ c → (s.putCtx c z).ctx d = s.ctx d := fun d hd => by rw [ctx_putCtx, if_neg hd]
  have hrate : (s.putCtx c z).rateRequest z.modeSet = rate :=
    rateRequest_putCtx (y := z) hs h rfl _
  have ht : t = _ := beginEmission_begins h hsch
  by_cases hw : x.ready = none ∧ start.jobPosted = true ∧ x.encodeInFlight = true
  · rw [if_pos hw] at ht
    obtain ⟨hready, hjob, hfl⟩ := hw
    refine ⟨z, by rw [ht, hz], fun d hd => by rw [ht, others d hd], rfl, rfl, rfl, by simp [hready], ?_, by simp [hjob, hfl]⟩
    exact fun _ _ _ => ⟨rfl, rfl, by simp [ht]⟩
  · rw [if_neg hw] at ht
    cases hr : x.ready with
    | some r =>
      rw [fixContent_ready hz rfl hr, hrate] at ht
      refine ⟨Context.withContent _ _ z, by rw [ht]; exact ctx_putCtx_self ..,
        fun d hd => by rw [ht, ctx_putCtx, if_neg hd, others d hd],
        rfl, rfl, rfl, ?_, by simp, by simp⟩
      intro r' hr'
      cases hr'
      exact ⟨rfl, rfl, by simp [ht], rfl⟩
    | none =>
      rw [fixContent_filler hz rfl hr, hrate] at ht
      have hfixed : ∀ y, ((s.putCtx c z).putCtx c y).ctx c = some y := fun y => ctx_putCtx_self ..
      refine ⟨Context.lateEncoded (Context.withContent _ _ z), by rw [ht, ctx_countFiller, if_pos rfl, hfixed]; rfl,
        fun d hd => by rw [ht, ctx_countFiller, if_neg hd, ctx_putCtx, if_neg hd, others d hd], rfl, rfl, rfl, by simp,
        fun _ hj hf => absurd ⟨hr, hj, hf⟩ hw, fun _ _ => ⟨rfl, rfl, rfl, ?_⟩⟩
      rw [ht, countFiller_report (hfixed _)]
      simp [z, Context.withContent, Context.emitsFrom, Context.drives]

/-- Settles O56: the switch frame comes first, and what is left of the context begins its emission. -/
theorem emissionStarts : Obligations.EmissionStarts := by
  intro s c x start hheld hx hsch hf switches promoted z u rate begun
  have run : exec (.emissionStart c) s = .next (s.doEmissionStart c) := next_live hheld
  rw [run, doEmissionStart_due hx hsch hf]
  refine ⟨fun hsw hst => ?_, fun hs hno => ?_⟩
  · rw [doSwitchFrame_releases hx hsw hst, beginEmission_none (by simp [ctx_releaseCtx])]
  · have hu : s.doSwitchFrame c = u := by
      by_cases hp : promoted
      · obtain ⟨hsw, hst⟩ := hp
        simp only [u, z, if_pos (show promoted from ⟨hsw, hst⟩)]
        exact doSwitchFrame_promotes hx hsw hst
      · simp only [u, if_neg hp]
        by_cases hsw : switches
        · have hst : x.state = .primary := by
            cases hst : x.state with
            | warming => exact absurd ⟨hsw, Or.inl hst⟩ hp
            | standby => exact absurd ⟨hsw, Or.inr hst⟩ hp
            | yielding => exact absurd ⟨hsw, hst⟩ hno
            | primary => rfl
          exact doSwitchFrame_primary hx hst
        · exact doSwitchFrame_of_ne (fun y hy => by rwa [← Option.some.inj (hx.symm.trans hy)])
    have hz : u.ctx c = some z := by
      by_cases hp : promoted
      · simp only [u, if_pos hp, ctx_putCtx_self]
      · simp only [u, z, if_neg hp, hx]
    have hcanon : u.canonical := by
      by_cases hp : promoted
      · simp only [u, if_pos hp]; exact putCtx_canonical c z hs
      · simp only [u, if_neg hp]; exact hs
    have blocks : u.hwi = s.hwi ∧ u.notice = s.notice ∧ u.mapu = s.mapu ∧ u.pool = s.pool ∧ u.life = s.life ∧
        u.engines = s.engines ∧ u.released = s.released ∧ u.report = s.report ∧ ∀ d, d ≠ c → u.ctx d = s.ctx d := by
      by_cases hp : promoted
      · simp only [u, if_pos hp, putCtx_blocks, true_and]
        exact fun d hd => by rw [ctx_putCtx, if_neg hd]
      · simp [u, if_neg hp]
    have same : z.schedule = x.schedule ∧ z.ready = x.ready ∧ z.modeSet = x.modeSet ∧ z.phaseLimit = x.phaseLimit ∧
        z.encodeInFlight = x.encodeInFlight ∧ z.counters = x.counters := by
      by_cases hp : promoted <;> simp [z, if_pos, if_neg, hp]
    obtain ⟨hhwi, hnotice, hmapu, hpool, hlife, hengines, hreleased, hreport, hothers⟩ := blocks
    obtain ⟨zsch, zready, zmodes, zlimit, zflight, zcounters⟩ := same
    obtain ⟨y, hy, others, hst, hsched, hnib, outcomes⟩ := beginEmission_outcome hcanon hz (zsch.trans hsch)
    rw [zready, zmodes, zlimit, zflight, zcounters, hreport] at outcomes
    rw [hu]
    refine ⟨_, y, rfl, hy, fun d hd => (others d hd).trans (hothers d hd), by simp [hhwi], by simp [hnotice],
      by simp [hmapu], by simp [hpool], by simp [hlife], by simp [hengines], by simp [hreleased], hst, hsched, hnib, ?_⟩
    exact outcomes

end Sys2Proof.Proofs

/-! Proofs: placing a notice and removing notices, outside a window and around one (O26). -/

namespace Sys2Proof.Proofs

open Sys2Proof Sys2Proof.Machine Sys2Proof.Laws

/-! ### Joining (R99) -/

/-- In an ordered outbox a new entry joins after every entry of its kind and before every entry of a higher kind. -/
theorem insertEntry_eq (e : OutEntry) {l : List OutEntry} (h : l.Pairwise OutEntry.before) :
    insertEntry e l = l.filter (fun x => decide (x.notice.kindCode ≤ e.notice.kindCode)) ++
      e :: l.filter (fun x => decide (e.notice.kindCode < x.notice.kindCode)) := by
  induction l with
  | nil => rfl
  | cons x l ih =>
    obtain ⟨hx, hl⟩ := List.pairwise_cons.1 h
    unfold insertEntry
    split
    · rename_i hk
      simp [hk, not_lt.2 hk, ih hl]
    · rename_i hk
      have higher : ∀ y ∈ l, e.notice.kindCode < y.notice.kindCode := fun y hy => by
        have := hx y hy
        unfold OutEntry.before at this
        omega
      have none' : l.filter (fun y => decide (y.notice.kindCode ≤ e.notice.kindCode)) = [] :=
        List.filter_eq_nil_iff.2 (fun y hy => by simpa using higher y hy)
      have all : l.filter (fun y => decide (e.notice.kindCode < y.notice.kindCode)) = l :=
        List.filter_eq_self.2 (fun y hy => by simpa using higher y hy)
      simp [hk, not_le.1 hk, none', all]

theorem holdsKey_iff {n : Notice} {box : List OutEntry} :
    holdsKey n box = true ↔ ∃ e ∈ box, e.notice.key = n.key := by
  simp [holdsKey]

theorem holdsKey_eq_false {n : Notice} {box : List OutEntry} (h : ∀ e ∈ box, e.notice.key ≠ n.key) :
    holdsKey n box = false := by
  simpa [holdsKey] using h

/-! ### What leaves unsent -/

/-- What a notice that leaves unsent changes from s to t: a BID its reservation and its shadow fill, a SHED the shed in
progress, a TAKEN its mark. -/
def LeftUnsent (n : Notice) (s t : State) : Prop :=
  match n with
  | .bid p _ role _ =>
    t.table = { s.table with reservations := s.table.reservations.filter (fun r => decide (r.position ≠ p)) } ∧
      t.pool = if role = .shadow ∧ s.pool.fill = some p then { s.pool with fill := none } else s.pool
  | .shed p _ _ => t.table = s.table ∧
      t.pool = if s.pool.shedding = some p then { s.pool with shedding := none } else s.pool
  | .taken p _ _ _ => t.table = s.table ∧ t.pool = { s.pool with takenMarks := t.pool.takenMarks } ∧
      ∀ q, t.takenMark q = if q = p then false else s.takenMark q
  | _ => t.table = s.table ∧ t.pool = s.pool

theorem departed_leftUnsent (n : Notice) {s u : State} (ht : u.table = s.table) (hp : u.pool = s.pool) :
    LeftUnsent n s (u.departed n) := by
  cases n with
  | bid p tag role cost =>
    simp only [LeftUnsent, State.departed, State.releaseReservation, onTable_pool, hp]
    split <;> simp [ht, hp]
  | shed p tag cost =>
    simp only [LeftUnsent, State.departed, hp]
    split <;> simp [ht, hp]
  | taken p tag cause phase =>
    have hmark : ∀ q, u.takenMark q = s.takenMark q := fun q => by unfold State.takenMark; rw [hp]
    simp only [LeftUnsent, State.departed, takenMark_clearTakenMark, hmark]
    exact ⟨ht, by rw [← hp]; rfl, fun _ => trivial⟩
  | lost | clear | offer | hold | present | query | report => exact ⟨ht, hp⟩

/-! ### Placing outside a window (R99 to R101) -/

section
variable {s : State} {n : Notice} (hs : s.notice.sound)
include hs

theorem place_replaces (h : ∃ e ∈ s.notice.outbox, e.notice.key = n.key) :
    s.place n = s.onNotice (fun k => { k with outbox := replaceEntry n k.outbox }) := by
  rw [place_outside n hs.2, if_pos (holdsKey_iff.2 h)]

theorem place_joins (h : ∀ e ∈ s.notice.outbox, e.notice.key ≠ n.key) (hl : s.notice.outbox.length < 16) :
    s.place n = s.joinOutbox n := by
  rw [place_outside n hs.2, holdsKey_eq_false h, if_neg Bool.false_ne_true, if_pos hl]

variable {worst : OutEntry} (h : ∀ e ∈ s.notice.outbox, e.notice.key ≠ n.key) (hl : s.notice.outbox.length = 16)
  (hw : s.notice.outbox.getLast? = some worst)
include h hl hw

theorem place_evicts (hk : n.kindCode < worst.notice.kindCode) :
    s.place n = (((s.onNotice (fun k => { k with outbox := k.outbox.dropLast })).joinOutbox n).count
      .outboxDrops).departed worst.notice := by
  rw [place_outside n hs.2, holdsKey_eq_false h, if_neg Bool.false_ne_true, if_neg (by omega), hw]
  exact if_pos hk

theorem place_drops (hk : worst.notice.kindCode ≤ n.kindCode) : s.place n = (s.count .outboxDrops).departed n := by
  rw [place_outside n hs.2, holdsKey_eq_false h, if_neg Bool.false_ne_true, if_neg (by omega), hw]
  exact if_neg (not_lt.2 hk)

end

/-- What joining makes of an ordered outbox. -/
theorem joinOutbox_eq {s : State} (n : Notice) (h : s.notice.outbox.Pairwise OutEntry.before) :
    s.joinOutbox n = { s with notice := { s.notice with
      outbox := s.notice.outbox.filter (fun e => decide (e.notice.kindCode ≤ n.kindCode)) ++
        { notice := n, age := s.notice.nextAge, retries := 0 } ::
          s.notice.outbox.filter (fun e => decide (n.kindCode < e.notice.kindCode))
      nextAge := s.notice.nextAge + 1 } } := by
  have joined := insertEntry_eq { notice := n, age := s.notice.nextAge, retries := 0 } h
  unfold State.joinOutbox State.onNotice
  simp only [joined]

/-! ### Around a window (R103) -/

theorem beginWindow_head {s : State} {e : OutEntry} {rest : List OutEntry} (h : s.notice.outbox = e :: rest) :
    s.beginWindow = s.onNotice (fun k => k.begins e.notice) := by
  simp [State.beginWindow, State.headEntry, h]

/-- The only entry with the head's key is the head. -/
theorem key_ne_head {k : NoticeCtl} {e : OutEntry} {rest : List OutEntry} (hk : k.sound) (h : k.outbox = e :: rest) :
    ∀ x ∈ rest, x.notice.key ≠ e.notice.key := by
  obtain ⟨⟨-, -, hnodup, -⟩, -⟩ := hk
  rw [h, List.map_cons, List.nodup_cons] at hnodup
  exact fun x hx hkey => hnodup.1 (List.mem_map.2 ⟨x, hx, hkey⟩)

/-- A replacement of the entry in its window waits. -/
theorem place_waits {s : State} {n : Notice} {e : OutEntry} {rest : List OutEntry} (h : s.notice.outbox = e :: rest)
    (hn : n.key = e.notice.key) :
    s.beginWindow.place n = s.onNotice (fun k =>
      { k with inWindow := some { key := e.notice.key, waiting := [.place n] } }) := by
  have sends : s.beginWindow.notice.sends n = true := by
    simp [beginWindow_head h, NoticeCtl.sends, NoticeCtl.begins, hn]
  unfold State.place
  rw [if_pos sends, beginWindow_head h]
  rfl

/-- Once the entry leaves its window, the one request that waited takes effect. -/
theorem leavesWindow_waiting {s : State} {key : Nat × Nat} {r : OutRequest}
    (h : s.notice.inWindow = some { key := key, waiting := [r] }) :
    s.leavesWindow = (s.onNotice (fun k => { k with inWindow := none })).takeRequest key r := by
  simp [State.leavesWindow, h]

/-- It finds the state as it would have been without a window. -/
theorem leavesWindow_one {s : State} (hs : s.notice.inWindow = none) (key : Nat × Nat) (r : OutRequest) :
    (s.onNotice (fun k => { k with inWindow := some { key := key, waiting := [r] } })).leavesWindow =
      s.takeRequest key r := by
  have : s.onNotice (fun k => { k with inWindow := none }) = s := by
    unfold State.onNotice
    rw [← hs]
  rw [leavesWindow_waiting rfl]
  exact congrArg (State.takeRequest key · r) this

theorem removeNow_nothing {s : State} {f : Notice → Bool} (h : ∀ e ∈ s.notice.outbox, f e.notice = false) :
    s.removeNow f = s := by
  have gone : s.notice.outbox.filter (fun e => f e.notice) = [] :=
    List.filter_eq_nil_iff.2 (fun e he => by simp [h e he])
  have kept : s.notice.outbox.filter (fun e => !(f e.notice)) = s.notice.outbox :=
    List.filter_eq_self.2 (fun e he => by simp [h e he])
  simp only [State.removeNow, gone, List.foldl_nil, State.onNotice, kept]

/-- The removal of the head alone. -/
theorem removeNow_head {s : State} {f : Notice → Bool} {e : OutEntry} {rest : List OutEntry}
    (hb : s.notice.outbox = e :: rest) (he : f e.notice = true) (h : ∀ x ∈ rest, f x.notice = false) :
    s.removeNow f = (s.onNotice (fun k => { k with outbox := rest })).departed e.notice := by
  have gone : rest.filter (fun e => f e.notice) = [] := List.filter_eq_nil_iff.2 (fun e he => by simp [h e he])
  have kept : rest.filter (fun e => !(f e.notice)) = rest := List.filter_eq_self.2 (fun e he => by simp [h e he])
  simp [State.removeNow, hb, he, gone, State.onNotice, kept]

/-- A removal in a window: the other entries that it names leave, and for the one in its window it waits. -/
theorem removeNotices_waits {s : State} {r : Removal} {e : OutEntry} {rest : List OutEntry} (hs : s.notice.sound)
    (h : s.notice.outbox = e :: rest) :
    (s.beginWindow.removeNotices r).notice = { s.notice with
      outbox := e :: rest.filter (fun x => !(r.names x.notice))
      inWindow := some { key := e.notice.key, waiting := [.remove r] } } := by
  unfold State.removeNotices
  rw [removeNow_outbox]
  simp only [onNotice_notice, beginWindow_head h, NoticeCtl.defer, NoticeCtl.begins, h]
  congr 1
  rw [List.filter_cons_of_pos (by simp [NoticeCtl.sends])]
  congr 1
  refine List.filter_congr (fun x hx => ?_)
  simp [NoticeCtl.sends, key_ne_head hs h x hx]

/-- What a removal request names. -/
theorem names_iff (r : Removal) (n : Notice) : r.names n = true ↔ match r with
    | .forPosition p => n.positionField = p.val ∧
        (n.kindCode = 2 ∨ n.kindCode = 5 ∨ n.kindCode = 6 ∨ n.kindCode = 7 ∨ ∃ value, n = .report p 0x41#8 value)
    | .lostOf q => ∃ age, n = .lost q age
    | .bidOf p => ∃ tag role cost, n = .bid p tag role cost := by
  cases r with
  | forPosition p =>
    cases n <;> simp [Removal.names, Notice.isFor, Notice.positionField, Notice.kindCode, Fin.ext_iff]
  | lostOf q => cases n <;> simp [Removal.names]
  | bidOf p => cases n <;> simp [Removal.names]

/-- Settles O26: each row of R99 to R101, and what a window makes wait. -/
theorem placingANotice : Obligations.PlacingANotice := by
  refine ⟨fun n s hs => ?_, fun n s e rest hs hb hn => ?_, fun r s e rest hs hb hr => ?_, names_iff⟩
  · refine ⟨sound_iff_rests.2 (place_rests n (sound_iff_rests.1 hs)), by simp, by simp, by simp, by simp, by simp,
      place_replaces hs, fun hk hl => ?_, fun hk hl worst hw => ?_⟩
    · exact (place_joins hs hk hl).trans (joinOutbox_eq n hs.1.2.1)
    · rcases lt_or_ge n.kindCode worst.notice.kindCode with hlt | hge
      · have evicts := place_evicts hs hk hl hw hlt
        have drop := hs.1.2.1.sublist (List.dropLast_sublist s.notice.outbox)
        refine ⟨by rw [evicts]; simp [State.count, State.joinOutbox], fun _ => ⟨?_, ?_⟩, fun h => absurd hlt (not_lt.2 h)⟩
        · rw [evicts, joinOutbox_eq n drop]
          simp
        · rw [evicts]
          exact departed_leftUnsent worst.notice rfl rfl
      · have drops := place_drops hs hk hl hw hge
        refine ⟨by rw [drops]; simp [State.count], fun h => absurd h (not_lt.2 hge), fun _ => ⟨?_, ?_⟩⟩
        · rw [drops]; simp
        · rw [drops]
          exact departed_leftUnsent n rfl rfl
  · rw [place_waits hb hn]
    refine ⟨hb, leavesWindow_one hs.2 _ _, ?_⟩
    exact leavesWindow_one (s := { s with notice := { s.notice with outbox := rest } }) hs.2 _ _
  · intro w others
    have hw : w.notice = _ := removeNotices_waits hs hb
    have hkeys := key_ne_head hs hb
    have head : (decide (e.notice.key = e.notice.key) && r.names e.notice) = true := by simp [hr]
    have none' : ∀ x ∈ others, (decide (x.notice.key = e.notice.key) && r.names x.notice) = false := fun x hx => by
      simp [hkeys x (List.mem_of_mem_filter hx)]
    have hbox : w.notice.outbox = e :: others := by rw [hw]
    have hwin : w.notice.inWindow = some { key := e.notice.key, waiting := [.remove r] } := by rw [hw]
    have rested : ({ w.notice with outbox := others, inWindow := none } : NoticeCtl) =
        { s.notice with outbox := others } := by simp [hw, hs.2]
    have left : w.leavesWindow =
        (w.onNotice (fun k => { k with outbox := others, inWindow := none })).departed e.notice := by
      rw [leavesWindow_waiting hwin]
      exact removeNow_head (f := fun n => decide (n.key = e.notice.key) && r.names n) hbox head none'
    refine ⟨hbox, ?_, ?_, ?_⟩
    · rw [left, ← rested]; simp
    · rw [left]; exact departed_leftUnsent e.notice rfl rfl
    · rw [leavesWindow_waiting (s := { w with notice := { w.notice with outbox := others } }) hwin, ← rested]
      exact removeNow_nothing (f := fun n => decide (n.key = e.notice.key) && r.names n) none'

end Sys2Proof.Proofs

/-! Proofs: the switch frames of a frame, the closures, and with them what comes before a record's application (O27). -/

namespace Sys2Proof.Proofs

open Sys2Proof Sys2Proof.Machine Sys2Proof.Laws

section
variable {σ κ : Type}

/-- Walks of two steps that do the same wherever P holds. -/
theorem foldl_congr_of (P : σ → Prop) (f f' : σ → κ → σ) (keep : ∀ s k, P s → P (f s k))
    (same : ∀ s k, P s → f s k = f' s k) (l : List κ) {s : σ} (hs : P s) : l.foldl f s = l.foldl f' s := by
  induction l generalizing s with
  | nil => rfl
  | cons k l ih => rw [List.foldl_cons, List.foldl_cons, ← same s k hs, ih (keep s k hs)]

end

/-- The Map Unit but for its position records. -/
def unmapped (m : MapUnit) : MapUnit := { m with map := [] }

theorem unmapped_eq {m n : MapUnit} (h : unmapped m = unmapped n) : m = { n with map := m.map } := by
  cases m; cases n; simp_all [unmapped]

@[simp] theorem unmapped_putRec (p : Pos) (r : PosRecord) (s : State) :
    unmapped (s.putRec p r).mapu = unmapped s.mapu := rfl

/-! ### The switch frames (R14, R115) -/

/-- A context, or none, after its switch frame's frame (R14). -/
def switchedCtx (now : FrameCount) (o : Option Context) : Option Context :=
  o.bind (fun x => if x.switchFrame = some now then
    match x.state with
    | .warming => some x.promoted
    | .standby => some x.promoted
    | .yielding => none
    | .primary => some x
  else some x)

theorem ctx_doSwitchFrame (c d : CtxNum) (s : State) :
    (s.doSwitchFrame c).ctx d = if d = c then switchedCtx s.hwi.frameCount (s.ctx c) else s.ctx d := by
  have unchanged : s.doSwitchFrame c = s → switchedCtx s.hwi.frameCount (s.ctx c) = s.ctx c →
      (s.doSwitchFrame c).ctx d = if d = c then switchedCtx s.hwi.frameCount (s.ctx c) else s.ctx d := by
    intro same keeps
    rw [same, keeps]
    split
    · rename_i hd; rw [hd]
    · rfl
  cases h : s.ctx c with
  | none => exact h ▸ unchanged (doSwitchFrame_of_ne (by simp [h])) (by rw [h]; rfl)
  | some x =>
    by_cases hx : x.switchFrame = some s.hwi.frameCount
    · cases hst : x.state with
      | warming => simp [doSwitchFrame_promotes h hx (Or.inl hst), switchedCtx, hx, hst, ctx_putCtx]
      | standby => simp [doSwitchFrame_promotes h hx (Or.inr hst), switchedCtx, hx, hst, ctx_putCtx]
      | yielding => simp [doSwitchFrame_releases h hx hst, switchedCtx, hx, hst, ctx_releaseCtx]
      | primary => exact h ▸ unchanged (doSwitchFrame_primary h hst) (by simp [h, switchedCtx, hx, hst])
    · exact h ▸ unchanged (doSwitchFrame_of_ne (by simpa [h] using hx)) (by simp [h, switchedCtx, hx])

theorem ctx_switchContexts {s : State} (hs : s.canonical) (c : CtxNum) :
    s.switchContexts.ctx c = switchedCtx s.hwi.frameCount (s.ctx c) := by
  have walk := foldl_pointwise (fun u : State => u.hwi.frameCount = s.hwi.frameCount) State.ctx
    (fun u c => u.doSwitchFrame c) (fun _ => switchedCtx s.hwi.frameCount) (fun u c hu => by simpa using hu)
    (fun u c hu => by rw [ctx_doSwitchFrame, if_pos rfl, hu]) (fun u c d _ hd => by rw [ctx_doSwitchFrame, if_neg hd])
    (keys_nodup hs.1) (s := s) rfl c
  refine walk.trans ?_
  split
  · rfl
  · rename_i hc
    have : s.ctx c = none := Option.not_isSome_iff_eq_none.1 (mt mem_keys_iff.2 hc)
    rw [this]; rfl

/-- A record after its switch frame's frame (R115). -/
def switchedRec (now : FrameCount) (r : PosRecord) : PosRecord := if r.switchFrame = some now then r.switched else r

theorem recAt_doRecordSwitchFrame (p q : Pos) (s : State) :
    (s.doRecordSwitchFrame p).recAt q = if q = p then switchedRec s.hwi.frameCount (s.recAt p) else s.recAt q := by
  unfold State.doRecordSwitchFrame switchedRec
  split
  · exact recAt_putRec ..
  · split <;> simp_all

theorem recAt_switchRecords {s : State} (hs : s.canonical) (p : Pos) :
    s.switchRecords.recAt p = switchedRec s.hwi.frameCount (s.recAt p) := by
  have walk := foldl_pointwise (fun u : State => u.hwi.frameCount = s.hwi.frameCount) State.recAt
    (fun u p => u.doRecordSwitchFrame p) (fun _ => switchedRec s.hwi.frameCount) (fun u p hu => by simpa using hu)
    (fun u p hu => by rw [recAt_doRecordSwitchFrame, if_pos rfl, hu])
    (fun u p q _ hq => by rw [recAt_doRecordSwitchFrame, if_neg hq]) (keys_nodup hs.2.2.1.1) (s := s) rfl p
  refine walk.trans ?_
  split
  · rfl
  · rename_i hp
    have : s.recAt p = PosRecord.free := recAt_unlisted (by simpa [mem_keys_iff] using hp)
    rw [this]; rfl

theorem switchRecords_unmapped (s : State) : unmapped s.switchRecords.mapu = unmapped s.mapu := by
  refine foldl_keeps (fun u => unmapped u.mapu) _ (fun u p => ?_) _ _
  unfold State.doRecordSwitchFrame
  split <;> simp

/-- The switch frames of a frame, in the contexts and in the records, and in nothing else of the Map Unit. -/
theorem takeSwitchFrames_reads {s : State} (hs : s.canonical) :
    (∀ c, s.takeSwitchFrames.ctx c = switchedCtx s.hwi.frameCount (s.ctx c)) ∧
      (∀ p, s.takeSwitchFrames.recAt p = switchedRec s.hwi.frameCount (s.recAt p)) ∧
      unmapped s.takeSwitchFrames.mapu = unmapped s.mapu := by
  refine ⟨fun c => ?_, fun p => ?_, ?_⟩
  · rw [← ctx_switchContexts hs]
    exact ctx_of_contexts (by simp [State.takeSwitchFrames]) c
  · have := recAt_switchRecords (switchContexts_canonical hs) p
    rwa [switchContexts_blocks .. |>.1, recAt_of_map (t := s.switchContexts) (s := s) (by simp)] at this
  · rw [State.takeSwitchFrames, switchRecords_unmapped, switchContexts_blocks .. |>.2.1]

/-- A frame without switch frames. -/
theorem takeSwitchFrames_none {s : State}
    (hc : ∀ c x, s.ctx c = some x → x.switchFrame ≠ some s.hwi.frameCount)
    (hr : ∀ p, (s.recAt p).switchFrame ≠ some s.hwi.frameCount) : s.takeSwitchFrames = s := by
  have contexts : s.switchContexts = s := foldl_id _ (fun c => doSwitchFrame_of_ne (hc c))
  have records : s.switchRecords = s := foldl_id _ (fun p => if_neg (hr p))
  rw [State.takeSwitchFrames, contexts, records]

/-! ### The closures (R113) -/

/-- A record after the closure of its claim window, by its state. -/
def closedRec (r : PosRecord) : PosRecord :=
  match r.state with
  | .offered => PosRecord.free
  | .held => { r with closing := none }
  | .shedding => { r with state := .held, closing := none }
  | .orphaned => PosRecord.free
  | .free => r

section
variable {s : State} {p : Pos}

theorem closeWindow_offered (h : (s.recAt p).state = .offered) :
    s.closeWindow p = (s.putRec p PosRecord.free).count .offerLapses := by
  simp [State.closeWindow, h]

theorem closeWindow_held (h : (s.recAt p).state = .held) :
    s.closeWindow p = s.putRec p { s.recAt p with closing := none } := by
  simp [State.closeWindow, h]

theorem closeWindow_shedding (h : (s.recAt p).state = .shedding) :
    s.closeWindow p =
      ((s.putRec p { s.recAt p with state := .held, closing := none }).count .shedLapses).shedLapse p := by
  simp [State.closeWindow, h]

theorem closeWindow_orphaned (h : (s.recAt p).state = .orphaned) :
    s.closeWindow p = (s.putRec p PosRecord.free).count .orphanLapses := by
  simp [State.closeWindow, h]

theorem closeWindow_free (h : (s.recAt p).state = .free) : s.closeWindow p = s := by
  simp [State.closeWindow, h]

end

/-- A lapse of a shed ends an own one and sets the hold-off. -/
theorem shedLapse_pool (p : Pos) (s : State) : (s.shedLapse p).pool =
    if s.pool.shedding = some p then { s.pool with shedding := none, holdOff := s.life.settings.shedHoldOff }
    else s.pool := by
  unfold State.shedLapse
  split <;> rfl

theorem recAt_closeWindow (p q : Pos) (s : State) :
    (s.closeWindow p).recAt q = if q = p then closedRec (s.recAt p) else s.recAt q := by
  unfold closedRec
  cases h : (s.recAt p).state with
  | free => rw [closeWindow_free h]; split <;> simp_all
  | offered => rw [closeWindow_offered h]; exact recAt_putRec ..
  | held => rw [closeWindow_held h, recAt_putRec]; simp [h]
  | shedding =>
    rw [closeWindow_shedding h]
    exact (recAt_of_map (by simp) q).trans (recAt_putRec ..)
  | orphaned => rw [closeWindow_orphaned h]; exact recAt_putRec ..

theorem closeWindow_unmapped (p : Pos) (s : State) : unmapped (s.closeWindow p).mapu = unmapped s.mapu := by
  cases h : (s.recAt p).state with
  | free => rw [closeWindow_free h]
  | offered => simp [closeWindow_offered h]
  | held => simp [closeWindow_held h]
  | shedding => simp [closeWindow_shedding h]
  | orphaned => simp [closeWindow_orphaned h]

/-- The closure of one position where its window has passed, told to the Pool Controller. -/
def closeStep (stamp : FrameCount) (u : State) (p : Pos) : State :=
  if (u.recAt p).closing.map (atOrBefore stamp) = some false then (u.closeWindow p).poolReact p (u.recAt p) else u

theorem recAt_closeStep (stamp : FrameCount) (p q : Pos) (u : State) :
    (closeStep stamp u p).recAt q =
      if q = p then
        if (u.recAt p).closing.map (atOrBefore stamp) = some false then closedRec (u.recAt p) else u.recAt p
      else u.recAt q := by
  unfold closeStep
  split
  · rw [← recAt_closeWindow]
    exact recAt_of_map (by simp) q
  · split <;> simp_all

theorem closeStep_unmapped (stamp : FrameCount) (u : State) (p : Pos) :
    unmapped (closeStep stamp u p).mapu = unmapped u.mapu := by
  unfold closeStep
  split
  · rw [poolReact_blocks .. |>.2.2.1, closeWindow_unmapped]
  · rfl

theorem closeStep_skip {stamp : FrameCount} {u : State} {p : Pos} (h : u.recAt p = PosRecord.free) :
    closeStep stamp u p = u := by
  simp [closeStep, h, PosRecord.free]

/-- The closures, as a walk over every position. -/
theorem closeWindows_eq {s : State} (hs : s.canonical) :
    s.closeWindows = (List.finRange 256).foldl (closeStep s.mapu.mapTime) s := by
  have same : s.closeWindows = s.recordedPositions.foldl (closeStep s.mapu.mapTime) s := by
    refine (foldl_congr_of (fun u => u.mapu.mapTime = s.mapu.mapTime) _ _ (fun u p hu => ?_) (fun u p hu => ?_) _
      rfl).symm
    · exact (congrArg MapUnit.mapTime (closeStep_unmapped s.mapu.mapTime u p)).trans hu
    · unfold closeStep State.windowPassed
      rw [hu]
      cases (u.recAt p).closing <;> simp
  rw [same, recordedPositions_eq hs]
  refine foldl_filter_skip (fun u => ∀ p, (Table.lookup s.mapu.map p).isSome = false → u.recAt p = PosRecord.free)
    _ _ (fun u p hu q hq => ?_) (fun u p hu hp => closeStep_skip (hu p hp)) _ (fun p hp => recAt_unlisted hp)
  by_cases hqp : q = p
  · subst hqp; rw [closeStep_skip (hu q hq), hu q hq]
  · rw [recAt_closeStep, if_neg hqp, hu q hq]

/-- The closures, read at one position, and in nothing else of the Map Unit. -/
theorem closeWindows_reads {s : State} (hs : s.canonical) :
    (∀ p, s.closeWindows.recAt p = if (s.recAt p).closing.map (atOrBefore s.mapu.mapTime) = some false then
        closedRec (s.recAt p) else s.recAt p) ∧ unmapped s.closeWindows.mapu = unmapped s.mapu := by
  rw [closeWindows_eq hs]
  refine ⟨fun p => ?_, foldl_keeps (fun u => unmapped u.mapu) _ (closeStep_unmapped _) _ _⟩
  refine (foldl_pointwise (fun _ => True) State.recAt (closeStep s.mapu.mapTime)
    (fun _ r => if r.closing.map (atOrBefore s.mapu.mapTime) = some false then closedRec r else r)
    (fun _ _ _ => trivial) (fun u p _ => by rw [recAt_closeStep, if_pos rfl])
    (fun u p q _ hq => by rw [recAt_closeStep, if_neg hq]) (List.nodup_finRange _) (s := s) trivial p).trans ?_
  rw [if_pos (List.mem_finRange p)]

/-- The state in which the closures before a record begin. -/
def takenAt (r : Record) (s : State) : State :=
  s.takeSwitchFrames.onMap (fun m => { m with mapTime := r.stamp, turn := false })

theorem beginRecord_eq (r : Record) (s : State) : s.beginRecord r = (takenAt r s).closeWindows := rfl

theorem takenAt_canonical {s : State} (r : Record) (hs : s.canonical) : (takenAt r s).canonical :=
  onMap_canonical (fun _ => rfl) (fun _ => rfl) (takeSwitchFrames_canonical hs)

/-- What comes before a record's application changes of the Map Unit the records, the map time and the turn. -/
theorem beginRecord_unmapped (r : Record) (s : State) :
    unmapped (s.beginRecord r).mapu = { unmapped s.mapu with mapTime := r.stamp, turn := false } := by
  have closes : ∀ u : State, unmapped u.closeWindows.mapu = unmapped u.mapu := fun u => by
    refine foldl_keeps (fun u => unmapped u.mapu) _ (fun u p => ?_) _ _
    split
    · rw [poolReact_blocks .. |>.2.2.1, closeWindow_unmapped]
    · rfl
  have switches : unmapped s.takeSwitchFrames.mapu = unmapped s.mapu := by
    rw [State.takeSwitchFrames, switchRecords_unmapped, switchContexts_blocks .. |>.2.1]
  rw [beginRecord_eq, closes]
  exact congrArg (fun m : MapUnit => { m with mapTime := r.stamp, turn := false }) switches

theorem beginRecord_mapu (r : Record) (s : State) : (s.beginRecord r).mapu =
    { s.mapu with map := (s.beginRecord r).mapu.map, mapTime := r.stamp, turn := false } :=
  unmapped_eq (n := { s.mapu with mapTime := r.stamp, turn := false }) (beginRecord_unmapped r s)

theorem option_map_eq_some_false {α : Type} {o : Option α} {f : α → Bool} :
    o.map f = some false ↔ ∃ a, o = some a ∧ f a = false := by
  cases o <;> simp

/-- Settles O27: a frame with nothing due, the steps in general, and the closure of one window. -/
theorem beforeARecord : Obligations.BeforeARecord := by
  refine ⟨fun s r hc hr hw => ?_, fun s r hs => ?_, fun s p => ?_⟩
  · have taken : takenAt r s = { s with mapu := { s.mapu with mapTime := r.stamp, turn := false } } := by
      rw [takenAt, takeSwitchFrames_none hc hr]; rfl
    rw [beginRecord_eq, taken]
    refine foldl_id _ (fun p => if_neg ?_)
    rw [windowPassed_iff]
    rintro ⟨c, hcl, hp⟩
    have := hw p c hcl
    simp_all
  · intro now passed switched t
    obtain ⟨contexts, records, -⟩ := takeSwitchFrames_reads hs
    obtain ⟨closed, -⟩ := closeWindows_reads (takenAt_canonical r hs)
    have hctx : ∀ c, t.ctx c = switchedCtx now (s.ctx c) := fun c => by
      rw [← contexts]; exact ctx_of_contexts (closeWindows_contexts) c
    have hrec : ∀ p, (takenAt r s).recAt p = switched p := fun p => records p
    have hclosing : ∀ p, (switched p).closing = (s.recAt p).closing := fun p => by
      simp only [switched]; split <;> rfl
    have hstate : ∀ p, (switched p).state = (s.recAt p).state := fun p => by
      simp only [switched]; split <;> rfl
    have hpassed : ∀ p, (switched p).closing.map (atOrBefore r.stamp) = some false ↔ passed p := fun p => by
      rw [hclosing, option_map_eq_some_false]
    have hread : ∀ p, t.recAt p = if (switched p).closing.map (atOrBefore r.stamp) = some false then
        closedRec (switched p) else switched p := fun p => by
      rw [← hrec p]; exact closed p
    have hmap := beginRecord_mapu r s
    refine ⟨(congrArg MapUnit.mapTime hmap :), (congrArg MapUnit.turn hmap :), (congrArg MapUnit.intake hmap :),
      (congrArg MapUnit.roster hmap :), (congrArg MapUnit.sweep hmap :), by simp [t], by simp [t], fun p hp => ?_,
      fun p hp => ?_, fun c hc => ?_, fun c x hc hx => ?_, fun c x hc hx hst => ?_, fun c x hc hx hst => ?_,
      closeWindows_eq (takenAt_canonical r hs)⟩
    · rw [hread, if_neg (by rwa [hpassed])]
    · rw [hread, if_pos ((hpassed p).2 hp), closedRec, hstate]
      cases h : (s.recAt p).state <;> simp [hstate, h]
    · rw [hctx, hc]; rfl
    · rw [hctx, hc]
      rcases hx with hx | hx <;> simp [switchedCtx, now, hx]
    · rw [hctx, hc]
      rcases hst with hst | hst <;> simp [switchedCtx, hx, hst, Context.promoted]
    · rw [hctx, hc]
      simp [switchedCtx, hx, hst]
  · intro r t
    have hrec : t.recAt p = closedRec r := by rw [recAt_closeWindow, if_pos rfl]
    have hmap := unmapped_eq (closeWindow_unmapped p s)
    refine ⟨fun q hq => by rw [recAt_closeWindow, if_neg hq], by simp [t], by simp [t], by simp [t], by simp [t],
      by simp [t], by simp [t], (congrArg MapUnit.roster hmap :), (congrArg MapUnit.intake hmap :), fun h => ?_,
      fun h => ?_, fun h => ?_, fun h => ?_⟩
    · exact ⟨by simp [hrec, closedRec, h], by simp [t, closeWindow_offered h, State.count],
        by simp [t, closeWindow_offered h]⟩
    · exact ⟨by simp [hrec, closedRec, h], by simp [t, closeWindow_held h], by simp [t, closeWindow_held h]⟩
    · refine ⟨by simp [hrec, closedRec, h], by simp [t, closeWindow_shedding h, State.count], ?_⟩
      simp only [t, closeWindow_shedding h]
      exact shedLapse_pool ..
    · exact ⟨by simp [hrec, closedRec, h], by simp [t, closeWindow_orphaned h, State.count],
        by simp [t, closeWindow_orphaned h]⟩

end Sys2Proof.Proofs

/-! Proofs: the stray own TAKEN whose mark stays (O35). -/

namespace Sys2Proof.Proofs

open Sys2Proof Sys2Proof.Machine Sys2Proof.Laws

/-- The call of position 5. -/
def strayCall : Call := { tag := 1, law := .aLaw, modeSet := 1, mode := 0, phase := 0, offerer := none }

/-- A record that names station 1 as primary and the own station as shadow. -/
def strayRec : PosRecord :=
  { PosRecord.free with state := .held, call := some strayCall, primary := some 1, shadow := some 0 }

/-- The own TAKEN of position 5, with a call tag that is not the record's. -/
def strayHeard : Heard := { sender := 1, grade := 0, notice := .taken 5 0 .orphan 0, own := true }

/-- An ACTIVE station at its turn, with a stray own TAKEN at the head of the intake and two contexts under the number 0,
the first of which is for position 7. -/
def strayState : State :=
  { State.reset with
    table := { State.reset.table with contexts :=
      [(0, Context.fresh .standby (some .shadow) 7 strayCall 0),
        (0, Context.fresh .standby (some .shadow) 5 strayCall 0)] }
    mapu := { State.reset.mapu with
      intake := [{ stamp := 0, heard := some strayHeard }], map := [(5, strayRec)], turn := true }
    life := { State.reset.life with held := false, station := .active } }

theorem strayState_atTurn : strayState.atTurn { stamp := 0, heard := some strayHeard } := by
  decide

/-- The mark is set by the TAKEN of the promotion, which the removal of the sender asks for. -/
theorem strayState_marked : strayState.doApplyTaken.takenMark 5 = true := rfl

/-- Refutes O35: a stray own TAKEN clears the mark, but where its sender is the primary the removal of the sender orphans
the record, and the own shadow sets the mark again with the TAKEN of the promotion. The release that follows clears the
mark of the position that stands first under the context's number, which is p only if no number stands twice (as in
every canonical state). -/
theorem not_takenIsApplied : ¬ Obligations.TakenIsApplied := by
  intro applied
  obtain ⟨t, run, -, -, -, -, -, cleared, -⟩ :=
    applied strayState _ strayHeard 1 5 0 .orphan 0 strayState_atTurn rfl rfl rfl
  have result : exec .applyTaken strayState = .next strayState.doApplyTaken := rfl
  obtain rfl : strayState.doApplyTaken = t := by simpa [result] using run
  exact absurd strayState_marked (by simp [cleared rfl])

end Sys2Proof.Proofs

/-! Proofs: the removal of a station from a record, what follows it, and a step of a sweep (O30). -/

namespace Sys2Proof.Proofs

open Sys2Proof Sys2Proof.Machine Sys2Proof.Laws

/-! ### The record without the station (R116) -/

section
variable {r : PosRecord} {q : Station} {mapTime claim : FrameCount}

theorem without_yields {y : Station} (hp : r.primary = some q) (hy : r.yielding = some y) :
    r.without q mapTime claim = { r with primary := some y, yielding := none, switchFrame := none, state := .held } := by
  simp [PosRecord.without, hp, hy]

theorem without_orphans (hp : r.primary = some q) (hy : r.yielding = none) : r.without q mapTime claim =
    { r with state := .orphaned, primary := none, switchFrame := none,
             closing := if r.unfilled then some (mapTime + claim) else none } := by
  simp [PosRecord.without, hp, hy]

theorem without_shadow (hp : r.primary ≠ some q) (hs : r.shadow = some q) : r.without q mapTime claim =
    { r with shadow := none,
             closing := if r.state = .shedding ∨ r.state = .orphaned then some (mapTime + claim) else r.closing } := by
  simp [PosRecord.without, hp, hs]

theorem without_taker (hp : r.primary ≠ some q) (hs : r.shadow ≠ some q) (ht : r.taker = some q) :
    r.without q mapTime claim =
      if r.state = .shedding then { r with taker := none, state := .held } else PosRecord.free := by
  simp [PosRecord.without, hp, hs, ht]

theorem without_yielding (hp : r.primary ≠ some q) (hs : r.shadow ≠ some q) (ht : r.taker ≠ some q)
    (hy : r.yielding = some q) : r.without q mapTime claim = { r with yielding := none } := by
  simp [PosRecord.without, hp, hs, ht, hy]

theorem names_eq_false : r.names q = false ↔
    r.primary ≠ some q ∧ r.yielding ≠ some q ∧ r.shadow ≠ some q ∧ r.taker ≠ some q := by
  simp [PosRecord.names, and_assoc]

theorem without_unnamed (h : r.names q = false) : r.without q mapTime claim = r := by
  obtain ⟨hp, hy, hs, ht⟩ := names_eq_false.1 h
  simp [PosRecord.without, hp, hy, hs, ht]

end

theorem unfilled_iff (r : PosRecord) : r.unfilled = true ↔ r.shadow = none ∧ r.taker = none := by
  simp [PosRecord.unfilled]

/-! ### The removal at one position -/

/-- The Map Unit has the record without the station, and nothing else changed. -/
theorem removeStation_mapu (q : Station) (p : Pos) (s : State) : (s.removeStation q p).mapu =
    (s.putRec p ((s.recAt p).without q s.mapu.mapTime s.claimLength)).mapu := by
  simp only [State.removeStation, poolReact_blocks, releaseUnnamed_blocks]
  split <;> split <;> simp

theorem recAt_removeStation (q : Station) (p x : Pos) (s : State) : (s.removeStation q p).recAt x =
    if x = p then (s.recAt p).without q s.mapu.mapTime s.claimLength else s.recAt x :=
  (recAt_of_map (congrArg MapUnit.map (removeStation_mapu q p s)) x).trans (recAt_putRec ..)

theorem removeStation_unmapped (q : Station) (p : Pos) (s : State) :
    unmapped (s.removeStation q p).mapu = unmapped s.mapu := by
  rw [removeStation_mapu, unmapped_putRec]

/-! ### A step of a sweep (R112) -/

/-- The 32 positions of a group, without the station. -/
theorem recAt_sweepPositions {s : State} (hs : s.canonical) (q : Station) (g : Nat) (p : Pos) :
    (s.sweepPositions q g).recAt p =
      if p.val / 32 = g then (s.recAt p).without q s.mapu.mapTime s.claimLength else s.recAt p := by
  have walk := foldl_pointwise
    (fun u : State => u.mapu.mapTime = s.mapu.mapTime ∧ u.claimLength = s.claimLength) State.recAt
    (fun u p => u.removeStation q p) (fun _ r => r.without q s.mapu.mapTime s.claimLength)
    (fun u p ⟨ht, hc⟩ => ⟨(congrArg MapUnit.mapTime (removeStation_unmapped q p u) :).trans ht, by
      simpa [State.claimLength] using hc⟩)
    (fun u p ⟨ht, hc⟩ => by rw [recAt_removeStation, if_pos rfl, ht, hc])
    (fun u p x _ hx => by rw [recAt_removeStation, if_neg hx])
    ((keys_nodup hs.2.2.1.1).filter (fun p => decide (p.val / 32 = g))) (s := s) ⟨rfl, rfl⟩ p
  refine walk.trans ?_
  by_cases hg : p.val / 32 = g
  · by_cases hp : (Table.lookup s.mapu.map p).isSome = true
    · rw [if_pos (List.mem_filter.2 ⟨mem_keys_iff.2 hp, by simpa using hg⟩), if_pos hg]
    · have free : s.recAt p = PosRecord.free := recAt_unlisted (by simpa using hp)
      have same : PosRecord.free.without q s.mapu.mapTime s.claimLength = PosRecord.free := without_unnamed (by rfl)
      simp [free, same]
  · rw [if_neg (by simp [hg]), if_neg hg]

theorem sweepPositions_unmapped (q : Station) (g : Nat) (s : State) :
    unmapped (s.sweepPositions q g).mapu = unmapped s.mapu :=
  foldl_keeps (fun u => unmapped u.mapu) _ (fun u p => removeStation_unmapped q p u) _ _

/-- The state in which a sweep step removes its station. -/
def sweptFrom (s : State) : State := s.takeSwitchFrames.onMap (fun m => { m with turn := false })

/-- Where a sweep goes after the step at its group. -/
def sweepAfter (w : Sweep) (m : MapUnit) : MapUnit :=
  if w.group < 7 then { m with sweep := some { w with group := w.group + 1 } }
  else { m with sweep := none, intake := m.intake.tail }

theorem doSweepGroup_eq {s : State} {w : Sweep} (hp : s.participates = true) (ht : s.mapu.turn = true)
    (hw : s.mapu.sweep = some w) :
    s.doSweepGroup = ((sweptFrom s).sweepPositions w.station w.group).onMap (sweepAfter w) := by
  simp only [State.doSweepGroup, State.mapActs, hp, ht, hw, Bool.and_self, if_true]
  unfold sweepAfter
  split <;> rfl

theorem recAt_onMap_sweepAfter (w : Sweep) (s : State) (p : Pos) : (s.onMap (sweepAfter w)).recAt p = s.recAt p := by
  refine recAt_of_map ?_ p
  unfold sweepAfter
  simp only [onMap_mapu]
  split <;> rfl

/-! ### What follows a removal in the own station -/

/-- What a notice's placing does to the outbox depends on the Notice Controller only. -/
theorem place_notice_congr {s t : State} (h : s.notice = t.notice) (n : Notice) :
    (s.place n).notice = (t.place n).notice := by
  unfold State.place
  simp only [h]
  split
  · simp [h]
  · split
    · simp [h]
    · split
      · simp [State.joinOutbox, h]
      · split
        · simp [State.joinOutbox, h]
        · split <;> simp [State.joinOutbox, h]

/-- What is counted does not matter to the notice of a TAKEN. -/
theorem placeTaken_notice_count (p : Pos) (cause : TakenCause) (k : Counter) (s : State) :
    ((s.count k).placeTaken p cause).notice = (s.placeTaken p cause).notice := by
  have hctx : (s.count k).ctxFor p = s.ctxFor p := rfl
  have hrec : (s.count k).recAt p = s.recAt p := rfl
  have hmark : (s.count k).takenMark p = s.takenMark p := rfl
  unfold State.placeTaken
  simp only [hctx, hrec, hmark]
  split
  · split
    · simp
    · exact place_notice_congr (by simp [State.setTakenMark]) _
  · simp

/-- In an ACTIVE station without a waiting BID the Pool Controller answers a change that ends no shed by notices only. -/
theorem poolReact_answers {s : State} {p : Pos} {old : PosRecord} (ha : s.life.station = .active)
    (hw : s.waitingBid p = none) (hne : s.recAt p ≠ old) (hend : s.shedEnds p old (s.recAt p) = s) :
    s.poolReact p old = s.answerChange p old (s.recAt p) := by
  have unfit : s.withdrawUnfit p = s := by simp [State.withdrawUnfit, hw]
  simp only [State.poolReact, if_neg hne, hend, unfit, State.isActive, ha, decide_true, if_true]

/-- An orphaned record that no station yields ends no shed. -/
theorem shedEnds_orphaned {s : State} {p : Pos} {old new : PosRecord} (hn : new.state = .orphaned)
    (hy : old.yielding ≠ some s.own) : s.shedEnds p old new = s := by
  simp [State.shedEnds, hn, hy]

/-- The state with the record changed, and an orphan that is dropped counted. -/
def withoutStation (q : Station) (p : Pos) (s : State) : State :=
  let removed := s.putRec p ((s.recAt p).without q s.mapu.mapTime s.claimLength)
  if (s.recAt p).orphanDropped q then removed.count .orphansDropped else removed

theorem withoutStation_blocks (q : Station) (p : Pos) (s : State) :
    (withoutStation q p s).table = s.table ∧ (withoutStation q p s).notice = s.notice ∧
      (withoutStation q p s).life = s.life ∧
      (withoutStation q p s).mapu = (s.putRec p ((s.recAt p).without q s.mapu.mapTime s.claimLength)).mapu := by
  unfold withoutStation
  simp only
  split <;> simp

theorem recAt_withoutStation (q : Station) (p : Pos) (s : State) :
    (withoutStation q p s).recAt p = (s.recAt p).without q s.mapu.mapTime s.claimLength := by
  obtain ⟨-, -, -, hmap⟩ := withoutStation_blocks q p s
  rw [recAt_of_map (congrArg MapUnit.map hmap), recAt_putRec, if_pos rfl]

theorem placeTaken_notice_withoutStation (q : Station) (p : Pos) (cause : TakenCause) (s : State) :
    ((withoutStation q p s).placeTaken p cause).notice =
      ((s.putRec p ((s.recAt p).without q s.mapu.mapTime s.claimLength)).placeTaken p cause).notice := by
  unfold withoutStation
  simp only
  split
  · exact placeTaken_notice_count ..
  · rfl

theorem removeStation_eq (q : Station) (p : Pos) (s : State) : s.removeStation q p =
    ((if (s.recAt p).primary = some q ∧ (s.recAt p).yielding = some s.own then
      (withoutStation q p s).modCtxFor p Context.reverted else withoutStation q p s).releaseUnnamed p).poolReact p
        (s.recAt p) := by
  rw [show s.own = (withoutStation q p s).own from congrArg Life.number (withoutStation_blocks q p s).2.2.1.symm]
  rfl

theorem releaseUnnamed_named {s : State} {p : Pos} (h : (s.recAt p).names s.own = true) : s.releaseUnnamed p = s :=
  if_pos h

/-- A record that no longer names the own station loses its context. -/
theorem ctx_releaseUnnamed {s : State} {p : Pos} {c : CtxNum} {x : Context} (h : s.ctxFor p = some (c, x))
    (hn : (s.recAt p).names s.own = false) : (s.releaseUnnamed p).ctx c = none := by
  simp [State.releaseUnnamed, hn, State.releaseFor, h, ctx_releaseCtx]

theorem poolReact_ctx (p : Pos) (old : PosRecord) (s : State) (c : CtxNum) : (s.poolReact p old).ctx c = s.ctx c :=
  ctx_of_contexts (by simp) c

/-- The contexts after a removal: the one for the position goes where the record no longer names the own station, and a
YIELDING one becomes PRIMARY where the record says so. -/
theorem removeStation_ctx {s : State} {q : Station} {p : Pos} {c : CtxNum} {x : Context} (h : s.ctxFor p = some (c, x)) :
    let new := (s.recAt p).without q s.mapu.mapTime s.claimLength
    (new.names s.own = false → (s.removeStation q p).ctx c = none) ∧
      (new.names s.own = true → (s.recAt p).primary = some q → (s.recAt p).yielding = some s.own →
        (s.removeStation q p).ctx c = some x.reverted) := by
  intro new
  obtain ⟨htable, -, hlife, -⟩ := withoutStation_blocks q p s
  have own : (withoutStation q p s).own = s.own := congrArg Life.number hlife
  have found : (withoutStation q p s).ctxFor p = some (c, x) := by
    rw [ctxFor_of_contexts (congrArg CtxTable.contexts htable), h]
  have hrec := recAt_withoutStation q p s
  rw [removeStation_eq, poolReact_ctx]
  refine ⟨fun hn => ?_, fun hn hp hy => ?_⟩
  · have unnamed : ¬((s.recAt p).primary = some q ∧ (s.recAt p).yielding = some s.own) := by
      rintro ⟨hp, hy⟩
      have : new.primary = some s.own := by simp [new, without_yields hp hy]
      exact (names_eq_false.1 hn).1 this
    rw [if_neg unnamed]
    exact ctx_releaseUnnamed found (by rw [hrec, own]; exact hn)
  · rw [if_pos ⟨hp, hy⟩, releaseUnnamed_named, ctx_modCtxFor _ found]
    have : ((withoutStation q p s).modCtxFor p Context.reverted).recAt p = (withoutStation q p s).recAt p :=
      recAt_of_map (by simp) p
    rw [this, hrec]
    simpa [State.own, hlife] using hn

section
variable {s : State} {q : Station} {p : Pos} (ha : s.life.station = .active) (hw : s.waitingBid p = none)
  (hp : (s.recAt p).primary = some q) (hy : (s.recAt p).yielding = none)
include ha hw hp hy

/-- Where the station was the primary and none yields, an ACTIVE own station that keeps its context answers the orphaned
record. -/
theorem removeStation_orphans (hk : (withoutStation q p s).releaseUnnamed p = withoutStation q p s) :
    s.removeStation q p = (withoutStation q p s).answerChange p (s.recAt p)
      ((s.recAt p).without q s.mapu.mapTime s.claimLength) := by
  obtain ⟨-, hnotice, hlife, -⟩ := withoutStation_blocks q p s
  have hrec := recAt_withoutStation q p s
  have waits : (withoutStation q p s).waitingBid p = none := by
    rw [← hw]; unfold State.waitingBid; rw [hnotice]
  have orphaned : ((s.recAt p).without q s.mapu.mapTime s.claimLength).state = .orphaned ∧
      ((s.recAt p).without q s.mapu.mapTime s.claimLength).primary = none := by simp [without_orphans hp hy]
  rw [removeStation_eq, if_neg (by simp [hy]), hk, poolReact_answers (by rw [hlife, ha]) waits ?_ ?_, hrec]
  · rw [hrec]
    intro same
    rw [same] at orphaned
    simp [orphaned.2] at hp
  · exact shedEnds_orphaned (by rw [hrec]; exact orphaned.1) (by simp [hy])

/-- It claims a position that it shadows. -/
theorem removeStation_promotion (hs : (s.recAt p).shadow = some s.own) (ht : (s.recAt p).taker ≠ some s.own) :
    s.removeStation q p = (withoutStation q p s).placeTaken p .promotion := by
  obtain ⟨-, -, hlife, -⟩ := withoutStation_blocks q p s
  have own : (withoutStation q p s).own = s.own := congrArg Life.number hlife
  have own' : ((withoutStation q p s).placeTaken p .promotion).own = s.own := by simp [State.own, hlife]
  rw [removeStation_orphans ha hw hp hy (releaseUnnamed_named ?_)]
  · simp [State.answerChange, without_orphans hp hy, PosRecord.shadows, PosRecord.takes, windowOpened,
      PosRecord.unfilled, own, own', hs, ht]
  · rw [recAt_withoutStation, own]
    simp [without_orphans hp hy, PosRecord.names, hs]

/-- It claims a position that it was to take. -/
theorem removeStation_orphan (hs : (s.recAt p).shadow ≠ some s.own) (ht : (s.recAt p).taker = some s.own) :
    s.removeStation q p = (withoutStation q p s).placeTaken p .orphan := by
  obtain ⟨-, -, hlife, -⟩ := withoutStation_blocks q p s
  have own : (withoutStation q p s).own = s.own := congrArg Life.number hlife
  rw [removeStation_orphans ha hw hp hy (releaseUnnamed_named ?_)]
  · simp [State.answerChange, without_orphans hp hy, PosRecord.shadows, PosRecord.takes, windowOpened,
      PosRecord.unfilled, own, hs, ht]
  · rw [recAt_withoutStation, own]
    simp [without_orphans hp hy, PosRecord.names, ht]

/-- It bids for a position that no station claims. -/
theorem removeStation_bid (hs : (s.recAt p).shadow = none) (ht : (s.recAt p).taker = none)
    (hst : (s.recAt p).state ≠ .orphaned) (hm : s.mapu.mapComplete = true) (hc : s.ctxFor p = none) :
    s.removeStation q p = (withoutStation q p s).placeBid p .orphan := by
  obtain ⟨htable, -, hlife, hmap⟩ := withoutStation_blocks q p s
  have own : (withoutStation q p s).own = s.own := congrArg Life.number hlife
  have complete : (withoutStation q p s).mapu.mapComplete = true := by rw [hmap]; exact hm
  have found : (withoutStation q p s).ctxFor p = none := by
    rw [ctxFor_of_contexts (congrArg CtxTable.contexts htable), hc]
  have keeps : (withoutStation q p s).releaseUnnamed p = withoutStation q p s := by
    simp [State.releaseUnnamed, State.releaseFor, found]
  rw [removeStation_orphans ha hw hp hy keeps]
  simp [State.answerChange, without_orphans hp hy, PosRecord.shadows, PosRecord.takes, windowOpened,
    PosRecord.unfilled, PosRecord.names, own, hs, ht, hy, hst, complete]

end

/-- Settles O30: the rule's cases, a step of a sweep, and what follows a removal in the own station. -/
theorem removalAndSweep : Obligations.RemovalAndSweep := by
  refine ⟨fun r q mapTime claim => ?_, fun s w hheld hp ht hw hs => ?_, fun s q p => ?_⟩
  · refine ⟨fun y => without_yields, fun hp hy hs ht => ?_, fun hp hy hf => ?_, fun hp hs hst => ?_, fun hp hs hst => ?_,
      fun hp hs ht hst => ?_, fun hp hs ht hst => ?_, without_yielding, without_unnamed⟩
    · rw [without_orphans hp hy, if_pos ((unfilled_iff r).2 ⟨hs, ht⟩)]
    · rw [without_orphans hp hy, if_neg (by rw [unfilled_iff]; tauto)]
    · rw [without_shadow hp hs, if_pos hst]
    · rw [without_shadow hp hs, if_neg (by simp [hst])]
    · rw [without_taker hp hs ht, if_pos hst]
    · rw [without_taker hp hs ht, if_neg (by simp [hst])]
  · intro b
    have run : exec .sweepGroup s = .next s.doSweepGroup := next_live hheld
    have hb : (sweptFrom s).canonical := onMap_canonical (fun _ => rfl) (fun _ => rfl) (takeSwitchFrames_canonical hs)
    have hmap : unmapped ((sweptFrom s).sweepPositions w.station w.group).mapu =
        { unmapped s.mapu with turn := false } := by
      rw [sweepPositions_unmapped]
      exact congrArg (fun m : MapUnit => { m with turn := false }) (takeSwitchFrames_reads hs).2.2
    have hmap := unmapped_eq (n := { s.mapu with turn := false }) hmap
    rw [run, doSweepGroup_eq hp ht hw]
    refine ⟨_, rfl, fun p => ?_, fun hg => ?_, fun hg => ?_, ?_, ?_, by simp [sweptFrom], by simp [sweptFrom]⟩
    · have htime : (sweptFrom s).mapu.mapTime = s.mapu.mapTime :=
        (congrArg MapUnit.mapTime (takeSwitchFrames_reads hs).2.2 :)
      have hclaim : (sweptFrom s).claimLength = s.claimLength := by simp [sweptFrom, State.claimLength]
      rw [recAt_onMap_sweepAfter, recAt_sweepPositions hb, htime, hclaim]
      rfl
    · simp only [onMap_mapu, sweepAfter, if_pos hg]
      exact ⟨trivial, (congrArg MapUnit.intake hmap :)⟩
    · simp only [onMap_mapu, sweepAfter, if_neg (not_lt.2 hg)]
      exact ⟨trivial, congrArg List.tail (congrArg MapUnit.intake hmap :)⟩
    · simp only [onMap_mapu, sweepAfter]
      split <;> exact (congrArg MapUnit.roster hmap :)
    · simp only [onMap_mapu, sweepAfter]
      split <;> exact (congrArg MapUnit.turn hmap :)
  · intro old new removed t
    refine ⟨by rw [recAt_removeStation, if_pos rfl], fun c x h => (removeStation_ctx h).1, fun c x h hn hst hp hy => ?_,
      fun ha hw hp hy => ⟨fun hs ht => ?_, fun hs ht => ?_, fun hs ht hst hm hc => ?_⟩⟩
    · rw [(removeStation_ctx h).2 hn hp hy]
      simp [Context.reverted, hst]
    · rw [show t = _ from removeStation_promotion ha hw hp hy hs ht]
      exact placeTaken_notice_withoutStation ..
    · rw [show t = _ from removeStation_orphan ha hw hp hy hs ht]
      exact placeTaken_notice_withoutStation ..
    · rw [show t = _ from removeStation_bid ha hw hp hy hs ht hst hm hc]
      simp [withoutStation, PosRecord.orphanDropped, hst, removed, new, old]

end Sys2Proof.Proofs

/-! Proofs: a block event in the blocks that count blocks (O17). -/

namespace Sys2Proof.Proofs

open Sys2Proof Sys2Proof.Machine Sys2Proof.Laws

/-! ### The ageing left for later (R151) -/

@[simp] theorem departed_ageingDue (n : Notice) (s : State) : (s.departed n).pool.ageingDue = s.pool.ageingDue := by
  cases n with
  | bid =>
    simp only [State.departed]
    split <;> simp
  | shed =>
    simp only [State.departed]
    split <;> simp
  | taken => rfl
  | lost | clear | offer | hold | present | query | report => rfl

@[simp] theorem place_ageingDue (n : Notice) (s : State) : (s.place n).pool.ageingDue = s.pool.ageingDue := by
  unfold State.place
  (repeat' split) <;> simp [State.joinOutbox]

@[simp] theorem placeTaken_ageingDue (p : Pos) (cause : TakenCause) (s : State) :
    (s.placeTaken p cause).pool.ageingDue = s.pool.ageingDue := by
  unfold State.placeTaken
  (repeat' split) <;> simp [State.setTakenMark]

@[simp] theorem placeTakensDue_ageingDue (s : State) : s.placeTakensDue.pool.ageingDue = s.pool.ageingDue := by
  refine foldl_keeps (fun u => u.pool.ageingDue) _ (fun u p => ?_) _ _
  split <;> simp

@[simp] theorem placeBid_ageingDue (p : Pos) (role : BidRole) (s : State) :
    (s.placeBid p role).pool.ageingDue = s.pool.ageingDue := by
  unfold State.placeBid
  cases (s.recAt p).call with
  | none => rfl
  | some k =>
    simp only
    split
    · cases hr : s.requestReservation p role (bidCost role k.mode) with
      | none => rfl
      | some t =>
        simp only
        split <;> simp [requestReservation_blocks hr]
    · rfl

@[simp] theorem shadowFill_ageingDue (s : State) : s.shadowFill.pool.ageingDue = s.pool.ageingDue := by
  unfold State.shadowFill
  (repeat' split) <;> simp

@[simp] theorem census_ageingDue (s : State) : s.census.pool.ageingDue = s.pool.ageingDue := by
  unfold State.census
  (repeat' split) <;> simp

@[simp] theorem raiseFlag_ageingDue (f : FaultFlag) (s : State) : (s.raiseFlag f).pool.ageingDue = s.pool.ageingDue := by
  unfold State.raiseFlag State.placeReport
  simp only
  (repeat' split) <;> simp

@[simp] theorem uplinkBlock_ageingDue (c : CtxNum) (s : State) :
    (s.uplinkBlock c).pool.ageingDue = s.pool.ageingDue := by
  have bumps : ∀ u : State, (u.bumpNeeds c).pool.ageingDue = u.pool.ageingDue := fun u => by
    unfold State.bumpNeeds State.placeReport
    simp only
    (repeat' split) <;> simp
  unfold State.uplinkBlock
  cases s.ctx c with
  | none => rfl
  | some x =>
    simp only
    split <;> split <;> simp [bumps, State.countMissing]

@[simp] theorem contextBlocks_ageingDue (s : State) : s.contextBlocks.pool.ageingDue = s.pool.ageingDue :=
  foldl_keeps (fun u => u.pool.ageingDue) _ (fun u c => uplinkBlock_ageingDue c u) _ _

/-! ### The roster and the Pool Controller's decisions -/

/-- The ageing reads the Map Unit and the own number. -/
theorem ageRoster_mapu_congr {s t : State} (hm : t.mapu = s.mapu) (hl : t.life = s.life) :
    t.ageRoster.mapu = s.ageRoster.mapu := by
  cases s; cases t; cases hm; cases hl; rfl

/-- The Map Unit and the ageing left for later, from s to t: either both stay, or the roster has aged if it was to. -/
def AgesLate (s t : State) : Prop :=
  (t.mapu = s.mapu ∧ t.pool.ageingDue = s.pool.ageingDue) ∨
    (t.mapu = (if s.pool.ageingDue then s.ageRoster.mapu else s.mapu) ∧ t.pool.ageingDue = false)

theorem afterLoss_agesLate {s u : State} (hm : u.mapu = s.mapu) (hl : u.life = s.life)
    (hd : u.pool.ageingDue = s.pool.ageingDue) : AgesLate s u.afterLoss := by
  refine Or.inr ⟨?_, by simp [afterLoss_eq]⟩
  rw [← ageRoster_mapu_congr hm hl, ← hm, ← hd, afterLoss_eq]
  split <;> rfl

/-- The decisions of a block event change nothing of the Map Unit but for the ageing that was left for them. -/
theorem poolDecisions_agesLate (s : State) : AgesLate s s.poolDecisions := by
  have update : s.shedUpdate.pool.ageingDue = s.pool.ageingDue := rfl
  unfold State.poolDecisions
  split
  · simp only
    split
    · exact Or.inl ⟨by simp, update⟩
    · unfold State.afterShed
      simp only
      split
      · exact Or.inl ⟨by simp, by simpa using update⟩
      · exact afterLoss_agesLate (by simp) (by simp) (by simpa using update)
  · exact afterLoss_agesLate rfl rfl rfl

/-- The roster of a block event: aged before the decisions, or by them, or not yet. -/
theorem poolBlock_mapu (order : BlockOrder) (s : State) (hd : s.pool.ageingDue = false) :
    (s.poolBlock order).mapu =
      if s.participates = true ∧ (order.agesFirst = true ∨ (s.poolBlock order).pool.ageingDue = false) then
        s.ageRoster.mapu else s.mapu := by
  unfold State.poolBlock
  cases hp : s.participates with
  | false => simp
  | true =>
    cases ho : order.agesFirst with
    | true =>
      simp only [if_true, true_or, and_self]
      split
      · rfl
      · rcases poolDecisions_agesLate s.ageRoster with ⟨hm, -⟩ | ⟨hm, -⟩
        · exact hm
        · rw [hm, ageRoster_blocks .. |>.2.2.2.2.1, hd]
          rfl
    | false =>
      simp only [if_true, Bool.false_eq_true, if_false, false_or, true_and]
      split
      · simp
      · rcases poolDecisions_agesLate (s.onPool (fun q => { q with ageingDue := true })) with ⟨hm, hd'⟩ | ⟨hm, hd'⟩
        · rw [hm, hd']; rfl
        · rw [hm, hd']; rfl

/-! ### The contexts at a block event (R11, R20, R40, R41) -/

/-- Needs without good as the block event leaves it. -/
def servedNeeds (x : Context) : Nat :=
  if x.playState = .running then x.needsWithoutGood else min (x.needsWithoutGood + 1) 65535

/-- The block served brings a PRIMARY context to the limit. -/
def servedLost (limit : Nat) (x : Context) : Bool :=
  decide (x.playState ≠ .running ∧ x.state = .primary ∧ limit ≤ servedNeeds x)

/-- The uplink of a context after a block event. -/
def servedCtx (limit : Nat) (x : Context) : Context :=
  { x with
    counters := if x.rxState = .hunt then { x.counters with missing := countUp x.counters.missing } else x.counters
    needsWithoutGood := servedNeeds x
    streamLost := x.streamLost || servedLost limit x }

/-- The uplink once HUNT's missing parcel is counted. -/
def huntCounted (x : Context) : Context :=
  if x.rxState = .hunt then Context.onCounters (fun k => { k with missing := countUp k.missing }) x else x

/-- The uplink once a block is served without a GOOD parcel. -/
def bumpedCtx (limit : Nat) (x : Context) : Context :=
  { x with
    needsWithoutGood := min (x.needsWithoutGood + 1) 65535
    streamLost := x.streamLost || decide (x.state = .primary ∧ limit ≤ min (x.needsWithoutGood + 1) 65535) }

section
variable {s : State} {c : CtxNum} {x : Context} (h : s.ctx c = some x)
include h

/-- The episode begins. -/
theorem bumpNeeds_begins (hb : x.state = .primary ∧
    s.life.settings.streamLostLimit ≤ min (x.needsWithoutGood + 1) 65535 ∧ x.streamLost = false) :
    s.bumpNeeds c = ((s.putCtx c (bumpedCtx s.life.settings.streamLostLimit x)).raiseFlag .streamLost).placeReport
      x.position 0x41#8 (BitVec.ofNat 24 (min (x.needsWithoutGood + 1) 65535)) := by
  have bumped : bumpedCtx s.life.settings.streamLostLimit x =
      { x with needsWithoutGood := min (x.needsWithoutGood + 1) 65535, streamLost := true } := by
    rw [bumpedCtx, decide_eq_true ⟨hb.1, hb.2.1⟩, Bool.or_true]
  simp only [State.bumpNeeds, h, if_pos hb, bumped]

/-- No episode begins. -/
theorem bumpNeeds_goes_on (hb : ¬(x.state = .primary ∧
    s.life.settings.streamLostLimit ≤ min (x.needsWithoutGood + 1) 65535 ∧ x.streamLost = false)) :
    s.bumpNeeds c = s.putCtx c (bumpedCtx s.life.settings.streamLostLimit x) := by
  have bumped : bumpedCtx s.life.settings.streamLostLimit x =
      { x with needsWithoutGood := min (x.needsWithoutGood + 1) 65535 } := by
    unfold bumpedCtx
    congr 1
    cases hl : x.streamLost with
    | true => rfl
    | false => exact decide_eq_false (fun hh => hb ⟨hh.1, hh.2, hl⟩)
  simp only [State.bumpNeeds, h, if_neg hb, bumped]

theorem ctx_bumpNeeds (d : CtxNum) : (s.bumpNeeds c).ctx d =
    if d = c then some (bumpedCtx s.life.settings.streamLostLimit x) else s.ctx d := by
  rw [← ctx_putCtx]
  by_cases hb : x.state = .primary ∧
    s.life.settings.streamLostLimit ≤ min (x.needsWithoutGood + 1) 65535 ∧ x.streamLost = false
  · rw [bumpNeeds_begins h hb]
    exact ctx_of_contexts (by simp) d
  · rw [bumpNeeds_goes_on h hb]

end

/-- What a block event makes of an uplink, in the order in which it does it. -/
theorem servedCtx_eq (limit : Nat) (x : Context) :
    servedCtx limit x = if x.playState = .running then huntCounted x else bumpedCtx limit (huntCounted x) := by
  by_cases hp : x.playState = .running
  · have needs : servedNeeds x = x.needsWithoutGood := if_pos hp
    have lost : servedLost limit x = false := decide_eq_false (fun hl => hl.1 hp)
    rw [if_pos hp, servedCtx, huntCounted, needs, lost, Bool.or_false]
    split <;> rfl
  · have needs : servedNeeds x = min (x.needsWithoutGood + 1) 65535 := if_neg hp
    have lost : servedLost limit x =
        decide (x.state = .primary ∧ limit ≤ min (x.needsWithoutGood + 1) 65535) := by
      simp only [servedLost, needs, ne_eq, hp, not_false_eq_true, true_and]
    rw [if_neg hp, servedCtx, huntCounted, needs, lost]
    split <;> rfl

theorem ctx_countMissing (c d : CtxNum) (s : State) : (s.countMissing c).ctx d = if d = c then
    (s.ctx c).map (Context.onCounters (fun k => { k with missing := countUp k.missing })) else s.ctx d := by
  rw [State.countMissing, ctx_countDriven, ctx_modCtx]

theorem ctx_uplinkBlock (c d : CtxNum) (s : State) : (s.uplinkBlock c).ctx d =
    if d = c then (s.ctx c).map (servedCtx s.life.settings.streamLostLimit) else s.ctx d := by
  unfold State.uplinkBlock
  cases h : s.ctx c with
  | none => split <;> simp_all
  | some x =>
    have counted : ∀ d, (if x.rxState = .hunt then s.countMissing c else s).ctx d =
        if d = c then some (huntCounted x) else s.ctx d := fun d => by
      unfold huntCounted
      split
      · rw [ctx_countMissing, h]; rfl
      · split <;> simp_all
    have life : (if x.rxState = .hunt then s.countMissing c else s).life = s.life := by
      split <;> simp [State.countMissing]
    simp only [Option.map_some, servedCtx_eq]
    by_cases hp : x.playState = .running
    · rw [if_pos hp, if_pos hp, counted]
    · rw [if_neg hp, if_neg hp, ctx_bumpNeeds ((counted c).trans (if_pos rfl)), counted, life]
      split <;> rfl

/-- A context after a block event: its warm-up a block further, its uplink served. -/
def blockedCtx (limit : Nat) (x : Context) : Context := servedCtx limit x.warmUpStep

theorem ctx_contextBlocks {s : State} (hs : s.canonical) (c : CtxNum) :
    s.contextBlocks.ctx c = (s.ctx c).map (blockedCtx s.life.settings.streamLostLimit) := by
  let warmed : State := s.onTable (fun t => { t with contexts := Table.mapValues Context.warmUpStep t.contexts })
  have step : ∀ d, warmed.ctx d = (s.ctx d).map Context.warmUpStep := fun d => lookup_mapValues ..
  have walk := foldl_pointwise (fun u : State => u.life = s.life) State.ctx (fun u c => u.uplinkBlock c)
    (fun _ => Option.map (servedCtx s.life.settings.streamLostLimit)) (fun u c hu => by simpa using hu)
    (fun u c hu => by rw [ctx_uplinkBlock, if_pos rfl, hu])
    (fun u c d _ hd => by rw [ctx_uplinkBlock, if_neg hd])
    (keys_nodup (rising_mapValues hs.1 Context.warmUpStep)) (s := warmed) rfl c
  refine walk.trans ?_
  split
  · rw [step, Option.map_map]; rfl
  · rename_i hc
    have none' : warmed.ctx c = none := Option.not_isSome_iff_eq_none.1 (mt mem_keys_iff.2 hc)
    have : s.ctx c = none := by rwa [step, Option.map_eq_none_iff] at none'
    rw [none', this]; rfl

/-! ### The contexts do not matter to the outbox and the report -/

/-- The state with other contexts. -/
def withContexts (l : Table 64 Context) (s : State) : State := s.onTable (fun t => { t with contexts := l })

theorem departed_withContexts (n : Notice) (l : Table 64 Context) (s : State) :
    (withContexts l s).departed n = withContexts l (s.departed n) := by
  cases n with
  | bid =>
    simp only [State.departed]
    rw [apply_ite (withContexts l)]
    rfl
  | shed =>
    simp only [State.departed]
    rw [apply_ite (withContexts l)]
    rfl
  | taken | lost | clear | offer | hold | present | query | report => rfl

theorem place_withContexts (n : Notice) (l : Table 64 Context) (s : State) :
    (withContexts l s).place n = withContexts l (s.place n) := by
  unfold State.place
  rw [show (withContexts l s).notice = s.notice from rfl]
  split
  · rfl
  · split
    · rfl
    · split
      · rfl
      · split
        · rfl
        · rw [apply_ite (withContexts l)]
          congr 1
          · exact departed_withContexts _ l (((s.onNotice (fun k =>
              { k with outbox := k.outbox.dropLast })).joinOutbox n).count .outboxDrops)
          · exact departed_withContexts _ l (s.count .outboxDrops)

theorem raiseFlag_withContexts (f : FaultFlag) (l : Table 64 Context) (s : State) :
    (withContexts l s).raiseFlag f = withContexts l (s.raiseFlag f) := by
  unfold State.raiseFlag
  rw [show (withContexts l s).report = s.report from rfl]
  split
  · rfl
  · simp only
    rw [apply_ite (withContexts l)]
    congr 1
    exact place_withContexts _ l (s.onReport (fun r => r.withFlag f))

/-! ### A single context at a block event -/

section
variable {s : State} {c : CtxNum}

theorem putCtx_withContexts (x y : Context) : (withContexts [(c, x)] s).putCtx c y = withContexts [(c, y)] s := by
  simp [withContexts, State.putCtx, State.onTable, Table.insert]

theorem ctx_withContexts (x : Context) : (withContexts [(c, x)] s).ctx c = some x := by
  simp [State.ctx, withContexts, Table.lookup]

/-- HUNT's missing parcel of the one context. -/
theorem countMissing_withContexts (x : Context) (hr : x.rxState = .hunt) : (withContexts [(c, x)] s).countMissing c =
    withContexts [(c, huntCounted x)] (if x.drives then s.count .missingParcels else s) := by
  have drives : (huntCounted x).drives = x.drives := by simp [huntCounted, hr, Context.onCounters, Context.drives]
  have counted : Context.onCounters (fun k => { k with missing := countUp k.missing }) x = huntCounted x :=
    (if_pos hr).symm
  rw [State.countMissing, State.modCtx, ctx_withContexts]
  simp only
  rw [putCtx_withContexts, counted, State.countDriven, ctx_withContexts]
  simp only [drives]
  split <;> rfl

/-- The report's counter where the one context counts a missing parcel. -/
def missingCounted (x : Context) (s : State) : State :=
  if x.rxState = .hunt ∧ x.drives = true then s.count .missingParcels else s

theorem huntCounted_withContexts (x : Context) :
    (if x.rxState = .hunt then (withContexts [(c, x)] s).countMissing c else withContexts [(c, x)] s) =
      withContexts [(c, huntCounted x)] (missingCounted x s) := by
  unfold missingCounted
  by_cases hr : x.rxState = .hunt
  · simp only [hr, if_true, true_and]
    exact countMissing_withContexts x hr
  · simp [hr, huntCounted]

/-- The one context begins a stream-lost episode. -/
def episodeBegins (limit : Nat) (x : Context) : Prop :=
  x.playState ≠ .running ∧ x.state = .primary ∧ limit ≤ min (x.needsWithoutGood + 1) 65535 ∧ x.streamLost = false

/-- What is raised and reported where it does. -/
def episodeTold (x : Context) (s : State) : State :=
  (s.raiseFlag .streamLost).place (.report x.position 0x41#8 (BitVec.ofNat 24 (min (x.needsWithoutGood + 1) 65535)))

theorem huntCounted_keeps (x : Context) : (huntCounted x).playState = x.playState ∧ (huntCounted x).state = x.state ∧
    (huntCounted x).needsWithoutGood = x.needsWithoutGood ∧ (huntCounted x).streamLost = x.streamLost ∧
    (huntCounted x).position = x.position := by
  unfold huntCounted
  split <;> exact ⟨rfl, rfl, rfl, rfl, rfl⟩

theorem uplinkBlock_withContexts (x : Context) :
    (episodeBegins s.life.settings.streamLostLimit x → ∃ y, (withContexts [(c, x)] s).uplinkBlock c =
      withContexts [(c, y)] (episodeTold x (missingCounted x s))) ∧
    (¬episodeBegins s.life.settings.streamLostLimit x → ∃ y, (withContexts [(c, x)] s).uplinkBlock c =
      withContexts [(c, y)] (missingCounted x s)) := by
  obtain ⟨-, hstate, hneeds, hlost, hpos⟩ := huntCounted_keeps x
  have life : (missingCounted x s).life = s.life := by unfold missingCounted; split <;> simp
  have limit : (withContexts [(c, huntCounted x)] (missingCounted x s)).life.settings.streamLostLimit =
      s.life.settings.streamLostLimit := by rw [← life]; rfl
  simp only [State.uplinkBlock, ctx_withContexts, huntCounted_withContexts]
  refine ⟨fun hb => ?_, fun hb => ?_⟩
  · obtain ⟨hp, hb⟩ := hb
    rw [if_neg hp, bumpNeeds_begins (ctx_withContexts _) (by rwa [limit, hstate, hneeds, hlost]), putCtx_withContexts,
      raiseFlag_withContexts, State.placeReport, place_withContexts, hneeds, hpos]
    exact ⟨_, rfl⟩
  · by_cases hp : x.playState = .running
    · rw [if_pos hp]
      exact ⟨_, rfl⟩
    · rw [if_neg hp, bumpNeeds_goes_on (ctx_withContexts _)
        (by rw [limit, hstate, hneeds, hlost]; exact fun hh => hb ⟨hp, hh⟩), putCtx_withContexts]
      exact ⟨_, rfl⟩

/-- The one context's block event begins with its warm-up, which does not matter here. -/
theorem contextBlocks_single {x : Context} (h : s.table.contexts = [(c, x)]) :
    s.contextBlocks = (withContexts [(c, x.warmUpStep)] s).uplinkBlock c := by
  simp [State.contextBlocks, State.ctxNums, h, Table.mapValues, Table.keys, withContexts, State.onTable]

end

end Sys2Proof.Proofs

/-! Proofs: the commands of a block event (O17). -/

namespace Sys2Proof.Proofs

open Sys2Proof Sys2Proof.Machine Sys2Proof.Laws

/-! ### What a block event reaches, block by block -/

theorem contextBlocks_none {s : State} (h : s.table.contexts = []) : s.contextBlocks = s := by
  have : s.onTable (fun t => { t with contexts := Table.mapValues Context.warmUpStep t.contexts }) = s := by
    have contexts : Table.mapValues Context.warmUpStep s.table.contexts = s.table.contexts := by rw [h]; rfl
    simp only [State.onTable, contexts]
  simp only [State.contextBlocks, this]
  simp [State.ctxNums, h, Table.keys]

theorem quietBlock_life (s : State) : s.quietBlock.life = if s.life.station = .retreat then
    { s.life with quietCount := min (s.life.quietCount + 1) 255, quietJudge := true } else s.life := by
  unfold State.quietBlock
  split <;> rfl

theorem listenBlock_mapu (s : State) : s.listenBlock.mapu =
    if s.life.station = .listen then { s.mapu with listenCount := min (s.mapu.listenCount + 1) 72 } else s.mapu := by
  unfold State.listenBlock
  split <;> rfl

/-- The state in which the Pool Controller takes its part in a block event. -/
def blockCounted (s : State) : State :=
  (((s.onEngines (fun g => { g with lateCount := 0 })).contextBlocks).quietBlock).listenBlock

theorem blockEvent_eq (order : BlockOrder) (s : State) : s.blockEvent order = (blockCounted s).poolBlock order := rfl

theorem blockCounted_life (s : State) : (blockCounted s).life = if s.life.station = .retreat then
    { s.life with quietCount := min (s.life.quietCount + 1) 255, quietJudge := true } else s.life := by
  simp [blockCounted, quietBlock_life]

theorem blockCounted_station (s : State) : (blockCounted s).life.station = s.life.station := by
  rw [blockCounted_life]
  split <;> rfl

theorem blockCounted_participates (s : State) : (blockCounted s).participates = s.participates := by
  simp only [State.participates, blockCounted_station]

theorem blockCounted_mapu (s : State) : (blockCounted s).mapu =
    if s.life.station = .listen then { s.mapu with listenCount := min (s.mapu.listenCount + 1) 72 } else s.mapu := by
  have station : ((s.onEngines (fun g => { g with lateCount := 0 })).contextBlocks.quietBlock).life.station =
      s.life.station := by
    rw [quietBlock_life]
    split <;> simp
  simp [blockCounted, listenBlock_mapu, station]

theorem blockCounted_agedEntry (s : State) (q : Station) : agedEntry (blockCounted s) q = agedEntry s q := by
  have own : (blockCounted s).own = s.own := by
    simp only [State.own, blockCounted_life]
    split <;> rfl
  have entry : (blockCounted s).rosterAt q = s.rosterAt q := by
    refine rosterAt_of_roster ?_ q
    rw [blockCounted_mapu]
    split <;> rfl
  simp only [agedEntry, own, entry]

/-- The roster aged, or its ageing left for later. -/
def blockAged (order : BlockOrder) (s : State) : State :=
  if order.agesFirst then s.ageRoster else s.onPool (fun q => { q with ageingDue := true })

theorem poolBlock_eq (order : BlockOrder) (s : State) : s.poolBlock order =
    if s.participates then
      if (blockAged order s).mapDue ∧ order.entryFirst then
        (blockAged order s).onPool (fun q => { q with stage := .entry })
      else (blockAged order s).poolDecisions
    else s := rfl

theorem blockAged_blocks (order : BlockOrder) (s : State) :
    (blockAged order s).mapu = { s.mapu with roster := (blockAged order s).mapu.roster } ∧
      (blockAged order s).pool = { s.pool with ageingDue := if order.agesFirst then s.pool.ageingDue else true } ∧
      (blockAged order s).notice = s.notice ∧ (blockAged order s).table = s.table ∧
      (blockAged order s).life = s.life := by
  unfold blockAged
  cases order.agesFirst <;> exact ⟨rfl, rfl, rfl, rfl, rfl⟩

theorem blockAged_mapDue (order : BlockOrder) (s : State) : (blockAged order s).mapDue = s.mapDue := by
  unfold blockAged
  split <;> rfl

/-- The Pool Controller's part in a block event changes of the Map Unit the roster. -/
theorem poolBlock_mapu_roster (order : BlockOrder) (s : State) :
    (s.poolBlock order).mapu = { s.mapu with roster := (s.poolBlock order).mapu.roster } := by
  obtain ⟨aged, -⟩ := blockAged_blocks order s
  rw [poolBlock_eq]
  split
  · split
    · exact aged
    · rcases poolDecisions_agesLate (blockAged order s) with ⟨hm, -⟩ | ⟨hm, -⟩
      · rw [hm]; exact aged
      · rw [hm]
        split
        · simp only [State.ageRoster, onMap_mapu]
          rw [aged]
        · exact aged
  · rfl

/-! ### In LISTEN -/

section
variable {s : State} (hl : s.life.station = .listen) (order : BlockOrder)
include hl

/-- The entry to ACTIVE waits at this block event. -/
theorem mapDue_listen : s.mapDue = true ↔ s.mapu.listenCount = 72 ∧ s.mapu.mapComplete = false ∧
    (s.pool.stage = .idle ∨ s.pool.stage = .entry) := by
  simp [State.mapDue, hl, Pool.entryOpen, and_assoc]

/-- The decisions are the heartbeat's count only. -/
theorem poolBlock_listens (hn : ¬(s.mapDue = true ∧ order.entryFirst = true)) :
    (s.poolBlock order).notice = s.notice ∧ (s.poolBlock order).table = s.table ∧
      (s.poolBlock order).pool = { s.pool with
        heartbeat := s.pool.heartbeat + 1, ageingDue := false
        stage := if s.life.settings.heartbeatPeriod ≤ s.pool.heartbeat + 1 then .heartbeat else .idle } := by
  obtain ⟨-, hpool, hnotice, htable, hlife⟩ := blockAged_blocks order s
  have participates : s.participates = true := by simp [State.participates, hl]
  have decides : (blockAged order s).poolDecisions = (blockAged order s).afterLoss := by
    simp [State.poolDecisions, State.isActive, hlife, hl]
  rw [poolBlock_eq, if_pos participates, blockAged_mapDue, if_neg hn, decides]
  refine ⟨by simp [hnotice], by simp [htable], ?_⟩
  rw [afterLoss_eq]
  simp [hpool, hlife]

/-- The decisions wait for the entry to ACTIVE. -/
theorem poolBlock_waits (hn : s.mapDue = true) (he : order.entryFirst = true) (hd : s.pool.ageingDue = false) :
    (s.poolBlock order).pool = { s.pool with stage := .entry, ageingDue := !order.agesFirst } := by
  obtain ⟨-, hpool, -⟩ := blockAged_blocks order s
  have participates : s.participates = true := by simp [State.participates, hl]
  rw [poolBlock_eq, if_pos participates, blockAged_mapDue, if_pos ⟨hn, he⟩, onPool_pool, hpool]
  cases order.agesFirst <;> simp [hd]

end

/-! ### The commands -/

/-- The state in which a block event begins: it is taken, and a bridged one is counted. -/
def blockBegun (k : BlockMark) (s : State) : State :=
  let taken := s.onHwi (fun h => { h with blockDue := none })
  if k = .bridged then taken.count .bridgedBlockMarkers else taken

theorem blockBegun_blocks (k : BlockMark) (s : State) :
    (blockBegun k s).hwi = { s.hwi with blockDue := none } ∧ (blockBegun k s).table = s.table ∧
      (blockBegun k s).engines = s.engines ∧ (blockBegun k s).notice = s.notice ∧ (blockBegun k s).mapu = s.mapu ∧
      (blockBegun k s).pool = s.pool ∧ (blockBegun k s).life = s.life := by
  unfold blockBegun
  simp only
  split <;> simp

theorem exec_blockEvent {s : State} (order : BlockOrder) (hh : s.life.held = false)
    (hb : s.hwi.blockDue = some .marked) :
    exec (.blockEvent order) s = .next ((blockBegun .marked s).blockEvent order) := by
  have run : exec (.blockEvent order) s = .next (s.doBlockEvent order) := next_live hh
  rw [run, State.doBlockEvent, if_pos (by simp [State.takesBlock, hb])]
  rfl

theorem exec_bridgedBlockEvent {s : State} (order : BlockOrder) (hh : s.life.held = false)
    (hb : s.hwi.blockDue = some .bridged) :
    exec (.bridgedBlockEvent order) s = .next ((blockBegun .bridged s).blockEvent order) := by
  have run : exec (.bridgedBlockEvent order) s = .next (s.doBridgedBlockEvent order) := next_live hh
  rw [run, State.doBridgedBlockEvent, if_pos (by simp [State.takesBlock, hb])]
  rfl

/-- What a block event does whatever the station does. -/
theorem blockEvent_reaches (order : BlockOrder) (s : State) :
    (s.blockEvent order).hwi = s.hwi ∧ (s.blockEvent order).engines = { s.engines with lateCount := 0 } ∧
      (s.blockEvent order).life = (blockCounted s).life ∧
      (s.blockEvent order).mapu = { (blockCounted s).mapu with roster := (s.blockEvent order).mapu.roster } :=
  ⟨by simp, by simp [blockEvent_eq, blockCounted], by simp [blockEvent_eq], poolBlock_mapu_roster ..⟩

theorem rosterAt_blockEvent {s : State} (order : BlockOrder) (hp : s.participates = true)
    (hd : s.pool.ageingDue = false) (q : Station) : (s.blockEvent order).rosterAt q =
      if order.agesFirst = true ∨ (s.blockEvent order).pool.ageingDue = false then agedEntry s q else s.rosterAt q := by
  have due : (blockCounted s).pool.ageingDue = false := by simp [blockCounted, hd]
  have roster : (blockCounted s).mapu.roster = s.mapu.roster := by
    rw [blockCounted_mapu]
    split <;> rfl
  have counted := poolBlock_mapu order (blockCounted s) due
  simp only [blockCounted_participates, hp, true_and, ← blockEvent_eq] at counted
  split
  · rename_i ha
    rw [if_pos ha] at counted
    rw [← blockCounted_agedEntry, ← rosterAt_ageRoster]
    exact rosterAt_of_roster (congrArg MapUnit.roster counted) q
  · rename_i ha
    rw [if_neg ha] at counted
    exact rosterAt_of_roster ((congrArg MapUnit.roster counted).trans roster) q

section
variable {s : State} (hl : s.life.station = .listen) (hc : s.table.contexts = []) (order : BlockOrder)
include hl hc

/-- A listening station without contexts has only its listen count changed when the Pool Controller's part begins. -/
theorem blockCounted_listen : blockCounted s = { s with
    engines := { s.engines with lateCount := 0 }
    mapu := { s.mapu with listenCount := min (s.mapu.listenCount + 1) 72 } } := by
  unfold blockCounted
  rw [contextBlocks_none (s := s.onEngines _) hc]
  simp [State.quietBlock, State.listenBlock, hl, State.onEngines, State.onMap]

theorem mapDue_blockCounted : (blockCounted s).mapDue = true ↔
    71 ≤ s.mapu.listenCount ∧ s.mapu.mapComplete = false ∧ (s.pool.stage = .idle ∨ s.pool.stage = .entry) := by
  have counts : min (s.mapu.listenCount + 1) 72 = 72 ↔ 71 ≤ s.mapu.listenCount := by omega
  rw [mapDue_listen (by rw [blockCounted_station, hl]), blockCounted_listen hl hc]
  simp only [counts]

end

/-! ### The stations one by one -/

/-- In START and RETREAT, without contexts, a block event counts and changes nothing else. -/
theorem blockEvent_outside {s : State} (order : BlockOrder) (hp : s.participates = false) (hc : s.table.contexts = []) :
    s.blockEvent order = { s with
      engines := { s.engines with lateCount := 0 }
      life := if s.life.station = .retreat then
        { s.life with quietCount := min (s.life.quietCount + 1) 255, quietJudge := true } else s.life } := by
  have station : s.life.station ≠ .listen := by
    intro hl
    simp [State.participates, hl] at hp
  have counted : blockCounted s = { s with
      engines := { s.engines with lateCount := 0 }
      life := if s.life.station = .retreat then
        { s.life with quietCount := min (s.life.quietCount + 1) 255, quietJudge := true } else s.life } := by
    unfold blockCounted
    rw [contextBlocks_none (s := s.onEngines _) hc]
    by_cases hr : s.life.station = .retreat <;>
      simp [State.quietBlock, State.listenBlock, hr, station, State.onEngines, State.onLife]
  rw [blockEvent_eq, poolBlock_eq, blockCounted_participates, hp, counted]
  rfl

/-- In ACTIVE a block event is the contexts' part and the Pool Controller's decisions. -/
theorem blockEvent_active {s : State} (order : BlockOrder) (ha : s.life.station = .active) : s.blockEvent order =
    (blockAged order (s.onEngines (fun g => { g with lateCount := 0 })).contextBlocks).poolDecisions := by
  have counted : blockCounted s = (s.onEngines (fun g => { g with lateCount := 0 })).contextBlocks := by
    simp [blockCounted, State.quietBlock, State.listenBlock, ha]
  have participates : s.participates = true := by simp [State.participates, ha]
  have due : (s.onEngines (fun g => { g with lateCount := 0 })).contextBlocks.mapDue = false := by
    simp [State.mapDue, ha]
  rw [blockEvent_eq, poolBlock_eq, blockCounted_participates, participates, counted, blockAged_mapDue, due]
  rfl

/-- The decisions in ACTIVE, in their order (R133). -/
theorem poolDecisions_active {s : State} (ha : s.life.station = .active) : s.poolDecisions =
    if s.shedUpdate.shedDue then s.shedUpdate.onPool (fun q => { q with stage := .shed })
    else if ∃ q, (s.shedUpdate.placeTakensDue.shadowFill.census).lossDue q = true then
      (s.shedUpdate.placeTakensDue.shadowFill.census).onPool (fun q => { q with stage := .loss })
    else (s.shedUpdate.placeTakensDue.shadowFill.census).afterLoss := by
  simp [State.poolDecisions, State.isActive, ha, State.afterShed]

theorem shedDue_iff (s : State) : s.shedDue = true ↔
    s.pool.shedGrace = s.life.settings.shedGrace ∧ s.pool.holdOff = 0 ∧ s.pool.shedding = none := by
  simp [State.shedDue, and_assoc]

/-- A context after a block event, field by field. -/
theorem blockedCtx_eq (limit : Nat) (x : Context) : blockedCtx limit x = { x with
    warmUp := if x.state = .warming then x.warmUp.map (fun k => k - 1) else x.warmUp
    counters := if x.rxState = .hunt then { x.counters with missing := countUp x.counters.missing } else x.counters
    needsWithoutGood := servedNeeds x
    streamLost := x.streamLost || servedLost limit x } := by
  unfold blockedCtx Context.warmUpStep
  split <;> rfl

/-- The block event of a single context, apart from the context itself. -/
theorem contextBlocks_of_single {s : State} {c : CtxNum} {x : Context} (h : s.table.contexts = [(c, x)]) :
    (episodeBegins s.life.settings.streamLostLimit x → ∃ y, s.contextBlocks =
      withContexts [(c, y)] (episodeTold x (missingCounted x s))) ∧
    (¬episodeBegins s.life.settings.streamLostLimit x → ∃ y, s.contextBlocks =
      withContexts [(c, y)] (missingCounted x s)) := by
  have begins : episodeBegins s.life.settings.streamLostLimit x.warmUpStep =
      episodeBegins s.life.settings.streamLostLimit x := by
    unfold Context.warmUpStep
    split <;> rfl
  have told : ∀ u, episodeTold x.warmUpStep u = episodeTold x u := fun u => by
    unfold Context.warmUpStep
    split <;> rfl
  have counted : missingCounted x.warmUpStep s = missingCounted x s := by
    unfold Context.warmUpStep
    split <;> rfl
  have served := uplinkBlock_withContexts (s := s) (c := c) x.warmUpStep
  rwa [begins, told, counted, ← contextBlocks_single h] at served

/-- Settles O17: what a block event reaches, the stations one by one, the contexts, and the decisions in ACTIVE. -/
theorem blockEvents : Obligations.BlockEvents := by
  refine ⟨fun order c s hh hb => ?_, fun order s hh hp hc => ?_, fun order s hh ha => ?_, fun s hs => ?_,
    fun s ha => ?_⟩
  · intro aged
    obtain ⟨k, run⟩ : ∃ k, exec c s = .next ((blockBegun k s).blockEvent order) := by
      rcases hb with ⟨rfl, hb⟩ | ⟨rfl, hb⟩
      · exact ⟨_, exec_blockEvent order hh hb⟩
      · exact ⟨_, exec_bridgedBlockEvent order hh hb⟩
    obtain ⟨bhwi, btable, bengines, bnotice, bmapu, bpool, blife⟩ := blockBegun_blocks k s
    obtain ⟨thwi, tengines, tlife, tmapu⟩ := blockEvent_reaches order (blockBegun k s)
    rw [blockCounted_life, blife] at tlife
    rw [blockCounted_mapu, blife, bmapu] at tmapu
    refine ⟨_, run, thwi.trans bhwi, by rw [tengines, bengines], fun hr => by rw [tlife, if_pos hr],
      fun hr => by rw [tlife, if_neg hr], fun hl => by rw [tmapu, if_pos hl], fun hl => by rw [tmapu, if_neg hl],
      fun hp hd q => ?_, fun hl hc hd => ⟨fun hn => ?_, fun hm hn he hst => ?_⟩, ?_, ?_⟩
    · have entry : agedEntry (blockBegun k s) q = aged q := by
        simp only [agedEntry, State.own, blife, rosterAt_of_roster (congrArg MapUnit.roster bmapu)]
        rfl
      rw [rosterAt_blockEvent order (by rwa [State.participates, blife]) (by rwa [bpool]), entry,
        rosterAt_of_roster (congrArg MapUnit.roster bmapu)]
    · have waits_not : ¬((blockCounted (blockBegun k s)).mapDue = true ∧ order.entryFirst = true) := by
        rw [mapDue_blockCounted (by rwa [blife]) (by rwa [btable]), bmapu]
        rintro ⟨⟨hcount, hmap, -⟩, he⟩
        rcases hn with hn | hn | hn
        · simp [hn] at hmap
        · omega
        · simp [hn] at he
      have listens := poolBlock_listens (by rwa [blockCounted_station, blife]) order waits_not
      rw [← blockEvent_eq, blockCounted_listen (by rwa [blife]) (by rwa [btable])] at listens
      simpa [bnotice, btable, bpool, blife] using listens
    · have waits : (blockCounted (blockBegun k s)).mapDue = true := by
        rw [mapDue_blockCounted (by rwa [blife]) (by rwa [btable]), bmapu, bpool]
        exact ⟨hn, hm, Or.inl hst⟩
      have counted := blockCounted_listen (s := blockBegun k s) (by rwa [blife]) (by rwa [btable])
      have pool := poolBlock_waits (by rwa [blockCounted_station, blife]) order waits he
        (by rw [counted]; simpa [bpool] using hd)
      rw [blockEvent_eq, pool, counted]
      simp [bpool]
    · rw [tmapu]
      split <;> rfl
    · rw [tmapu]
      split <;> rfl
  · refine ⟨fun hb => ?_, fun hb => ?_⟩
    · rw [exec_blockEvent order hh hb, blockEvent_outside (s := blockBegun .marked s) order hp hc]
      rfl
    · rw [exec_bridgedBlockEvent order hh hb, blockEvent_outside (s := blockBegun .bridged s) order hp hc]
      rfl
  · refine ⟨fun hb => ?_, fun hb => ?_⟩
    · rw [exec_blockEvent order hh hb, blockEvent_active (s := blockBegun .marked s) order ha]
      rfl
    · rw [exec_bridgedBlockEvent order hh hb, blockEvent_active (s := blockBegun .bridged s) order ha]
      rfl
  · refine ⟨fun c hc => by rw [ctx_contextBlocks hs, hc]; rfl, fun c x hc => ?_, fun c x hc => ?_⟩
    · intro n lost
      rw [ctx_contextBlocks hs, hc, Option.map_some, blockedCtx_eq]
      rfl
    · intro n counted told begins u
      obtain ⟨does, goes⟩ := contextBlocks_of_single hc
      refine ⟨fun hb => ?_, fun hb => ?_⟩
      · obtain ⟨y, hy⟩ := does hb
        rw [show u = _ from hy]
        exact ⟨rfl, rfl, rfl, rfl⟩
      · obtain ⟨y, hy⟩ := goes hb
        rw [show u = _ from hy]
        have counts : missingCounted x s = counted := rfl
        rw [counts]
        refine ⟨rfl, ?_, ?_, ?_⟩ <;> simp only [counted] <;> split <;> rfl
  · intro g shedDue c
    have due : s.shedUpdate.shedDue = true ↔ shedDue := shedDue_iff _
    have census : c = s.shedUpdate.placeTakensDue.shadowFill.census := rfl
    rw [poolDecisions_active ha, ← census]
    refine ⟨fun hd => ?_, fun hd hl => ?_, fun hd hl => ?_⟩
    · rw [if_pos (due.2 hd)]; rfl
    · rw [if_neg (mt due.1 hd), if_pos hl]; rfl
    · rw [if_neg (mt due.1 hd), if_neg (by simpa using hl)]

end Sys2Proof.Proofs

/-! Proofs: what the Pool Controller's notices leave of the window and of the reservations, and the judgement of a BID
(O34). -/

namespace Sys2Proof.Proofs

open Sys2Proof Sys2Proof.Machine Sys2Proof.Laws

/-! ### Outside a window: nothing that is placed or removed begins one -/

@[simp] theorem defer_rest (r : OutRequest) (k : NoticeCtl) : (k.defer r).inWindow.isNone = k.inWindow.isNone := by
  simp [NoticeCtl.defer]

@[simp] theorem place_rest (n : Notice) (s : State) :
    (s.place n).notice.inWindow.isNone = s.notice.inWindow.isNone := by
  unfold State.place
  (repeat' split) <;> simp [State.joinOutbox]

@[simp] theorem removeNow_rest (f : Notice → Bool) (s : State) :
    (s.removeNow f).notice.inWindow.isNone = s.notice.inWindow.isNone := by
  rw [removeNow_outbox]

@[simp] theorem removeNotices_rest (r : Removal) (s : State) :
    (s.removeNotices r).notice.inWindow.isNone = s.notice.inWindow.isNone := by
  simp [State.removeNotices]

@[simp] theorem releaseCtx_rest (c : CtxNum) (s : State) :
    (s.releaseCtx c).notice.inWindow.isNone = s.notice.inWindow.isNone := by
  unfold State.releaseCtx
  split <;> simp

@[simp] theorem takeSwitchFrames_rest (s : State) :
    s.takeSwitchFrames.notice.inWindow.isNone = s.notice.inWindow.isNone := by
  have contexts : s.switchContexts.notice.inWindow.isNone = s.notice.inWindow.isNone := by
    refine foldl_keeps (fun u => u.notice.inWindow.isNone) _ (fun u c => ?_) _ _
    unfold State.doSwitchFrame
    (repeat' split) <;> simp
  simpa [State.takeSwitchFrames] using contexts

@[simp] theorem placeTaken_rest (p : Pos) (cause : TakenCause) (s : State) :
    (s.placeTaken p cause).notice.inWindow.isNone = s.notice.inWindow.isNone := by
  unfold State.placeTaken
  (repeat' split) <;> simp [State.setTakenMark]

@[simp] theorem placeBid_rest (p : Pos) (role : BidRole) (s : State) :
    (s.placeBid p role).notice.inWindow.isNone = s.notice.inWindow.isNone := by
  unfold State.placeBid
  cases (s.recAt p).call with
  | none => rfl
  | some k =>
    simp only
    split
    · cases hr : s.requestReservation p role (bidCost role k.mode) with
      | none => rfl
      | some t =>
        simp only
        split <;> simp [requestReservation_blocks hr]
    · rfl

@[simp] theorem placeShedderHold_rest (p : Pos) (s : State) :
    (s.placeShedderHold p).notice.inWindow.isNone = s.notice.inWindow.isNone := by
  unfold State.placeShedderHold
  split <;> simp

@[simp] theorem withdrawUnfit_rest (p : Pos) (s : State) :
    (s.withdrawUnfit p).notice.inWindow.isNone = s.notice.inWindow.isNone := by
  unfold State.withdrawUnfit State.withdrawBid
  (repeat' split) <;> simp

@[simp] theorem answerChange_rest (p : Pos) (old new : PosRecord) (s : State) :
    (s.answerChange p old new).notice.inWindow.isNone = s.notice.inWindow.isNone := by
  unfold State.answerChange
  simp only [apply_ite (fun u : State => u.notice.inWindow.isNone), placeBid_rest, placeTaken_rest,
    placeShedderHold_rest, ite_self]

@[simp] theorem poolReact_rest (p : Pos) (old : PosRecord) (s : State) :
    (s.poolReact p old).notice.inWindow.isNone = s.notice.inWindow.isNone := by
  unfold State.poolReact
  simp only
  (repeat' split) <;> simp

@[simp] theorem beginRecord_rest (r : Record) (s : State) :
    (s.beginRecord r).notice.inWindow.isNone = s.notice.inWindow.isNone := by
  have closes : ∀ u : State, u.closeWindows.notice.inWindow.isNone = u.notice.inWindow.isNone := fun u => by
    refine foldl_keeps (fun u => u.notice.inWindow.isNone) _ (fun u p => ?_) _ _
    split <;> simp
  rw [beginRecord_eq, closes, takenAt]
  simp

@[simp] theorem hearStation_rest (q : Station) (s : State) :
    (s.hearStation q).notice.inWindow.isNone = s.notice.inWindow.isNone := by
  unfold State.hearStation State.removeLost
  simp only
  split <;> simp

/-! ### A position without a reservation -/

theorem reservationFor_none_iff {s : State} {p : Pos} :
    s.reservationFor p = none ↔ ∀ r ∈ s.table.reservations, r.position ≠ p := by
  simp [State.reservationFor]

/-- Reservations that go leave none behind. -/
theorem reservationFor_none_of_subset {s t : State} {p : Pos} (h : s.reservationFor p = none)
    (hs : t.table.reservations ⊆ s.table.reservations) : t.reservationFor p = none :=
  reservationFor_none_iff.2 (fun r hr => reservationFor_none_iff.1 h r (hs hr))

theorem releaseReservation_none (p : Pos) (s : State) : (s.releaseReservation p).reservationFor p = none := by
  rw [reservationFor_none_iff]
  intro r hr
  simpa using (List.mem_filter.1 hr).2

theorem releaseReservation_subset (p : Pos) (s : State) :
    (s.releaseReservation p).table.reservations ⊆ s.table.reservations :=
  List.filter_sublist.subset

theorem departed_subset (n : Notice) (s : State) : (s.departed n).table.reservations ⊆ s.table.reservations := by
  cases n with
  | bid p =>
    simp only [State.departed]
    split <;> exact releaseReservation_subset p s
  | shed =>
    simp only [State.departed]
    split <;> exact List.Subset.refl _
  | taken | lost | clear | offer | hold | present | query | report => exact List.Subset.refl _

theorem place_subset (n : Notice) (s : State) : (s.place n).table.reservations ⊆ s.table.reservations := by
  unfold State.place
  split
  · exact List.Subset.refl _
  · split
    · exact List.Subset.refl _
    · split
      · exact List.Subset.refl _
      · split
        · exact List.Subset.refl _
        · split <;> exact departed_subset ..

theorem placeTaken_subset (p : Pos) (cause : TakenCause) (s : State) :
    (s.placeTaken p cause).table.reservations ⊆ s.table.reservations := by
  unfold State.placeTaken
  split
  · split
    · exact List.Subset.refl _
    · exact place_subset ..
  · exact List.Subset.refl _

theorem placeShedderHold_subset (p : Pos) (s : State) :
    (s.placeShedderHold p).table.reservations ⊆ s.table.reservations := by
  unfold State.placeShedderHold
  split
  · exact place_subset ..
  · exact List.Subset.refl _

theorem foldl_departed_subset (l : List OutEntry) (s : State) :
    (l.foldl (fun u e => u.departed e.notice) s).table.reservations ⊆ s.table.reservations :=
  foldl_inv (fun u => u.table.reservations ⊆ s.table.reservations) _
    (fun u e hu => List.Subset.trans (departed_subset e.notice u) hu) l s (List.Subset.refl _)

theorem removeNotices_subset (r : Removal) (s : State) :
    (s.removeNotices r).table.reservations ⊆ s.table.reservations := foldl_departed_subset ..

theorem withdrawUnfit_subset (p : Pos) (s : State) :
    (s.withdrawUnfit p).table.reservations ⊆ s.table.reservations := by
  unfold State.withdrawUnfit
  split
  · exact List.Subset.refl _
  · split
    · exact removeNotices_subset ..
    · exact List.Subset.refl _

/-! ### Withdrawal of the own BID (R102, R137) -/

/-- The notice is the own BID for p. -/
def isBidFor (p : Pos) : Notice → Bool
  | .bid x _ _ _ => decide (x = p)
  | _ => false

theorem bidOf_names (p : Pos) : (Removal.bidOf p).names = isBidFor p := by
  funext n
  cases n <;> rfl

theorem waitingBid_none_iff {s : State} {p : Pos} :
    s.waitingBid p = none ↔ ∀ e ∈ s.notice.outbox, isBidFor p e.notice = false := by
  unfold State.waitingBid
  rw [List.findSome?_eq_none_iff]
  refine forall₂_congr (fun e _ => ?_)
  cases e.notice <;> simp [isBidFor]

theorem departed_bid_none {n : Notice} {p : Pos} (h : isBidFor p n = true) (s : State) :
    (s.departed n).reservationFor p = none := by
  cases n with
  | bid x =>
    obtain rfl : x = p := by simpa [isBidFor] using h
    simp only [State.departed]
    split <;> exact releaseReservation_none x s
  | shed | taken | lost | clear | offer | hold | present | query | report => simp [isBidFor] at h

/-- A BID among the notices that leave takes its reservation with it. -/
theorem foldl_departed_none {p : Pos} {l : List OutEntry} (h : ∃ e ∈ l, isBidFor p e.notice = true) (s : State) :
    (l.foldl (fun u e => u.departed e.notice) s).reservationFor p = none := by
  induction l generalizing s with
  | nil => simp at h
  | cons e l ih =>
    by_cases he : isBidFor p e.notice = true
    · exact reservationFor_none_of_subset (departed_bid_none he s) (foldl_departed_subset l _)
    · refine ih ?_ _
      obtain ⟨e', hm, he'⟩ := h
      rcases List.mem_cons.1 hm with rfl | hm
      · exact absurd he' he
      · exact ⟨e', hm, he'⟩

/-- Outside a window the withdrawal takes the BID out of the outbox, and its reservation with it. -/
theorem withdrawBid_outside {s : State} {p : Pos} (hw : s.notice.inWindow = none) (hb : s.waitingBid p ≠ none) :
    (s.withdrawBid p).notice = { s.notice with outbox := s.notice.outbox.filter (fun e => !(isBidFor p e.notice)) } ∧
      (s.withdrawBid p).reservationFor p = none ∧ (s.withdrawBid p).waitingBid p = none := by
  have withdraws : s.withdrawBid p = s.removeNow (isBidFor p) := by
    rw [State.withdrawBid, removeNotices_outside _ hw, bidOf_names]
  have box := removeNow_outbox (isBidFor p) s
  rw [withdraws]
  refine ⟨box, ?_, ?_⟩
  · refine foldl_departed_none ?_ _
    rw [ne_eq, waitingBid_none_iff] at hb
    push Not at hb
    obtain ⟨e, he, hbid⟩ := hb
    exact ⟨e, List.mem_filter.2 ⟨he, by simpa using hbid⟩, by simpa using hbid⟩
  · rw [waitingBid_none_iff, box]
    intro e he
    simpa using (List.mem_filter.1 he).2

/-- The test of R137, as it is written for what stays. -/
theorem not_isBidFor (p : Pos) (n : Notice) : (!(isBidFor p n)) = match n with
    | .bid x _ _ _ => decide (x ≠ p)
    | _ => true := by
  cases n <;> simp [isBidFor]

/-! ### The judgement of a BID (R119 to R121) -/

theorem inWindow_iff (r : PosRecord) (stamp : FrameCount) :
    r.inWindow stamp = true ↔ ∃ c, r.closing = some c ∧ atOrBefore stamp c = true := by
  unfold PosRecord.inWindow
  cases r.closing <;> simp

section
variable (r : PosRecord) (q : Station) (tag : CallTag) (role : BidRole) (stamp : FrameCount)

theorem bidOutcome_primary : bidOutcome r q tag role stamp = .primary ↔
    r.call.map (fun k => k.tag) = some tag ∧ role = .offer ∧ r.state = .offered ∧ r.inWindow stamp = true := by
  unfold bidOutcome
  cases role <;> simp [ite_eq_iff]

theorem bidOutcome_shadow : bidOutcome r q tag role stamp = .shadow ↔
    r.call.map (fun k => k.tag) = some tag ∧ r.state = .held ∧ r.shadow = none ∧ r.names q = false ∧
      ((role = .offer ∧ r.inWindow stamp = true) ∨ role = .shadow) := by
  have other : r.state = .held → r.state ≠ .offered := fun h => by simp [h]
  unfold bidOutcome
  cases role <;> simp [ite_eq_iff]
  tauto

theorem bidOutcome_taker : bidOutcome r q tag role stamp = .taker ↔
    r.call.map (fun k => k.tag) = some tag ∧ r.shadow = none ∧ r.taker = none ∧ r.names q = false ∧
      r.inWindow stamp = true ∧ ((role = .take ∧ r.state = .shedding) ∨ (role = .orphan ∧ r.state = .orphaned)) := by
  unfold bidOutcome
  cases role <;> simp [ite_eq_iff, PosRecord.unfilled]
  · tauto
  · tauto

end

end Sys2Proof.Proofs

/-! Proofs: the application of a BID (O34). -/

namespace Sys2Proof.Proofs

open Sys2Proof Sys2Proof.Machine Sys2Proof.Laws

/-! ### Taking a notice of a station -/

/-- The head record is taken at the Map Unit's turn. -/
theorem onStationNotice_head {s : State} {r : Record} {h : Heard} {q : Station} {apply : State → State}
    {f : Notice → Station → Bool → Option (State → State)} (ht : s.atTurn r) (hh : r.heard = some h)
    (hq : h.station = some q) (hf : f h.notice q h.own = some apply) :
    s.onStationNotice f = (apply ((s.beginRecord r).hearStation q)).endRecord := by
  obtain ⟨-, hp, hturn, hsweep, hhead, -⟩ := ht
  simp [State.onStationNotice, State.onHead, State.mapActs, hp, hturn, hsweep, hhead, hh, hq, hf]

theorem hearStation_mapu (q : Station) (s : State) :
    (s.hearStation q).mapu = { s.mapu with roster := (s.hearStation q).mapu.roster } := by
  unfold State.hearStation State.removeLost
  simp only [removeNotices_blocks]
  split <;> rfl

theorem endRecord_mapu {s : State} (h : s.mapu.sweep = none) :
    s.endRecord.mapu = { s.mapu with intake := s.mapu.intake.tail } := by
  simp [State.endRecord, h]

/-! ### What a fitting BID leaves of the blocks -/

/-- The state with the record of a fitting BID, and the own station's part in it. -/
def bidTakenBy (p : Pos) (q : Station) (o : BidOutcome) (own : Bool) (s : State) : State :=
  let u := s.putRec p ((s.recAt p).bidTaken q o)
  if own then (u.allocateFor p o).endFill p else if o = .primary then u.keepOrWithdraw p else u

theorem bidFits_eq (p : Pos) (q : Station) (o : BidOutcome) (own : Bool) (s : State) :
    s.bidFits p q o own = (bidTakenBy p q o own s).poolReact p (s.recAt p) := rfl

theorem bidTakenBy_mapu (p : Pos) (q : Station) (o : BidOutcome) (own : Bool) (s : State) :
    (bidTakenBy p q o own s).mapu = (s.putRec p ((s.recAt p).bidTaken q o)).mapu := by
  unfold bidTakenBy
  simp only
  split
  · simp
  · split <;> simp

theorem bidTakenBy_life (p : Pos) (q : Station) (o : BidOutcome) (own : Bool) (s : State) :
    (bidTakenBy p q o own s).life = s.life := by
  unfold bidTakenBy
  simp only
  split
  · simp
  · split <;> simp

theorem recAt_bidTakenBy (p : Pos) (q : Station) (o : BidOutcome) (own : Bool) (s : State) (x : Pos) :
    (bidTakenBy p q o own s).recAt x = if x = p then (s.recAt p).bidTaken q o else s.recAt x :=
  (recAt_of_map (congrArg MapUnit.map (bidTakenBy_mapu p q o own s)) x).trans (recAt_putRec ..)

theorem bidFits_mapu (p : Pos) (q : Station) (o : BidOutcome) (own : Bool) (s : State) :
    (s.bidFits p q o own).mapu = (s.putRec p ((s.recAt p).bidTaken q o)).mapu := by
  rw [bidFits_eq, poolReact_blocks .. |>.2.2.1, bidTakenBy_mapu]

/-- Another station's BID leaves the contexts. -/
theorem bidFits_contexts (p : Pos) (q : Station) (o : BidOutcome) (s : State) :
    (s.bidFits p q o false).table.contexts = s.table.contexts := by
  rw [bidFits_eq, poolReact_contexts]
  unfold bidTakenBy
  simp only [Bool.false_eq_true, if_false]
  split <;> simp

/-! ### The own station's context (R10) -/

/-- The lowest number that is free. -/
theorem lowestFree_eq {n : Nat} {α : Type} {t : Table n α} {k : Fin n} (hk : Table.lookup t k = none)
    (hl : ∀ j, j < k → (Table.lookup t j).isSome = true) : Table.lowestFree t = some k := by
  unfold Table.lowestFree
  obtain ⟨j, hj⟩ : ∃ j, (List.finRange n).find? (fun k => (Table.lookup t k).isNone) = some j :=
    Option.isSome_iff_exists.1 (List.find?_isSome.2 ⟨k, List.mem_finRange k, by simp [hk]⟩)
  rw [hj]
  obtain ⟨hfree, before, after, hsplit, hbefore⟩ := List.find?_eq_some_iff_append.1 hj
  have sorted := List.pairwise_lt_finRange n
  rw [hsplit, List.pairwise_append] at sorted
  have hk' : k ∈ before ++ j :: after := hsplit ▸ List.mem_finRange k
  rcases List.mem_append.1 hk' with hm | hm
  · simpa [hk] using hbefore k hm
  · rcases List.mem_cons.1 hm with rfl | hm
    · rfl
    · have := hl j ((List.pairwise_cons.1 sorted.2.1).1 k hm)
      simp_all

/-- Allocation takes the lowest free number and the record's call, and consumes the reservation. -/
theorem allocate_eq {s : State} {p : Pos} {c : CtxNum} {k : Call} (st : CtxState) (role : Option Role)
    (hc : s.ctx c = none) (hl : ∀ d, d < c → (s.ctx d).isSome = true) (hk : (s.recAt p).call = some k) :
    s.allocate p st role =
      (s.releaseReservation p).putCtx c (Context.fresh st role p k s.life.settings.warmUp) := by
  have free : Table.lowestFree (s.releaseReservation p).table.contexts = some c := lowestFree_eq hc hl
  have call : ((s.releaseReservation p).recAt p).call = some k := hk
  simp only [State.allocate, free, call]
  rfl

theorem allocate_reservation (p : Pos) (st : CtxState) (role : Option Role) (s : State) :
    (s.allocate p st role).reservationFor p = none := by
  unfold State.allocate
  simp only
  split
  · exact releaseReservation_none p s
  · exact releaseReservation_none p s

theorem bidTaken_call (r : PosRecord) (q : Station) (o : BidOutcome) : (r.bidTaken q o).call = r.call := by
  cases o <;> rfl

/-- The state and the role of the context of the own BID's outcome. -/
def bidContext : BidOutcome → CtxState × Option Role
  | .primary => (.primary, none)
  | .shadow => (.warming, some .shadow)
  | .taker => (.warming, some .taker)
  | .stale => (.standby, none)

theorem allocateFor_eq {s : State} (p : Pos) {o : BidOutcome} (ha : s.life.station = .active) (ho : o ≠ .stale) :
    s.allocateFor p o = s.allocate p (bidContext o).1 (bidContext o).2 := by
  cases o with
  | stale => exact absurd rfl ho
  | primary | shadow | taker => simp [State.allocateFor, State.isActive, ha, bidContext]

section
variable {s : State} (p : Pos) (q : Station) {o : BidOutcome} (ha : s.life.station = .active) (ho : o ≠ .stale)
include ha ho

theorem bidTakenBy_own : bidTakenBy p q o true s =
    ((s.putRec p ((s.recAt p).bidTaken q o)).allocate p (bidContext o).1 (bidContext o).2).endFill p := by
  simp only [bidTakenBy, if_true]
  rw [allocateFor_eq p (by simpa using ha) ho]

theorem ctx_bidFits_own {c : CtxNum} {k : Call} (hc : s.ctx c = none)
    (hl : ∀ d, d < c → (s.ctx d).isSome = true) (hk : (s.recAt p).call = some k) :
    (s.bidFits p q o true).ctx c =
      some (Context.fresh (bidContext o).1 (bidContext o).2 p k s.life.settings.warmUp) := by
  have call : ((s.putRec p ((s.recAt p).bidTaken q o)).recAt p).call = some k := by
    rw [recAt_putRec, if_pos rfl, bidTaken_call, hk]
  rw [bidFits_eq, poolReact_ctx, bidTakenBy_own p q ha ho, allocate_eq _ _ (by exact hc) (by exact hl) call]
  rw [ctx_of_contexts (congrArg CtxTable.contexts (endFill_blocks p _).2.1), ctx_putCtx_self]
  simp

end

/-! ### What the Pool Controller answers (R133) -/

/-- A fitting BID opens no claim window. -/
theorem bidTaken_opens_none (old r : PosRecord) (q : Station) {o : BidOutcome} {st : PosState} (ho : o ≠ .stale)
    (hst : st ≠ .held) : windowOpened st old (r.bidTaken q o) = false := by
  cases o with
  | stale => exact absurd rfl ho
  | primary => simp [windowOpened, PosRecord.bidTaken, hst.symm]
  | shadow | taker => simp [windowOpened, PosRecord.bidTaken, PosRecord.unfilled]

/-- A held record calls for no notice. -/
theorem answerChange_held {p : Pos} {old new : PosRecord} (s : State) (h : new.state = .held) :
    s.answerChange p old new = s := by
  simp [State.answerChange, windowOpened, h]

theorem ite_subset {P : Prop} [Decidable P] {f : State → State} {s u : State}
    (hf : ∀ u, (f u).table.reservations ⊆ u.table.reservations) (h : u.table.reservations ⊆ s.table.reservations) :
    (if P then f u else u).table.reservations ⊆ s.table.reservations := by
  split
  · exact List.Subset.trans (hf u) h
  · exact h

/-- Without an opened window the answer adds no reservation. -/
theorem answerChange_subset {p : Pos} {old new : PosRecord} (s : State) (hs : windowOpened .shedding old new = false)
    (ho : windowOpened .orphaned old new = false) :
    (s.answerChange p old new).table.reservations ⊆ s.table.reservations := by
  unfold State.answerChange
  simp only [hs, ho, Bool.false_eq_true, false_and, if_false]
  exact ite_subset (placeTaken_subset p .orphan) (ite_subset (placeTaken_subset p .promotion)
    (ite_subset (placeTaken_subset p .handOff) (ite_subset (placeShedderHold_subset p) (List.Subset.refl _))))

theorem poolReact_subset {p : Pos} {old : PosRecord} (s : State)
    (hs : windowOpened .shedding old (s.recAt p) = false) (ho : windowOpened .orphaned old (s.recAt p) = false) :
    (s.poolReact p old).table.reservations ⊆ s.table.reservations := by
  have unfit : ((s.shedEnds p old (s.recAt p)).withdrawUnfit p).table.reservations ⊆ s.table.reservations := by
    simpa using withdrawUnfit_subset p (s.shedEnds p old (s.recAt p))
  unfold State.poolReact
  simp only
  split
  · exact List.Subset.refl _
  · split
    · exact List.Subset.trans (answerChange_subset _ hs ho) unfit
    · exact unfit

/-- The own BID that fits has used its reservation up. -/
theorem reservationFor_bidFits_own {s : State} (p : Pos) (q : Station) {o : BidOutcome}
    (ha : s.life.station = .active) (ho : o ≠ .stale) : (s.bidFits p q o true).reservationFor p = none := by
  have hrec : (bidTakenBy p q o true s).recAt p = (s.recAt p).bidTaken q o := by rw [recAt_bidTakenBy, if_pos rfl]
  rw [bidFits_eq]
  refine reservationFor_none_of_subset ?_ (poolReact_subset _ ?_ ?_)
  · rw [bidTakenBy_own p q ha ho]
    refine reservationFor_none_of_subset (allocate_reservation p (bidContext o).1 (bidContext o).2
      (s.putRec p ((s.recAt p).bidTaken q o))) ?_
    rw [endFill_blocks .. |>.2.1]
    exact List.Subset.refl _
  · rw [hrec]; exact bidTaken_opens_none _ _ q ho (by decide)
  · rw [hrec]; exact bidTaken_opens_none _ _ q ho (by decide)

/-! ### The own offer BID when another station's becomes primary (R136) -/

/-- The record of a BID that has become primary, and the own offer BID still fits it. -/
theorem offer_fits_primary {r : PosRecord} {q own : Station} {tag : CallTag} {stamp : FrameCount}
    (hc : r.call.map (fun k => k.tag) = some tag) (hs : r.shadow = none) (hq : q ≠ own) (hn : r.names own = false)
    (hw : r.inWindow stamp = true) : bidOutcome (r.bidTaken q .primary) own tag .offer stamp = .shadow := by
  obtain ⟨-, hy, hsh, ht⟩ := names_eq_false.1 hn
  refine (bidOutcome_shadow ..).2 ⟨hc, rfl, hs, names_eq_false.2 ⟨by simpa [PosRecord.bidTaken] using hq, hy, hsh, ht⟩,
    Or.inl ⟨rfl, hw⟩⟩

section
variable {s : State} {p : Pos} {q : Station} {old : PosRecord}

/-- Another station's BID that becomes primary ends no shed. -/
theorem shedEnds_primary (ho : old.state = .offered) (hq : q ≠ s.own) :
    s.shedEnds p old (old.bidTaken q .primary) = s := by
  simp [State.shedEnds, ho, PosRecord.bidTaken, hq]

/-- Where the own BID does not wait or still fits, another station's BID that becomes primary is answered by nothing. -/
theorem poolReact_primary (ho : old.state = .offered) (hq : q ≠ s.own)
    (hr : s.recAt p = old.bidTaken q .primary) (hw : s.withdrawUnfit p = s) : s.poolReact p old = s := by
  unfold State.poolReact
  simp only [hr, shedEnds_primary ho hq, hw,
    answerChange_held s (show (old.bidTaken q .primary).state = .held from rfl), ite_self]

end

section
variable {s : State} {p : Pos} {q : Station} {tag : CallTag} {k : Call} {v : Reservation}
  (hw : s.waitingBid p = some (tag, .offer)) (hk : (s.recAt p).call = some k) (hs : (s.recAt p).shadow = none)
  (hv : s.reservationFor p = some v)
include hw hk hs hv

theorem keepOrWithdraw_eq : s.keepOrWithdraw p =
    if s.life.settings.shadowing = true ∧ s.load - v.cost + standbyCost k.mode ≤ s.budget then
      s.recostReservation p (standbyCost k.mode)
    else s.withdrawBid p := by
  simp [State.keepOrWithdraw, hw, hk, hs, hv]

end

/-! ### The application, by its outcome -/

section
variable (p : Pos) (tag : CallTag) (role : BidRole) (q : Station) (own : Bool) (s : State)

theorem applyBidTo_eq : s.applyBidTo p tag role q own =
    if bidOutcome (s.recAt p) q tag role s.mapu.mapTime = .stale then s.bidStale p own
    else s.bidFits p q (bidOutcome (s.recAt p) q tag role s.mapu.mapTime) own := by
  unfold State.applyBidTo
  cases bidOutcome (s.recAt p) q tag role s.mapu.mapTime <;> rfl

theorem recAt_applyBidTo (x : Pos) : (s.applyBidTo p tag role q own).recAt x =
    if x = p then (s.recAt p).bidTaken q (bidOutcome (s.recAt p) q tag role s.mapu.mapTime) else s.recAt x := by
  rw [applyBidTo_eq]
  split
  · rename_i ho
    rw [recAt_of_map (congrArg MapUnit.map (bidStale_blocks p own s).2.2.2.1), ho]
    split
    · rename_i hx; rw [hx]; rfl
    · rfl
  · exact (recAt_of_map (congrArg MapUnit.map (bidFits_mapu ..)) x).trans (recAt_putRec ..)

theorem applyBidTo_unmapped : unmapped (s.applyBidTo p tag role q own).mapu = unmapped s.mapu := by
  rw [applyBidTo_eq]
  split
  · rw [bidStale_blocks .. |>.2.2.2.1]
  · rw [bidFits_mapu, unmapped_putRec]

end

/-- A stale BID is counted, and an own one's reservation released. -/
theorem bidStale_reads (p : Pos) (own : Bool) (s : State) :
    (s.bidStale p own).report = s.report.counted .staleBids ∧
      (s.bidStale p own).table.contexts = s.table.contexts ∧
      (own = true → (s.bidStale p own).reservationFor p = none) ∧
      (own = false → (s.bidStale p own).table = s.table) := by
  unfold State.bidStale
  cases own with
  | false => simp [State.count]
  | true =>
    refine ⟨by simp [State.count], by simp [State.releaseReservation], fun _ => ?_, fun h => absurd h (by decide)⟩
    simp only [if_true]
    refine reservationFor_none_of_subset (releaseReservation_none p (s.count .staleBids)) ?_
    rw [endFill_blocks .. |>.2.1]
    exact List.Subset.refl _

/-! ### Another station's BID and the own station's notices -/

section
variable {s : State} {p : Pos} {q : Station} {tag : CallTag} {k : Call} {v : Reservation}
  (hw : s.waitingBid p = some (tag, .offer)) (hk : (s.recAt p).call = some k) (hs : (s.recAt p).shadow = none)
  (hv : s.reservationFor p = some v) (htag : (s.recAt p).call.map (fun k => k.tag) = some tag)
  (hst : (s.recAt p).state = .offered) (hopen : (s.recAt p).inWindow s.mapu.mapTime = true) (hq : q ≠ s.own)
  (hn : (s.recAt p).names s.own = false)
include hw hk hs hv

/-- What the primary of another station makes of the own offer BID. -/
theorem bidTakenBy_primary : bidTakenBy p q .primary false s =
    let u := s.putRec p ((s.recAt p).bidTaken q .primary)
    if s.life.settings.shadowing = true ∧ s.load - v.cost + standbyCost k.mode ≤ s.budget then
      u.recostReservation p (standbyCost k.mode)
    else u.withdrawBid p := by
  have hrec : (s.putRec p ((s.recAt p).bidTaken q .primary)).recAt p = (s.recAt p).bidTaken q .primary := by
    rw [recAt_putRec, if_pos rfl]
  exact keepOrWithdraw_eq hw (by rw [hrec]; exact hk) (by rw [hrec]; exact hs) hv

include hst hq

/-- It withdraws the BID where there is no room for it at the standby cost. -/
theorem bidFits_withdraws
    (hkeep : ¬(s.life.settings.shadowing = true ∧ s.load - v.cost + standbyCost k.mode ≤ s.budget))
    (hrest : s.notice.inWindow = none) :
    s.bidFits p q .primary false = (s.putRec p ((s.recAt p).bidTaken q .primary)).withdrawBid p := by
  let u := s.putRec p ((s.recAt p).bidTaken q .primary)
  have taken : bidTakenBy p q .primary false s = u.withdrawBid p := by
    rw [bidTakenBy_primary hw hk hs hv]
    exact if_neg hkeep
  have hrec : (u.withdrawBid p).recAt p = (s.recAt p).bidTaken q .primary := by
    rw [← taken, recAt_bidTakenBy, if_pos rfl]
  have waits : u.waitingBid p = some (tag, .offer) := hw
  obtain ⟨-, -, gone⟩ := withdrawBid_outside (s := u) (p := p) hrest (by rw [waits]; simp)
  rw [bidFits_eq, taken]
  refine poolReact_primary hst ?_ hrec ?_
  · simpa [u, State.own] using hq
  · simp [State.withdrawUnfit, gone]

include htag hopen hn

/-- It keeps the BID at the standby cost where there is room for it. -/
theorem bidFits_keeps
    (hkeep : s.life.settings.shadowing = true ∧ s.load - v.cost + standbyCost k.mode ≤ s.budget) :
    s.bidFits p q .primary false =
      (s.putRec p ((s.recAt p).bidTaken q .primary)).recostReservation p (standbyCost k.mode) := by
  let u := (s.putRec p ((s.recAt p).bidTaken q .primary)).recostReservation p (standbyCost k.mode)
  have taken : bidTakenBy p q .primary false s = u := by
    rw [bidTakenBy_primary hw hk hs hv]
    exact if_pos hkeep
  have hrec : u.recAt p = (s.recAt p).bidTaken q .primary := by
    rw [← taken, recAt_bidTakenBy, if_pos rfl]
  have waits : u.waitingBid p = some (tag, .offer) := hw
  have fits : bidOutcome (u.recAt p) u.own tag .offer u.mapu.mapTime = .shadow := by
    rw [hrec]
    exact offer_fits_primary htag hs hq hn hopen
  rw [bidFits_eq, taken]
  refine poolReact_primary hst hq hrec ?_
  simp [State.withdrawUnfit, waits, fits]

end

/-- The shedder restates the call when another station becomes the taker (R145). -/
theorem bidFits_shedder {s : State} {p : Pos} {q : Station} {d : CtxNum} {x : Context} {k : Call}
    (ha : s.life.station = .active) (hw : s.waitingBid p = none) (hst : (s.recAt p).state = .shedding)
    (hp : (s.recAt p).primary = some s.own) (ht : (s.recAt p).taker = none) (hx : s.ctxFor p = some (d, x))
    (hk : (s.recAt p).call = some k) : (s.bidFits p q .taker false).notice =
      (s.place (.hold p k.tag x.law x.modeSet x.downMode x.phase none)).notice := by
  let u := s.putRec p ((s.recAt p).bidTaken q .taker)
  have hrec : u.recAt p = (s.recAt p).bidTaken q .taker := by rw [recAt_putRec, if_pos rfl]
  let w := u.shedEnds p (s.recAt p) (u.recAt p)
  obtain ⟨-, wtable, -, wnotice, wmapu, wlife, -⟩ := shedEnds_blocks p (s.recAt p) (u.recAt p) u
  have changed : u.recAt p ≠ s.recAt p := by
    intro same
    have := congrArg PosRecord.taker (hrec.symm.trans same)
    simp [PosRecord.bidTaken, ht] at this
  have waits : w.waitingBid p = none := by
    unfold State.waitingBid
    rw [wnotice]
    exact hw
  have unfit : w.withdrawUnfit p = w := by simp [State.withdrawUnfit, waits]
  have active : w.isActive = true := by simp [State.isActive, w, u, ha]
  have own : w.own = s.own := congrArg Life.number wlife
  have found : w.ctxFor p = some (d, x) := (ctxFor_of_contexts (congrArg CtxTable.contexts wtable) p).trans hx
  have call : (w.recAt p).call = some k := by
    rw [recAt_of_map (congrArg MapUnit.map wmapu), hrec]
    exact hk
  have answers : w.answerChange p (s.recAt p) ((s.recAt p).bidTaken q .taker) = w.placeShedderHold p := by
    unfold State.answerChange
    rw [bidTaken_opens_none (s.recAt p) (s.recAt p) q (by decide) (show PosState.shedding ≠ .held by decide),
      bidTaken_opens_none (s.recAt p) (s.recAt p) q (by decide) (show PosState.orphaned ≠ .held by decide)]
    simp [PosRecord.bidTaken, hst, ht, hp, own]
  have reacts : s.bidFits p q .taker false = w.placeShedderHold p := by
    rw [bidFits_eq, ← answers, ← hrec]
    show u.poolReact p (s.recAt p) = _
    simp only [State.poolReact, if_neg changed]
    rw [show (u.shedEnds p (s.recAt p) (u.recAt p)).withdrawUnfit p = w from unfit, if_pos active]
  rw [reacts, State.placeShedderHold, found, call]
  exact place_notice_congr (s := w) (t := s) wnotice _

/-- The application of the BID at the head of the intake. -/
theorem exec_applyBid {s : State} {r : Record} {h : Heard} {q : Station} {p : Pos} {tag : CallTag} {role : BidRole}
    {cost : BitVec 4} (ht : s.atTurn r) (hh : r.heard = some h) (hq : h.station = some q)
    (hn : h.notice = .bid p tag role cost) : exec .applyBid s =
      .next ((((s.beginRecord r).hearStation q).applyBidTo p tag role q h.own).endRecord) := by
  have run : exec .applyBid s = .next s.doApplyBid := next_live ht.1
  rw [run, State.doApplyBid, onStationNotice_head ht hh hq (by rw [hn])]

/-- What a record finds once its sender is heard. -/
theorem heard_reads {s : State} {r : Record} (ht : s.atTurn r) (q : Station) :
    let b := (s.beginRecord r).hearStation q
    b.mapu.mapTime = r.stamp ∧ b.mapu.intake = s.mapu.intake ∧ b.mapu.sweep = none ∧ b.hwi = s.hwi ∧ b.life = s.life ∧
      b.notice.inWindow = none := by
  obtain ⟨-, -, -, hsweep, -, hrest⟩ := ht
  intro b
  have heard := hearStation_mapu q (s.beginRecord r)
  have begun := beginRecord_mapu r s
  refine ⟨(congrArg MapUnit.mapTime heard :).trans (congrArg MapUnit.mapTime begun :),
    (congrArg MapUnit.intake heard :).trans (congrArg MapUnit.intake begun :),
    ((congrArg MapUnit.sweep heard :).trans (congrArg MapUnit.sweep begun :)).trans hsweep, by simp [b], by simp [b],
    ?_⟩
  have rest : b.notice.inWindow.isNone = s.notice.inWindow.isNone := by simp [b]
  rw [hrest] at rest
  simpa using rest

/-- What every BID does: the record leaves the intake, and no record but its position's changes. -/
theorem endRecord_applyBidTo {s : State} (hs : s.mapu.sweep = none) (p : Pos) (tag : CallTag) (role : BidRole)
    (q : Station) (own : Bool) :
    let t := (s.applyBidTo p tag role q own).endRecord
    t.mapu.intake = s.mapu.intake.tail ∧ t.mapu.roster = s.mapu.roster ∧
      t.mapu.map = (s.applyBidTo p tag role q own).mapu.map ∧
      (∀ x, x ≠ p → t.recAt x = s.recAt x) ∧
      t.recAt p = (s.recAt p).bidTaken q (bidOutcome (s.recAt p) q tag role s.mapu.mapTime) := by
  intro t
  have kept := unmapped_eq (applyBidTo_unmapped p tag role q own s)
  have ends : t.mapu = { (s.applyBidTo p tag role q own).mapu with
      intake := (s.applyBidTo p tag role q own).mapu.intake.tail } :=
    endRecord_mapu ((congrArg MapUnit.sweep kept :).trans hs)
  have map : t.mapu.map = (s.applyBidTo p tag role q own).mapu.map := (congrArg MapUnit.map ends :)
  refine ⟨(congrArg MapUnit.intake ends :).trans (congrArg List.tail (congrArg MapUnit.intake kept :)),
    (congrArg MapUnit.roster ends :).trans (congrArg MapUnit.roster kept :), map, fun x hx => ?_, ?_⟩
  · rw [recAt_of_map map, recAt_applyBidTo, if_neg hx]
  · rw [recAt_of_map map, recAt_applyBidTo, if_pos rfl]

/-- The BID of role that waits fits the record of its position (R137). -/
theorem bidOutcome_fits (r : PosRecord) (own : Station) (tag : CallTag) (role : BidRole) (stamp : FrameCount) :
    bidOutcome r own tag role stamp ≠ .stale ↔ r.call.map (fun k => k.tag) = some tag ∧
      match role with
      | .offer => (r.state = .offered ∧ r.inWindow stamp = true) ∨
          (r.state = .held ∧ r.inWindow stamp = true ∧ r.shadow = none ∧ r.names own = false)
      | .shadow => r.state = .held ∧ r.shadow = none ∧ r.names own = false
      | .take => r.state = .shedding ∧ r.shadow = none ∧ r.taker = none ∧ r.inWindow stamp = true ∧ r.names own = false
      | .orphan =>
        r.state = .orphaned ∧ r.shadow = none ∧ r.taker = none ∧ r.inWindow stamp = true ∧ r.names own = false := by
  have fits : ∀ o : BidOutcome, o ≠ .stale ↔ o = .primary ∨ o = .shadow ∨ o = .taker := fun o => by cases o <;> simp
  rw [fits, bidOutcome_primary, bidOutcome_shadow, bidOutcome_taker]
  cases role with
  | offer =>
    simp only [true_and, reduceCtorEq, false_and, or_false, and_false]
    tauto
  | shadow => simp only [reduceCtorEq, false_and, and_false, false_or, or_false, and_true]
  | take =>
    simp only [true_and, reduceCtorEq, false_and, or_false, and_false, false_or]
    tauto
  | orphan =>
    simp only [true_and, reduceCtorEq, false_and, and_false, false_or]
    tauto

/-- Settles O34: the application of a BID by its outcome, and the withdrawal of a BID that no longer fits. -/
theorem bidIsApplied : Obligations.BidIsApplied := by
  unfold Obligations.BidIsApplied
  intro fresh
  refine ⟨fun s r h q p tag role cost ht hh hq hn => ?_, fun s p hrest => ?_⟩
  · intro b old sameCall open_ primary shadow taker
    obtain ⟨btime, bintake, bsweep, bhwi, blife, brest⟩ := heard_reads ht q
    obtain ⟨tintake, troster, tmap, tother, there⟩ := endRecord_applyBidTo bsweep p tag role q h.own
    rw [btime] at there
    have isPrimary : bidOutcome old q tag role r.stamp = .primary ↔ primary := by
      rw [bidOutcome_primary, inWindow_iff]
    have isShadow : bidOutcome old q tag role r.stamp = .shadow ↔ shadow := by
      rw [bidOutcome_shadow, inWindow_iff]
    have isTaker : bidOutcome old q tag role r.stamp = .taker ↔ taker := by
      rw [bidOutcome_taker, inWindow_iff]
    have applied := applyBidTo_eq p tag role q h.own b
    rw [btime] at applied
    have fits : ∀ o, o ≠ .stale → bidOutcome old q tag role r.stamp = o →
        b.applyBidTo p tag role q h.own = b.bidFits p q o h.own := fun o hne ho => by
      rw [applied, if_neg (by rw [ho]; exact hne), ho]
    refine ⟨_, exec_applyBid ht hh hq hn, tintake.trans (by rw [bintake]), tother, troster, by simp, by simp,
      fun hp => ?_, fun hp => ?_, fun hp => ?_, fun hnp hns hnt => ?_, fun ho => ⟨?_, ?_⟩, fun c k ho ha hk hc hl => ?_,
      fun ho ha hf => ?_, fun k v hp ho hw hk hs hne hnm hv => ?_, fun d x hp ho ha hw hst hpr hx => ?_⟩
    · rw [there, isPrimary.2 hp]; rfl
    · rw [there, isShadow.2 hp]; rfl
    · rw [there, isTaker.2 hp]; rfl
    · have stale : bidOutcome old q tag role r.stamp = .stale := by
        cases ho : bidOutcome old q tag role r.stamp with
        | primary => exact absurd (isPrimary.1 ho) hnp
        | shadow => exact absurd (isShadow.1 ho) hns
        | taker => exact absurd (isTaker.1 ho) hnt
        | stale => rfl
      rw [if_pos stale] at applied
      obtain ⟨report, contexts, released, table⟩ := bidStale_reads p h.own b
      rw [tmap, applied]
      simp only [endRecord_blocks, bidStale_blocks]
      exact ⟨trivial, report, contexts, fun ho => by simpa [State.reservationFor] using released ho, table⟩
    · rw [endRecord_blocks .. |>.2.1, applied, ho]
      split
      · exact congrArg CtxTable.contexts ((bidStale_reads p false b).2.2.2 rfl)
      · exact bidFits_contexts ..
    · simp [b]
    · have alloc : ∀ o, o ≠ .stale → bidOutcome old q tag role r.stamp = o →
          (b.applyBidTo p tag role q h.own).endRecord.ctx c =
            some (Context.fresh (bidContext o).1 (bidContext o).2 p k s.life.settings.warmUp) := fun o hne hout => by
        rw [ctx_of_contexts (congrArg CtxTable.contexts (endRecord_blocks _).2.1), fits o hne hout, ho,
          ctx_bidFits_own p q (by rwa [blife]) hne hc hl hk, blife]
      exact ⟨fun hp => alloc .primary (by decide) (isPrimary.2 hp),
        fun hp => alloc .shadow (by decide) (isShadow.2 hp), fun hp => alloc .taker (by decide) (isTaker.2 hp)⟩
    · have used : ∀ o, o ≠ .stale → bidOutcome old q tag role r.stamp = o →
          (b.applyBidTo p tag role q h.own).endRecord.reservationFor p = none := fun o hne hout => by
        rw [State.reservationFor, endRecord_blocks .. |>.2.1, fits o hne hout, ho]
        exact reservationFor_bidFits_own p q (by rwa [blife]) hne
      rcases hf with hf | hf | hf
      · exact used .primary (by decide) (isPrimary.2 hf)
      · exact used .shadow (by decide) (isShadow.2 hf)
      · exact used .taker (by decide) (isTaker.2 hf)
    · intro keeps
      have outcome := fits .primary (by decide) (isPrimary.2 hp)
      obtain ⟨htag, -, hst, hopen⟩ := hp
      have own : b.own = s.own := congrArg Life.number blife
      rw [← own] at hne hnm
      have inOpen : old.inWindow b.mapu.mapTime = true := by rwa [btime, inWindow_iff]
      have room : (b.life.settings.shadowing = true ∧ b.load - v.cost + standbyCost k.mode ≤ b.budget) ↔ keeps := by
        rw [blife]
      rw [State.reservationFor, endRecord_blocks .. |>.2.1, endRecord_blocks .. |>.2.2.2.1, outcome, ho]
      refine ⟨fun hkeep => ?_, fun hkeep => ?_⟩
      · rw [bidFits_keeps hw hk hs hv htag hst inOpen hne hnm (room.2 hkeep)]
        exact ⟨rfl, rfl⟩
      · rw [bidFits_withdraws hw hk hs hv hst hne (mt room.1 hkeep) brest]
        have waits : b.waitingBid p ≠ none := by rw [hw]; simp
        obtain ⟨outbox, released, -⟩ :=
          withdrawBid_outside (s := b.putRec p ((b.recAt p).bidTaken q .primary)) (p := p) brest waits
        refine ⟨released, ?_⟩
        rw [outbox]
        exact List.filter_congr (fun e _ => by rw [not_isBidFor] <;> rfl)
    · have outcome := fits .taker (by decide) (isTaker.2 hp)
      obtain ⟨htag, -, htk, -⟩ := hp
      obtain ⟨k, hk, rfl⟩ := Option.map_eq_some_iff.1 htag
      rw [endRecord_blocks .. |>.2.2.2.1, outcome, ho]
      exact bidFits_shedder (by rwa [blife]) hw hst (by rw [hpr, State.own, State.own, blife]) htk hx hk
  · intro r open_ fits t
    have fitsRecord : ∀ tag role, bidOutcome r s.own tag role s.mapu.mapTime ≠ .stale ↔ fits tag role :=
      fun tag role => by
        rw [bidOutcome_fits, inWindow_iff] <;> cases role <;> rfl
    refine ⟨fun hw => ?_, fun tag role hw hf => ?_, fun tag role hw hf => ?_⟩
    · simp [t, State.withdrawUnfit, hw]
    · simp only [t, State.withdrawUnfit, hw]
      exact if_neg ((fitsRecord tag role).2 hf)
    · have withdraws : t = s.withdrawBid p := by
        simp only [t, State.withdrawUnfit, hw]
        exact if_pos (not_not.1 (mt (fitsRecord tag role).1 hf))
      obtain ⟨outbox, released, gone⟩ := withdrawBid_outside hrest (show s.waitingBid p ≠ none by rw [hw]; simp)
      rw [withdraws]
      refine ⟨released, gone, ?_⟩
      rw [outbox]
      exact List.filter_congr (fun e _ => by rw [not_isBidFor] <;> rfl)

end Sys2Proof.Proofs

/-! Proofs: the checks of a parcel (O47), and the parcels one station builds as another judges them (O48). -/

namespace Sys2Proof.Proofs

open Sys2Proof Sys2Proof.Machine Sys2Proof.Laws

/-! ### The header byte (11.2) -/

theorem kindField_eq (h : Byte) : (h.extractLsb' 6 2).toNat = h.toNat / 64 := by
  rw [BitVec.extractLsb'_toNat, Nat.shiftRight_eq_div_pow]
  omega

theorem modeField_eq (h : Byte) : (h.extractLsb' 4 2).toNat = h.toNat / 16 % 4 := by
  rw [BitVec.extractLsb'_toNat, Nat.shiftRight_eq_div_pow]

theorem rateField_eq (h : Byte) : (h.extractLsb' 2 2).toNat = h.toNat / 4 % 4 := by
  rw [BitVec.extractLsb'_toNat, Nat.shiftRight_eq_div_pow]

theorem parcelKindOfCode_kindCode (k : ParcelKind) : parcelKindOfCode (kindCode k) = some k := by
  cases k <;> rfl

/-- The kind field names a kind unless it is 3 (R24). -/
theorem exists_kindCode {n : Nat} (h : n < 4) (h3 : n ≠ 3) : ∃ k, kindCode k = n := by
  interval_cases n
  exacts [⟨.speech, rfl⟩, ⟨.sid, rfl⟩, ⟨.noData, rfl⟩, absurd rfl h3]

theorem kindCode_eq_zero (k : ParcelKind) : kindCode k = 0 ↔ k = .speech := by
  cases k <;> decide

/-- The payload length by the codes of the kind and the mode (R6, R19). -/
theorem payloadLength_eq (k : ParcelKind) (m : Mode) : payloadLength k m =
    if kindCode k = 0 then [15, 20, 25, 33].getD m.val 0 else if kindCode k = 1 then 5 else 0 := by
  cases k with
  | speech => revert m; decide
  | sid => rfl
  | noData => rfl

/-! ### The checks (R24) -/

/-- The mode of a header byte. -/
def modeOf (h : Byte) : Mode := Fin.ofNat 4 (h.extractLsb' 4 2).toNat

theorem modeOf_val (h : Byte) : (modeOf h).val = h.toNat / 16 % 4 := by
  simp only [modeOf, modeField_eq, Fin.val_ofNat, Nat.mod_mod]

/-- The checks after the marker and the header. -/
theorem judgeParcel_of_kind (modes : ModeSet) {nibbles : List Nibble} {k : ParcelKind}
    (hm : nibbles.take 4 = markerNibbles) (hk : kindCode k = (byteAt nibbles 2).toNat / 64) :
    let h := byteAt nibbles 2
    let len := payloadLength k (modeOf h)
    let payload := (List.range len).map (fun i => byteAt nibbles (4 + i))
    judgeParcel modes nibbles =
      if crc16 (h :: byteAt nibbles 3 :: payload) ≠
        (byteAt nibbles (4 + len)).append (byteAt nibbles (5 + len)) then .bad .crc
      else if k = .speech ∧ ModeSet.member modes (modeOf h) = false then .bad .mode
      else if h.getLsbD 1 then .bad .impaired
      else .good { kind := k, mode := modeOf h, payload := payload,
                   rateRequest := Fin.ofNat 4 (h.extractLsb' 2 2).toNat,
                   advance := (byteAt nibbles 3).extractLsb' 4 4 } := by
  have code : parcelKindOfCode ((byteAt nibbles 2).extractLsb' 6 2).toNat = some k := by
    rw [kindField_eq, ← hk, parcelKindOfCode_kindCode]
  simp only [judgeParcel, hm, code, ne_eq, not_true_eq_false, if_false]
  rfl

/-- The header is bad where its kind field is 3. -/
theorem judgeParcel_header (modes : ModeSet) {nibbles : List Nibble} (hm : nibbles.take 4 = markerNibbles)
    (hk : (byteAt nibbles 2).toNat / 64 = 3) : judgeParcel modes nibbles = .bad .header := by
  have code : parcelKindOfCode ((byteAt nibbles 2).extractLsb' 6 2).toNat = none := by
    rw [kindField_eq, hk]
    rfl
  simp only [judgeParcel, hm, code, ne_eq, not_true_eq_false, if_false]

/-- The bytes that the CRC covers: the header, byte 3 and the payload. -/
theorem covered_eq (byte : Nat → Byte) (len : Nat) :
    (List.range (2 + len)).map (fun i => byte (2 + i)) =
      byte 2 :: byte 3 :: (List.range len).map (fun i => byte (4 + i)) := by
  rw [List.range_add, List.map_append, List.map_map]
  exact congrArg (fun l => byte 2 :: byte 3 :: l)
    (List.map_congr_left (fun i _ => congrArg byte (Nat.add_assoc 2 2 i).symm))

/-- Settles O47: past the marker and the header the kind field names a kind, and the other checks are an if-chain over
the fields of the header. -/
theorem parcelChecks : Obligations.ParcelChecks := by
  intro modes nibbles byte kindField modeField len covered check markerBad headerBad crcBad modeBad impaired
  have field : kindField < 4 := Nat.div_lt_of_lt_mul (byte 2).isLt
  have checked : ¬markerBad → ¬headerBad → ∃ g : GoodParcel, judgeParcel modes nibbles =
        (if crcBad then .bad .crc else if modeBad then .bad .mode else if impaired then .bad .impaired else .good g) ∧
      g.mode.val = modeField ∧ g.rateRequest.val = (byte 2).toNat / 4 % 4 ∧ g.advance = (byte 3).extractLsb' 4 4 ∧
      g.payload = (List.range len).map (fun i => byte (4 + i)) := by
    intro hm hh
    obtain ⟨k, hk⟩ := exists_kindCode field hh
    have mode : (modeOf (byte 2)).val = modeField := modeOf_val _
    have length : payloadLength k (modeOf (byte 2)) = len := by rw [payloadLength_eq, mode, hk]
    have judged := judgeParcel_of_kind modes (not_not.1 hm) hk
    simp only [show byteAt nibbles = byte from rfl, length] at judged
    have crc : crc16 (byte 2 :: byte 3 :: (List.range len).map (fun i => byte (4 + i))) ≠
        (byte (4 + len)).append (byte (5 + len)) ↔ crcBad := by
      rw [← covered_eq]
    have speech : k = .speech ∧ ModeSet.member modes (modeOf (byte 2)) = false ↔ modeBad := by
      rw [← kindCode_eq_zero, hk, ModeSet.member, mode]
    refine ⟨_, judged.trans (by simp only [crc, speech]; rfl), mode, ?_, rfl, rfl⟩
    simp only [rateField_eq, Fin.val_ofNat, Nat.mod_mod]
  refine ⟨fun hm => if_pos hm, fun hm hh => judgeParcel_header modes (not_not.1 hm) hh, fun hm hh hc => ?_,
    fun hm hh hc hmode => ?_, fun hm hh hc hmode hi => ?_, fun hm hh hc hmode hi => ?_⟩ <;>
    obtain ⟨g, judged, fields⟩ := checked hm hh
  · rw [judged, if_pos hc]
  · rw [judged, if_neg hc, if_pos hmode]
  · rw [judged, if_neg hc, if_neg hmode, if_pos hi]
  · exact ⟨g, by rw [judged, if_neg hc, if_neg hmode, if_neg hi], fields⟩

/-! ### The parcel that is built, nibble by nibble (R56, R58, R176) -/

theorem extract_append_byte (b : Byte) : (b.extractLsb' 4 4).append (b.extractLsb' 0 4) = b :=
  BitVec.extractLsb'_append_extractLsb'_eq_extractLsb' (by decide) |>.trans (BitVec.extractLsb'_eq_self)

theorem extract_append_check (c : BitVec 16) : (c.extractLsb' 8 8).append (c.extractLsb' 0 8) = c :=
  BitVec.extractLsb'_append_extractLsb'_eq_extractLsb' (by decide) |>.trans (BitVec.extractLsb'_eq_self)

/-- The nibbles presented for 80 bytes spell those bytes. -/
theorem byteAt_nibbles (bytes : List Byte) {j : Nat} (h : j < 80) :
    byteAt ((List.range 160).map (parcelNibble bytes)) j = bytes.getD j 0xFF#8 := by
  have nibble : ∀ k < 160, ((List.range 160).map (parcelNibble bytes)).getD k 0#4 = parcelNibble bytes k :=
    fun k hk => by simp [List.getD_eq_getElem?_getD, hk]
  have high : parcelNibble bytes (2 * j) = (bytes.getD j 0xFF#8).extractLsb' 4 4 := by simp [parcelNibble]
  have low : parcelNibble bytes (2 * j + 1) = (bytes.getD j 0xFF#8).extractLsb' 0 4 := by
    simp [parcelNibble, Nat.mul_add_div]
  rw [byteAt, nibble _ (by omega), nibble _ (by omega), high, low, extract_append_byte]

/-- The header byte as a number. -/
theorem headerByte_toNat (k : ParcelKind) (m rate : Mode) (impaired filler : Bool) :
    (headerByte k m rate impaired filler).toNat =
      64 * kindCode k + 16 * m.val + 4 * rate.val + 2 * impaired.toNat + filler.toNat := by
  cases k <;> revert m rate impaired filler <;> decide

section
variable (k : ParcelKind) (m rate : Mode) (impaired filler : Bool)

theorem headerByte_kind : kindCode k = (headerByte k m rate impaired filler).toNat / 64 := by
  have := impaired.toNat_lt
  have := filler.toNat_lt
  rw [headerByte_toNat]
  omega

theorem headerByte_mode : modeOf (headerByte k m rate impaired filler) = m := by
  have := impaired.toNat_lt
  have := filler.toNat_lt
  refine Fin.ext ?_
  rw [modeOf_val, headerByte_toNat]
  omega

theorem headerByte_rate : Fin.ofNat 4 ((headerByte k m rate impaired filler).extractLsb' 2 2).toNat = rate := by
  have := impaired.toNat_lt
  have := filler.toNat_lt
  refine Fin.ext ?_
  rw [rateField_eq, headerByte_toNat, Fin.val_ofNat]
  omega

theorem headerByte_impaired : (headerByte k m rate impaired filler).getLsbD 1 = impaired := by
  have := filler.toNat_lt
  rw [BitVec.getLsbD, Nat.testBit_eq_decide_div_mod_eq, headerByte_toNat]
  cases impaired with
  | true => exact decide_eq_true (by simp only [Bool.toNat_true]; omega)
  | false => exact decide_eq_false (by simp only [Bool.toNat_false]; omega)

variable (payload : List Byte)

/-- The bytes in their order. -/
theorem buildParcel_eq :
    let covered := headerByte k m rate impaired filler :: 0x00#8 :: payload
    buildParcel k m rate impaired filler payload =
      0xA5#8 :: 0x3C#8 :: headerByte k m rate impaired filler :: 0x00#8 :: (payload ++
        ((crc16 covered).extractLsb' 8 8 :: (crc16 covered).extractLsb' 0 8 ::
          List.replicate (74 - payload.length) 0xFF#8)) := by
  simp [buildParcel]

theorem buildParcel_length (h : payload.length ≤ 74) : (buildParcel k m rate impaired filler payload).length = 80 := by
  rw [buildParcel_eq]
  simp
  omega

end

theorem payloadLength_le (k : ParcelKind) (m : Mode) : payloadLength k m ≤ 33 := by
  cases k with
  | speech => revert m; decide
  | sid => exact (by decide : 5 ≤ 33)
  | noData => exact Nat.zero_le 33

section
variable {h b hi lo : Byte} {payload pad bytes : List Byte}
  (hb : bytes = 0xA5#8 :: 0x3C#8 :: h :: b :: (payload ++ (hi :: lo :: pad))) (hl : payload.length ≤ 74)
include hb

theorem nibbles_marker : ((List.range 160).map (parcelNibble bytes)).take 4 = markerNibbles := by
  rw [← List.map_take, List.take_range, hb, show List.range (min 4 160) = [0, 1, 2, 3] from rfl]
  simp [parcelNibble, markerNibbles]

theorem byteAt_header : byteAt ((List.range 160).map (parcelNibble bytes)) 2 = h ∧
    byteAt ((List.range 160).map (parcelNibble bytes)) 3 = b := by
  rw [byteAt_nibbles _ (by decide), byteAt_nibbles _ (by decide), hb]
  exact ⟨rfl, rfl⟩

include hl

theorem byteAt_payload : (List.range payload.length).map
    (fun i => byteAt ((List.range 160).map (parcelNibble bytes)) (4 + i)) = payload := by
  refine List.ext_getElem (by simp) (fun i _ hlt => ?_)
  rw [List.getElem_map, List.getElem_range, byteAt_nibbles _ (by omega), hb, Nat.add_comm]
  simp [List.getElem?_append_left hlt, hlt]

theorem byteAt_check : byteAt ((List.range 160).map (parcelNibble bytes)) (4 + payload.length) = hi ∧
    byteAt ((List.range 160).map (parcelNibble bytes)) (5 + payload.length) = lo := by
  rw [byteAt_nibbles _ (by omega), byteAt_nibbles _ (by omega), hb, Nat.add_comm 4, Nat.add_comm 5]
  simp

end

/-- Settles O48: the fields that the receiver reads are those that were built, and so is the CRC over them. -/
theorem parcelsRoundTrip : Obligations.ParcelsRoundTrip := by
  intro k m rate impaired filler payload modes hlen hmode bytes
  have short : payload.length ≤ 74 := by have := payloadLength_le k m; omega
  refine ⟨buildParcel_length _ _ _ _ _ _ short, ?_⟩
  have built : bytes = _ := buildParcel_eq k m rate impaired filler payload
  obtain ⟨header, byte3⟩ := byteAt_header built
  obtain ⟨high, low⟩ := byteAt_check built short
  have kind : kindCode k = (byteAt ((List.range 160).map (parcelNibble bytes)) 2).toNat / 64 := by
    rw [header]
    exact headerByte_kind ..
  have admitted : ¬(k = .speech ∧ ModeSet.member modes m = false) := fun ⟨hk, hm⟩ => by
    rw [hmode hk] at hm
    cases hm
  rw [judgeParcel_of_kind modes (nibbles_marker built) kind]
  simp only [header, headerByte_mode, byte3, ← hlen, byteAt_payload built short, high, low, extract_append_check,
    headerByte_impaired, headerByte_rate, ne_eq, not_true_eq_false, if_false, admitted]
  rfl

end Sys2Proof.Proofs

/-! Proofs: what a frame event brings to a context (O14). -/

namespace Sys2Proof.Proofs

open Sys2Proof Sys2Proof.Machine Sys2Proof.Laws

/-! ### The nibble of a frame (R19 to R22) -/

/-- A block index is k frames after a marker phase exactly where it is that far from it around the block (R22). -/
theorem eq_plus_iff (b ph : BlockIndex) {k : Nat} (hk : k < 160) :
    b = BlockIndex.plus ph k ↔ (b.val + 160 - ph.val) % 160 = k := by
  rw [Fin.ext_iff, BlockIndex.plus, Fin.val_ofNat]
  omega

/-- The marker phase is three frames before the nibble that ends the marker (R20). -/
theorem plus_three_back (b : BlockIndex) : ((BlockIndex.plus b 157).val + 3) % 160 = b.val := by
  rw [BlockIndex.plus, Fin.val_ofNat]
  omega

section
variable {x : Context} (b : BlockIndex) (n : Nibble)

theorem takeNibble_hunt_on (hr : x.rxState = .hunt) (hw : lastFour (x.markerWindow ++ [n]) ≠ markerNibbles) :
    Context.takeNibble b n x = { x with markerWindow := lastFour (x.markerWindow ++ [n]) } := by
  simp only [Context.takeNibble, hr, hw, if_true, if_false]

theorem takeNibble_marker (hr : x.rxState = .hunt) (hw : lastFour (x.markerWindow ++ [n]) = markerNibbles) :
    Context.takeNibble b n x = { x with
      markerWindow := lastFour (x.markerWindow ++ [n]), rxState := .confirm, markerPhase := BlockIndex.plus b 157,
      collected := markerNibbles } := by
  simp only [Context.takeNibble, hr, hw, if_true]

theorem takeNibble_collects (hr : x.rxState ≠ .hunt) :
    let k := (b.val + 160 - x.markerPhase.val) % 160
    Context.takeNibble b n x = { x with
      markerWindow := lastFour (x.markerWindow ++ [n])
      collected := if k = 0 then [n] else x.collected ++ [n]
      due := { x.due with judgement := decide (k = 3), completion := decide (k = 159) } } := by
  have start : b = x.markerPhase ↔ (b.val + 160 - x.markerPhase.val) % 160 = 0 := by
    rw [Fin.ext_iff]
    omega
  simp only [Context.takeNibble, hr, if_false, start, eq_plus_iff b x.markerPhase (show 3 < 160 by decide),
    eq_plus_iff b x.markerPhase (show 159 < 160 by decide)]

@[simp] theorem takeNibble_sampleBlock (x : Context) : (Context.takeNibble b n x).sampleBlock = x.sampleBlock := by
  unfold Context.takeNibble
  dsimp only
  (repeat' split) <;> rfl

end

/-! ### The sample and the nibble presented (R31, R54, R58) -/

section
variable {x : Context}

theorem presentSample_silent (hp : x.playState ≠ .running) :
    Context.presentSample x = { x with presentedSample := some (silenceCode x.law) } := by
  unfold Context.presentSample
  cases h : x.playState with
  | priming => rfl
  | starting => rfl
  | running => exact absurd h hp

theorem presentSample_next {v : Sample} {rest : List Sample} (hp : x.playState = .running)
    (hv : x.playout = v :: rest) :
    Context.presentSample x = { x with presentedSample := some v, playout := rest,
                                       due := { x.due with need := decide (rest.length = 80) } } := by
  simp only [Context.presentSample, hp, hv]

theorem presentNibble_none (he : x.emitting = none) :
    Context.presentNibble x = { x with presentedNibble := some 0xF#4 } := by
  simp only [Context.presentNibble, he]

theorem presentNibble_some {em : Emitting} (he : x.emitting = some em) :
    Context.presentNibble x = { x with
      presentedNibble := some em.nibble
      emitting := if em.sent < 159 then some { em with sent := em.sent + 1 } else none } := by
  simp only [Context.presentNibble, he, ← not_lt, ite_not]

end

theorem nibble_marker {em : Emitting} (hs : em.sent < 4) : em.nibble = markerNibbles.getD em.sent 0xF#4 := if_pos hs

/-- Once the content is fixed the nibble is the content's, whose first two bytes are the marker. -/
theorem nibble_content {em : Emitting} {bytes : List Byte} (hc : em.content = some bytes)
    (hm : bytes.take 2 = [0xA5#8, 0x3C#8]) : em.nibble = parcelNibble bytes em.sent := by
  rcases Nat.lt_or_ge em.sent 4 with hs | hs
  · obtain ⟨rest, rfl⟩ : ∃ rest, bytes = 0xA5#8 :: 0x3C#8 :: rest :=
      ⟨bytes.drop 2, by rw [← List.take_append_drop 2 bytes, hm]; rfl⟩
    rw [nibble_marker hs]
    interval_cases em.sent <;> simp [parcelNibble, markerNibbles]
  · simp only [Emitting.nibble, if_neg (not_lt.2 hs), hc]

/-- Settles O14: the nibble by the state of the receiver, the sample by the state of the playout, the nibble presented
by the emitting entry. -/
theorem frameStepOfAContext : Obligations.FrameStepOfAContext := by
  refine ⟨?_, ?_, ?_⟩
  · intro b n x window k
    exact ⟨takeNibble_hunt_on b n, fun hr hw => ⟨BlockIndex.plus b 157, plus_three_back b, takeNibble_marker b n hr hw⟩,
      takeNibble_collects b n⟩
  · intro x
    refine ⟨presentSample_silent, fun v rest => presentSample_next, presentNibble_none, fun em he hc hs => ?_,
      fun em bytes he hc hm => ?_⟩
    · rw [presentNibble_some he, nibble_marker hs, if_pos (by omega)]
      rfl
    · rw [presentNibble_some he, nibble_content hc hm]
      rfl
  · intro b y x fresh taken held
    have block : taken.sampleBlock = x.sampleBlock := takeNibble_sampleBlock ..
    simp only [held, ← block]
    rfl

end Sys2Proof.Proofs

/-! Proofs: the context, the report and the engines as a step of a context leaves them, and the delivery of a result to
the inbound ring. -/

namespace Sys2Proof.Proofs

open Sys2Proof Sys2Proof.Machine Sys2Proof.Laws

/-! ### What a step of a context can change -/

theorem insert_insert {n : Nat} {α : Type} (t : Table n α) (k : Fin n) (v w : α) :
    Table.insert (Table.insert t k v) k w = Table.insert t k w := by
  induction t with
  | nil => simp [Table.insert]
  | cons e t ih =>
    obtain ⟨j, u⟩ := e
    by_cases hlt : k < j
    · simp [Table.insert, hlt]
    · by_cases hk : k = j
      · simp [Table.insert, hk]
      · simp [Table.insert, hlt, hk, ih]

/-- The state with another context c, report and engines: all that a step of context c changes, but for what it tells
the station. -/
def withCtxStep (c : CtxNum) (y : Context) (r : ReportUnit) (e : Engines) (s : State) : State :=
  ((s.putCtx c y).onReport (fun _ => r)).onEngines (fun _ => e)

/-- The report with an event of a context counted, while it drives (R26). -/
def drivenCounted (x : Context) (k : Counter) (r : ReportUnit) : ReportUnit := if x.drives then r.counted k else r

section
variable (c : CtxNum) (y z : Context) (r : ReportUnit) (e : Engines) (s : State)

@[simp] theorem withCtxStep_blocks : (withCtxStep c y r e s).hwi = s.hwi ∧ (withCtxStep c y r e s).engines = e ∧
    (withCtxStep c y r e s).notice = s.notice ∧ (withCtxStep c y r e s).mapu = s.mapu ∧
    (withCtxStep c y r e s).pool = s.pool ∧ (withCtxStep c y r e s).life = s.life ∧
    (withCtxStep c y r e s).report = r ∧ (withCtxStep c y r e s).released = s.released ∧
    (withCtxStep c y r e s).table.reservations = s.table.reservations :=
  ⟨rfl, rfl, rfl, rfl, rfl, rfl, rfl, rfl, rfl⟩

theorem ctx_withCtxStep (d : CtxNum) : (withCtxStep c y r e s).ctx d = if d = c then some y else s.ctx d :=
  ctx_putCtx ..

@[simp] theorem ctx_withCtxStep_self : (withCtxStep c y r e s).ctx c = some y := ctx_putCtx_self ..

theorem ctx_withCtxStep_ne {d : CtxNum} (hd : d ≠ c) : (withCtxStep c y r e s).ctx d = s.ctx d := by
  rw [ctx_withCtxStep, if_neg hd]

theorem putCtx_eq_withCtxStep : s.putCtx c y = withCtxStep c y s.report s.engines s := rfl

@[simp] theorem putCtx_withCtxStep : (withCtxStep c y r e s).putCtx c z = withCtxStep c z r e s := by
  simp only [withCtxStep, State.putCtx, State.onTable, State.onReport, State.onEngines, insert_insert]

@[simp] theorem modCtx_withCtxStep (f : Context → Context) :
    (withCtxStep c y r e s).modCtx c f = withCtxStep c (f y) r e s := by
  simp only [State.modCtx, ctx_withCtxStep_self, putCtx_withCtxStep]

@[simp] theorem countDriven_withCtxStep (k : Counter) :
    (withCtxStep c y r e s).countDriven c k = withCtxStep c y (drivenCounted y k r) e s := by
  simp only [State.countDriven, ctx_withCtxStep_self, drivenCounted]
  split <;> rfl

end

/-! ### Posting a job of the context (R66) -/

theorem takeUps_eq (s : State) : s.takeUps = s.onEngines (fun _ => s.takeUps.engines) := by
  have one : ∀ u : State, u.doJobTakeUp = u.onEngines (fun _ => u.doJobTakeUp.engines) := fun u => by
    unfold State.doJobTakeUp
    split <;> rfl
  unfold State.takeUps
  rw [one s.doJobTakeUp.doJobTakeUp.doJobTakeUp, one s.doJobTakeUp.doJobTakeUp, one s.doJobTakeUp, one s]
  rfl

/-- The take-ups before a posting look at the codec halves of the contexts only, which the step has not changed. -/
theorem postJob_withCtxStep {s : State} {c : CtxNum} {x y : Context} (h : s.ctx c = some x)
    (he : y.encoder = x.encoder) (hd : y.decoder = x.decoder) (r : ReportUnit) (j : Job) :
    (withCtxStep c y r s.engines s).postJob j = withCtxStep c y r (s.postJob j).engines s := by
  have half : y.halfFor = x.halfFor := by
    funext d
    cases d with
    | encode => exact he
    | decodeSide => exact hd
  have engines : (withCtxStep c y r s.engines s).takeUps.engines = s.takeUps.engines := by
    refine takeUps_engines_congr rfl rfl (fun d => ?_)
    rw [ctx_withCtxStep]
    split
    · rename_i hdc
      rw [hdc, h, Option.map_some, Option.map_some, half]
    · rfl
  rw [State.postJob, takeUps_eq, engines]
  rfl

/-! ### Delivery to the ring (R30, R32, R33, R40) -/

/-- The context once a result has been handed to its ring. -/
def deliveredCtx (now : FrameCount) (r : ParcelResult) (x : Context) : Context :=
  if x.ring.length < 3 then
    let joined := { x with
      ring := x.ring ++ [{ result := r, completed := now }]
      playState := if x.playState = .starting then .running else x.playState }
    if (x.playState = .priming ∧ x.ring = []) ∧ r.isGood = true then joined.servedGood else joined
  else Context.onCounters (fun k => { k with discarded := countUp k.discarded }) x

section
variable {now : FrameCount} {r : ParcelResult} {x : Context}

theorem deliveredCtx_joins (hl : x.ring.length < 3) :
    (deliveredCtx now r x).ring = x.ring ++ [{ result := r, completed := now }] ∧
      (deliveredCtx now r x).counters.discarded = x.counters.discarded ∧
      (deliveredCtx now r x).playState = if x.playState = .starting then .running else x.playState := by
  rw [deliveredCtx, if_pos hl]
  dsimp only
  split <;> exact ⟨rfl, rfl, rfl⟩

theorem deliveredCtx_discarded (hl : 3 ≤ x.ring.length) : deliveredCtx now r x =
    Context.onCounters (fun k => { k with discarded := countUp k.discarded }) x :=
  if_neg (not_lt.2 hl)

variable (now r x)

/-- What a delivery changes: the ring, the playout state, the count of the discarded, and needs without good. -/
theorem deliveredCtx_frame : let y := deliveredCtx now r x
    y = { x with
      ring := y.ring, playState := y.playState, needsWithoutGood := y.needsWithoutGood, streamLost := y.streamLost
      counters := { x.counters with discarded := y.counters.discarded } } := by
  unfold deliveredCtx
  dsimp only
  (repeat' split) <;> rfl

theorem deliveredCtx_served :
    ((x.playState = .priming ∧ x.ring = []) ∧ r.isGood = true →
      (deliveredCtx now r x).needsWithoutGood = 0 ∧ (deliveredCtx now r x).streamLost = false) ∧
    (¬((x.playState = .priming ∧ x.ring = []) ∧ r.isGood = true) →
      (deliveredCtx now r x).needsWithoutGood = x.needsWithoutGood ∧
        (deliveredCtx now r x).streamLost = x.streamLost) := by
  refine ⟨fun hf => ?_, fun hf => ?_⟩
  · have room : x.ring.length < 3 := by rw [hf.1.2]; decide
    rw [deliveredCtx, if_pos room, if_pos hf]
    exact ⟨rfl, rfl⟩
  · unfold deliveredCtx
    rw [if_neg hf]
    split <;> exact ⟨rfl, rfl⟩

end

/-- The report once a result has been handed to the ring: a result that a full ring discards is counted (R30). -/
def deliveredReport (x : Context) (rep : ReportUnit) : ReportUnit :=
  if x.ring.length < 3 then rep else drivenCounted x .ringDiscards rep

/-- The engines once a result has been handed to the ring: the first one in PRIMING is posted (R32). -/
def deliveredEngines (s : State) (c : CtxNum) (r : ParcelResult) (x : Context) : Engines :=
  if x.playState = .priming ∧ x.ring = [] then
    (s.postJob (x.decodeJob c (.decode r x.quietState x.concealLevel) s.hwi.frameCount)).engines
  else s.engines

section
variable {s : State} {c : CtxNum} {x y : Context} (h : s.ctx c = some x) (he : y.encoder = x.encoder)
  (hd : y.decoder = x.decoder) (rep : ReportUnit) (r : ParcelResult)
include h he hd

theorem postDecode_withCtxStep (z : Context) : (withCtxStep c y rep s.engines s).postDecode c z r =
    withCtxStep c (if r.isGood then y.servedGood else y) rep
      (s.postJob (z.decodeJob c (.decode r z.quietState z.concealLevel) s.hwi.frameCount)).engines s := by
  unfold State.postDecode
  dsimp only
  rw [show (withCtxStep c y rep s.engines s).hwi = s.hwi from rfl, postJob_withCtxStep h he hd, modCtx_withCtxStep]
  cases r.isGood <;> rfl

/-- The delivery to a context's ring, once the step has changed other fields of the context and has counted. -/
theorem deliver_withCtxStep :
    (withCtxStep c y rep s.engines s).deliver c r = withCtxStep c (deliveredCtx s.hwi.frameCount r y)
      (deliveredReport y rep) (deliveredEngines s c r y) s := by
  unfold deliveredReport deliveredEngines
  simp only [State.deliver, ctx_withCtxStep_self, withCtxStep_blocks, putCtx_withCtxStep]
  by_cases hl : y.ring.length < 3
  · rw [if_pos hl, if_pos hl, deliveredCtx, if_pos hl]
    dsimp only
    split
    · rename_i hp
      have stays : (if y.playState = .starting then .running else y.playState) = y.playState := if_neg (by simp [hp])
      simp only [stays]
      by_cases hr : y.ring = []
      · rw [if_pos hr, postDecode_withCtxStep h ?_ ?_]
        · simp only [hp, hr, and_self, true_and]
          rfl
        · exact he
        · exact hd
      · rw [if_neg hr, if_neg (fun hf => hr hf.1.2), if_neg (fun hf => hr hf.2)]
    · rename_i hp
      rw [if_pos hp, if_neg (by simp [hp]), if_neg (by simp [hp])]
    · rename_i hp
      rw [if_neg (by simp [hp]), if_neg (by simp [hp]), if_neg (by simp [hp])]
  · have notFirst : ¬(y.playState = .priming ∧ y.ring = []) := fun hf => hl (by rw [hf.2]; decide)
    rw [if_neg hl, if_neg hl, if_neg notFirst, deliveredCtx_discarded (not_lt.1 hl), State.countDiscarded,
      modCtx_withCtxStep, countDriven_withCtxStep]
    rfl

end

end Sys2Proof.Proofs

/-! Proofs: the marker judgement (O46) and the completion of a parcel (O49). -/

namespace Sys2Proof.Proofs

open Sys2Proof Sys2Proof.Machine Sys2Proof.Laws

/-! ### The marker judgement (R21, R22) -/

/-- The context once its marker judgement has been taken. -/
def judgedCtx (x : Context) : Context := { x with due := { x.due with judgement := false } }

/-- The context once its third miss has been counted. -/
def missedCtx (x : Context) : Context :=
  Context.onCounters (fun k => { k with bad := countUp k.bad }) (judgedCtx x).toHunt

/-- The report once the third miss of a context has been counted. -/
def missedReport (x : Context) (r : ReportUnit) : ReportUnit :=
  if x.drives then (r.counted .badParcels).counted .syncLosses else r

theorem drivenCounted_drivenCounted {x y : Context} (hd : y.drives = x.drives) (k l : Counter) (r : ReportUnit) :
    drivenCounted y k (drivenCounted x l r) = if x.drives then (r.counted l).counted k else r := by
  unfold drivenCounted
  rw [hd]
  split <;> rfl

section
variable {s : State} {c : CtxNum} {x : Context} (h : s.ctx c = some x) (hd : x.due.judgement = true)
include h hd

theorem doMarkerJudgement_eq : s.doMarkerJudgement c =
    if x.rxState = .hunt then s.putCtx c (judgedCtx x)
    else if x.rxState = .confirm then
      if x.collected.take 4 = markerNibbles then s.putCtx c { judgedCtx x with rxState := .synced, missCount := 0 }
      else (s.putCtx c (judgedCtx x).toHunt).countDriven c .falseMarkers
    else if x.collected.take 4 = markerNibbles then s.putCtx c { judgedCtx x with missCount := 0 }
    else if x.missCount < 2 then s.putCtx c { judgedCtx x with missCount := x.missCount + 1 }
    else (((s.putCtx c (judgedCtx x).toHunt).countBad c).countDriven c .syncLosses).deliver c (.bad .marker) := by
  simp only [State.doMarkerJudgement, h, hd, if_true, decide_eq_true_eq]
  split
  · rename_i hr
    rw [if_pos hr]
    rfl
  · rename_i hr
    have notHunt : x.rxState ≠ .hunt := by simp [hr]
    rw [if_neg notHunt, if_pos hr]
    rfl
  · rename_i hr
    have notHunt : x.rxState ≠ .hunt := by simp [hr]
    have notConfirm : x.rxState ≠ .confirm := by simp [hr]
    rw [if_neg notHunt, if_neg notConfirm]
    rfl

theorem judgement_hunt (hr : x.rxState = .hunt) :
    s.doMarkerJudgement c = withCtxStep c (judgedCtx x) s.report s.engines s := by
  rw [doMarkerJudgement_eq h hd, if_pos hr, putCtx_eq_withCtxStep]

theorem judgement_confirms (hr : x.rxState = .confirm) (hf : x.collected.take 4 = markerNibbles) :
    s.doMarkerJudgement c =
      withCtxStep c { judgedCtx x with rxState := .synced, missCount := 0 } s.report s.engines s := by
  have notHunt : x.rxState ≠ .hunt := by simp [hr]
  rw [doMarkerJudgement_eq h hd, if_neg notHunt, if_pos hr, if_pos hf, putCtx_eq_withCtxStep]

theorem judgement_refuses (hr : x.rxState = .confirm) (hf : x.collected.take 4 ≠ markerNibbles) :
    s.doMarkerJudgement c =
      withCtxStep c (judgedCtx x).toHunt (drivenCounted x .falseMarkers s.report) s.engines s := by
  have notHunt : x.rxState ≠ .hunt := by simp [hr]
  rw [doMarkerJudgement_eq h hd, if_neg notHunt, if_pos hr, if_neg hf, putCtx_eq_withCtxStep,
    countDriven_withCtxStep]
  rfl

theorem judgement_holds (hr : x.rxState = .synced) (hf : x.collected.take 4 = markerNibbles) :
    s.doMarkerJudgement c = withCtxStep c { judgedCtx x with missCount := 0 } s.report s.engines s := by
  have notHunt : x.rxState ≠ .hunt := by simp [hr]
  have notConfirm : x.rxState ≠ .confirm := by simp [hr]
  rw [doMarkerJudgement_eq h hd, if_neg notHunt, if_neg notConfirm, if_pos hf, putCtx_eq_withCtxStep]

theorem judgement_misses (hr : x.rxState = .synced) (hf : x.collected.take 4 ≠ markerNibbles) (hm : x.missCount < 2) :
    s.doMarkerJudgement c =
      withCtxStep c { judgedCtx x with missCount := x.missCount + 1 } s.report s.engines s := by
  have notHunt : x.rxState ≠ .hunt := by simp [hr]
  have notConfirm : x.rxState ≠ .confirm := by simp [hr]
  rw [doMarkerJudgement_eq h hd, if_neg notHunt, if_neg notConfirm, if_neg hf, if_pos hm,
    putCtx_eq_withCtxStep]

/-- The third miss: HUNT, a BAD parcel counted, a loss of synchronism, and the BAD result delivered at once. -/
theorem judgement_loses (hr : x.rxState = .synced) (hf : x.collected.take 4 ≠ markerNibbles) (hm : 2 ≤ x.missCount) :
    s.doMarkerJudgement c = withCtxStep c (deliveredCtx s.hwi.frameCount (.bad .marker) (missedCtx x))
      (deliveredReport x (missedReport x s.report)) (deliveredEngines s c (.bad .marker) (missedCtx x)) s := by
  have notHunt : x.rxState ≠ .hunt := by simp [hr]
  have notConfirm : x.rxState ≠ .confirm := by simp [hr]
  have counted : ((s.putCtx c (judgedCtx x).toHunt).countBad c).countDriven c .syncLosses =
      withCtxStep c (missedCtx x) (missedReport x s.report) s.engines s := by
    rw [putCtx_eq_withCtxStep, State.countBad, modCtx_withCtxStep, countDriven_withCtxStep, countDriven_withCtxStep,
      drivenCounted_drivenCounted rfl]
    rfl
  rw [doMarkerJudgement_eq h hd, if_neg notHunt, if_neg notConfirm, if_neg hf, if_neg (not_lt.2 hm), counted,
    deliver_withCtxStep h (y := missedCtx x) rfl rfl]
  rfl

/-- The judgement reaches the context, the report and the engines only. -/
theorem judgement_step : ∃ y r e, s.doMarkerJudgement c = withCtxStep c y r e s := by
  cases hr : x.rxState with
  | hunt => exact ⟨_, _, _, judgement_hunt h hd hr⟩
  | confirm =>
    by_cases hf : x.collected.take 4 = markerNibbles
    · exact ⟨_, _, _, judgement_confirms h hd hr hf⟩
    · exact ⟨_, _, _, judgement_refuses h hd hr hf⟩
  | synced =>
    by_cases hf : x.collected.take 4 = markerNibbles
    · exact ⟨_, _, _, judgement_holds h hd hr hf⟩
    · rcases Nat.lt_or_ge x.missCount 2 with hm | hm
      · exact ⟨_, _, _, judgement_misses h hd hr hf hm⟩
      · exact ⟨_, _, _, judgement_loses h hd hr hf hm⟩

end

/-- Settles O46: the receiver's state, the marker found or not and the misses before it decide the outcome; the third
miss ends in a delivery to the ring. -/
theorem markerIsJudged : Obligations.MarkerIsJudged := by
  intro s c x hheld h hd judged found missed
  have run : exec (.markerJudgement c) s = .next (s.doMarkerJudgement c) := next_live hheld
  obtain ⟨y, r, e, outcome⟩ := judgement_step h hd
  refine ⟨_, run, fun d hne => by rw [outcome, ctx_withCtxStep_ne _ _ _ _ _ hne], by simp, by simp, by simp, by simp,
    by simp, by simp, fun hr hf => ?_, fun hr hf => ?_, fun hr hf => ?_, fun hr hf hm => ?_, fun hr hf hm => ?_⟩
  · rw [judgement_confirms h hd hr hf]
    exact ⟨ctx_withCtxStep_self .., rfl, rfl⟩
  · rw [judgement_refuses h hd hr hf]
    exact ⟨ctx_withCtxStep_self .., rfl, rfl⟩
  · rw [judgement_holds h hd hr hf]
    exact ⟨ctx_withCtxStep_self .., rfl, rfl⟩
  · rw [judgement_misses h hd hr hf hm]
    exact ⟨ctx_withCtxStep_self .., rfl, rfl⟩
  · have kept {α : Type} (f : Context → α) :=
      congrArg f (deliveredCtx_frame s.hwi.frameCount (.bad .marker) (missedCtx x))
    rw [judgement_loses h hd hr hf hm]
    refine ⟨_, ctx_withCtxStep_self .., kept Context.rxState, kept Context.missCount,
      kept Context.collected, kept (fun y => y.counters.bad), fun hl => ?_, fun hl => ?_⟩
    · exact ⟨if_pos hl, (deliveredCtx_joins (x := missedCtx x) hl).1⟩
    · rw [deliveredCtx_discarded (x := missedCtx x) hl]
      refine ⟨rfl, rfl, (if_neg (not_lt.2 hl)).trans ?_⟩
      cases hdr : x.drives <;>
        simp only [drivenCounted, missedReport, missed, hdr, if_true, Bool.false_eq_true, if_false]

/-! ### The completion of a parcel (R24, R26 to R30) -/

/-- The context once its parcel's completion has been taken. -/
def completedCtx (x : Context) : Context := { x with due := { x.due with completion := false } }

/-- The context once the requests and the mode of a GOOD parcel have been taken (R27 to R29). -/
def requestedCtx (g : GoodParcel) (x : Context) : Context :=
  { x with
    pendingDownMode := if ModeSet.member x.modeSet g.rateRequest then
        (if g.rateRequest = x.downMode then none else some g.rateRequest) else x.pendingDownMode
    pendingShift := g.advance
    upMode := if g.kind = .speech then g.mode else x.upMode }

/-- The context once a GOOD parcel has been counted as well. -/
def goodCtx (g : GoodParcel) (x : Context) : Context :=
  requestedCtx g (Context.onCounters (fun k => { k with good := countUp k.good }) (completedCtx x))

/-- The report once a GOOD parcel, and a rate request that is refused, have been counted (R26, R27). -/
def goodReport (g : GoodParcel) (x : Context) (r : ReportUnit) : ReportUnit :=
  if ModeSet.member x.modeSet g.rateRequest then drivenCounted x .goodParcels r
  else drivenCounted x .rateRequestsRefused (drivenCounted x .goodParcels r)

/-- The context once a BAD parcel has been counted. -/
def badCtx (x : Context) : Context := Context.onCounters (fun k => { k with bad := countUp k.bad }) (completedCtx x)

theorem goodEffects_withCtxStep (c : CtxNum) (y : Context) (r : ReportUnit) (e : Engines) (s : State) (g : GoodParcel) :
    (withCtxStep c y r e s).goodEffects c g = withCtxStep c (requestedCtx g y)
      (if ModeSet.member y.modeSet g.rateRequest then r else drivenCounted y .rateRequestsRefused r) e s := by
  by_cases hm : ModeSet.member y.modeSet g.rateRequest = true
  · have taken : y.rateRequested g.rateRequest =
        some { y with pendingDownMode := if g.rateRequest = y.downMode then none else some g.rateRequest } := if_pos hm
    simp only [State.goodEffects, ctx_withCtxStep_self, taken, putCtx_withCtxStep, modCtx_withCtxStep,
      requestedCtx, if_pos hm]
  · have refused : y.rateRequested g.rateRequest = none := if_neg hm
    simp only [State.goodEffects, ctx_withCtxStep_self, refused, countDriven_withCtxStep, modCtx_withCtxStep,
      requestedCtx, if_neg hm]

theorem countGood_goodEffects (c : CtxNum) (x : Context) (s : State) (g : GoodParcel) :
    ((s.putCtx c (completedCtx x)).countGood c).goodEffects c g =
      withCtxStep c (goodCtx g x) (goodReport g x s.report) s.engines s := by
  rw [putCtx_eq_withCtxStep, State.countGood, modCtx_withCtxStep, countDriven_withCtxStep, goodEffects_withCtxStep]
  rfl

section
variable {s : State} {c : CtxNum} {x : Context} (h : s.ctx c = some x)
variable (hd : x.due.completion = true) (hr : x.rxState ≠ .hunt)
include h hd hr

theorem completion_good {g : GoodParcel} (hj : judgeParcel x.modeSet x.collected = .good g) :
    s.doParcelCompletion c =
      withCtxStep c (deliveredCtx s.hwi.frameCount (.good g.kind g.mode g.payload) (goodCtx g x))
        (deliveredReport x (goodReport g x s.report))
        (deliveredEngines s c (.good g.kind g.mode g.payload) (goodCtx g x)) s := by
  simp only [State.doParcelCompletion, h, hd, if_true, if_neg hr, hj, State.completeGood]
  exact (congrArg (State.deliver c _) (countGood_goodEffects c x s g)).trans
    (deliver_withCtxStep h (y := goodCtx g x) rfl rfl _ _)

theorem completion_bad {reason : BadReason} (hj : judgeParcel x.modeSet x.collected = .bad reason) :
    s.doParcelCompletion c =
      if x.rxState = .synced then
        withCtxStep c (deliveredCtx s.hwi.frameCount (.bad reason) (badCtx x))
          (deliveredReport x (drivenCounted x .badParcels s.report)) (deliveredEngines s c (.bad reason) (badCtx x)) s
      else withCtxStep c (badCtx x) (drivenCounted x .badParcels s.report) s.engines s := by
  have counted : (s.putCtx c (completedCtx x)).countBad c =
      withCtxStep c (badCtx x) (drivenCounted x .badParcels s.report) s.engines s := by
    rw [putCtx_eq_withCtxStep, State.countBad, modCtx_withCtxStep, countDriven_withCtxStep]
    rfl
  simp only [State.doParcelCompletion, h, hd, if_true, if_neg hr, hj]
  by_cases hs : x.rxState = .synced
  · rw [if_pos hs, if_pos hs]
    exact (congrArg (State.deliver c _) counted).trans (deliver_withCtxStep h (y := badCtx x) rfl rfl _ _)
  · rw [if_neg hs, if_neg hs]
    exact counted

end

/-- What O49 says of a delivery that brings context x to y and state s to t. -/
def Delivered (s t : State) (c : CtxNum) (x y : Context) (r : ParcelResult) : Prop :=
  let job : Job :=
    { ctx := c, dir := .decodeSide, kind := .decode r x.quietState x.concealLevel,
      deadline := s.hwi.frameCount + 70, service := y.cost, cls := if x.drives then .primary else .standby }
  (x.ring.length < 3 →
    y.ring = x.ring ++ [{ result := r, completed := s.hwi.frameCount }] ∧
      y.counters.discarded = x.counters.discarded ∧
      y.playState = if x.playState = .starting then .running else x.playState) ∧
    (3 ≤ x.ring.length → y.ring = x.ring ∧ y.counters.discarded = countUp x.counters.discarded ∧
      y.playState = x.playState) ∧
    (x.playState = .priming ∧ x.ring = [] → t.engines =
      { s.takeUps.engines with queue := insertJob s.hwi.frameCount job s.takeUps.engines.queue }) ∧
    (¬(x.playState = .priming ∧ x.ring = []) → t.engines = s.engines)

theorem delivered_deliveredCtx (s : State) (c : CtxNum) (r : ParcelResult) (x : Context) (rep : ReportUnit) :
    Delivered s (withCtxStep c (deliveredCtx s.hwi.frameCount r x) rep (deliveredEngines s c r x) s) c x
      (deliveredCtx s.hwi.frameCount r x) r := by
  have kept {α : Type} (f : Context → α) := congrArg f (deliveredCtx_frame s.hwi.frameCount r x)
  have cost : (deliveredCtx s.hwi.frameCount r x).cost = x.cost := kept Context.cost
  refine ⟨deliveredCtx_joins, fun hl => ?_, fun hf => ?_, fun hf => if_neg hf⟩
  · rw [deliveredCtx_discarded hl]
    exact ⟨rfl, rfl, rfl⟩
  · rw [cost]
    exact (if_pos hf).trans (postJob_engines _ _)

/-- Settles O49: a GOOD parcel is counted, its requests are taken and it is delivered; a BAD one is counted, and in
SYNCED delivered. -/
theorem parcelCompletes : Obligations.ParcelCompletes := by
  unfold Obligations.ParcelCompletes
  intro counts first delivered
  constructor
  · intro s c x g hheld h hd hr hj member requested
    have run : exec (.parcelCompletion c) s = .next (s.doParcelCompletion c) := next_live hheld
    have kept {α : Type} (f : Context → α) :=
      congrArg f (deliveredCtx_frame s.hwi.frameCount (.good g.kind g.mode g.payload) (goodCtx g x))
    have pending := kept Context.pendingDownMode
    obtain ⟨served, unserved⟩ := deliveredCtx_served s.hwi.frameCount (.good g.kind g.mode g.payload) (goodCtx g x)
    rw [run, completion_good h hd hr hj]
    exact ⟨_, _, rfl, ctx_withCtxStep_self .., fun d => ctx_withCtxStep_ne _ _ _ _ _, rfl, rfl, rfl, rfl, rfl, rfl,
      kept (fun y => y.counters.good), kept Context.pendingShift,
      kept (fun y => y.due.completion), kept Context.upMode, fun hm => pending.trans (if_pos hm),
      fun hm => pending.trans (if_neg (ne_true_of_eq_false hm)), delivered_deliveredCtx s c _ (goodCtx g x) _,
      fun hf => served ⟨hf, rfl⟩, fun hf => unserved (fun hg => hf hg.1), rfl, kept Context.rxState,
      kept Context.state, kept Context.phase, kept Context.playout,
      kept Context.downMode⟩
  · intro s c x reason hheld h hd hr hj bad
    have run : exec (.parcelCompletion c) s = .next (s.doParcelCompletion c) := next_live hheld
    rw [run, completion_bad h hd hr hj]
    by_cases hs : x.rxState = .synced
    · have kept {α : Type} (f : Context → α) :=
        congrArg f (deliveredCtx_frame s.hwi.frameCount (.bad reason) (badCtx x))
      obtain ⟨-, unserved⟩ := deliveredCtx_served s.hwi.frameCount (.bad reason) (badCtx x)
      obtain ⟨needs, lost⟩ := unserved (fun hg => by cases hg.2)
      rw [if_pos hs]
      exact ⟨_, _, rfl, ctx_withCtxStep_self .., fun d => ctx_withCtxStep_ne _ _ _ _ _, rfl, rfl, rfl, rfl, rfl, rfl,
        kept (fun y => y.counters.bad), kept (fun y => y.counters.good),
        kept Context.pendingShift, kept Context.upMode, kept Context.pendingDownMode, needs,
        lost, fun hc => absurd (hc.symm.trans hs) (by decide),
        fun _ => ⟨delivered_deliveredCtx s c _ (badCtx x) _, rfl⟩, kept Context.rxState⟩
    · rw [if_neg hs]
      exact ⟨_, _, rfl, ctx_withCtxStep_self .., fun d => ctx_withCtxStep_ne _ _ _ _ _, rfl, rfl, rfl, rfl, rfl, rfl,
        rfl, rfl, rfl, rfl, rfl, rfl, rfl, fun _ => ⟨rfl, rfl, rfl, rfl, rfl⟩, fun hc => absurd hc hs, rfl⟩

end Sys2Proof.Proofs

/-! Proofs: the need of a playout buffer (O50). -/

namespace Sys2Proof.Proofs

open Sys2Proof Sys2Proof.Machine Sys2Proof.Laws

/-! ### The contexts and the engines do not matter to the outbox and the report -/

theorem departed_onEngines (n : Notice) (f : Engines → Engines) (s : State) :
    (s.onEngines f).departed n = (s.departed n).onEngines f := by
  cases n with
  | bid =>
    simp only [State.departed]
    rw [apply_ite (State.onEngines f)]
    rfl
  | shed =>
    simp only [State.departed]
    rw [apply_ite (State.onEngines f)]
    rfl
  | taken | lost | clear | offer | hold | present | query | report => rfl

theorem place_onEngines (n : Notice) (f : Engines → Engines) (s : State) :
    (s.onEngines f).place n = (s.place n).onEngines f := by
  unfold State.place
  rw [onEngines_notice]
  split
  · rfl
  · split
    · rfl
    · split
      · rfl
      · split
        · rfl
        · rw [apply_ite (State.onEngines f)]
          congr 1
          · exact departed_onEngines _ f (((s.onNotice (fun k =>
              { k with outbox := k.outbox.dropLast })).joinOutbox n).count .outboxDrops)
          · exact departed_onEngines _ f (s.count .outboxDrops)

theorem raiseFlag_onEngines (g : FaultFlag) (f : Engines → Engines) (s : State) :
    (s.onEngines f).raiseFlag g = (s.raiseFlag g).onEngines f := by
  unfold State.raiseFlag
  rw [onEngines_report]
  split
  · rfl
  · simp only
    rw [apply_ite (State.onEngines f)]
    congr 1
    exact place_onEngines _ f (s.onReport (fun r => r.withFlag g))

theorem withCtxStep_eq (c : CtxNum) (y : Context) (r : ReportUnit) (e : Engines) (s : State) :
    withCtxStep c y r e s = (withContexts (Table.insert s.table.contexts c y)
      (s.onReport (fun _ => r))).onEngines (fun _ => e) := rfl

/-- What a flag and a REPORT bring to the outbox and the report depends on neither the context nor the engines. -/
theorem told_withCtxStep (c : CtxNum) (y : Context) (r : ReportUnit) (e : Engines) (s : State) (f : FaultFlag)
    (n : Notice) :
    let told := ((s.onReport (fun _ => r)).raiseFlag f).place n
    (((withCtxStep c y r e s).raiseFlag f).place n).report = told.report ∧
      (((withCtxStep c y r e s).raiseFlag f).place n).notice = told.notice ∧
      ∀ d, (((withCtxStep c y r e s).raiseFlag f).place n).ctx d = (withCtxStep c y r e s).ctx d := by
  intro told
  have apart : ((withCtxStep c y r e s).raiseFlag f).place n =
      (withContexts (Table.insert s.table.contexts c y) told).onEngines (fun _ => e) := by
    rw [withCtxStep_eq, raiseFlag_onEngines, place_onEngines, raiseFlag_withContexts, place_withContexts]
  exact ⟨by rw [apart]; rfl, by rw [apart]; rfl, fun d => ctx_of_contexts (by simp) d⟩

/-! ### The ring and the job of a need (R34) -/

/-- The context once a need has taken its mark and a full ring its oldest entry. -/
def trimmedCtx (x : Context) : Context :=
  { x with
    due := { x.due with need := false }
    ring := if x.ring.length = 3 then x.ring.tail else x.ring
    counters := { x.counters with
      trimmed := if x.ring.length = 3 then countUp x.counters.trimmed else x.counters.trimmed } }

/-- The report once the entry that a full ring loses has been counted. -/
def trimmedReport (x : Context) (r : ReportUnit) : ReportUnit :=
  if x.ring.length = 3 then drivenCounted x .trims r else r

theorem trimRing_eq (c : CtxNum) (x : Context) (s : State) :
    (s.putCtx c { x with due := { x.due with need := false } }).trimRing c =
      withCtxStep c (trimmedCtx x) (trimmedReport x s.report) s.engines s := by
  rw [putCtx_eq_withCtxStep, State.trimRing, ctx_withCtxStep_self]
  dsimp only
  unfold trimmedReport trimmedCtx
  by_cases hl : x.ring.length = 3
  · simp only [if_pos hl, putCtx_withCtxStep, State.countTrimmed, modCtx_withCtxStep, countDriven_withCtxStep]
    rfl
  · simp only [if_neg hl]

/-- The kind of the job that a need posts. -/
def needKind (x : Context) : JobKind :=
  match x.ring with
  | e :: _ => .decode e.result x.quietState x.concealLevel
  | [] => if x.quietState = .speech then .conceal x.concealLevel else .comfortNoise

theorem needKind_cons {x : Context} {e : RingEntry} {rest : List RingEntry} (h : x.ring = e :: rest) :
    needKind x = .decode e.result x.quietState x.concealLevel := by
  rw [needKind, h]

theorem needKind_nil {x : Context} (h : x.ring = []) :
    needKind x = if x.quietState = .speech then .conceal x.concealLevel else .comfortNoise := by
  rw [needKind, h]

/-- The need is served from a GOOD entry. -/
def servesGood (x : Context) : Bool := x.ring.head?.any (fun e => e.result.isGood)

theorem servesGood_iff (x : Context) : servesGood x = true ↔
    ∃ e k m payload, x.ring.head? = some e ∧ e.result = .good k m payload := by
  have good : ∀ r : ParcelResult, r.isGood = true ↔ ∃ k m payload, r = .good k m payload := by
    rintro (_ | ⟨k, m, payload⟩) <;> simp [ParcelResult.isGood]
  simp only [servesGood, Option.any_eq_true, good]
  simp

/-- The job of a need, and after it needs without good (R34, R40). -/
theorem postNeed_withCtxStep {s : State} {c : CtxNum} {x y : Context} (h : s.ctx c = some x)
    (he : y.encoder = x.encoder) (hd : y.decoder = x.decoder) (r : ReportUnit) :
    let posted := (s.postJob (y.decodeJob c (needKind y) s.hwi.frameCount)).engines
    (withCtxStep c y r s.engines s).postNeed c =
      if servesGood y = true then withCtxStep c y.servedGood r posted s
      else (withCtxStep c y r posted s).bumpNeeds c := by
  simp only [State.postNeed, ctx_withCtxStep_self]
  split
  · rename_i e rest hr
    have serves : servesGood y = e.result.isGood := by rw [servesGood, hr]; rfl
    rw [needKind_cons hr, serves, postDecode_withCtxStep h he hd]
    cases e.result.isGood <;> rfl
  · rename_i hr
    have serves : servesGood y = false := by rw [servesGood, hr]; rfl
    rw [needKind_nil hr, serves, postJob_withCtxStep h he hd]
    cases y.quietState <;> rfl

theorem doNeed_eq {s : State} {c : CtxNum} {x : Context} (h : s.ctx c = some x) (hd : x.due.need = true) :
    let y := trimmedCtx x
    let posted := (s.postJob (y.decodeJob c (needKind y) s.hwi.frameCount)).engines
    s.doNeed c =
      if servesGood y = true then withCtxStep c y.servedGood (trimmedReport x s.report) posted s
      else (withCtxStep c y (trimmedReport x s.report) posted s).bumpNeeds c := by
  simp only [State.doNeed, h, hd, if_true]
  rw [trimRing_eq]
  exact postNeed_withCtxStep h (y := trimmedCtx x) rfl rfl _

theorem countTrims_eq (x : Context) (s : State) :
    (if x.ring.length = 3 ∧ x.drives = true then s.count .trims else s) =
      s.onReport (fun _ => trimmedReport x s.report) := by
  unfold trimmedReport drivenCounted
  by_cases hl : x.ring.length = 3
  · simp only [hl, true_and, if_true]
    cases x.drives <;> rfl
  · simp only [hl, false_and, if_false]
    rfl

/-- The flag of the episode after a need that is not served from a GOOD entry (R41). -/
theorem bumpedCtx_streamLost (limit : Nat) (x : Context) :
    let begins := x.state = .primary ∧ limit ≤ min (x.needsWithoutGood + 1) 65535 ∧ x.streamLost = false
    (begins → (bumpedCtx limit x).streamLost = true) ∧ (¬begins → (bumpedCtx limit x).streamLost = x.streamLost) := by
  unfold bumpedCtx
  refine ⟨fun ⟨hst, hn, _⟩ => ?_, fun hb => ?_⟩
  · exact Bool.or_eq_true_iff.2 (Or.inr (decide_eq_true ⟨hst, hn⟩))
  · cases hl : x.streamLost with
    | true => rfl
    | false => exact decide_eq_false (fun ⟨hst, hn⟩ => hb ⟨hst, hn, hl⟩)

/-- Settles O50: the trim, the job of the ring that is left, and needs without good, with the episode that begins. -/
theorem needPostsAJob : Obligations.NeedPostsAJob := by
  intro s c x hheld h hd ring kind good job n lost trimmed told
  have run : exec (.need c) s = .next (s.doNeed c) := next_live hheld
  let y := trimmedCtx x
  have kind_eq : needKind y = kind := by
    cases hr : ring with
    | nil => rw [needKind_nil (x := y) hr]; simp only [kind, hr]; rfl
    | cons e rest => rw [needKind_cons (x := y) hr]; simp only [kind, hr]; rfl
  let engines := { s.takeUps.engines with queue := insertJob s.hwi.frameCount job s.takeUps.engines.queue }
  have posted : (s.postJob (y.decodeJob c (needKind y) s.hwi.frameCount)).engines = engines := by
    rw [kind_eq]
    exact postJob_engines _ _
  have good_iff : servesGood y = true ↔ good := servesGood_iff y
  have trimmed_eq : trimmed = s.onReport (fun _ => trimmedReport x s.report) := countTrims_eq x s
  rw [run, doNeed_eq h hd, posted]
  by_cases hg : good
  · rw [if_pos (good_iff.2 hg)]
    have notLost : ¬lost := fun hl => hl.1 hg
    refine ⟨_, _, rfl, ctx_withCtxStep_self .., fun d => ctx_withCtxStep_ne _ _ _ _ _, rfl, rfl, rfl, rfl, rfl, rfl,
      rfl, rfl, fun _ => ⟨rfl, rfl⟩, fun hn => absurd hg hn, fun hl => absurd hl notLost,
      fun _ => ⟨?_, rfl, fun hn => absurd hg hn⟩⟩
    rw [trimmed_eq]
    rfl
  · rw [if_neg (mt good_iff.1 hg)]
    let bumped := bumpedCtx s.life.settings.streamLostLimit y
    have hy := ctx_withCtxStep_self c y (trimmedReport x s.report) engines s
    obtain ⟨begun, unbegun⟩ := bumpedCtx_streamLost s.life.settings.streamLostLimit y
    by_cases hl : lost
    · rw [bumpNeeds_begins hy hl.2, putCtx_withCtxStep]
      obtain ⟨report, notice, contexts⟩ := told_withCtxStep c bumped (trimmedReport x s.report) engines s .streamLost
        (.report x.position 0x41#8 (BitVec.ofNat 24 n))
      rw [← trimmed_eq] at report notice
      exact ⟨_, bumped, rfl, (contexts c).trans (ctx_withCtxStep_self ..),
        fun d hd => (contexts d).trans (ctx_withCtxStep_ne _ _ _ _ _ hd), by simp, by simp, by simp, by simp,
        rfl, rfl, rfl, by simp [engines], fun hg' => absurd hg' hg, fun _ => rfl, fun _ => ⟨begun hl.2, report, notice⟩,
        fun hn => absurd hl hn⟩
    · have notBegins := fun hb => hl ⟨hg, hb⟩
      rw [bumpNeeds_goes_on hy notBegins, putCtx_withCtxStep]
      refine ⟨_, _, rfl, ctx_withCtxStep_self .., fun d => ctx_withCtxStep_ne _ _ _ _ _, rfl, rfl, rfl, rfl, rfl, rfl,
        rfl, rfl, fun hg' => absurd hg' hg, fun _ => rfl, fun hl' => absurd hl' hl,
        fun _ => ⟨?_, rfl, fun _ => unbegun notBegins⟩⟩
      rw [trimmed_eq]
      rfl

end Sys2Proof.Proofs

/-! Proofs: the completion of a decode-side job (O52). -/

namespace Sys2Proof.Proofs

open Sys2Proof Sys2Proof.Machine Sys2Proof.Laws

/-! ### What a decode-side job works on (R36), and its block (R37) -/

/-- A BAD or a NO_DATA entry. -/
def noSpeech (r : ParcelResult) : Prop := (∃ reason, r = .bad reason) ∨ ∃ m payload, r = .good .noData m payload

theorem work_noSpeech {r : ParcelResult} (hr : noSpeech r) (q : QuietState) (n : Nat) :
    (JobKind.decode r q n).work = if q = .speech then .conceal (min (n + 1) 16) else .comfortNoise := by
  obtain ⟨reason, rfl⟩ | ⟨m, payload, rfl⟩ := hr
  · rfl
  · rfl

/-- A job of a concealment, whether it was posted as one or from an entry without speech, works on the next level. -/
theorem work_conceals {kind : JobKind} {n : Nat}
    (h : kind = .conceal n ∨ ∃ r, noSpeech r ∧ kind = .decode r .speech n) : kind.work = .conceal (min (n + 1) 16) := by
  obtain rfl | ⟨r, hr, rfl⟩ := h
  · rfl
  · exact work_noSpeech hr .speech n

theorem withOutcome_keeps (w : DecodeWork) (x : Context) :
    (x.withOutcome w).playout = x.playout ∧ (x.withOutcome w).ring = x.ring ∧
      (x.withOutcome w).playState = x.playState ∧ (x.withOutcome w).encoder = x.encoder := by
  cases w <;> exact ⟨rfl, rfl, rfl, rfl⟩

section
variable (x : Context) (half : CodecHalf)

/-- Silence at full level and without an earlier block (R37). -/
theorem concealBlock_silent {n : Nat} (h : 15 ≤ n ∨ x.lastBlock = none) :
    x.concealBlock half (min (n + 1) 16) = List.replicate 160 (silenceCode x.law) := by
  refine if_pos (h.imp (fun hn => ?_) id)
  omega

/-- Below full level the extrapolation is lowered once for each level above 1 (R37). -/
theorem concealBlock_lowered {n : Nat} (hn : n < 15) (hl : x.lastBlock ≠ none) :
    x.concealBlock half (min (n + 1) 16) = (List.range 160).map (fun i =>
      (Config.lower3dB x.law)^[n] (Config.decodeSample half x.law (.conceal 1) i)) := by
  have level : min (n + 1) 16 - 1 = n := by omega
  have below : ¬(16 ≤ min (n + 1) 16 ∨ x.lastBlock = none) := by
    rintro (h | h)
    · omega
    · exact hl h
  rw [Context.concealBlock, if_neg below, level, loweredBy_eq_iterate]

end

/-! ### The context after the job (R32, R33, R35) -/

/-- The block that the job delivers. -/
def decodedBlock (half : CodecHalf) (kind : JobKind) (x : Context) : List Sample := x.deliveredBlock half kind.work

section
variable (half : CodecHalf) (kind : JobKind) (x : Context)

theorem decoded_reads :
    (x.decoded half kind).playout = x.playout ++ decodedBlock half kind x ∧
      (x.decoded half kind).lastBlock = some (decodedBlock half kind x) ∧
      (x.decoded half kind).encoder = x.encoder ∧
      (x.decoded half kind).decoder = Config.decodeNext half kind.work ∧
      (x.decoded half kind).ring = (if kind.fromEntry then x.ring.tail else x.ring) ∧
      (x.decoded half kind).playState = (if x.playState = .priming then
        (if (x.decoded half kind).ring = [] then .starting else .running) else x.playState) ∧
      (x.decoded half kind).quietState = (x.withOutcome kind.work).quietState ∧
      (x.decoded half kind).concealLevel = (x.withOutcome kind.work).concealLevel := by
  obtain ⟨playout, ring, playState, encoder⟩ := withOutcome_keeps kind.work x
  simp only [Context.decoded, Context.appendBlock, playout, ring, playState, encoder, decodedBlock, and_self]

end

theorem doDecodeCompletion_completes {s : State} {e : EngineNum} {run : Running} {x : Context}
    (hrun : Table.lookup s.engines.running e = some run) (hdir : run.job.dir = .decodeSide)
    (hdone : run.doneAt = s.hwi.frameCount) (hx : s.ctx run.job.ctx = some x) :
    s.doDecodeCompletion e = withCtxStep run.job.ctx (x.decoded run.half run.job.kind) s.report
      { s.engines with running := Table.erase s.engines.running e } s := by
  have hx' : (s.freeEngine e).ctx run.job.ctx = some x := hx
  simp only [State.doDecodeCompletion, hrun, State.completes, hdone, hdir, decide_true, and_self, if_true,
    State.modCtx, hx']
  rfl

/-- Settles O52: the job's work decides the block, the quiet state and the level; its kind decides whether an entry
leaves the ring. -/
theorem decodeCompletes : Obligations.DecodeCompletes := by
  intro s e run x hheld _ hrun hdir hdone hx speechless conceals
  have go : exec (.decodeCompletion e) s = .next (s.doDecodeCompletion e) := next_live hheld
  obtain ⟨playout, lastBlock, encoder, decoder, ring, playState, quiet, level⟩ := decoded_reads run.half run.job.kind x
  rw [go, doDecodeCompletion_completes hrun hdir hdone hx]
  refine ⟨_, _, decodedBlock run.half run.job.kind x, rfl, ctx_withCtxStep_self ..,
    fun d => ctx_withCtxStep_ne _ _ _ _ _, lookup_erase_self .., rfl, rfl, rfl, rfl, rfl, rfl, rfl, rfl,
    deliveredBlock_length .., playout, lastBlock, encoder, decoder, fun r q n hk => ?_, fun n hk => ?_, fun n hk => ?_, fun hk => ?_, fun r n hr hk => ?_,
    fun m payload q n hk => ?_, fun m payload q n hk => ?_, fun hp => ?_, fun hp => ?_⟩
  · rw [ring, hk]; rfl
  · rw [ring, hk]; rfl
  · have work := work_conceals hk
    rw [quiet, level, decodedBlock, work]
    exact ⟨rfl, rfl, concealBlock_silent x run.half, concealBlock_lowered x run.half⟩
  · rw [ring, quiet, level, hk]
    exact ⟨rfl, rfl, rfl⟩
  · have work : run.job.kind.work = .comfortNoise := by rw [hk]; exact work_noSpeech hr .quiet n
    rw [quiet, level, work]
    exact ⟨rfl, rfl⟩
  · rw [quiet, level, hk]
    exact ⟨rfl, rfl⟩
  · rw [quiet, level, hk]
    exact ⟨rfl, rfl⟩
  · rw [playState, if_pos hp]
  · rw [playState, if_neg hp]

end Sys2Proof.Proofs

/-! Proofs: the drop of a job at its deadline (O54). -/

namespace Sys2Proof.Proofs

open Sys2Proof Sys2Proof.Machine Sys2Proof.Laws

/-! ### The job that is dropped (R68) -/

/-- Job k of context c and direction d is late in this frame: it waits in the queue, or it runs without completing. -/
def isLate (s : State) (c : CtxNum) (d : Direction) (k : Job) : Prop :=
  k.ctx = c ∧ k.dir = d ∧ k.deadline = s.hwi.frameCount ∧
    (k ∈ s.engines.queue ∨
      ∃ e run, (e, run) ∈ s.engines.running ∧ run.job = k ∧ run.doneAt ≠ s.hwi.frameCount)

theorem dropsQueued_iff (now : FrameCount) (c : CtxNum) (d : Direction) (j : Job) :
    dropsQueued now c d j = true ↔ j.ctx = c ∧ j.dir = d ∧ j.deadline = now := by
  simp [dropsQueued, isJobOf, and_assoc]

theorem dropsRunning_iff (now : FrameCount) (c : CtxNum) (d : Direction) (r : Running) :
    dropsRunning now c d r = true ↔ r.job.ctx = c ∧ r.job.dir = d ∧ r.job.deadline = now ∧ r.doneAt ≠ now := by
  simp [dropsRunning, isJobOf, and_assoc]

section
variable {s : State} {c : CtxNum} {d : Direction}

/-- What is dropped is late. -/
theorem isLate_of_droppedJob {j : Job} (h : s.droppedJob c d = some j) : isLate s c d j := by
  unfold State.droppedJob at h
  split at h
  · rename_i k hk
    obtain rfl : k = j := Option.some.inj h
    obtain ⟨hc, hdir, hdl⟩ := (dropsQueued_iff ..).1 (List.find?_some hk)
    exact ⟨hc, hdir, hdl, Or.inl (List.mem_of_find?_eq_some hk)⟩
  · obtain ⟨⟨e, run⟩, hrun, rfl⟩ := Option.map_eq_some_iff.1 h
    have dropped : dropsRunning s.hwi.frameCount c d run = true := by simpa using List.find?_some hrun
    obtain ⟨hc, hdir, hdl, hdone⟩ := (dropsRunning_iff ..).1 dropped
    exact ⟨hc, hdir, hdl, Or.inr ⟨e, run, List.mem_of_find?_eq_some hrun, rfl, hdone⟩⟩

/-- Where nothing is dropped nothing is late. -/
theorem not_isLate_of_droppedJob (h : s.droppedJob c d = none) (k : Job) : ¬isLate s c d k := by
  rintro ⟨hc, hdir, hdl, hk⟩
  unfold State.droppedJob at h
  split at h
  · cases h
  · rename_i queued
    rcases hk with hk | ⟨e, run, hmem, rfl, hdone⟩
    · exact List.find?_eq_none.1 queued k hk ((dropsQueued_iff ..).2 ⟨hc, hdir, hdl⟩)
    · exact List.find?_eq_none.1 (Option.map_eq_none_iff.1 h) _ hmem ((dropsRunning_iff ..).2 ⟨hc, hdir, hdl, hdone⟩)

theorem doJobDropped_none (h : ∀ k, ¬isLate s c d k) : s.doJobDropped c d = s := by
  unfold State.doJobDropped
  cases hj : s.droppedJob c d with
  | none => rfl
  | some j => exact absurd (isLate_of_droppedJob hj) (h j)

theorem doJobDropped_one {j : Job} (h : ∀ k, isLate s c d k ↔ k = j) :
    s.doJobDropped c d = (s.dropJob c d).tellDrop j := by
  unfold State.doJobDropped
  cases hj : s.droppedJob c d with
  | none => exact absurd ((h j).2 rfl) (not_isLate_of_droppedJob hj j)
  | some k => rw [(h k).1 (isLate_of_droppedJob hj)]

end

/-! ### The drop (R68, R73) -/

/-- The engines once the late jobs of a context and direction are dropped. -/
def droppedEngines (s : State) (c : CtxNum) (d : Direction) : Engines :=
  { queue := s.engines.queue.filter (fun j => !(dropsQueued s.hwi.frameCount c d j))
    running := s.engines.running.filter (fun e => !(dropsRunning s.hwi.frameCount c d e.2))
    lateCount := s.engines.lateCount + 1 }

/-- OVERLOAD is raised by the drop that brings the late count from 8 to 9. -/
def overloadTold (s : State) : State := if s.engines.lateCount = 8 then s.raiseFlag .overload else s

theorem dropJob_eq (c : CtxNum) (d : Direction) (s : State) :
    s.dropJob c d = (overloadTold s).onEngines (fun _ => droppedEngines s c d) := by
  unfold State.dropJob overloadTold
  dsimp only
  split
  · exact raiseFlag_onEngines .overload (fun _ => droppedEngines s c d) s
  · rfl

theorem overloadTold_contexts (s : State) : (overloadTold s).table.contexts = s.table.contexts := by
  unfold overloadTold
  split <;> simp

theorem overloadTold_blocks (s : State) : (overloadTold s).hwi = s.hwi ∧ (overloadTold s).mapu = s.mapu ∧
    (overloadTold s).life = s.life ∧ (overloadTold s).released = s.released := by
  unfold overloadTold
  split <;> simp

theorem overloadTold_canonical {s : State} (hs : s.canonical) : (overloadTold s).canonical := by
  unfold overloadTold
  split
  · exact raiseFlag_canonical .overload hs
  · exact hs

/-- The drop and a change of the context that it is told to. -/
theorem dropJob_modCtx {s : State} {c : CtxNum} {x : Context} (h : s.ctx c = some x) (d : Direction)
    (f : Context → Context) : (s.dropJob c d).modCtx c f =
      withCtxStep c (f x) (overloadTold s).report (droppedEngines s c d) (overloadTold s) := by
  have hx : ((overloadTold s).onEngines (fun _ => droppedEngines s c d)).ctx c = some x :=
    (ctx_of_contexts (overloadTold_contexts s) c).trans h
  rw [dropJob_eq, State.modCtx, hx]
  rfl

/-! ### What the posting block is told (R38, R52, R55, R57) -/

/-- The quick conceal of a dropped decode-side job, and its count. -/
theorem tellDrop_decode {s : State} {j : Job} {x : Context} (h : s.ctx j.ctx = some x) (hd : j.dir = .decodeSide) :
    (s.dropJob j.ctx j.dir).tellDrop j = withCtxStep j.ctx (x.quickConceal j.kind)
      (drivenCounted x .lateDecodes (overloadTold s).report) (droppedEngines s j.ctx j.dir) (overloadTold s) := by
  unfold State.tellDrop
  rw [hd]
  dsimp only
  rw [dropJob_modCtx h, countDriven_withCtxStep]
  rfl

/-- The quick conceal, field by field (R38). -/
theorem quickConceal_eq (kind : JobKind) (x : Context) :
    let level := if x.quietState = .speech then min (x.concealLevel + 1) 16 else x.concealLevel
    let ring := if kind.fromEntry then x.ring.tail else x.ring
    x.quickConceal kind = { x with
      concealLevel := level, playout := x.playout ++ x.quickBlock level, lastBlock := some (x.quickBlock level)
      ring := ring
      playState := if x.playState = .priming then (if ring = [] then .starting else .running) else x.playState
      counters := { x.counters with lateDecode := countUp x.counters.lateDecode } } := rfl

theorem awaitsContent_iff (x : Context) :
    x.awaitsContent = true ↔ ∃ em, x.emitting = some em ∧ em.content = none := by
  unfold Context.awaitsContent
  cases x.emitting <;> simp

/-- The end of an encode job for an emission: nothing where no emission awaits its content, a filler where one does and
there is no ready entry. -/
theorem contentAfterJob_withCtxStep (c : CtxNum) (y : Context) (r : ReportUnit) (e : Engines) (s : State) :
    let rate := (withCtxStep c y r e s).rateRequest y.modeSet
    ∃ z p, (withCtxStep c y r e s).contentAfterJob c = withCtxStep c z p e s ∧
      ((∀ em, y.emitting = some em → em.content ≠ none) → z = y ∧ p = r) ∧
      (∀ em, y.emitting = some em → em.content = none → y.ready = none →
        z = Context.lateEncoded
          (Context.withContent em (buildParcel .noData em.mode rate y.phaseLimit true []) y) ∧
        p = if y.drives then (r.counted .lateEncodes).counted .fillers else r) := by
  have hy := ctx_withCtxStep_self c y r e s
  by_cases hw : y.awaitsContent = true
  · obtain ⟨em, hem, hcontent⟩ := (awaitsContent_iff y).1 hw
    rw [contentAfterJob_waits hy hw]
    have same : ∀ em', y.emitting = some em' → em = em' := fun em' h => Option.some.inj (hem.symm.trans h)
    cases hr : y.ready with
    | none =>
      rw [fixContent_filler hy hem hr, putCtx_withCtxStep, State.countFiller, modCtx_withCtxStep,
        countDriven_withCtxStep, countDriven_withCtxStep]
      refine ⟨_, _, rfl, fun hno => absurd hcontent (hno em hem), fun em' hem' _ _ => ?_⟩
      rw [← same em' hem']
      exact ⟨rfl, drivenCounted_drivenCounted rfl ..⟩
    | some ready =>
      rw [fixContent_ready hy hem hr, putCtx_withCtxStep]
      exact ⟨_, _, rfl, fun hno => absurd hcontent (hno em hem), fun em' _ _ hno => by cases hno⟩
  · rw [contentAfterJob_waits_not hy (Bool.eq_false_iff.2 hw)]
    exact ⟨_, _, rfl, fun _ => ⟨rfl, rfl⟩, fun em hem hc => absurd ((awaitsContent_iff y).2 ⟨em, hem, hc⟩) hw⟩

theorem tellDrop_encode {s : State} {j : Job} {x : Context} (h : s.ctx j.ctx = some x) (hd : j.dir = .encode) :
    (s.dropJob j.ctx j.dir).tellDrop j = (withCtxStep j.ctx { x with encodeInFlight := false } (overloadTold s).report
      (droppedEngines s j.ctx j.dir) (overloadTold s)).contentAfterJob j.ctx := by
  unfold State.tellDrop
  rw [hd]
  dsimp only
  rw [dropJob_modCtx h]

/-- The rate request of the filler is that of the station with OVERLOAD told: the end of the job changes no cost
(R56). -/
theorem rateRequest_dropped {s : State} (hs : s.canonical) {c : CtxNum} {x : Context} (h : s.ctx c = some x)
    (r : ReportUnit) (e : Engines) (ms : ModeSet) :
    (withCtxStep c { x with encodeInFlight := false } r e (overloadTold s)).rateRequest ms =
      (overloadTold s).rateRequest ms :=
  rateRequest_putCtx (y := { x with encodeInFlight := false }) (overloadTold_canonical hs)
    ((ctx_of_contexts (overloadTold_contexts s) c).trans h) rfl ms

/-- The drop reaches what the raise of OVERLOAD reaches, and beside it the context, the report and the engines. -/
theorem tellDrop_outcome {s : State} (hs : s.canonical) {j : Job} {x : Context} (h : s.ctx j.ctx = some x) :
    let told := overloadTold s
    ∃ y r, (s.dropJob j.ctx j.dir).tellDrop j = withCtxStep j.ctx y r (droppedEngines s j.ctx j.dir) told ∧
      (j.dir = .decodeSide → y = x.quickConceal j.kind ∧ r = drivenCounted x .lateDecodes told.report) ∧
      (j.dir = .encode → (∀ em, x.emitting = some em → em.content ≠ none) →
        y = { x with encodeInFlight := false } ∧ r = told.report) ∧
      (∀ em, j.dir = .encode → x.emitting = some em → em.content = none → x.ready = none →
        y = Context.lateEncoded (Context.withContent em
          (buildParcel .noData em.mode (told.rateRequest x.modeSet) x.phaseLimit true [])
            { x with encodeInFlight := false }) ∧
        r = if x.drives then (told.report.counted .lateEncodes).counted .fillers else told.report) := by
  intro told
  cases hd : j.dir with
  | decodeSide =>
    refine ⟨_, _, hd ▸ tellDrop_decode h hd, fun _ => ⟨rfl, rfl⟩, fun he => ?_, fun em he => ?_⟩ <;> cases he
  | encode =>
    obtain ⟨y, r, outcome, stays, fills⟩ := contentAfterJob_withCtxStep j.ctx { x with encodeInFlight := false }
      told.report (droppedEngines s j.ctx j.dir) told
    rw [rateRequest_dropped hs h] at fills
    refine ⟨y, r, hd ▸ (tellDrop_encode h hd).trans outcome, fun he => ?_, fun _ => stays, fun em _ => fills em⟩
    cases he

/-- The engines without the late jobs, as O54 names them. -/
theorem droppedEngines_eq (s : State) (c : CtxNum) (d : Direction) :
    (droppedEngines s c d).queue =
        s.engines.queue.filter (fun k => !(decide (k.ctx = c ∧ k.dir = d ∧ k.deadline = s.hwi.frameCount))) ∧
      (droppedEngines s c d).running = s.engines.running.filter (fun e => !(decide (e.2.job.ctx = c ∧ e.2.job.dir = d ∧
        e.2.job.deadline = s.hwi.frameCount ∧ e.2.doneAt ≠ s.hwi.frameCount))) := by
  refine ⟨List.filter_congr (fun k _ => congrArg not ?_), List.filter_congr (fun e _ => congrArg not ?_)⟩
  · rw [Bool.eq_iff_iff, dropsQueued_iff, decide_eq_true_iff]
  · rw [Bool.eq_iff_iff, dropsRunning_iff, decide_eq_true_iff]

/-- Settles O54: only a late job is dropped; the one that is leaves the engines, is counted and told, and its context
gets a quick conceal, or the end of its encode job. -/
theorem jobIsDropped : Obligations.JobIsDropped := by
  intro s c d hheld now late
  have run : exec (.jobDropped c d) s = .next (s.doJobDropped c d) := next_live hheld
  refine ⟨fun hnone => by rw [run, doJobDropped_none hnone], ?_⟩
  intro j x hs hone hx told level block ring rate
  obtain ⟨rfl, rfl, -, -⟩ : late j := (hone j).2 rfl
  obtain ⟨queue, running⟩ := droppedEngines_eq s j.ctx j.dir
  obtain ⟨hwi, mapu, life, released⟩ := overloadTold_blocks s
  obtain ⟨y, r, outcome, conceals, stays, fills⟩ := tellDrop_outcome hs hx
  rw [run, doJobDropped_one hone, outcome]
  refine ⟨_, y, rfl, ctx_withCtxStep_self .., fun o ho => ?_, queue, running, rfl, hwi, rfl, mapu, rfl, life, rfl,
    released, fun hd => ?_, fun hd hno => stays hd hno, fun em hd hem hc hr => ?_⟩
  · exact (ctx_withCtxStep_ne _ _ _ _ _ ho).trans (ctx_of_contexts (overloadTold_contexts s) o)
  · obtain ⟨hy, hrep⟩ := conceals hd
    have left : (if j.kind.fromEntry then x.ring.tail else x.ring) = ring := by
      simp only [ring]
      cases j.kind <;> rfl
    refine ⟨?_, hrep⟩
    rw [hy, quickConceal_eq, left]
    rfl
  · obtain ⟨hy, hrep⟩ := fills em hd hem hc hr
    refine ⟨hy.trans ?_, hrep⟩
    simp only [hr]
    rfl

end Sys2Proof.Proofs

/-! Proofs: the close of a sample block (O55). -/

namespace Sys2Proof.Proofs

open Sys2Proof Sys2Proof.Machine Sys2Proof.Laws

/-! ### The block (R45) -/

section
variable {x : Context}

theorem formBlock_full (h : 160 ≤ x.sampleBlock.length) :
    x.formBlock = x.sampleBlock.drop (x.sampleBlock.length - 160) := if_pos h

theorem formBlock_first (h : x.sampleBlock.length < 160) (hf : x.firstBlock = true) : x.formBlock =
    List.replicate (160 - x.sampleBlock.length) (silenceCode x.law) ++ x.sampleBlock :=
  (if_neg (not_le.2 h)).trans (if_pos hf)

theorem formBlock_later (h : x.sampleBlock.length < 160) (hf : x.firstBlock = false) : x.formBlock =
    x.sampleBlock ++ List.replicate (160 - x.sampleBlock.length) (x.sampleBlock.getLastD (silenceCode x.law)) :=
  (if_neg (not_le.2 h)).trans (if_neg (by simp [hf]))

theorem formBlock_length (x : Context) : x.formBlock.length = 160 := by
  rcases le_or_gt 160 x.sampleBlock.length with full | short
  · rw [formBlock_full full, List.length_drop]
    omega
  · cases hf : x.firstBlock with
    | true =>
      rw [formBlock_first short hf, List.length_append, List.length_replicate]
      omega
    | false =>
      rw [formBlock_later short hf, List.length_append, List.length_replicate]
      omega

end

/-! ### The shift step (R46 to R48) -/

/-- The close finds a shift step to take: no switch frame holds it back (R48), and some of the shift is pending. -/
def takesStep (x : Context) : Prop := x.switchFrame = none ∧ x.pendingShift ≠ 0

section
variable {x : Context}

theorem takesStep_iff : takesStep x ↔ ¬(x.switchFrame.isSome = true ∨ x.pendingShift = 0) := by
  rw [takesStep, not_or, Option.not_isSome_iff_eq_none]

theorem shiftStep_still (h : ¬takesStep x) : x.shiftStep = x := if_pos (not_not.1 (mt takesStep_iff.2 h))

theorem shiftStep_earlier (h : takesStep x) (hm : x.pendingShift.msb = false) (hp : 0 < x.phase.val) :
    x.shiftStep = { x with phase := ⟨x.phase.val - 1, by omega⟩, pendingShift := x.pendingShift - 1 } := by
  rw [Context.shiftStep, if_neg (takesStep_iff.1 h), if_neg (by simp [hm]), if_neg hp.ne']

theorem shiftStep_later (h : takesStep x) (hm : x.pendingShift.msb = true) (hp : x.phase.val < 159) :
    x.shiftStep = { x with
      phase := ⟨x.phase.val + 1, Nat.succ_lt_succ hp⟩, pendingShift := x.pendingShift + 1, steppedLater := true } := by
  rw [Context.shiftStep, if_neg (takesStep_iff.1 h), if_pos hm, dif_pos (Nat.succ_lt_succ hp)]

theorem shiftStep_clipped (h : takesStep x) (hc : (x.pendingShift.msb = false ∧ x.phase.val = 0) ∨
      (x.pendingShift.msb = true ∧ x.phase.val = 159)) :
    x.shiftStep = { x with pendingShift := 0, phaseLimit := true } := by
  rw [Context.shiftStep, if_neg (takesStep_iff.1 h)]
  obtain ⟨hm, hp⟩ | ⟨hm, hp⟩ := hc
  · rw [if_neg (by simp [hm]), if_pos hp]
  · rw [if_pos hm, dif_neg (by omega)]

/-- Only a step toward later sets the mark that keeps the next frame from being compared (R46, log 27). -/
theorem shiftStep_not_later (h : ¬(takesStep x ∧ x.pendingShift.msb = true ∧ x.phase.val < 159)) :
    x.shiftStep.steppedLater = x.steppedLater := by
  by_cases steps : takesStep x
  · cases hm : x.pendingShift.msb with
    | false =>
      rcases Nat.eq_zero_or_pos x.phase.val with first | pos
      · rw [shiftStep_clipped steps (Or.inl ⟨hm, first⟩)]
      · rw [shiftStep_earlier steps hm pos]
    | true =>
      have last : x.phase.val = 159 := by
        have : ¬x.phase.val < 159 := fun hp => h ⟨steps, hm, hp⟩
        omega
      rw [shiftStep_clipped steps (Or.inr ⟨hm, last⟩)]
  · rw [shiftStep_still steps]

end

/-! ### The context after steps 1 to 3 of a close (R45 to R49) -/

/-- The context with its sample block emptied, its shift step taken and its pending mode applied. -/
def closedCtx (x : Context) : Context :=
  { x with
    sampleBlock := [], firstBlock := false, due := { x.due with closeCheck := false }
    phase := x.shiftStep.phase, pendingShift := x.shiftStep.pendingShift
    phaseLimit := x.shiftStep.phaseLimit, steppedLater := x.shiftStep.steppedLater
    downMode := x.pendingDownMode.getD x.downMode, pendingDownMode := none }

theorem applyMode_eq (x : Context) : x.applyMode =
    { x with downMode := x.pendingDownMode.getD x.downMode, pendingDownMode := none } := by
  unfold Context.applyMode
  split
  · rename_i m hm
    rw [hm]
    rfl
  · rename_i hm
    rw [hm, Option.getD_none, ← hm]

theorem closedCtx_eq (x : Context) : closedCtx x =
    ({ x with sampleBlock := [], firstBlock := false, due := { x.due with closeCheck := false } } :
      Context).shiftStep.applyMode := by
  rw [applyMode_eq, closedCtx]
  unfold Context.shiftStep
  dsimp only
  split_ifs <;> rfl

/-! ### The emission start and the job (R51) -/

theorem isJobOf_eq_decide (c : CtxNum) (d : Direction) (j : Job) : isJobOf c d j = decide (j.ctx = c ∧ j.dir = d) :=
  (Bool.decide_and _ _).symm

/-- The engines without the encode jobs of context c. -/
def withoutEncode (c : CtxNum) (e : Engines) : Engines :=
  { e with
    queue := e.queue.filter (fun j => !(decide (j.ctx = c ∧ j.dir = .encode)))
    running := e.running.filter (fun r => !(decide (r.2.job.ctx = c ∧ r.2.job.dir = .encode))) }

/-- The engines that a close leaves to its posting: the jobs of a pending emission start are withdrawn. -/
def leftEngines (c : CtxNum) (y : Context) (e : Engines) : Engines :=
  if y.schedule.isSome = true then withoutEncode c e else e

/-- The context once a pending emission start has given way, with its mark and its ready entry. -/
def leftCtx (y : Context) : Context :=
  { y with
    encodeInFlight := !y.schedule.isSome && y.encodeInFlight
    ready := if y.schedule.isSome = true then none else y.ready }

/-- The context with its emission start entered and, where a job is posted, its mark set. -/
def scheduledCtx (now : FrameCount) (y : Context) : Context :=
  { leftCtx y with
    encodeInFlight := !y.encodeInFlight || (leftCtx y).encodeInFlight
    schedule := some { frame := now + 40, jobPosted := !y.encodeInFlight, mode := y.downMode } }

/-- The engines after a close: no job is posted while the encode-in-flight mark is set. -/
def scheduledEngines (s : State) (c : CtxNum) (block : List Sample) (y : Context) : Engines :=
  let left := leftEngines c y s.engines
  if y.encodeInFlight = true then left
  else ((s.onEngines (fun _ => left)).postJob (y.encodeJob c block s.hwi.frameCount)).engines

section
variable {s : State} {c : CtxNum}

theorem withdrawJobs_encode (s : State) (c : CtxNum) :
    s.withdrawJobs (isJobOf c .encode) = s.onEngines (withoutEncode c) := by
  rw [State.withdrawJobs]
  simp only [isJobOf_eq_decide]
  rfl

/-- A pending emission start gives way, and without one nothing does. -/
theorem replaceStart_withCtxStep (y : Context) (r : ReportUnit) :
    (if y.schedule.isSome = true then (withCtxStep c y r s.engines s).replaceStart c
      else withCtxStep c y r s.engines s) = withCtxStep c (leftCtx y) r (leftEngines c y s.engines) s := by
  unfold leftCtx leftEngines
  cases y.schedule.isSome with
  | true =>
    rw [State.replaceStart, withdrawJobs_encode]
    exact modCtx_withCtxStep ..
  | false => rfl

/-- The posting to the engines that the withdrawal leaves, with the codec halves as they stood before the close. -/
theorem postJob_left {x y : Context} (h : s.ctx c = some x) (he : y.encoder = x.encoder) (hd : y.decoder = x.decoder)
    (r : ReportUnit) (left : Engines) (j : Job) : (withCtxStep c y r left s).postJob j =
      withCtxStep c y r ((s.onEngines (fun _ => left)).postJob j).engines s :=
  postJob_withCtxStep (s := s.onEngines (fun _ => left)) h he hd r j

/-- Step 4 of a close, once the step has changed other fields of the context. -/
theorem scheduleEncode_withCtxStep {x y : Context} (h : s.ctx c = some x) (he : y.encoder = x.encoder)
    (hd : y.decoder = x.decoder) (r : ReportUnit) (block : List Sample) :
    (withCtxStep c y r s.engines s).scheduleEncode c block =
      withCtxStep c (scheduledCtx s.hwi.frameCount y) r (scheduledEngines s c block y) s := by
  have posted := postJob_left (y := leftCtx y) h he hd r
  unfold State.scheduleEncode scheduledEngines scheduledCtx
  simp only [ctx_withCtxStep_self, replaceStart_withCtxStep, withCtxStep_blocks]
  cases y.encodeInFlight with
  | true => exact modCtx_withCtxStep ..
  | false => simp only [Bool.false_eq_true, if_false, posted, modCtx_withCtxStep, Bool.not_false, Bool.true_or]

/-- The close of a block, step by step (R44 to R51). -/
theorem doBlockClose_eq {x : Context} (h : s.ctx c = some x) (hd : x.due.closeCheck = true)
    (hb : s.hwi.blockIndex = some x.phase) : s.doBlockClose c =
      withCtxStep c (scheduledCtx s.hwi.frameCount (closedCtx x)) s.report
        (scheduledEngines s c x.formBlock (closedCtx x)) s := by
  have due : s.closeDue x = true := by simp [State.closeDue, hd, hb]
  simp only [State.doBlockClose, h, due, if_true, ← closedCtx_eq, putCtx_eq_withCtxStep]
  exact scheduleEncode_withCtxStep (y := closedCtx x) h rfl rfl ..

end

/-- Settles O55: the block by what is held, and the close by the shift step it takes, the mark it finds and the emission
start that is pending. -/
theorem blockCloses : Obligations.BlockCloses := by
  refine ⟨fun x => ⟨formBlock_length x, formBlock_full, formBlock_first, formBlock_later⟩, ?_⟩
  intro s c x hheld h hd hb mode steps later replaces job left open_
  have run : exec (.blockClose c) s = .next (s.doBlockClose c) := next_live hheld
  rw [run, doBlockClose_eq h hd hb]
  refine ⟨_, _, rfl, ctx_withCtxStep_self .., fun d => ctx_withCtxStep_ne _ _ _ _ _, rfl, rfl, rfl, rfl, rfl, rfl, rfl,
    rfl, rfl, rfl, rfl, rfl, rfl, rfl, rfl, fun free => ?_, fun busy => ?_, ?_, fun still => ?_,
    fun takes hm hp => ?_, fun ⟨takes, hm, hp⟩ => ?_, fun takes hc => ?_⟩
  · have mark : (closedCtx x).encodeInFlight = false := free
    exact ⟨by simp [scheduledCtx, mark], if_neg (by simp [mark])⟩
  · have mark : (closedCtx x).encodeInFlight = true := busy
    have start : (closedCtx x).schedule = x.schedule := rfl
    exact ⟨if_pos mark, by simp [scheduledCtx, leftCtx, mark, start, replaces]⟩
  · change x.shiftStep.steppedLater = _
    split
    · rename_i hl
      obtain ⟨takes, hm, hp⟩ := hl
      rw [shiftStep_later takes hm hp]
    · rename_i hl
      exact shiftStep_not_later hl
  · change x.shiftStep.phase = _ ∧ x.shiftStep.pendingShift = _ ∧ x.shiftStep.phaseLimit = _
    rw [shiftStep_still still]
    exact ⟨rfl, rfl, rfl⟩
  · change x.shiftStep.phase.val + 1 = _ ∧ x.shiftStep.pendingShift = _ ∧ x.shiftStep.phaseLimit = _
    rw [shiftStep_earlier takes hm hp]
    exact ⟨Nat.sub_add_cancel hp, rfl, rfl⟩
  · change x.shiftStep.phase.val = _ ∧ x.shiftStep.pendingShift = _ ∧ x.shiftStep.phaseLimit = _
    rw [shiftStep_later takes hm hp]
    exact ⟨rfl, rfl, rfl⟩
  · change x.shiftStep.phase = _ ∧ x.shiftStep.pendingShift = _ ∧ x.shiftStep.phaseLimit = _
    rw [shiftStep_clipped takes hc]
    exact ⟨rfl, rfl, rfl⟩

end Sys2Proof.Proofs

/-! Proofs: the order of the queue, and the take-ups of the engines (O51). -/

namespace Sys2Proof.Proofs

open Sys2Proof Sys2Proof.Machine Sys2Proof.Laws

/-! ### The order of the queue (R65) -/

section
variable {now : FrameCount} {a b j : Job} {queue : List Job}

theorem classRank_lt_iff {c d : JobClass} : classRank c < classRank d ↔ c = .primary ∧ d = .standby := by
  cases c <;> cases d <;> decide

theorem classRank_inj {c d : JobClass} : classRank c = classRank d ↔ c = d := by
  cases c <;> cases d <;> decide

theorem dirRank_lt_iff {c d : Direction} : dirRank c < dirRank d ↔ c = .decodeSide ∧ d = .encode := by
  cases c <;> cases d <;> decide

/-- The four keys of R65, the first of them the most significant. -/
def jobRank (now : FrameCount) (j : Job) : Nat ×ₗ Nat ×ₗ CtxNum ×ₗ Nat :=
  toLex (classRank j.cls, toLex (framesLeft now j.deadline, toLex (j.ctx, dirRank j.dir)))

theorem jobRank_lt_iff : jobRank now a < jobRank now b ↔ classRank a.cls < classRank b.cls ∨
    (classRank a.cls = classRank b.cls ∧ (framesLeft now a.deadline < framesLeft now b.deadline ∨
      (framesLeft now a.deadline = framesLeft now b.deadline ∧ (a.ctx < b.ctx ∨
        (a.ctx = b.ctx ∧ dirRank a.dir < dirRank b.dir))))) := by
  simp only [jobRank, Prod.Lex.toLex_lt_toLex]

theorem jobBefore_iff_rank : jobBefore now a b = true ↔ jobRank now a < jobRank now b := by
  rw [jobRank_lt_iff]
  unfold jobBefore
  by_cases hcls : classRank a.cls = classRank b.cls
  · by_cases hleft : framesLeft now a.deadline = framesLeft now b.deadline
    · by_cases hctx : a.ctx = b.ctx <;> simp [hcls, hleft, hctx]
    · simp [hcls, hleft]
  · simp [hcls]

theorem jobBefore_eq_false_iff : jobBefore now b a = false ↔ jobRank now a ≤ jobRank now b := by
  rw [← not_lt, ← jobBefore_iff_rank, Bool.not_eq_true]

/-- Placing a job is the library's insertion by the order of the queue. -/
theorem insertJob_eq_orderedInsert :
    insertJob now j queue = queue.orderedInsert (fun a b => jobBefore now a b = true) j := by
  induction queue with
  | nil => rfl
  | cons x xs ih => rw [insertJob, List.orderedInsert_cons, ih]

theorem insertJob_perm : (insertJob now j queue).Perm (j :: queue) :=
  insertJob_eq_orderedInsert ▸ List.perm_orderedInsert _ j queue

/-- A queue in order stays in order: the job comes behind those that rank with it and ahead of those that rank after. -/
theorem insertJob_ordered (h : queue.Pairwise (fun a b => jobBefore now b a = false)) :
    (insertJob now j queue).Pairwise (fun a b => jobBefore now b a = false) := by
  simp only [jobBefore_eq_false_iff] at h ⊢
  induction queue with
  | nil => simp [insertJob]
  | cons x xs ih =>
    obtain ⟨hx, hxs⟩ := List.pairwise_cons.1 h
    unfold insertJob
    split
    · rename_i hj
      have hjx : jobRank now j ≤ jobRank now x := (jobBefore_iff_rank.1 hj).le
      exact List.pairwise_cons.2 ⟨List.forall_mem_cons.2 ⟨hjx, fun y hy => hjx.trans (hx y hy)⟩, h⟩
    · rename_i hj
      have hxj : jobRank now x ≤ jobRank now j := jobBefore_eq_false_iff.1 (Bool.not_eq_true _ ▸ hj)
      refine List.pairwise_cons.2 ⟨fun y hy => ?_, ih hxs⟩
      rcases List.mem_cons.1 (insertJob_perm.mem_iff.1 hy) with rfl | hy
      · exact hxj
      · exact hx y hy

end

/-! ### One take-up (R66, R67, R72) -/

section
variable {s : State} {j : Job} {rest : List Job} {d e : EngineNum}

/-- What an engine that takes up a job runs. -/
def runningOf (s : State) (j : Job) : Running :=
  { job := j
    half := match s.ctx j.ctx with
      | some x => x.halfFor j.dir
      | none => default
    doneAt := s.hwi.frameCount + BitVec.ofNat 16 j.service }

theorem runningOf_ctx {x : Context} (h : s.ctx j.ctx = some x) : runningOf s j =
    { job := j, half := if j.dir = .encode then x.encoder else x.decoder,
      doneAt := s.hwi.frameCount + BitVec.ofNat 16 j.service } := by
  unfold runningOf
  rw [h]
  cases j.dir <;> rfl

/-- No take-up is open: no job waits, or no engine is idle. -/
def noneOpen (s : State) : Prop :=
  s.engines.queue = [] ∨ ∀ d, (Table.lookup s.engines.running d).isSome = true

theorem lowestFree_eq_none_iff {n : Nat} {α : Type} {t : Table n α} :
    Table.lowestFree t = none ↔ ∀ k, (Table.lookup t k).isSome = true := by
  simp [Table.lowestFree, List.find?_eq_none, Option.isSome_iff_ne_none]

theorem lookup_lowestFree {n : Nat} {α : Type} {t : Table n α} {k : Fin n} (h : Table.lowestFree t = some k) :
    Table.lookup t k = none := by
  unfold Table.lowestFree at h
  simpa using List.find?_some h

theorem doJobTakeUp_takes (hq : s.engines.queue = j :: rest) (he : Table.lowestFree s.engines.running = some e) :
    s.doJobTakeUp = s.onEngines (fun g =>
      { g with queue := rest, running := Table.insert g.running e (runningOf s j) }) := by
  unfold State.doJobTakeUp
  rw [hq, he]
  rfl

theorem doJobTakeUp_noneOpen (h : noneOpen s) : s.doJobTakeUp = s := by
  unfold State.doJobTakeUp
  rcases h with hq | hbusy
  · rw [hq]
  · rw [lowestFree_eq_none_iff.2 hbusy]
    cases s.engines.queue <;> rfl

/-- A take-up is none, or the head job goes to an idle engine. -/
theorem doJobTakeUp_cases (s : State) : noneOpen s ∧ s.doJobTakeUp = s ∨
    ∃ j rest e, s.engines.queue = j :: rest ∧ Table.lookup s.engines.running e = none ∧
      s.doJobTakeUp = s.onEngines (fun g =>
        { g with queue := rest, running := Table.insert g.running e (runningOf s j) }) := by
  cases hq : s.engines.queue with
  | nil => exact Or.inl ⟨Or.inl hq, doJobTakeUp_noneOpen (Or.inl hq)⟩
  | cons j rest =>
    cases he : Table.lowestFree s.engines.running with
    | none =>
      have none_ : noneOpen s := Or.inr (lowestFree_eq_none_iff.1 he)
      exact Or.inl ⟨none_, doJobTakeUp_noneOpen none_⟩
    | some e => exact Or.inr ⟨j, rest, e, rfl, lookup_lowestFree he, doJobTakeUp_takes hq he⟩

/-- A take-up leaves every engine that runs a job as it is. -/
theorem doJobTakeUp_busy {run : Running} (h : Table.lookup s.engines.running d = some run) :
    Table.lookup s.doJobTakeUp.engines.running d = some run := by
  obtain ⟨-, same⟩ | ⟨j, rest, e, -, hfree, taken⟩ := doJobTakeUp_cases s
  · rw [same, h]
  · have hde : d ≠ e := by
      rintro rfl
      rw [hfree] at h
      cases h
    rw [taken, onEngines_engines, lookup_insert_ne _ _ hde, h]

theorem doJobTakeUp_lateCount (s : State) : s.doJobTakeUp.engines.lateCount = s.engines.lateCount := by
  obtain ⟨-, same⟩ | ⟨j, rest, e, -, -, taken⟩ := doJobTakeUp_cases s
  · rw [same]
  · rw [taken]; rfl

end

/-! ### Every open take-up (R66) -/

section
variable {s : State}

/-- The engines that run no job. -/
def idleEngines (s : State) : Finset EngineNum :=
  Finset.univ.filter (fun d => Table.lookup s.engines.running d = none)

theorem mem_idleEngines {d : EngineNum} : d ∈ idleEngines s ↔ Table.lookup s.engines.running d = none := by
  simp [idleEngines]

/-- Each take-up leaves one engine fewer idle, so that as many as there are idle engines leave none open. -/
theorem iterate_takeUp_noneOpen (n : Nat) (h : (idleEngines s).card ≤ n) : noneOpen (State.doJobTakeUp^[n] s) := by
  induction n generalizing s with
  | zero =>
    have none_ : idleEngines s = ∅ := Finset.card_eq_zero.1 (Nat.le_zero.1 h)
    exact Or.inr (fun d => Option.isSome_iff_ne_none.2 (fun hd =>
      Finset.notMem_empty d (none_ ▸ mem_idleEngines.2 hd)))
  | succ n ih =>
    rw [Function.iterate_succ_apply]
    obtain ⟨closed, same⟩ | ⟨j, rest, e, -, hfree, taken⟩ := doJobTakeUp_cases s
    · rw [same, Function.iterate_fixed same]
      exact closed
    · refine ih (Nat.le_of_lt_succ (lt_of_lt_of_le (Finset.card_lt_card ?_) h))
      refine Finset.ssubset_iff_subset_ne.2 ⟨fun d hd => ?_, fun same => ?_⟩
      · rw [mem_idleEngines, taken, onEngines_engines, lookup_insert] at hd
        split at hd
        · cases hd
        · exact mem_idleEngines.2 hd
      · have : e ∈ idleEngines s.doJobTakeUp := same ▸ mem_idleEngines.2 hfree
        rw [mem_idleEngines, taken, onEngines_engines, lookup_insert_self] at this
        cases this

theorem iterate_takeUp_queue (n : Nat) (s : State) :
    ∃ k, k ≤ n ∧ (State.doJobTakeUp^[n] s).engines.queue = s.engines.queue.drop k := by
  induction n with
  | zero => exact ⟨0, le_rfl, rfl⟩
  | succ n ih =>
    obtain ⟨k, hk, hqueue⟩ := ih
    rw [Function.iterate_succ_apply']
    obtain ⟨-, same⟩ | ⟨j, rest, e, hhead, -, taken⟩ := doJobTakeUp_cases (State.doJobTakeUp^[n] s)
    · exact ⟨k, by omega, by rw [same, hqueue]⟩
    · refine ⟨k + 1, by omega, ?_⟩
      rw [taken, ← List.tail_drop, ← hqueue, hhead]
      rfl

theorem takeUps_eq_iterate (s : State) : s.takeUps = State.doJobTakeUp^[4] s := rfl

theorem takeUps_of_noneOpen (h : noneOpen s) : s.takeUps = s :=
  (takeUps_eq_iterate s).trans (Function.iterate_fixed (doJobTakeUp_noneOpen h) 4)

theorem takeUps_noneOpen (s : State) : noneOpen s.takeUps :=
  iterate_takeUp_noneOpen 4 (Finset.card_le_univ (idleEngines s))

/-- What a take-up keeps, they all keep. -/
theorem takeUps_keeps {P : State → Prop} (keep : ∀ u, P u → P u.doJobTakeUp) (h : P s) : P s.takeUps :=
  keep _ (keep _ (keep _ (keep _ h)))

theorem takeUps_busy {d : EngineNum} {run : Running} (h : Table.lookup s.engines.running d = some run) :
    Table.lookup s.takeUps.engines.running d = some run :=
  takeUps_keeps (P := fun u => Table.lookup u.engines.running d = some run) (fun _ => doJobTakeUp_busy) h

@[simp] theorem takeUps_lateCount (s : State) : s.takeUps.engines.lateCount = s.engines.lateCount :=
  takeUps_keeps (P := fun u => u.engines.lateCount = s.engines.lateCount)
    (fun u h => (doJobTakeUp_lateCount u).trans h) rfl

/-- The lowest idle engine has the head job once every open take-up is taken: the first of them gave it the job. -/
theorem takeUps_head {j : Job} {rest : List Job} {e : EngineNum} (hq : s.engines.queue = j :: rest)
    (he : Table.lowestFree s.engines.running = some e) :
    Table.lookup s.takeUps.engines.running e = some (runningOf s j) := by
  have first : Table.lookup s.doJobTakeUp.engines.running e = some (runningOf s j) := by
    rw [doJobTakeUp_takes hq he]
    exact lookup_insert_self ..
  exact doJobTakeUp_busy (doJobTakeUp_busy (doJobTakeUp_busy first))

end

/-- Settles O51: the order by its four keys, one take-up, all of them, and the posting after them. -/
theorem queueAndTakeUp : Obligations.QueueAndTakeUp := by
  refine ⟨fun now a b => ?_, fun now j queue h => ⟨insertJob_ordered h, insertJob_perm⟩, ?_, fun s => ?_,
    fun s j => ⟨?_, ?_⟩⟩
  · rw [jobBefore_iff_rank, jobRank_lt_iff, classRank_lt_iff, classRank_inj, dirRank_lt_iff]
    rfl
  · intro s j rest e x hheld
    have run : exec .jobTakeUp s = .next s.doJobTakeUp := next_live hheld
    rw [run]
    refine ⟨fun hq he hlower hx => ?_, fun none_ => by rw [doJobTakeUp_noneOpen none_]⟩
    rw [doJobTakeUp_takes hq (lowestFree_eq he hlower), ← runningOf_ctx hx]
    exact ⟨_, rfl, rfl, lookup_insert_self .., fun d hd => lookup_insert_ne _ _ hd, rfl⟩
  · refine ⟨takeUps_noneOpen s, iterate_takeUp_queue 4 s, fun d hd => ?_, ?_⟩
    · obtain ⟨run, hrun⟩ := Option.isSome_iff_exists.1 hd
      rw [takeUps_busy hrun, hrun]
    · rw [← takeUps_lateCount s]
      exact takeUps_eq s
  · intro k rest e hq he hlower
    rw [postJob_engines, takeUps_head hq (lowestFree_eq he hlower)]
    rfl
  · intro none_
    rw [State.postJob, takeUps_of_noneOpen none_]
    rfl

end Sys2Proof.Proofs

/-! Proofs: the values of the reports: words of fields, and the codes in them (O38). -/

namespace Sys2Proof.Proofs

open Sys2Proof Sys2Proof.Machine Sys2Proof.Laws

/-! ### Numbers as bits, most significant first -/

@[simp] theorem bitsOf_length (w n : Nat) : (bitsOf w n).length = w := by
  induction w with
  | zero => rfl
  | succ w ih => rw [bitsOf, List.length_cons, ih]

theorem ofBits_append (front bits : List Bool) :
    ofBits (front ++ bits) = ofBits front * 2 ^ bits.length + ofBits bits := by
  induction bits using List.reverseRecOn with
  | nil => simp [ofBits]
  | append_singleton bits b ih =>
    have last : ∀ l : List Bool, ofBits (l ++ [b]) = 2 * ofBits l + b.toNat := fun l => by
      simp [ofBits, List.foldl_append]
    rw [← List.append_assoc, last, last, ih, List.length_append, List.length_singleton, pow_succ]
    ring

theorem ofBits_bitsOf (w n : Nat) : ofBits (bitsOf w n) = n % 2 ^ w := by
  induction w with
  | zero => simp [bitsOf, ofBits, Nat.mod_one]
  | succ w ih =>
    have front : ofBits [n.testBit w] = (n.testBit w).toNat := by simp [ofBits]
    rw [bitsOf, ← List.singleton_append, ofBits_append, front, bitsOf_length, ih,
      Nat.toNat_testBit, Nat.mod_pow_succ]
    ring

theorem ofBits_zeros (n : Nat) : ofBits (List.replicate n false) = 0 := by
  induction n with
  | zero => rfl
  | succ n ih => rw [List.replicate_succ', ofBits_append, ih]; rfl

theorem ofBits_lt (bits : List Bool) : ofBits bits < 2 ^ bits.length := by
  induction bits using List.reverseRecOn with
  | nil => decide
  | append_singleton bits b ih =>
    have last : ofBits [b] ≤ 1 := by cases b <;> decide
    rw [ofBits_append, List.length_append, List.length_singleton, pow_succ]
    omega

/-! ### Words of fields (R177) -/

section
variable {fields : List (Nat × Nat)} {word : Nat}

/-- The bits that the fields of a word take. -/
def fieldWidths (fields : List (Nat × Nat)) : Nat := (fields.map Prod.fst).sum

theorem fieldBits_length : (fields.flatMap (fun f => bitsOf f.1 f.2)).length = fieldWidths fields := by
  simp [List.length_flatMap, fieldWidths]

/-- Fields laid one behind the other, as a number: each field multiplies by its width and adds its value. -/
theorem ofBits_fields (front : List Bool) (fields : List (Nat × Nat)) :
    ofBits (front ++ fields.flatMap (fun f => bitsOf f.1 f.2)) =
      fields.foldl (fun n f => n * 2 ^ f.1 + f.2 % 2 ^ f.1) (ofBits front) := by
  induction fields generalizing front with
  | nil => simp
  | cons f fields ih =>
    rw [List.flatMap_cons, ← List.append_assoc, ih, ofBits_append, ofBits_bitsOf, bitsOf_length, List.foldl_cons]

/-- A word of w bits by its fields: they stand at its most significant end, and the bits below them are 0. -/
theorem packFields_eq (w : Nat) (fields : List (Nat × Nat)) : packFields w fields =
    fields.foldl (fun n f => n * 2 ^ f.1 + f.2 % 2 ^ f.1) 0 * 2 ^ (w - fieldWidths fields) := by
  have laid := ofBits_fields [] fields
  rw [packFields, zeroPadded, ofBits_append, ofBits_zeros, List.length_replicate, fieldBits_length]
  exact congrArg (· * 2 ^ (w - fieldWidths fields)) laid

theorem packFields_lt {w : Nat} (h : fieldWidths fields ≤ w) : packFields w fields < 2 ^ w := by
  have bound := ofBits_lt (zeroPadded w (fields.flatMap (fun f => bitsOf f.1 f.2)))
  have padded : (zeroPadded w (fields.flatMap (fun f => bitsOf f.1 f.2))).length = w := by
    rw [zeroPadded, List.length_append, List.length_replicate, fieldBits_length, Nat.add_sub_cancel' h]
  rwa [padded] at bound

theorem positionValue_toNat (hw : word ≤ 9) (h : fieldWidths fields ≤ 19) :
    (positionValue word fields).toNat = word * 2 ^ 19 + packFields 19 fields := by
  have bound := packFields_lt h
  rw [positionValue, BitVec.toNat_ofNat, Nat.mod_eq_of_lt (by omega)]

theorem counterWordValue_toNat {k : BitVec 24} (hw : word ≤ 16) :
    (counterWordValue word k).toNat = (word - 5) * 2 ^ 20 + min k.toNat 1048575 := by
  rw [counterWordValue, BitVec.toNat_ofNat, Nat.mod_eq_of_lt (by omega)]

/-- An unknown item's echo: the item and the argument below eight zeros. -/
theorem echo_eq (item argument : BitVec 8) :
    (0#8).append (item.append argument) = BitVec.ofNat 24 (item.toNat * 256 + argument.toNat) := by
  have hi := item.isLt
  have ha := argument.isLt
  have low : (item.append argument).toNat = item.toNat * 2 ^ 8 + argument.toNat := by
    rw [← Nat.shiftLeft_eq, Nat.shiftLeft_add_eq_or_of_lt ha]
    exact BitVec.toNat_append ..
  refine BitVec.eq_of_toNat_eq ?_
  calc ((0#8).append (item.append argument)).toNat
      = (0 <<< 16 ||| (item.append argument).toNat) := BitVec.toNat_append ..
    _ = item.toNat * 2 ^ 8 + argument.toNat := by rw [Nat.zero_shiftLeft, Nat.zero_or, low]
    _ = (BitVec.ofNat 24 (item.toNat * 256 + argument.toNat)).toNat := by
      rw [BitVec.toNat_ofNat, Nat.mod_eq_of_lt (by omega), show 2 ^ 8 = 256 from rfl]

end

/-! ### The codes of a report (R171, R172, R177) -/

theorem boolCode_eq (b : Bool) : boolCode b = if b then 1 else 0 := by cases b <;> rfl

theorem lawCode_eq (l : Law) : boolCode (lawBit l) = if l = .muLaw then 1 else 0 := by cases l <;> decide

theorem quietCode_eq (q : QuietState) : quietCode q = if q = .quiet then 1 else 0 := by cases q <;> decide

theorem stationOrNoneCode_eq (q : Option Station) : stationOrNoneCode q = (q.map (fun q => q.val)).getD 15 := by
  cases q <;> rfl

theorem warmUpCode_eq (n : Option Nat) : warmUpCode n = n.getD 15 := by cases n <;> rfl

theorem modeOrNoneCode_eq (m : Option Mode) : modeOrNoneCode m = (m.map (fun m => m.val)).getD 7 := by
  cases m <;> rfl

theorem frameOrZero_eq (f : Option FrameCount) : frameOrZero f = (f.map (fun f => f.toNat)).getD 0 := by
  cases f <;> rfl

theorem toNat_capped255 (n : Nat) : (capped255 n).toNat = min n 255 := by
  rw [capped255, BitVec.toNat_ofNat, Nat.mod_eq_of_lt (by omega)]

theorem freeContexts_val (s : State) :
    s.freeContexts.val = 64 - s.table.contexts.length - s.table.reservations.length :=
  Nat.mod_eq_of_lt (by omega)

end Sys2Proof.Proofs

/-! Proofs: the answers to the queries (O38). -/

namespace Sys2Proof.Proofs

open Sys2Proof Sys2Proof.Machine Sys2Proof.Laws

/-! ### A QUERY with the own station as target (R127, R169) -/

section
variable {s : State} {r : Record} {h : Heard} {argument item : BitVec 8}

/-- The head record is taken at the Map Unit's turn. -/
theorem onQuery_head {answer : BitVec 8 → BitVec 8 → Option (State → State)} {apply : State → State}
    (ht : s.atTurn r) (hh : r.heard = some h) (hn : h.notice = .query argument s.own item)
    (ha : answer item argument = some apply) : s.onQuery answer = (apply (s.beginRecord r)).endRecord := by
  obtain ⟨-, hp, hturn, hsweep, hhead, -⟩ := ht
  obtain ⟨sender, grade, notice, own⟩ := h
  obtain rfl : notice = _ := hn
  have target : s.own = (s.beginRecord r).own := by simp [State.own]
  simp [State.onQuery, State.onHead, State.mapActs, hp, hturn, hsweep, hhead, hh, ha, target.symm]

/-- The record in hand leaves the intake, once its answer has left the Map Unit as it was. -/
theorem endRecord_answered {t : State} (ht : s.atTurn r) (keeps : t.mapu = (s.beginRecord r).mapu) :
    t.endRecord = t.onMap (fun m => { m with intake := s.mapu.intake.tail }) := by
  obtain ⟨-, -, -, hsweep, -, -⟩ := ht
  have begun := beginRecord_mapu r s
  have nosweep : t.mapu.sweep = none := by rw [keeps, begun]; exact hsweep
  have intake : t.mapu.intake = s.mapu.intake := by rw [keeps, begun]
  simp [State.endRecord, nosweep, State.onMap, intake]

/-- A QUERY's answer, and the record gone from the intake. -/
theorem query_answered {answer : BitVec 8 → BitVec 8 → Option (State → State)} {apply : State → State} {t : State}
    (ht : s.atTurn r) (hh : r.heard = some h) (hn : h.notice = .query argument s.own item)
    (ha : answer item argument = some apply) (answers : apply (s.beginRecord r) = t)
    (keeps : (apply (s.beginRecord r)).mapu = (s.beginRecord r).mapu) :
    (.next (s.live (fun u => u.onQuery answer)) : Host.Outcome State Fault Refusal) =
      .next (t.onMap (fun m => { m with intake := s.mapu.intake.tail })) := by
  rw [next_live ht.1, onQuery_head ht hh hn ha, endRecord_answered ht keeps, answers]

end

/-! ### The answers by item (R170, R171) -/

section
variable {argument item : BitVec 8}

theorem answerUnknown_eq (item argument : BitVec 8) (s : State) : s.answerUnknown item argument =
    s.place (.report 0 0xFF#8 (BitVec.ofNat 24 (item.toNat * 256 + argument.toNat))) := by
  rw [State.answerUnknown, echo_eq]
  rfl

theorem answerSummary_word (h : argument.toNat ≤ 12) (s : State) : s.answerSummary argument =
    s.place (.report 0 0x01#8 (summaryValue argument.toNat (s.summaryFields argument.toNat))) := if_pos h

theorem answerSummary_unknown (h : 12 < argument.toNat) (s : State) :
    s.answerSummary argument = s.answerUnknown 0x01#8 argument := if_neg (not_le.2 h)

/-- The open take-ups change what the summary reads of the engines, and nothing else that it reads. -/
theorem summaryFields_takeUps (s : State) (w : Nat) : s.takeUps.summaryFields w =
    (s.onEngines (fun _ => s.takeUps.engines)).summaryFields w := congrArg (State.summaryFields · w) (takeUps_eq s)

theorem summaryAnswer_mapu (argument : BitVec 8) (s : State) :
    (s.takeUps.answerSummary argument).mapu = s.mapu :=
  (answerSummary_blocks argument s.takeUps).2.2.1.trans (takeUps_blocks s).2.2.2.1

theorem counterOfItem_eq_some {i : Fin 32} (h : item.toNat = 0x10 + i.val) : counterOfItem item = some i := by
  have listed : 16 ≤ item.toNat ∧ item.toNat < 48 := by omega
  rw [counterOfItem, dif_pos listed]
  exact congrArg some (Fin.ext (by simp only; omega))

theorem counterOfItem_eq_none (h : item.toNat < 0x10 ∨ 0x30 ≤ item.toNat) : counterOfItem item = none :=
  dif_neg (by omega)

/-- The run of a QUERY of item 0x03: the REPORT of the flags as they stood, and the flags cleared. -/
theorem queryClearFlags_answers {s : State} {r : Record} {h : Heard} (ht : s.atTurn r) (hh : r.heard = some h)
    (hn : h.notice = .query argument s.own 0x03#8) :
    let b := s.beginRecord r
    ∃ t, exec .queryClearFlags s = .next t ∧ t.report.flags = 0 ∧ t.alertLow = false ∧
      t.notice = (b.place (.report 0 0x03#8 (b.report.flags.setWidth 24))).notice ∧
      t.mapu.intake = s.mapu.intake.tail := by
  intro b
  have run : exec .queryClearFlags s = .next _ :=
    query_answered ht hh hn (if_pos rfl) rfl (answerClearFlags_blocks b).2.2.1
  refine ⟨_, run, ?_⟩
  simp [b, State.answerClearFlags, State.placeReport, ReportUnit.flagsValue, State.alertLow]

end

/-! ### The position status (R172) -/

section
variable {s : State} {p : Pos} {w : Nat}

/-- The word chosen is the one the cursor has reached for p, or word 0. -/
theorem cursorWord_eq (hw : w ≤ s.lastWord p)
    (h : s.report.cursor = some (p, w) ∨ (w = 0 ∧ ∀ v, v ≤ s.lastWord p → s.report.cursor ≠ some (p, v))) :
    s.cursorWord p = w := by
  unfold State.cursorWord
  rcases h with hc | ⟨rfl, hc⟩
  · rw [hc]
    exact if_pos ⟨rfl, hw⟩
  · split
    · rename_i q v hqv
      refine if_neg ?_
      rintro ⟨rfl, hv⟩
      exact hc v hv hqv
    · rfl

/-- The answer for p: the word chosen, and the cursor on the one after it, or back on word 0 after the last. -/
theorem answerPosition_eq {argument : BitVec 8} (hp : p.val = argument.toNat) (hw : s.cursorWord p = w) :
    s.answerPosition argument = (s.place (.report p 0x40#8 (s.positionWord p w))).onReport
      (fun r => { r with cursor := some (p, if w = s.lastWord p then 0 else w + 1) }) := by
  have position : posOfCode argument.toNat = p := Fin.ext (by simp [posOfCode, ← hp])
  rw [State.answerPosition, position, hw]
  rfl

theorem place_report_flags (n : Notice) (s : State) : (s.place n).report.flags = s.report.flags := by
  unfold State.place
  (repeat' split) <;> simp [State.count, ReportUnit.counted]

theorem recordFields_widths (hw : w ≤ 4) : fieldWidths (s.recordFields p w) ≤ 19 := by
  interval_cases w <;> simp [fieldWidths, State.recordFields]

theorem statusFields_widths {x : Context} {c : CtxNum} (h5 : 5 ≤ w) (h9 : w ≤ 9) :
    fieldWidths (x.statusFields c w) ≤ 19 := by
  interval_cases w <;> simp [fieldWidths, Context.statusFields]

theorem counters_word (k : CtxCounters) (h10 : 10 ≤ w) (hw : w ≤ 16) : k.word w =
    [k.good, k.bad, k.missing, k.discarded, k.trimmed, k.lateEncode, k.lateDecode].getD (w - 10) 0 := by
  interval_cases w <;> rfl

/-- The values of words 0 to 4, from the record of p. -/
theorem positionWord_record (hw : w ≤ 4) :
    (s.positionWord p w).toNat = w * 2 ^ 19 + packFields 19 (s.recordFields p w) := by
  rw [State.positionWord, if_pos hw, positionValue_toNat (by omega) (recordFields_widths hw)]

/-- The values of words 5 to 9, from the context for p. -/
theorem positionWord_status {c : CtxNum} {x : Context} (hx : s.ctxFor p = some (c, x)) (h5 : 5 ≤ w) (h9 : w ≤ 9) :
    (s.positionWord p w).toNat = w * 2 ^ 19 + packFields 19 (x.statusFields c w) := by
  rw [State.positionWord, if_neg (by omega), hx, ← positionValue_toNat h9 (statusFields_widths h5 h9)]
  exact congrArg BitVec.toNat (if_pos h9)

/-- The values of words 10 to 16, from the counters of the context for p. -/
theorem positionWord_counter {c : CtxNum} {x : Context} (hx : s.ctxFor p = some (c, x)) (h10 : 10 ≤ w) (h16 : w ≤ 16) :
    (s.positionWord p w).toNat = (w - 5) * 2 ^ 20 + min (x.counters.word w).toNat 1048575 := by
  rw [State.positionWord, if_neg (by omega), hx, ← counterWordValue_toNat h16]
  exact congrArg BitVec.toNat (if_neg (by omega))

/-- The run of a QUERY of item 0x40: the REPORT, the cursor, and what is left as it was. -/
theorem queryPositionStatus_answers {r : Record} {h : Heard} {argument : BitVec 8} (ht : s.atTurn r)
    (hh : r.heard = some h) (hn : h.notice = .query argument s.own 0x40#8) (hp : p.val = argument.toNat)
    (hw : (s.beginRecord r).cursorWord p = w) :
    let b := s.beginRecord r
    ∃ t, exec .queryPositionStatus s = .next t ∧ t.notice = (b.place (.report p 0x40#8 (b.positionWord p w))).notice ∧
      t.report.cursor = some (p, if w = b.lastWord p then 0 else w + 1) ∧ t.report.flags = b.report.flags ∧
      t.mapu.intake = s.mapu.intake.tail ∧ t.mapu.map = b.mapu.map ∧ t.table.contexts = b.table.contexts := by
  intro b
  have run : exec .queryPositionStatus s = .next _ :=
    query_answered ht hh hn (if_pos rfl) (answerPosition_eq hp hw) (answerPosition_blocks argument b).2.2.1
  refine ⟨_, run, ?_⟩
  simp [b, place_report_flags]

end

/-- Settles O38: each item by the REPORT it places, and the words of items 0x01 and 0x40 field by field. -/
theorem queriesAreAnswered : Obligations.QueriesAreAnswered := by
  unfold Obligations.QueriesAreAnswered
  intro pack bit stationOr15
  have packs : packFields = pack := funext₂ packFields_eq
  have bits : boolCode = bit := funext boolCode_eq
  have stations : stationOrNoneCode = stationOr15 := funext stationOrNoneCode_eq
  refine ⟨fun s r h argument item ht hh hn => ?_, fun s r h argument p ht hh hn hp => ?_⟩
  · intro b done answered unknown age word
    have words : ∀ w, w ≤ 12 → b.takeUps.summaryFields w = word w := by
      intro w hw
      rw [summaryFields_takeUps]
      match w, hw with
      | 0, _ => simp only [State.summaryFields, bits]; rfl
      | 1, _ => simp only [State.summaryFields, toNat_capped255]; rfl
      | 2, _ => simp only [State.summaryFields, freeContexts_val]; rfl
      | 3, _ => simp only [State.summaryFields, onEngines_engines, takeUps_lateCount]; rfl
      | 7, _ => simp only [State.summaryFields, bits, onEngines_pool, word]; cases b.pool.shedding <;> rfl
      | 4, _ | 5, _ | 6, _ | 8, _ | 9, _ | 10, _ | 11, _ | 12, _ => rfl
    refine ⟨fun hi ha => ?_, fun hi ha => ?_, fun hi => ?_, fun hi => ?_, fun i hi => ?_, fun h1 h2 h3 h40 hout => ?_⟩
    · refine query_answered ht hh hn (if_pos hi) ?_ (summaryAnswer_mapu argument b)
      subst hi
      rw [answerSummary_word ha, words _ ha, summaryValue, packs]
    · refine query_answered ht hh hn (if_pos hi) ?_ (summaryAnswer_mapu argument b)
      subst hi
      rw [answerSummary_unknown ha, answerUnknown_eq]
    · subst hi
      exact query_answered ht hh hn (if_pos rfl) rfl (answerFlags_blocks b).2.2.1
    · subst hi
      exact queryClearFlags_answers ht hh hn
    · refine query_answered ht hh hn ?_ rfl (answerCounter_blocks item i b).2.2.1
      rw [counterOfItem_eq_some hi]
      rfl
    · refine query_answered ht hh hn (if_neg ?_) (answerUnknown_eq ..) (answerUnknown_blocks item argument b).2.2.1
      simp [knownItem, h1, h2, h3, h40, counterOfItem_eq_none hout]
  · intro b rec_ call frame recordWord contextWord counts last w hw hc
    have chosen : b.cursorWord p = w := cursorWord_eq hw hc
    have records : ∀ w, w ≤ 4 → b.recordFields p w = recordWord w := by
      intro w hw
      match w, hw with
      | 0, _ => simp only [State.recordFields, stations]; rfl
      | 1, _ =>
        simp only [State.recordFields, lawCode_eq, recordWord, call, rec_]
        cases (b.recAt p).call <;> rfl
      | 2, _ =>
        simp only [State.recordFields, bits, recordWord, call, rec_]
        cases (b.recAt p).call <;> rfl
      | 3, _ | 4, _ => simp only [State.recordFields, frameOrZero_eq]; rfl
    have statuses : ∀ c x w, 5 ≤ w → w ≤ 9 → x.statusFields c w = contextWord c x w := by
      intro c x w h5 h9
      match w, h5, h9 with
      | 5, _, _ => simp only [Context.statusFields, warmUpCode_eq]; rfl
      | 6, _, _ => simp only [Context.statusFields, modeOrNoneCode_eq]; rfl
      | 7, _, _ => simp only [Context.statusFields, bits]; rfl
      | 8, _, _ => simp only [Context.statusFields, bits, quietCode_eq]; rfl
      | 9, _, _ => rfl
    obtain ⟨t, run, notice, cursor, flags, intake, map, contexts⟩ := queryPositionStatus_answers ht hh hn hp chosen
    refine ⟨t, b.positionWord p w, run, notice, cursor, flags, intake, map, contexts, fun h4 => ?_,
      fun c x hx => ⟨fun h5 h9 => ?_, fun h10 => ?_⟩⟩
    · rw [positionWord_record h4, records w h4, packs]
    · rw [positionWord_status hx h5 h9, statuses c x w h5 h9, packs]
    · have h16 : w ≤ 16 := by simpa [last, hx] using hw
      rw [positionWord_counter hx h10 h16, counters_word x.counters h10 h16]

end Sys2Proof.Proofs

/-! Proofs: BSYNC, the frame events and the proving run (O10, O11, O12, O13, O16). -/

namespace Sys2Proof.Proofs

open Sys2Proof Sys2Proof.Machine Sys2Proof.Laws

/-! ### BSYNC (R77, R78, R80) -/

theorem bsyncVerdict_good {h : Hwi} (ht : h.timing = .good) (bsync : Bool) : h.bsyncVerdict bsync = h.bsyncGood bsync :=
  if_pos ht

theorem bsyncVerdict_prove {h : Hwi} (ht : h.timing = .prove) (bsync : Bool) :
    h.bsyncVerdict bsync = h.bsyncProve bsync := if_neg (by rw [ht]; decide)

theorem plus_one_val {b : BlockIndex} (hb : b.val < 159) : (BlockIndex.plus b 1).val = b.val + 1 :=
  Nat.mod_eq_of_lt (by omega)

/-- Settles O10: by the timing state, and in each by whether the block ends at this frame event. -/
theorem bsyncTable : Obligations.BsyncTable := by
  intro h b hb
  have ends : b = 159 ↔ b.val = 159 := Fin.ext_iff
  refine ⟨fun ht => ?_, fun ht => ?_, fun ht => ?_⟩
  · simp only [bsyncVerdict_good ht, Hwi.bsyncGood, Hwi.index, hb, Option.getD_some, ends]
    refine ⟨fun h159 => by simp [h159], fun h159 hm => by simp [h159, hm], fun h159 hm => by simp [h159, hm],
      fun hlt => by simp [hlt.ne], fun hlt => ⟨_, plus_one_val hlt, by simp [hlt.ne]⟩⟩
  · simp only [bsyncVerdict_prove ht, Hwi.bsyncProve, hb, ends]
    exact ⟨fun h159 => by simp [h159], fun h159 => by simp [h159], fun hlt => by simp [hlt.ne],
      fun hlt => ⟨_, plus_one_val hlt, by simp [hlt.ne]⟩⟩
  · have undefined (bsync : Bool) := bsyncVerdict_prove (h := { h with blockIndex := none }) ht bsync
    exact ⟨(undefined true).trans rfl, (undefined false).trans rfl⟩

/-! ### The commands of the timing lines -/

theorem atTiming_on {ok : Hwi → Bool} {f : State → State} {s : State} (h : ok s.settle.hwi = true) :
    s.atTiming ok f = f s.settle := if_pos h

theorem atTiming_off {ok : Hwi → Bool} {f : State → State} {s : State} (h : ok s.settle.hwi = false) :
    s.atTiming ok f = s := if_neg (by simp [h])

/-- Settles O11: by whether there is a reference, and by whether the proving run is over. -/
theorem referenceAndTimingGood : Obligations.ReferenceAndTimingGood := by
  refine ⟨fun bsync s hheld => ?_, fun s hheld => ?_⟩
  · have run : exec (.frameReferenceSet bsync) s = .next (s.doFrameReferenceSet bsync) := next_live hheld
    intro u
    rw [run]
    refine ⟨fun ht => ?_, fun ht => ?_⟩
    · rw [State.doFrameReferenceSet, atTiming_on (by simpa using ht)]
      rfl
    · rw [State.doFrameReferenceSet, atTiming_off (by simpa using ht)]
  · have run : exec .timingGood s = .next s.doTimingGood := next_live hheld
    rw [run]
    refine ⟨fun ht hrun hdue => ?_, fun hnot => ?_⟩
    · rw [State.doTimingGood, if_pos (by simp [Hwi.provedDue, ht, hrun, hdue])]
      rfl
    · have waits : s.hwi.provedDue = false := by
        simp only [Hwi.provedDue, Bool.and_eq_false_iff, decide_eq_false_iff_not]
        tauto
      rw [State.doTimingGood, if_neg (by simp [waits])]

theorem markedFrame_goes {u : State} {bsync regular : Bool} {index : Option BlockIndex} {mark : Option BlockMark}
    (h : u.hwi.bsyncVerdict bsync = .goes index regular mark) (l : Lanes) :
    u.markedFrame bsync l = u.produceFrame 0 index regular mark l := by
  simp [State.markedFrame, h]

theorem markedFrame_fault_good {u : State} {bsync : Bool} (h : u.hwi.bsyncVerdict bsync = .fault)
    (ht : u.hwi.timing = .good) (l : Lanes) : u.markedFrame bsync l = u.loseTimingAtFrame := by
  simp [State.markedFrame, h, ht]

theorem markedFrame_fault_prove {u : State} {bsync : Bool} (h : u.hwi.bsyncVerdict bsync = .fault)
    (ht : u.hwi.timing = .prove) (l : Lanes) : u.markedFrame bsync l = (u.onHwi (fun h =>
      { h with frameCount := h.frameCount + 1, hclkCount := 0, clockWatch := 0 })).abandonProving := by
  simp [State.markedFrame, h, ht]

theorem bridgedFrame_goes {u : State} {bsync regular : Bool} {index : Option BlockIndex} {mark : Option BlockMark}
    (h : u.hwi.bsyncVerdict bsync = .goes index regular mark) (l : Lanes) :
    u.bridgedFrame bsync l =
      (u.produceFrame (u.hwi.frameMisses + 1) index regular mark l).count .bridgedFrameMarkers := by
  simp [State.bridgedFrame, h]

theorem bridgedFrame_fault {u : State} {bsync : Bool} (h : u.hwi.bsyncVerdict bsync = .fault) (l : Lanes) :
    u.bridgedFrame bsync l = u.loseTimingAtFrame := by
  simp [State.bridgedFrame, h]

/-- The work of FRAME_EVENT with a reference: the marked frame of the settled state. -/
theorem exec_frameEvent {s : State} (hheld : s.life.held = false) (ht : s.settle.hwi.timing ≠ .seek) (bsync : Bool)
    (l : Lanes) : exec (.frameEvent bsync l) s = .next (s.settle.markedFrame bsync l) :=
  (next_live hheld).trans (congrArg _ (atTiming_on (by simpa using ht)))

/-- The work of BRIDGED_FRAME_EVENT at the first and the second missing FSYNC in GOOD. -/
theorem exec_bridgedFrameEvent {s : State} (hheld : s.life.held = false) (ht : s.settle.hwi.timing = .good)
    (hm : s.settle.hwi.frameMisses < 2) (bsync : Bool) (l : Lanes) :
    exec (.bridgedFrameEvent bsync l) s = .next (s.settle.bridgedFrame bsync l) :=
  (next_live hheld).trans (congrArg _ (atTiming_on (by simp [ht, hm])))

/-- Settles O12: a frame event without a reference finds nothing to do, and another makes the frame BSYNC allows. -/
theorem markedFrameEvent : Obligations.MarkedFrameEvent := by
  intro bsync y s index regular mark hheld u
  refine ⟨fun ht => ?_, fun ht hv => ?_⟩
  · exact (next_live hheld).trans (congrArg _ (atTiming_off (by simpa using ht)))
  · rw [exec_frameEvent hheld ht, markedFrame_goes hv]
    rfl

/-- Settles O13: the frame of O12 with one more miss and one more count, up to the second miss in a row. -/
theorem bridgedFrameEvent : Obligations.BridgedFrameEvent := by
  intro bsync y s index regular mark hheld u
  refine ⟨fun ht hm hv => ?_, fun hnot => ?_⟩
  · rw [exec_bridgedFrameEvent hheld ht hm, bridgedFrame_goes hv]
    rfl
  · have off : (decide (s.settle.hwi.timing = .good) && decide (s.settle.hwi.frameMisses < 2)) = false := by
      simp only [Bool.and_eq_false_iff, decide_eq_false_iff_not, not_lt]
      exact hnot
    exact (next_live hheld).trans (congrArg _ (atTiming_off off))

/-! ### A pause of HCLK outside a window, and the end of the proving run (R78, R81) -/

theorem gapOut_outside (noise : List Bool) (s : State) : s.gapOut [] noise = clReleased := by
  simp [State.gapOut]

section
variable {s : State} (hheld : s.life.held = false) {n : Nat} (hn : 10000 < n) (edge : Nat) (others noise : List Bool)
include hheld hn

/-- A pause of more than 10 µs in GOOD: timing is lost at the edge before it. -/
theorem exec_hclkGap_good (ht : (s.untilGap others noise).hwi.timing = .good) :
    exec (.hclkGap ⟨n, edge, others, noise⟩) s = .next ((((s.untilGap others noise).onHwi
      (fun h => { h with clockWatch := n, hclkCount := edge })).loseTiming).onHwi
      (fun h => { h with clOut := s.gapOut others noise })) := by
  have run : exec (.hclkGap ⟨n, edge, others, noise⟩) s = .next (s.doHclkGap n edge others noise) := next_live hheld
  rw [run, State.doHclkGap, if_pos hn]
  simp only [onHwi_hwi, ht]
  rfl

/-- In PROVE it ends the proving run. -/
theorem exec_hclkGap_prove (ht : (s.untilGap others noise).hwi.timing = .prove) :
    exec (.hclkGap ⟨n, edge, others, noise⟩) s =
      .next ((s.untilGap others noise).onHwi (fun h => { h with clockWatch := n })).abandonProving := by
  have run : exec (.hclkGap ⟨n, edge, others, noise⟩) s = .next (s.doHclkGap n edge others noise) := next_live hheld
  rw [run, State.doHclkGap, if_pos hn]
  simp only [onHwi_hwi, ht]

/-- In SEEK there is no reference to lose. -/
theorem exec_hclkGap_seek (ht : (s.untilGap others noise).hwi.timing = .seek) :
    exec (.hclkGap ⟨n, edge, others, noise⟩) s =
      .next ((s.untilGap others noise).onHwi (fun h => { h with clockWatch := n })) := by
  have run : exec (.hclkGap ⟨n, edge, others, noise⟩) s = .next (s.doHclkGap n edge others noise) := next_live hheld
  rw [run, State.doHclkGap, if_pos hn]
  simp only [onHwi_hwi, ht]

end

theorem exec_hclkGap_short {s : State} (hheld : s.life.held = false) {n : Nat} (hn : n ≤ 10000) (edge : Nat)
    (others noise : List Bool) : exec (.hclkGap ⟨n, edge, others, noise⟩) s =
      .next (s.onHwi (fun h => { h with clockWatch := n })) :=
  (next_live hheld).trans (congrArg _ (if_neg (Nat.not_lt.2 hn)))

/-- The work of STRAY_FSYNC where there is a reference. -/
theorem exec_strayFsync {s : State} (hheld : s.life.held = false) (ht : s.settle.hwi.timing ≠ .seek) {e : Nat}
    (h1 : 1 ≤ e) (h2 : e ≤ 2047) : exec (.strayFsync e) s =
      .next (if s.settle.hwi.timing = .prove
        then (s.settle.onHwi (fun h => { h with hclkCount := e, clockWatch := 0 })).abandonProving
        else s.settle.onHwi (fun h => { h with hclkCount := e, clockWatch := 0 })) := by
  have run : exec (.strayFsync e) s = .next (s.doStrayFsync e) := next_live hheld
  rw [run, State.doStrayFsync, if_pos ⟨h1, h2⟩, atTiming_on (by simpa using ht)]
  rfl

/-- Settles O16: by the event that ends the proving run, and by the timing state where the event is no such thing. -/
theorem provingAbandoned : Obligations.ProvingAbandoned := by
  intro e n edge s hheld u seek
  have outside := untilGap_outside ([] : List Bool) s
  refine ⟨fun ht => ?_, fun b y ht hv => ?_, fun ht h1 h2 => ?_, fun ht hn => ?_, fun ht h1 h2 => ?_, fun ht hn => ?_,
    fun others noise hn => ?_⟩
  · exact (next_live hheld).trans (congrArg _ (atTiming_on (by simpa using ht)))
  · rw [exec_frameEvent hheld (by rw [ht]; decide), markedFrame_fault_prove hv ht]
    rfl
  · rw [exec_strayFsync hheld (by rw [ht]; decide) h1 h2, if_pos ht]
    rfl
  · rw [exec_hclkGap_prove hheld hn _ _ _ (by rwa [outside]), outside]
    rfl
  · rw [exec_strayFsync hheld (by rw [ht]; decide) h1 h2, if_neg (by rw [ht]; decide)]
    rfl
  · rw [exec_hclkGap_seek hheld hn _ _ _ (by rwa [outside]), outside]
    rfl
  · exact exec_hclkGap_short hheld hn edge others noise

end Sys2Proof.Proofs

/-! Proofs: SO, PO and the fault flags (O39), the retreat and the loss of timing. -/

namespace Sys2Proof.Proofs

open Sys2Proof Sys2Proof.Machine Sys2Proof.Laws

/-! ### The fault flags (R167, R168, R173) -/

theorem flagOrder_inj {f g : FaultFlag} : flagOrder f = flagOrder g ↔ f = g := by
  cases f <;> cases g <;> decide

theorem flagOrder_lt (f : FaultFlag) : flagOrder f < 8 := by cases f <;> decide

theorem exists_flagOrder {i : Nat} (h : i < 8) : ∃ f, flagOrder f = i := by
  have all : ∀ i : Fin 8, ∃ f ∈ ([.configDefaulted, .configBad, .timingLost, .declaredLost, .noticeAbandoned,
      .duplicateNumber, .streamLost, .overload] : List FaultFlag), flagOrder f = i.val := by decide
  obtain ⟨f, -, hf⟩ := all ⟨i, h⟩
  exact ⟨f, hf⟩

theorem isSet_withFlag (r : ReportUnit) (f g : FaultFlag) :
    (r.withFlag f).isSet g = (r.isSet g || decide (g = f)) := by
  have bit : (BitVec.twoPow 8 (flagOrder f)).getLsbD (flagOrder g) = decide (g = f) := by
    simp [flagOrder_lt, flagOrder_inj, eq_comm]
  rw [ReportUnit.isSet, ReportUnit.withFlag, BitVec.getLsbD_or, bit]
  rfl

theorem alertLow_iff (s : State) : s.alertLow = true ↔ ∃ f, s.report.isSet f = true := by
  have clear : s.report.flags = 0 ↔ ∀ f, s.report.isSet f = false := by
    refine ⟨fun h f => by simp [ReportUnit.isSet, h], fun h => BitVec.eq_of_getLsbD_eq fun i hi => ?_⟩
    obtain ⟨f, rfl⟩ := exists_flagOrder hi
    simpa [ReportUnit.isSet] using h f
  rw [State.alertLow, decide_eq_true_iff, Ne, clear, not_forall]
  exact exists_congr fun f => by simp

theorem raiseFlag_set {s : State} {f : FaultFlag} (h : s.report.isSet f = true) : s.raiseFlag f = s := if_pos h

/-- A raise of a clear flag in LISTEN or ACTIVE: the flag, and the REPORT of the flags as it leaves them. -/
theorem raiseFlag_told {s : State} {f : FaultFlag} (h : s.report.isSet f = false) (hp : s.participates = true) :
    s.raiseFlag f = (s.onReport (fun r => r.withFlag f)).place
      (.report 0 0x02#8 (s.report.withFlag f).flagsValue) := by
  have hp' : (s.onReport (fun r => r.withFlag f)).participates = true := hp
  simp [State.raiseFlag, h, hp', State.placeReport]

theorem raiseFlag_untold {s : State} {f : FaultFlag} (h : s.report.isSet f = false) (hp : s.participates = false) :
    s.raiseFlag f = s.onReport (fun r => r.withFlag f) := by
  have hp' : (s.onReport (fun r => r.withFlag f)).participates = false := hp
  simp [State.raiseFlag, h, hp']

theorem raiseFlag_flags {s : State} {f : FaultFlag} (h : s.report.isSet f = false) :
    (s.raiseFlag f).report.flags = (s.report.withFlag f).flags := by
  cases hp : s.participates with
  | true => rw [raiseFlag_told h hp, place_report_flags]; rfl
  | false => rw [raiseFlag_untold h hp]; rfl

theorem isSet_of_flags {r q : ReportUnit} (h : r.flags = q.flags) (f : FaultFlag) : r.isSet f = q.isSet f := by
  rw [ReportUnit.isSet, h, ReportUnit.isSet]

/-- Whatever it was, a flag stands after its raise. -/
theorem isSet_raiseFlag (f : FaultFlag) (s : State) : (s.raiseFlag f).report.isSet f = true := by
  cases h : s.report.isSet f with
  | true => rwa [raiseFlag_set h]
  | false => rw [isSet_of_flags (raiseFlag_flags h), isSet_withFlag]; simp

/-! ### SO and PO (R84) -/

theorem posOfCode_slot {w : Nat} (p : Pos) {i : Nat} (hi : i < w) : posOfCode ((w * p.val + i) / w) = p := by
  rw [Nat.mul_add_div (by omega), Nat.div_eq_of_lt hi]
  exact Fin.ext (Nat.mod_eq_of_lt p.isLt)

theorem drivenBefore_none {s : State} (hr : s.released = []) (p : Pos) (b : Nat) : s.drivenBefore p b = none := by
  simp [State.drivenBefore, hr]

/-- Where a slot of p is on record, it was driven up to the bit-time of its release. -/
theorem drivenBefore_some {s : State} {p : Pos} {r : ReleasedSlot}
    (h : s.released.find? (fun r => decide (r.position = p)) = some r) (b : Nat) :
    s.drivenBefore p b = if b < r.bitTime then some r else none := by
  simp [State.drivenBefore, h, Option.filter]

theorem soLevel_slot (s : State) (p : Pos) {i : Nat} (hi : i < 8) : s.soLevel (8 * p.val + i) =
    (((s.drivenBefore p (8 * p.val + i)).map ReleasedSlot.sample).getD (s.soSlot p)).map
      (fun v => v.getLsbD (7 - i)) := by
  have place : (8 * p.val + i) % 8 = i := by omega
  rw [State.soLevel, if_pos (by omega), posOfCode_slot p hi, place]
  dsimp only
  cases s.drivenBefore p (8 * p.val + i) <;> rfl

theorem poLevel_slot (s : State) (p : Pos) {i : Nat} (hi : i < 4) : s.poLevel (4 * p.val + i) =
    (((s.drivenBefore p (4 * p.val + i)).map ReleasedSlot.nibble).getD (s.poNibble p)).map
      (fun v => v.getLsbD (3 - i)) := by
  have place : (4 * p.val + i) % 4 = i := by omega
  rw [State.poLevel, if_pos (by omega), posOfCode_slot p hi, place]
  dsimp only
  cases s.drivenBefore p (4 * p.val + i) <;> rfl

/-- Settles O39: the slots by the position's context, the levels by slot and record, the flags by whether one was set. -/
theorem outputsAndFlags : Obligations.OutputsAndFlags := by
  intro s
  refine ⟨fun p hp => by simp [State.soSlot, State.poNibble, hp], fun p c x hp hst => ?_, fun p c x hp h1 h2 => ?_,
    fun hr p i => ⟨fun hi => ?_, fun hi => ?_⟩, fun p r i hr => ⟨fun hi => ?_, fun hi => ?_⟩,
    fun b => ⟨fun hb => ?_, fun hb => ?_⟩, alertLow_iff s, fun f hf => raiseFlag_set hf, fun f hf =>
    ⟨raiseFlag_flags hf, isSet_raiseFlag f s, fun g hg => ?_, ?_, ?_, ?_⟩⟩
  · have drives : x.drives = true := by simpa [Context.drives] using hst
    simp [State.soSlot, State.poNibble, hp, drives]
  · have drives : x.drives = false := by simp [Context.drives, h1, h2]
    simp [State.soSlot, State.poNibble, hp, drives]
  · rw [soLevel_slot s p hi, drivenBefore_none hr]; rfl
  · rw [poLevel_slot s p hi, drivenBefore_none hr]; rfl
  · rw [soLevel_slot s p hi, drivenBefore_some hr]
    split_ifs <;> rfl
  · rw [poLevel_slot s p hi, drivenBefore_some hr]
    split_ifs <;> rfl
  · exact if_neg (by omega)
  · exact if_neg (by omega)
  · rw [isSet_of_flags (raiseFlag_flags hf), isSet_withFlag]; simp [hg]
  · exact (alertLow_iff _).2 ⟨f, isSet_raiseFlag f s⟩
  · exact raiseFlag_told hf
  · exact raiseFlag_untold hf

/-! ### The retreat (R107, R162, R163) -/

theorem retreat_elsewhere {s : State} (h : s.participates = false) (cause : RetreatCause) : s.retreat cause = s :=
  if_neg (by simp [h])

/-- A retreat from LISTEN or ACTIVE, block by block. -/
theorem retreat_eq {s : State} (h : s.participates = true) (cause : RetreatCause) : s.retreat cause =
    { s with
      hwi := { s.hwi with clOut := clReleased }
      table := { contexts := [], reservations := [] }
      engines := { queue := [], running := [], lateCount := 0 }
      notice := NoticeCtl.empty
      mapu := { intake := [], map := [], roster := [], sweep := none, listenCount := 0, mapComplete := false,
                mapTime := s.mapu.mapTime, turn := false }
      pool := { shedGrace := 0, holdOff := 0, shedding := none, fill := none, takenMarks := [], heartbeat := 0,
                freshPending := false, cursor := 255, stage := .idle, ageingDue := false }
      life := { s.life with station := .retreat, quietCount := 0, lastCause := cause, quietJudge := false }
      report := { s.report.counted .retreats with cursor := none }
      released := s.released ++ s.table.contexts.map (fun e => e.2.releasedAt s.hwi.hclkCount) } := by
  rw [State.retreat, if_pos h]
  simp [State.count, State.onReport, State.cutSlots, State.allContexts, List.map_map, Function.comp_def]

/-! ### What the cause of a retreat raises before it (R173) -/

theorem participates_of_life {s t : State} (h : t.life = s.life) : t.participates = s.participates := by
  simp [State.participates, h]

/-- Contexts cut at n, and again by the retreat that follows: the first cut counts (R84). -/
theorem releasedFrom_of_two_cuts {s t : State} {n m : Nat} (hs : s.released = [])
    (ht : t.released = s.table.contexts.map (fun e => e.2.releasedAt n) ++
      s.table.contexts.map (fun e => e.2.releasedAt m))
    (hc : t.table.contexts = []) : s.releasedFrom n t := by
  refine releasedFrom_of_cut hs ht (fun r hm => ?_) hc
  obtain ⟨e, he, rfl⟩ := List.mem_map.1 hm
  exact ⟨e, he, rfl⟩

theorem releasedFrom_of_one_cut {s t : State} {n : Nat} (hs : s.released = [])
    (ht : t.released = s.table.contexts.map (fun e => e.2.releasedAt n)) (hc : t.table.contexts = []) :
    s.releasedFrom n t :=
  releasedFrom_of_cut (l := []) hs (by rw [ht, List.append_nil]) (by simp) hc

/-- A retreat with its cause's flag raised: the flag stands, the outbox and the intake are empty, and what the contexts
had driven is on record. -/
theorem raiseFlag_retreat {s : State} (h : s.participates = true) (f : FaultFlag) (cause : RetreatCause) :
    let t := (s.raiseFlag f).retreat cause
    t.report.isSet f = true ∧ t.notice.outbox = [] ∧ t.mapu.intake = [] ∧ t.table.contexts = [] ∧
      t.hwi = { s.hwi with clOut := clReleased } ∧
      t.life = { s.life with station := .retreat, quietCount := 0, lastCause := cause, quietJudge := false } ∧
      t.released = s.released ++ s.table.contexts.map (fun e => e.2.releasedAt s.hwi.hclkCount) := by
  have flag := isSet_raiseFlag f s
  have hp : (s.raiseFlag f).participates = true := (participates_of_life (by simp)).trans h
  rw [retreat_eq hp]
  exact ⟨flag, rfl, rfl, rfl, by simp, by simp, by simp⟩

end Sys2Proof.Proofs

/-! Proofs: the loss of timing outside a window, and the retreat it brings (O15). -/

namespace Sys2Proof.Proofs

open Sys2Proof Sys2Proof.Machine Sys2Proof.Laws

/-! ### The loss of timing (R82) -/

/-- A station that is neither in LISTEN nor in ACTIVE places no REPORT of a flag it raises. -/
theorem raiseFlag_elsewhere {s : State} (hp : s.participates = false) (f : FaultFlag) :
    ∃ r, s.raiseFlag f = s.onReport (fun _ => r) := by
  cases h : s.report.isSet f with
  | true => exact ⟨s.report, raiseFlag_set h⟩
  | false => exact ⟨s.report.withFlag f, raiseFlag_untold h hp⟩

/-- What the loss of timing is in every station. -/
theorem loseTiming_lost (u : State) : u.loseTiming.hwi = { u.hwi.toSeek with clOut := clReleased } ∧
    u.loseTiming.report.isSet .timingLost = true := by
  let v : State := u.onHwi (fun h => { h.toSeek with clOut := clReleased })
  cases hp : u.participates with
  | true =>
    obtain ⟨flag, -, -, -, hwi, -⟩ := raiseFlag_retreat (s := v) hp .timingLost .timing
    exact ⟨hwi, flag⟩
  | false =>
    have stays : u.loseTiming = v.raiseFlag .timingLost :=
      retreat_elsewhere ((participates_of_life (by simp)).trans hp) _
    rw [stays]
    exact ⟨by simp [v], isSet_raiseFlag _ _⟩

/-- In LISTEN and ACTIVE the loss of timing is a retreat as well. -/
theorem loseTiming_retreats {u : State} (hp : u.participates = true) :
    u.loseTiming.notice.outbox = [] ∧ u.loseTiming.mapu.intake = [] ∧ u.loseTiming.table.contexts = [] ∧
      u.loseTiming.life =
        { u.life with station := .retreat, quietCount := 0, lastCause := .timing, quietJudge := false } ∧
      u.loseTiming.released = u.released ++ u.table.contexts.map (fun e => e.2.releasedAt u.hwi.hclkCount) := by
  obtain ⟨-, outbox, intake, contexts, -, life, released⟩ :=
    raiseFlag_retreat (s := u.onHwi (fun h => { h.toSeek with clOut := clReleased })) hp .timingLost .timing
  exact ⟨outbox, intake, contexts, life, released⟩

/-- Elsewhere it leaves every block but the Highway Interface and the Report Unit as it is. -/
theorem loseTiming_elsewhere {u : State} (hp : u.participates = false) :
    u.loseTiming.life = u.life ∧ u.loseTiming.table = u.table ∧ u.loseTiming.engines = u.engines ∧
      u.loseTiming.notice = u.notice ∧ u.loseTiming.mapu = u.mapu ∧ u.loseTiming.pool = u.pool := by
  let v : State := u.onHwi (fun h => { h.toSeek with clOut := clReleased })
  have stays : u.loseTiming = v.raiseFlag .timingLost :=
    retreat_elsewhere ((participates_of_life (by simp)).trans hp) _
  obtain ⟨r, hr⟩ := raiseFlag_elsewhere (s := v) hp .timingLost
  rw [stays, hr]
  exact ⟨rfl, rfl, rfl, rfl, rfl, rfl⟩

/-- Timing is lost in u with t as the outcome: SEEK, the lanes released, the flag, and a retreat in LISTEN and ACTIVE.
The clock watch then stands at watch, and SO and PO are released from bit-time cut on. -/
def timingLostIn (u t : State) (watch cut : Nat) : Prop :=
  t.hwi = { u.hwi.toSeek with clOut := clReleased, clockWatch := watch, hclkCount := t.hwi.hclkCount } ∧
    (u.participates = true → u.released = [] → u.releasedFrom cut t) ∧ t.report.isSet .timingLost = true ∧
    (u.participates = true → t.life = { u.life with station := .retreat, quietCount := 0, lastCause := .timing,
                                                    quietJudge := false }) ∧
    (u.participates = false → t.life = u.life ∧ t.table = u.table ∧ t.engines = u.engines ∧ t.notice = u.notice ∧
      t.mapu = u.mapu ∧ t.pool = u.pool)

/-- A loss at an edge at which a frame event was expected: not before the frame's end (R79, R80). -/
theorem timingLostIn_atFrame (u : State) : timingLostIn u u.loseTimingAtFrame 0 2048 := by
  let v : State := u.atEdge.cutSlots 2048 u.allContexts
  obtain ⟨hwi, flag⟩ := loseTiming_lost v
  have lost : u.loseTimingAtFrame = v.loseTiming := rfl
  rw [lost]
  refine ⟨by rw [hwi]; rfl, fun hp hr => ?_, flag, fun hp => ?_, fun hp => loseTiming_elsewhere (u := v) hp⟩
  · obtain ⟨-, -, contexts, -, released⟩ := loseTiming_retreats (u := v) hp
    refine releasedFrom_of_two_cuts (m := v.hwi.hclkCount) hr ?_ contexts
    rw [released]
    simp [v, hr, State.atEdge, State.allContexts]
  · obtain ⟨-, -, -, life, -⟩ := loseTiming_retreats (u := v) hp
    exact life

/-- A loss that a pause of HCLK brings: at the edge before the pause (R81). -/
theorem timingLostIn_gap (u : State) (n edge : Nat) : timingLostIn u
    (((u.onHwi (fun h => { h with clockWatch := n, hclkCount := edge })).loseTiming).onHwi
      (fun h => { h with clOut := clReleased })) n edge := by
  let v : State := u.onHwi (fun h => { h with clockWatch := n, hclkCount := edge })
  obtain ⟨hwi, flag⟩ := loseTiming_lost v
  refine ⟨?_, fun hp hr => ?_, flag, fun hp => ?_, fun hp => loseTiming_elsewhere (u := v) hp⟩
  · rw [onHwi_hwi, hwi]; rfl
  · obtain ⟨-, -, contexts, -, released⟩ := loseTiming_retreats (u := v) hp
    exact releasedFrom_of_one_cut hr (by rw [onHwi_released, released]; simp [v, hr]) contexts
  · obtain ⟨-, -, -, life, -⟩ := loseTiming_retreats (u := v) hp
    exact life

/-- The events at which timing is lost in GOOD, outside a window (R79 to R81). -/
theorem timing_is_lost {c : Instr} {s : State} (hheld : s.life.held = false) (ht : s.settle.hwi.timing = .good)
    (hc : (c = .frameMarkerMiss ∧ 2 ≤ s.settle.hwi.frameMisses) ∨
      (∃ n e, c = .hclkGap ⟨n, e, [], []⟩ ∧ 10000 < n) ∨
      (∃ b y, c = .frameEvent b y ∧ s.settle.hwi.bsyncVerdict b = .fault) ∨
      (∃ b y, c = .bridgedFrameEvent b y ∧ s.settle.hwi.frameMisses < 2 ∧ s.settle.hwi.bsyncVerdict b = .fault)) :
    ∃ t, exec c s = .next t ∧ ((∃ n e, c = .hclkGap ⟨n, e, [], []⟩ ∧ timingLostIn s.settle t n e) ∨
      ((∀ p, c ≠ .hclkGap p) ∧ timingLostIn s.settle t 0 2048)) := by
  have seek : s.settle.hwi.timing ≠ .seek := by rw [ht]; decide
  obtain ⟨rfl, hm⟩ | ⟨n, e, rfl, hn⟩ | ⟨b, y, rfl, hv⟩ | ⟨b, y, rfl, hm, hv⟩ := hc
  · have run : exec .frameMarkerMiss s = .next s.settle.loseTimingAtFrame :=
      (next_live hheld).trans (congrArg _ (atTiming_on (by simp [ht, hm])))
    exact ⟨_, run, .inr ⟨by simp, timingLostIn_atFrame _⟩⟩
  · refine ⟨_, exec_hclkGap_good hheld hn e [] [] (by rwa [untilGap_outside]), .inl ⟨n, e, rfl, ?_⟩⟩
    rw [untilGap_outside, gapOut_outside]
    exact timingLostIn_gap _ n e
  · exact ⟨_, (exec_frameEvent hheld seek b y).trans (congrArg _ (markedFrame_fault_good hv ht y)),
      .inr ⟨by simp, timingLostIn_atFrame _⟩⟩
  · exact ⟨_, (exec_bridgedFrameEvent hheld ht hm b y).trans (congrArg _ (bridgedFrame_fault hv y)),
      .inr ⟨by simp, timingLostIn_atFrame _⟩⟩

end Sys2Proof.Proofs

/-! Proofs: how a station takes part in a control window: what it meets, and what the window leaves behind. -/

namespace Sys2Proof.Proofs

open Sys2Proof Sys2Proof.Machine Sys2Proof.Laws

/-! ### The lane, bit-time by bit-time (R85 to R90) -/

section
variable {others noise : List Bool}

/-- Bits that the station samples as it drives them, or whose first is the start bit, which it does not compare: the
sender goes on with the bits behind them. -/
theorem contend_append {k : Nat} {front : List Bool}
    (h : ∀ i (hi : i < front.length), k + i = 0 ∨ laneSample others noise (k + i) front[i] = front[i])
    (bits : List Bool) : contend others noise k (front ++ bits) =
      { heard := front.mapIdx (fun i b => laneSample others noise (k + i) b) ++
          (contend others noise (k + front.length) bits).heard
        out := front ++ (contend others noise (k + front.length) bits).out
        mismatch := (contend others noise (k + front.length) bits).mismatch } := by
  induction front generalizing k with
  | nil => rfl
  | cons b front ih =>
    have goes : laneSample others noise k b = b ∨ k = 0 := (h 0 (by simp)).symm
    have behind : ∀ i (hi : i < front.length), k + 1 + i = 0 ∨
        laneSample others noise (k + 1 + i) front[i] = front[i] := fun i hi => by
      have := h (i + 1) (by simpa using hi)
      rw [Nat.add_assoc, Nat.add_comm 1 i]
      simpa using this
    rw [List.cons_append, contend, if_pos goes, ih behind, List.mapIdx_cons, List.length_cons]
    simp [Nat.add_assoc, Nat.add_comm 1]

/-- A bit that the station samples otherwise than it drives it ends the sending. -/
theorem contend_mismatch {k : Nat} {b : Bool} (hk : k ≠ 0) (h : laneSample others noise k b ≠ b) (bits : List Bool) :
    contend others noise k (b :: bits) =
      { heard := laneSample others noise k b :: listenFrom others noise (k + 1) bits.length
        out := b :: List.replicate bits.length true
        mismatch := some k } := by
  rw [contend, if_neg (by simp [h, hk])]

/-- A notice that the station samples as it drives it from the start bit on. -/
theorem contend_match {k : Nat} {bits : List Bool}
    (h : ∀ i (hi : i < bits.length), laneSample others noise (k + i) bits[i] = bits[i]) :
    contend others noise k bits = { heard := bits, out := bits, mismatch := none } := by
  have met := contend_append (fun i hi => .inr (h i hi)) []
  have same : bits.mapIdx (fun i b => laneSample others noise (k + i) b) = bits :=
    List.ext_getElem (by simp) (fun i h1 h2 => by simpa using h i h2)
  rw [List.append_nil, same] at met
  rw [met]
  simp [contend]

/-- On a lane without disturbances a released bit-time shows what the others drive. -/
theorem listenFrom_clean (hn : ∀ i, noise.getD i false = false) {k n : Nat} (h : k + n ≤ others.length) :
    listenFrom others noise k n = (others.drop k).take n := by
  refine List.ext_getElem (by simp [listenFrom]; omega) (fun i h1 h2 => ?_)
  have hi : k + i < others.length := by simp [listenFrom] at h1; omega
  have clean := hn (k + i)
  rw [List.getD_eq_getElem?_getD] at clean
  simp [listenFrom, laneSample, clean, hi]

end

/-! ### The window as the station meets it -/

section
variable {s : State} {others noise : List Bool}

theorem quiet_beginWindow (s : State) : s.beginWindow.quiet = s.quiet := by
  unfold State.beginWindow
  split <;> rfl

theorem inWindow_of_quiet (h : s.quiet = true) : s.inWindow = s.beginWindow :=
  settle_of_quiet ((quiet_beginWindow s).trans h)

theorem beginWindow_life (s : State) : s.beginWindow.life = s.life := by
  unfold State.beginWindow
  split <;> rfl

theorem beginWindow_mapu (s : State) : s.beginWindow.mapu = s.mapu := by
  unfold State.beginWindow
  split <;> rfl

theorem takesPart_of_quiet (h : s.atQuietWindow) : s.takesPart = true := by
  obtain ⟨-, hp, -, hq, -⟩ := h
  rw [State.takesPart, inWindow_of_quiet hq, participates_of_life (beginWindow_life s), hp]
  rfl

theorem atWindow_of_quiet (h : s.atQuietWindow) : s.atWindow = s := if_pos h.2.1

theorem exec_controlWindow (h : s.atQuietWindow) (others noise : List Bool) :
    exec (.controlWindow others noise) s = .next (s.takeWindow others noise) := by
  have run : exec (.controlWindow others noise) s = .next (s.doControlWindow others noise) := next_live h.1
  rw [run, State.doControlWindow, if_pos h.2.2.1, atWindow_of_quiet h, if_pos (takesPart_of_quiet h)]

theorem metWindow_of_quiet (h : s.quiet = true) (others noise : List Bool) :
    s.metWindow others noise = s.window s.mapu.intake.length others noise := by
  rw [State.metWindow, inWindow_of_quiet h, beginWindow_mapu]

theorem metWindow_holdDriven (h : s.quiet = true) (others noise : List Bool) :
    (s.metWindow others noise).holdDriven = decide (8 ≤ s.mapu.intake.length) := by
  rw [metWindow_of_quiet h]
  rfl

end

/-! ### The effects of a window -/

section
variable {w : Window} {s : State}

@[simp] theorem onlyIf_true (f : State → State) (s : State) : s.onlyIf true f = f s := rfl
@[simp] theorem onlyIf_false (f : State → State) (s : State) : s.onlyIf false f = s := rfl

theorem onlyIf_count (c : Bool) (k : Counter) (s : State) :
    s.onlyIf c (State.count k) = s.onReport (fun r => if c then r.counted k else r) := by
  cases c <;> rfl

theorem onlyIf_runOn (c : Bool) (s : State) :
    s.onlyIf c State.runOn = s.onNotice (fun k => { k with collisionRun := k.collisionRun + c.toNat }) := by
  cases c <;> rfl

/-- What a window that the station does not carry adds to the counters (R89 to R91, R98). -/
def windowCounts (own : BitVec 4) (w : Window) (r : ReportUnit) : ReportUnit :=
  let r := if w.lostArbitration then r.counted .arbitrationsLost else r
  let r := if w.collided then r.counted .collisions else r
  let r := if w.checkFailed then r.counted .checkFailures else r
  if w.misrouted own then r.counted .misrouted else r

/-- What it adds to the collision run (R90, R98). -/
def windowRun (own : BitVec 4) (w : Window) (k : NoticeCtl) : NoticeCtl :=
  { k with collisionRun := k.collisionRun + w.collided.toNat + (w.foreignOwn own).toNat }

/-- A window that the station does not carry reaches the counters and the collision run only. -/
theorem windowEffect_uncarried (hc : w.carried = false) (hd : s.duplicateEarly w = false) :
    s.windowEffect w = (s.onReport (windowCounts s.ownSender w)).onNotice (windowRun s.ownSender w) := by
  have refused : w.refused = false := by simp [Window.refused, hc]
  simp only [State.windowEffect, hd, Bool.false_eq_true, if_false, refused, hc, Bool.false_and, onlyIf_false,
    onlyIf_count, onlyIf_runOn]
  rfl

/-- The third collision in the window (R90): counted, with the slots cut at its mismatch. -/
theorem windowEffect_duplicate (hd : s.duplicateEarly w = true) :
    s.windowEffect w = (s.cutSlots w.mismatchCount s.allContexts).count .collisions := if_pos hd

/-- A carried notice that is refused has no other effect (R94). -/
theorem windowEffect_refused (hr : w.refused = true) (hm : w.mismatch = none) (hf : w.checkFailed = false) :
    s.windowEffect w = s.noticeRefused := by
  have lost : w.lostArbitration = false := by simp [Window.lostArbitration, hm]
  have collided : w.collided = false := by simp [Window.collided, hm]
  have early : s.duplicateEarly w = false := by simp [State.duplicateEarly, collided]
  have unpassed : decide (w.judgement = .passed) = false := by
    cases hj : w.judgement <;> simp [Window.refused, hj] at hr ⊢
  simp only [State.windowEffect, early, Bool.false_eq_true, if_false, lost, collided, hf, Window.misrouted,
    Window.foreignOwn, unpassed, Bool.false_and, Bool.and_false, onlyIf_false, hr, onlyIf_true]

/-! ### The entry in its window (R103) -/

/-- Nothing waits for an entry in a window in which no step of the frame was left to take. -/
theorem beginWindow_eq (h : s.notice.inWindow = none) : ∃ i : Option InWindow,
    s.beginWindow = s.onNotice (fun k => { k with inWindow := i }) ∧ ∀ x, i = some x → x.waiting = [] := by
  cases hb : s.notice.outbox with
  | nil => exact ⟨none, by rw [beginWindow_empty hb, State.onNotice, ← h], by simp⟩
  | cons e rest => exact ⟨_, beginWindow_head hb, fun x hx => by cases hx; rfl⟩

theorem leavesWindow_unwaited (h : ∀ x, s.notice.inWindow = some x → x.waiting = []) :
    s.leavesWindow = s.onNotice (fun k => { k with inWindow := none }) := by
  unfold State.leavesWindow
  split
  · rename_i hn; rw [State.onNotice, ← hn]
  · rename_i x hx; rw [h x hx]; rfl

@[simp] theorem leavesWindow_contexts (s : State) : s.leavesWindow.table.contexts = s.table.contexts := by
  unfold State.leavesWindow
  split
  · rfl
  · refine foldl_keeps (fun s => s.table.contexts) _ (fun s a => ?_) _ _
    cases a <;> simp [State.takeRequest]

/-- What the station does not carry leaves no trace of the window in the Notice Controller but the collision run. -/
theorem leavesWindow_uncarried (h : s.notice.inWindow = none) (own : BitVec 4) (g : ReportUnit → ReportUnit) :
    ((s.beginWindow.onReport g).onNotice (windowRun own w)).leavesWindow =
      (s.onReport g).onNotice (windowRun own w) := by
  obtain ⟨i, begun, unwaited⟩ := beginWindow_eq h
  rw [begun, leavesWindow_unwaited unwaited]
  simp [State.onNotice, State.onReport, windowRun, ← h]

/-! ### A window that the station does not carry -/

theorem duplicateEarly_beginWindow (s : State) (w : Window) : s.beginWindow.duplicateEarly w = s.duplicateEarly w := by
  unfold State.beginWindow
  split <;> rfl

theorem ownSender_beginWindow (s : State) : s.beginWindow.ownSender = s.ownSender := by
  rw [State.ownSender, State.own, beginWindow_life]; rfl

theorem enterRecord_eq {s : State} (hp : s.participates = true) (hd : w.holdDriven = decide (8 ≤ s.mapu.intake.length)) :
    s.enterRecord w = s.onMap (fun m => { m with
      intake := if 8 ≤ s.mapu.intake.length then s.mapu.intake
        else s.mapu.intake ++ [{ stamp := s.hwi.frameCount, heard := w.heard s.ownSender }] }) := by
  by_cases hl : 8 ≤ s.mapu.intake.length <;> simp [State.enterRecord, hd, hp, hl, State.onMap]

theorem not_abandons (h : w.carried = false) : s.abandons w = false := by simp [State.abandons, Window.refused, h]

/-- A window that the station does not carry and that is no third collision: the counters, the collision run, and its
record unless the station drove hold. -/
theorem takeWindow_uncarried {others noise : List Bool} (h : s.atQuietWindow) (hw : s.metWindow others noise = w)
    (hc : w.carried = false) (he : s.duplicateEarly w = false) (hl : s.duplicateLate w = false) :
    s.takeWindow others noise = { s with
      hwi := { s.hwi with clOut := w.out, windowTaken := true, hclkCount := judgementCount, clockWatch := 0 }
      notice := windowRun s.ownSender w s.notice
      report := windowCounts s.ownSender w s.report
      mapu := { s.mapu with
        intake := if 8 ≤ s.mapu.intake.length then s.mapu.intake
          else s.mapu.intake ++ [{ stamp := s.hwi.frameCount, heard := w.heard s.ownSender }]
        turn := false } } := by
  obtain ⟨-, hp, -, hq, hn⟩ := h
  have hold : w.holdDriven = decide (8 ≤ s.mapu.intake.length) := by rw [← hw, metWindow_holdDriven hq]
  simp only [State.takeWindow, hw, he, hl, inWindow_of_quiet hq, State.windowOut, not_abandons hc, Bool.or_false,
    Bool.false_eq_true, if_false, State.endWindow]
  rw [windowEffect_uncarried hc ((duplicateEarly_beginWindow s w).trans he), leavesWindow_uncarried hn,
    enterRecord_eq, ownSender_beginWindow]
  · rfl
  · exact hp
  · exact hold

/-! ### A window that ends in a retreat -/

/-- The station has retreated in the frame of s, with the flag of the cause set and SO and PO released from n on. -/
def retreatsAt (s t : State) (f : FaultFlag) (cause : RetreatCause) (n : Nat) : Prop :=
  t.life.station = .retreat ∧ t.life.lastCause = cause ∧ t.report.isSet f = true ∧ t.notice.outbox = [] ∧
    t.mapu.intake = [] ∧ (s.released = [] → s.releasedFrom n t)

/-- A retreat at the judgement, or before it where the contexts' slots were cut already (R84). -/
theorem retreatsAt_of_window {v : State} (hp : s.participates = true) (hl : v.life = s.life)
    (hc : v.table.contexts = s.table.contexts) (f : FaultFlag) (cause : RetreatCause) (out : List Bool) {n : Nat}
    (hr : (v.released = s.released ∧ n = judgementCount) ∨
      v.released = s.released ++ s.table.contexts.map (fun e => e.2.releasedAt n)) :
    retreatsAt s ((((v.closeWindowOfFrame out).raiseFlag f).retreat cause).onHwi
      (fun h => { h with clOut := out })) f cause n := by
  have hp' : (v.closeWindowOfFrame out).participates = true :=
    (participates_of_life (show (v.closeWindowOfFrame out).life = s.life from hl)).trans hp
  obtain ⟨flag, outbox, intake, contexts, -, life, released⟩ := raiseFlag_retreat hp' f cause
  have cut : (v.closeWindowOfFrame out).table.contexts.map
      (fun e => e.2.releasedAt (v.closeWindowOfFrame out).hwi.hclkCount) =
      s.table.contexts.map (fun e => e.2.releasedAt judgementCount) := by rw [← hc]; rfl
  have before : (v.closeWindowOfFrame out).released = v.released := rfl
  rw [cut, before] at released
  generalize ((v.closeWindowOfFrame out).raiseFlag f).retreat cause = t at *
  refine ⟨by rw [onHwi_life, life], by rw [onHwi_life, life], flag, outbox, intake, fun hs => ?_⟩
  rcases hr with ⟨hr, rfl⟩ | hr
  · exact releasedFrom_of_one_cut hs (by rw [onHwi_released, released, hr, hs, List.nil_append]) contexts
  · exact releasedFrom_of_two_cuts hs (by rw [onHwi_released, released, hr, hs, List.nil_append]) contexts

/-- The third event of the collision run, at the judgement of a window with the own number (R98). -/
theorem takeWindow_duplicate_late {others noise : List Bool} (h : s.atQuietWindow)
    (hw : s.metWindow others noise = w) (hc : w.carried = false) (he : s.duplicateEarly w = false)
    (hl : s.duplicateLate w = true) :
    retreatsAt s (s.takeWindow others noise) .duplicateNumber .duplicate judgementCount := by
  obtain ⟨-, hp, -, hq, hn⟩ := h
  simp only [State.takeWindow, hw, he, hl, inWindow_of_quiet hq, State.windowOut, Bool.or_true,
    Bool.false_eq_true, if_false, if_true, State.endWindow]
  rw [windowEffect_uncarried hc ((duplicateEarly_beginWindow s w).trans he), leavesWindow_uncarried hn]
  refine retreatsAt_of_window hp ?_ ?_ _ _ _ (.inl ⟨?_, rfl⟩) <;> rfl

/-- The third collision (R90): SO and PO are released at the sample of its mismatch. -/
theorem takeWindow_duplicate_early {others noise : List Bool} (h : s.atQuietWindow)
    (hw : s.metWindow others noise = w) (he : s.duplicateEarly w = true) :
    retreatsAt s (s.takeWindow others noise) .duplicateNumber .duplicate w.mismatchCount := by
  obtain ⟨-, hp, -, hq, hn⟩ := h
  obtain ⟨i, begun, -⟩ := beginWindow_eq hn
  simp only [State.takeWindow, hw, he, inWindow_of_quiet hq, Bool.true_or, if_true, State.endWindow]
  rw [windowEffect_duplicate ((duplicateEarly_beginWindow s w).trans he), begun]
  refine retreatsAt_of_window hp (by simp) (by simp) _ _ _ (.inr ?_)
  simp [State.allContexts]

/-! ### A carried notice that is refused (R94, R95) -/

section
variable {e : OutEntry} {rest : List OutEntry}

theorem sentEntry_head (hb : s.notice.outbox = e :: rest) : s.beginWindow.notice.sentEntry = some e := by
  simp [beginWindow_head hb, NoticeCtl.sentEntry, NoticeCtl.sends, NoticeCtl.begins, hb]

/-- Another try: the entry in its window is the head alone. -/
theorem retrySent_head (hs : s.notice.sound) (hb : s.notice.outbox = e :: rest) : (s.notice.begins e.notice).retrySent =
    { s.notice.begins e.notice with outbox := { e with retries := e.retries + 1 } :: rest } := by
  have others : rest.map (fun x =>
      if x.notice.key = e.notice.key then { x with retries := x.retries + 1 } else x) = rest :=
    List.map_congr_left (fun x hx => if_neg (key_ne_head hs hb x hx)) |>.trans (List.map_id _)
  simp [NoticeCtl.retrySent, NoticeCtl.sends, NoticeCtl.begins, hb, others]

theorem noticeRefused_stays (hs : s.notice.sound) (hb : s.notice.outbox = e :: rest) (hr : e.retries < 31) :
    s.beginWindow.noticeRefused.leavesWindow = { s with
      notice := { s.notice with outbox := { e with retries := e.retries + 1 } :: rest }
      report := s.report.counted .rejectsSeen } := by
  have stays : ¬32 ≤ e.retries + 1 := by omega
  have refused : s.beginWindow.noticeRefused = (s.count .rejectsSeen).onNotice (fun k =>
      { k.begins e.notice with outbox := { e with retries := e.retries + 1 } :: rest }) := by
    simp only [State.noticeRefused, sentEntry_head hb, if_neg stays]
    rw [beginWindow_head hb, State.onNotice]
    exact congrArg (fun k => { s.count .rejectsSeen with notice := k }) (retrySent_head hs hb)
  rw [refused, leavesWindow_unwaited (fun x hx => by cases hx; rfl)]
  simp [State.onNotice, State.count, State.onReport, NoticeCtl.begins, ← hs.2]

/-- The 32nd rejection: the entry leaves, and nothing else of the station but what it stood for. -/
theorem noticeRefused_abandons (hb : s.notice.outbox = e :: rest) (hr : e.retries = 31) :
    s.beginWindow.noticeRefused.life = s.life ∧ s.beginWindow.noticeRefused.released = s.released ∧
      s.beginWindow.noticeRefused.table.contexts = s.table.contexts := by
  have abandoned : s.beginWindow.noticeRefused =
      ((s.beginWindow.count .rejectsSeen).onNotice NoticeCtl.dropSent).departed e.notice := by
    simp only [State.noticeRefused, sentEntry_head hb, if_pos (show 32 ≤ e.retries + 1 by omega)]
  rw [abandoned, beginWindow_head hb]
  simp

variable {others noise : List Bool} (h : s.atQuietWindow) (hb : s.notice.outbox = e :: rest)
  (hw : s.metWindow others noise = w) (hc : w.refused = true) (hm : w.mismatch = none) (hf : w.checkFailed = false)

theorem abandons_iff (hb : s.notice.outbox = e :: rest) (hc : w.refused = true) :
    s.abandons w = decide (32 ≤ e.retries + 1) := by
  simp [State.abandons, hc, State.headEntry, hb]

theorem no_duplicate_of_carried (hc : w.refused = true) (hm : w.mismatch = none) :
    s.duplicateEarly w = false ∧ s.duplicateLate w = false := by
  have carried : w.carried = true := by simp only [Window.refused, Bool.and_eq_true] at hc; exact hc.1
  simp [State.duplicateEarly, State.duplicateLate, Window.collided, Window.foreignOwn, hm, carried]

include h hb hw hc hm hf

/-- A refused notice short of its 32nd rejection is kept for another try; the window's record is an empty mark. -/
theorem takeWindow_refused (hs : s.notice.sound) (hr : e.retries < 31) : s.takeWindow others noise = { s with
    hwi := { s.hwi with clOut := w.out, windowTaken := true, hclkCount := judgementCount, clockWatch := 0 }
    notice := { s.notice with outbox := { e with retries := e.retries + 1 } :: rest }
    report := s.report.counted .rejectsSeen
    mapu := { s.mapu with
      intake := if 8 ≤ s.mapu.intake.length then s.mapu.intake
        else s.mapu.intake ++ [{ stamp := s.hwi.frameCount, heard := w.heard s.ownSender }]
      turn := false } } := by
  obtain ⟨-, hp, -, hq, -⟩ := h
  obtain ⟨early, late⟩ := no_duplicate_of_carried (s := s) hc hm
  have hold : w.holdDriven = decide (8 ≤ s.mapu.intake.length) := by rw [← hw, metWindow_holdDriven hq]
  have stays : s.abandons w = false := by rw [abandons_iff hb hc]; simp; omega
  simp only [State.takeWindow, hw, early, late, inWindow_of_quiet hq, State.windowOut, stays, Bool.or_false,
    Bool.false_eq_true, if_false, State.endWindow]
  rw [windowEffect_refused hc hm hf, noticeRefused_stays hs hb hr, enterRecord_eq]
  · rfl
  · exact hp
  · exact hold

/-- The 32nd rejection abandons the notice, and the station retreats at the judgement (R95). -/
theorem takeWindow_abandoned (hr : e.retries = 31) :
    retreatsAt s (s.takeWindow others noise) .noticeAbandoned .abandoned judgementCount := by
  obtain ⟨-, hp, -, hq, -⟩ := h
  obtain ⟨early, late⟩ := no_duplicate_of_carried (s := s) hc hm
  have gone : s.abandons w = true := by rw [abandons_iff hb hc]; simp [hr]
  obtain ⟨life, released, contexts⟩ := noticeRefused_abandons hb hr
  simp only [State.takeWindow, hw, early, late, inWindow_of_quiet hq, State.windowOut, gone, Bool.or_false,
    Bool.false_eq_true, if_false, if_true, State.endWindow]
  rw [windowEffect_refused hc hm hf]
  exact retreatsAt_of_window hp (by simpa using life) (by simpa using contexts) _ _ _
    (.inl ⟨by simpa using released, rfl⟩)

end

end

end Sys2Proof.Proofs

/-! Proofs: windows on a clean lane: a station that listens, and one that carries its notice (O20, O22). -/

namespace Sys2Proof.Proofs

open Sys2Proof Sys2Proof.Machine Sys2Proof.Laws

/-! ### How long a notice is (R87, R96) -/

theorem body_length (n : Notice) : n.body.length = 32 := by
  have fits : n.bodyFields.length ≤ 32 := by cases n <;> simp [Notice.bodyFields]
  rw [Notice.body, zeroPadded, List.length_append, List.length_replicate, Nat.add_sub_cancel' fits]

theorem encodeNotice_length (n : Notice) (grade : BitVec 8) (sender : BitVec 4) :
    (encodeNotice n grade sender).length = 56 := by
  simp [encodeNotice, body_length]

theorem windowBits_length {bits : List Bool} (h : bits.length = 56) : (windowBits bits).length = 65 := by
  simp [windowBits, h]

theorem windowBits_parts {bits : List Bool} (h : bits.length = 56) : (windowBits bits).getD 0 true = false ∧
    ((windowBits bits).drop 1).take 56 = bits ∧
    ((windowBits bits).drop 57).take 8 = bitsOf 8 (crc8 bits).toNat := by
  have behind : (windowBits bits).drop 57 = bitsOf 8 (crc8 bits).toNat := by
    rw [windowBits, List.drop_succ_cons, ← h, List.drop_left]
  refine ⟨rfl, ?_, by rw [behind, List.take_of_length_le (by simp)]⟩
  rw [windowBits, List.drop_succ_cons, List.drop_zero, ← h, List.take_left]

/-! ### A lane without disturbances (R85) -/

section
variable {s : State} {others noise : List Bool}

theorem laneSample_clean (hn : ∀ i, noise.getD i false = false) (k : Nat) (b : Bool) :
    laneSample others noise k b = (b && others.getD k true) := by
  rw [laneSample, hn, Bool.xor_false]

theorem getD_clean (n i : Nat) : (List.replicate n false).getD i false = false :=
  List.getD_eq_getElem?_getD.trans (List.getElem?_getD_replicate_default_eq ..)

theorem getD_released (n i : Nat) : (List.replicate n true).getD i true = true :=
  List.getD_eq_getElem?_getD.trans (List.getElem?_getD_replicate_default_eq ..)

/-- A station with nothing to send hears what the others drive, and answers with its reject and hold bits (R91, R92). -/
theorem metWindow_listening (h : s.quiet = true) (hb : s.notice.outbox = []) (hn : ∀ i, noise.getD i false = false)
    (hl : 65 ≤ others.length) {failed hold : Bool} (hold_ : hold = decide (8 ≤ s.mapu.intake.length))
    (failed_ : failed = (!others.getD 0 true &&
      decide ((others.drop 57).take 8 ≠ bitsOf 8 (crc8 ((others.drop 1).take 56)).toNat))) :
    s.metWindow others noise =
      { bits := (others.drop 1).take 56, mismatch := none, carried := false, checkFailed := failed, holdDriven := hold
        judgement := judgeReply (others.getD 0 true) (!failed && others.getD 65 true) (!hold && others.getD 66 true)
        out := List.replicate 65 true ++ ([!failed, !hold] ++ List.replicate 5 true) } := by
  have met : s.meetWindow others noise =
      { heard := others.take 65, out := List.replicate 65 true, mismatch := none } := by
    simp only [State.meetWindow, State.headEntry, hb, List.head?_nil]
    rw [listenFrom_clean hn (by omega), List.drop_zero]
  have start : (others.take 65).getD 0 true = others.getD 0 true := by simp
  have bits : ((others.take 65).drop 1).take 56 = (others.drop 1).take 56 := by simp [List.drop_take, List.take_take]
  have check : ((others.take 65).drop 57).take 8 = (others.drop 57).take 8 := by simp [List.drop_take, List.take_take]
  subst hold_ failed_
  simp only [metWindow_of_quiet h, State.window, met, start, bits, check, State.headEntry, hb, laneSample_clean hn,
    List.head?_nil, Option.isSome_none, Bool.false_and, Bool.not_false, Bool.and_true]

/-- A station that samples its notice as it drives it carries the window (R88). -/
theorem metWindow_carried {e : OutEntry} {rest : List OutEntry} (h : s.quiet = true) (hb : s.notice.outbox = e :: rest)
    (hn : ∀ i, noise.getD i false = false) (ho : ∀ i, i < 65 → others.getD i true = true) {hold : Bool}
    (hold_ : hold = decide (8 ≤ s.mapu.intake.length)) :
    s.metWindow others noise =
      { bits := encodeNotice e.notice (s.grade e.notice) s.ownSender, mismatch := none, carried := true
        checkFailed := false, holdDriven := hold
        judgement := judgeReply false (others.getD 65 true) (!hold && others.getD 66 true)
        out := windowBits (encodeNotice e.notice (s.grade e.notice) s.ownSender) ++
          ([true, !hold] ++ List.replicate 5 true) } := by
  have length := encodeNotice_length e.notice (s.grade e.notice) s.ownSender
  obtain ⟨start, bits, -⟩ := windowBits_parts length
  have met : s.meetWindow others noise =
      { heard := windowBits (encodeNotice e.notice (s.grade e.notice) s.ownSender)
        out := windowBits (encodeNotice e.notice (s.grade e.notice) s.ownSender), mismatch := none } := by
    simp only [State.meetWindow, State.headEntry, hb, List.head?_cons]
    refine contend_match (fun i hi => ?_)
    rw [windowBits_length length] at hi
    rw [laneSample_clean hn, Nat.zero_add, ho i hi, Bool.and_true]
  subst hold_
  simp only [metWindow_of_quiet h, State.window, met, start, bits, State.headEntry, hb, laneSample_clean hn,
    List.head?_cons, Option.isSome_some, decide_true, Bool.and_true, Bool.not_true, Bool.and_false, Bool.false_and,
    Bool.not_false, Bool.true_and]

end

/-! ### Windows without a notice (O20) -/

/-- A window in which nothing was found: no counter and no event of the collision run. -/
theorem idle_uneventful {w : Window} (hm : w.mismatch = none) (hf : w.checkFailed = false) (hj : w.judgement ≠ .passed)
    (own : BitVec 4) : (∀ r, windowCounts own w r = r) ∧ (∀ k, windowRun own w k = k) ∧ w.heard own = none := by
  simp [windowCounts, windowRun, Window.lostArbitration, Window.collided, Window.misrouted, Window.foreignOwn,
    Window.heard, hm, hf, hj]

theorem no_duplicate_of_clean {s : State} {w : Window} (hm : w.mismatch = none) (hj : w.judgement ≠ .passed) :
    s.duplicateEarly w = false ∧ s.duplicateLate w = false := by
  simp [State.duplicateEarly, State.duplicateLate, Window.collided, Window.foreignOwn, hm, hj]

/-- A window in which no party sends, by whether the intake is full (R92, R104). -/
theorem takeWindow_idle {s : State} (h : s.atQuietWindow) (hb : s.notice.outbox = []) {hold : Bool}
    (hold_ : hold = decide (8 ≤ s.mapu.intake.length)) :
    s.takeWindow (List.replicate 72 true) (List.replicate 72 false) = { s with
      hwi := { s.hwi with clOut := List.replicate 65 true ++ ([true, !hold] ++ List.replicate 5 true), windowTaken := true,
                          hclkCount := judgementCount, clockWatch := 0 }
      mapu := { s.mapu with
        intake := if 8 ≤ s.mapu.intake.length then s.mapu.intake
          else s.mapu.intake ++ [{ stamp := s.hwi.frameCount, heard := none }]
        turn := false } } := by
  have met := metWindow_listening (others := List.replicate 72 true) (failed := false) h.2.2.2.1 hb (getD_clean 72)
    (by simp) hold_ (by rw [getD_released]; rfl)
  rw [getD_released, judgeReply, if_pos rfl] at met
  obtain ⟨early, late⟩ := no_duplicate_of_clean (s := s) (congrArg Window.mismatch met) (by rw [met]; simp)
  obtain ⟨counts, run, heard⟩ := idle_uneventful (congrArg Window.mismatch met) (congrArg Window.checkFailed met)
    (by rw [met]; simp) s.ownSender
  rw [takeWindow_uncarried h rfl (congrArg Window.carried met) early late, counts, run, heard, met]
  rfl

/-- A station that is neither in LISTEN nor in ACTIVE lets the window of the frame pass (R86, R106). -/
theorem doControlWindow_elsewhere {s : State} (hp : s.participates = false) (hq : s.quiet = true)
    (ha : s.hwi.windowAhead = true) (others noise : List Bool) :
    s.doControlWindow others noise = s.closeWindowOfFrame clReleased := by
  have settled : s.atWindow = s := (if_neg (by simp [hp])).trans (settle_of_quiet hq)
  have aside : s.takesPart = false := by simp [State.takesPart, hp]
  rw [State.doControlWindow, if_pos ha, settled, if_neg (by simp [aside]), settle_of_quiet hq]

/-- Settles O20: the window in which no party sends, and the station that takes no part. -/
theorem windowsWithoutANotice : Obligations.WindowsWithoutANotice := by
  refine ⟨fun s h hb hi => ?_, fun others noise s hheld hp hq => ⟨fun ha => ?_, fun ha => ?_⟩⟩
  · have room : ¬8 ≤ s.mapu.intake.length := by omega
    rw [exec_controlWindow h, takeWindow_idle (hold := false) h hb (by simp [room]), if_neg room]
    rfl
  · exact (next_live hheld).trans (congrArg _ (doControlWindow_elsewhere hp hq ha others noise))
  · exact (next_live hheld).trans (congrArg _ (if_neg (by simp [ha])))

/-! ### A carried notice that is refused (O22) -/

theorem refused_iff {w : Window} :
    w.refused = true ↔ w.carried = true ∧ (w.judgement = .rejected ∨ w.judgement = .held) := by
  simp [Window.refused]

/-- A carried window that a reject bit or a hold bit ends leaves no notice in the intake. -/
theorem heard_unpassed {w : Window} (h : w.judgement ≠ .passed) (own : BitVec 4) : w.heard own = none :=
  if_neg (fun hp => h hp.1)

section
variable {s : State} {e : OutEntry} {rest : List OutEntry} {others : List Bool} {hold : Bool}
  (h : s.atQuietWindow) (hb : s.notice.outbox = e :: rest) (ho : ∀ i, i < 65 → others.getD i true = true)
  (hold_ : hold = decide (8 ≤ s.mapu.intake.length))
  (hr : (others.getD 65 true && (!hold && others.getD 66 true)) = false)
include h hb ho hold_ hr

/-- A carried notice that some party rejects, or that a full intake holds. -/
theorem metWindow_refused : ∃ w, s.metWindow others (List.replicate 72 false) = w ∧ w.refused = true ∧
    w.mismatch = none ∧ w.checkFailed = false ∧ w.heard s.ownSender = none ∧
    w.out = windowBits (encodeNotice e.notice (s.grade e.notice) s.ownSender) ++
      ([true, !hold] ++ List.replicate 5 true) := by
  have judged : judgeReply false (others.getD 65 true) (!hold && others.getD 66 true) = .rejected ∨
      judgeReply false (others.getD 65 true) (!hold && others.getD 66 true) = .held := by
    cases h65 : others.getD 65 true with
    | false => exact .inl rfl
    | true =>
      rw [h65, Bool.true_and] at hr
      rw [hr]
      exact .inr rfl
  refine ⟨_, metWindow_carried h.2.2.2.1 hb (getD_clean 72) ho hold_, ?_, rfl, rfl, heard_unpassed ?_ _, rfl⟩
  · exact refused_iff.2 ⟨rfl, judged⟩
  · exact fun hp => by rcases judged with hj | hj <;> cases hj.symm.trans hp

theorem takeWindow_another_try (hs : s.notice.sound) (hk : e.retries < 31) :
    s.takeWindow others (List.replicate 72 false) = { s with
      hwi := { s.hwi with
        clOut := windowBits (encodeNotice e.notice (s.grade e.notice) s.ownSender) ++
          ([true, !hold] ++ List.replicate 5 true)
        windowTaken := true, hclkCount := judgementCount, clockWatch := 0 }
      notice := { s.notice with outbox := { e with retries := e.retries + 1 } :: rest }
      report := s.report.counted .rejectsSeen
      mapu := { s.mapu with
        intake := if 8 ≤ s.mapu.intake.length then s.mapu.intake
          else s.mapu.intake ++ [{ stamp := s.hwi.frameCount, heard := none }]
        turn := false } } := by
  obtain ⟨w, hw, refused, mismatch, failed, heard, out⟩ := metWindow_refused h hb ho hold_ hr
  rw [takeWindow_refused h hb hw refused mismatch failed hs hk, heard, out]

theorem takeWindow_last_try (hk : e.retries = 31) :
    retreatsAt s (s.takeWindow others (List.replicate 72 false)) .noticeAbandoned .abandoned judgementCount := by
  obtain ⟨w, hw, refused, mismatch, failed, -, -⟩ := metWindow_refused h hb ho hold_ hr
  exact takeWindow_abandoned h hb hw refused mismatch failed hk

end

/-- Settles O22: a reject bit and a full intake, on both sides of the 32nd rejection. -/
theorem refusedNoticeStays : Obligations.RefusedNoticeStays := by
  have rejecting : ∀ i, i < 65 → (List.replicate 65 true ++ false :: List.replicate 6 true).getD i true = true :=
    fun i hi => by rw [List.getD_append _ _ _ _ (by simpa using hi), getD_released]
  refine ⟨fun s e rest h hb hs hi => ?_,
    fun s h hs hi => ⟨fun hb => ?_, fun e rest hb hk => ?_, fun e rest hb hk => ?_⟩⟩
  · have room : ¬8 ≤ s.mapu.intake.length := by omega
    have hold : false = decide (8 ≤ s.mapu.intake.length) := by simp [room]
    refine ⟨fun hk => ?_, fun hk => ?_⟩
    · rw [exec_controlWindow h, takeWindow_another_try h hb rejecting hold rfl hs hk, if_neg room]
      rfl
    · obtain ⟨station, cause, flag, outbox, -, released⟩ := takeWindow_last_try h hb rejecting hold rfl hk
      exact ⟨_, exec_controlWindow h _ _, outbox, station, cause, flag, released⟩
  · rw [exec_controlWindow h, takeWindow_idle (hold := true) h hb (by simp [hi]), if_pos hi]
    rfl
  · have kept := takeWindow_another_try (others := List.replicate 72 true) (hold := true) h hb
      (fun i _ => getD_released 72 i) (by simp [hi]) (by simp) hs hk
    refine ⟨_, exec_controlWindow h _ _, ?_⟩
    rw [kept]
    refine ⟨if_pos hi, rfl, rfl, ?_⟩
    have length := windowBits_length (encodeNotice_length e.notice (s.grade e.notice) s.ownSender)
    rw [List.getD_append_right _ _ _ _ (by omega), length]
    rfl
  · obtain ⟨station, cause, flag, outbox, intake, released⟩ := takeWindow_last_try (others := List.replicate 72 true)
      (hold := true) h hb (fun i _ => getD_released 72 i) (by simp [hi]) (by simp) hk
    exact ⟨_, exec_controlWindow h _ _, outbox, intake, station, cause, flag, released⟩

end Sys2Proof.Proofs

/-! Proofs: a pause of HCLK inside a window, and with it the loss of timing and the retreat (O15). -/

namespace Sys2Proof.Proofs

open Sys2Proof Sys2Proof.Machine Sys2Proof.Laws

/-! ### A window that a pause cuts off (R81, R107) -/

section
variable {s : State} {e : OutEntry} {rest : List OutEntry} {k : Nat}

/-- A pause that falls inside a window of the station, before its judgement. -/
theorem untilGap_inside (h : s.atQuietWindow) {others : List Bool} (noise : List Bool) (h1 : others ≠ [])
    (h2 : others.length < judgedFrom) :
    s.untilGap others noise = s.cutWindow others.length others noise ∧
      s.gapOut others noise = (s.cutWindow others.length others noise).hwi.clOut := by
  have inside : others ≠ [] ∧ s.hwi.windowAhead = true ∧ s.atWindow.takesPart = true :=
    ⟨h1, h.2.2.1, by rw [atWindow_of_quiet h, takesPart_of_quiet h]⟩
  have cut : s.untilGap others noise = s.cutWindow others.length others noise := by
    rw [State.untilGap, if_pos inside, if_neg (by omega), atWindow_of_quiet h]
  exact ⟨cut, by rw [State.gapOut, if_pos inside, cut]⟩

/-- What a station has sent on a clean lane when a pause cuts its window off stands on CL; the rest of the station is as
before the window. -/
theorem cutWindow_sending (h : s.atQuietWindow) (hb : s.notice.outbox = e :: rest) (hk : k ≤ 65) :
    s.cutWindow k (List.replicate k true) (List.replicate k false) = s.onHwi (fun x => { x with
      windowTaken := true
      clOut := (windowBits (encodeNotice e.notice (s.grade e.notice) s.ownSender)).take k ++
        List.replicate (72 - k) true }) := by
  have met := metWindow_carried h.2.2.2.1 hb (getD_clean k) (fun i _ => getD_released k i) rfl
  have length := windowBits_length (encodeNotice_length e.notice (s.grade e.notice) s.ownSender)
  have mismatch : ((s.metWindow (List.replicate k true) (List.replicate k false)).cutAt k).mismatch = none := by
    rw [met]; rfl
  have failed : ((s.metWindow (List.replicate k true) (List.replicate k false)).cutAt k).checkFailed = false := by
    rw [met]; rfl
  have out : ((s.metWindow (List.replicate k true) (List.replicate k false)).cutAt k).out =
      (windowBits (encodeNotice e.notice (s.grade e.notice) s.ownSender)).take k ++ List.replicate (72 - k) true := by
    rw [met, Window.cutAt, List.take_append_of_le_length (by omega)]
  obtain ⟨-, hp, -, hq, hn⟩ := h
  obtain ⟨early, -⟩ := no_duplicate_of_clean (s := s) mismatch (show Judgement.idle ≠ .passed by decide)
  obtain ⟨counts, run, -⟩ := idle_uneventful mismatch failed (show Judgement.idle ≠ .passed by decide) s.ownSender
  simp only [State.cutWindow, early, inWindow_of_quiet hq, State.windowOut, Bool.false_eq_true, if_false, out]
  rw [windowEffect_uncarried rfl ((duplicateEarly_beginWindow s _).trans early), leavesWindow_uncarried hn,
    ownSender_beginWindow, State.onNotice, run, State.onReport, counts]
  rfl

/-- The pause loses timing: CL keeps what was sent, and the station retreats at the edge before the pause. -/
theorem gap_in_window (h : s.atQuietWindow) (ht : s.hwi.timing = .good) (hb : s.notice.outbox = e :: rest)
    (h1 : 1 ≤ k) (hk : k ≤ 65) {n : Nat} (hn : 10000 < n) (edge : Nat) :
    ∃ t, exec (.hclkGap ⟨n, edge, List.replicate k true, List.replicate k false⟩) s = .next t ∧
      t.hwi.clOut = (windowBits (encodeNotice e.notice (s.grade e.notice) s.ownSender)).take k ++
        List.replicate (72 - k) true ∧
      t.hwi.timing = .seek ∧ retreatsAt s t .timingLost .timing edge := by
  obtain ⟨until_, gapOut⟩ := untilGap_inside (others := List.replicate k true) h (List.replicate k false)
    (by simp; omega) (by rw [List.length_replicate, judgedFrom]; omega)
  rw [List.length_replicate, cutWindow_sending h hb hk] at until_ gapOut
  refine ⟨_, exec_hclkGap_good h.1 hn edge _ _ (by rwa [until_]), ?_⟩
  rw [until_, gapOut]
  let v : State := (s.onHwi (fun x => { x with
    windowTaken := true
    clOut := (windowBits (encodeNotice e.notice (s.grade e.notice) s.ownSender)).take k ++
      List.replicate (72 - k) true })).onHwi (fun h => { h with clockWatch := n, hclkCount := edge })
  obtain ⟨hwi, flag⟩ := loseTiming_lost v
  obtain ⟨outbox, intake, contexts, life, released⟩ := loseTiming_retreats (u := v) h.2.1
  refine ⟨rfl, ?_, ?_, ?_, flag, outbox, intake, fun hr => releasedFrom_of_one_cut hr ?_ contexts⟩
  · exact congrArg Hwi.timing hwi
  · exact congrArg Life.station life
  · exact congrArg Life.lastCause life
  · exact released.trans (by rw [show v.released = [] from hr, List.nil_append]; rfl)

end

/-- Settles O15: timing lost outside a window, timing lost by a pause inside one, and the retreat block by block. -/
theorem timingLossAndRetreat : Obligations.TimingLossAndRetreat := by
  refine ⟨fun c s hheld => ?_, fun s e rest k n edge h ht hb h1 hk hn => ?_,
    fun cause s => ⟨fun hp => retreat_elsewhere hp cause, fun hp => ?_⟩⟩
  · intro u driven ht hc
    obtain ⟨t, run, how⟩ := timing_is_lost hheld ht hc
    refine ⟨t, run, ?_⟩
    rcases how with ⟨n, e, hgap, hwi, cut, flag, retreats, stays⟩ | ⟨hnot, hwi, cut, flag, retreats, stays⟩
    · rw [hwi]
      exact ⟨rfl, rfl, rfl, rfl, rfl, rfl, .inl ⟨n, e, hgap, rfl, cut⟩, rfl, flag, retreats, stays⟩
    · rw [hwi]
      exact ⟨rfl, rfl, rfl, rfl, rfl, rfl, .inr ⟨hnot, rfl, cut⟩, rfl, flag, retreats, stays⟩
  · obtain ⟨t, run, out, timing, station, causes, flag, outbox, intake, released⟩ := gap_in_window h ht hb h1 hk hn edge
    exact ⟨t, run, out, timing, station, causes, flag, intake, outbox, released⟩
  · have eq := retreat_eq hp cause
    refine ⟨congrArg State.hwi eq, congrArg State.released eq, fun hr => ?_, ?_⟩
    · exact releasedFrom_of_one_cut hr ((congrArg State.released eq).trans (by rw [hr, List.nil_append]))
        (by rw [eq])
    · rw [eq]
      exact ⟨rfl, rfl, rfl, rfl, rfl, rfl, rfl, rfl, rfl, rfl, rfl, rfl, rfl, rfl, rfl, rfl, rfl, rfl, rfl, rfl, rfl, rfl,
        rfl, rfl, rfl, rfl⟩

end Sys2Proof.Proofs

/-! Proofs: reading a notice back from the bits of its window, and the bits that are no notice. -/

namespace Sys2Proof.Proofs

open Sys2Proof Sys2Proof.Machine Sys2Proof.Laws

/-! ### Fields of a list of bits -/

theorem bitField_lt (bits : List Bool) (off w : Nat) : bitField bits off w < 2 ^ w :=
  lt_of_lt_of_le (ofBits_lt _) (Nat.pow_le_pow_right (by decide) (List.length_take_le ..))

theorem bitField_drop (bits : List Bool) (n off w : Nat) : bitField (bits.drop n) off w = bitField bits (n + off) w := by
  rw [bitField, bitField, List.drop_drop]

/-- The field at the front. -/
theorem bitField_front (w v : Nat) (bits : List Bool) : bitField (bitsOf w v ++ bits) 0 w = v % 2 ^ w := by
  rw [bitField, List.drop_zero, List.take_left' (bitsOf_length w v), ofBits_bitsOf]

theorem bitField_value {w v : Nat} (h : v < 2 ^ w) (bits : List Bool) : bitField (bitsOf w v ++ bits) 0 w = v :=
  (bitField_front w v bits).trans (Nat.mod_eq_of_lt h)

@[simp] theorem bitField_word {w : Nat} (x : BitVec w) (bits : List Bool) :
    bitField (bitsOf w x.toNat ++ bits) 0 w = x.toNat :=
  bitField_value x.isLt bits

/-- A field that stands behind the one at the front. -/
@[simp] theorem bitField_behind {v off : Nat} (h : v ≤ off) (w n : Nat) (bits : List Bool) :
    bitField (bitsOf v n ++ bits) off w = bitField bits (off - v) w := by
  rw [bitField, bitField, List.drop_append, List.drop_of_length_le (by simpa using h), bitsOf_length, List.nil_append]

@[simp] theorem bitField_behind_bit (b : Bool) (off w : Nat) (bits : List Bool) :
    bitField (b :: bits) (off + 1) w = bitField bits off w := rfl

/-! ### Codes (11.1) -/

@[simp] theorem posOfCode_val (p : Pos) : posOfCode p.val = p := Fin.ext (Nat.mod_eq_of_lt p.isLt)

@[simp] theorem stationOfCode_val (q : Station) : stationOfCode q.val = some q := dif_pos q.isLt

@[simp] theorem phaseOfCode_val (b : BlockIndex) : phaseOfCode b.val = some b := dif_pos b.isLt

@[simp] theorem causeOfCode_code (c : TakenCause) : causeOfCode (causeCode c) = some c := by cases c <;> rfl

@[simp] theorem bidRoleOfCode_code (r : BidRole) : bidRoleOfCode (bidRoleCode r) = r := by cases r <;> rfl

@[simp] theorem lawOfBit_bit (l : Law) : lawOfBit (lawBit l) = l := by cases l <;> rfl

@[simp] theorem shadowOfCode_code (q : Option Station) : shadowOfCode (stationOrNoneCode q) = some q := by
  cases q with
  | none => rfl
  | some q => rw [stationOrNoneCode, shadowOfCode, if_neg (by omega), stationOfCode_val]; rfl

theorem stationOrNoneCode_lt (q : Option Station) : stationOrNoneCode q < 2 ^ 4 := by
  cases q with
  | none => decide
  | some q => exact lt_trans q.isLt (by decide)

theorem causeCode_lt (c : TakenCause) : causeCode c < 2 ^ 2 := by cases c <;> decide

theorem bidRoleCode_lt (r : BidRole) : bidRoleCode r < 2 ^ 2 := by cases r <;> decide

theorem kindCode_lt (n : Notice) : n.kindCode < 2 ^ 4 := by cases n <;> simp [Notice.kindCode]

theorem positionField_lt (n : Notice) : n.positionField < 2 ^ 8 := by
  cases n <;> simp [Notice.positionField] <;> omega

/-! ### What is sent is read back (R87, R96, R174) -/

@[simp] theorem fieldWord {w : Nat} (x : BitVec w) (bits : List Bool) :
    BitVec.ofNat w (bitField (bitsOf w x.toNat ++ bits) 0 w) = x := by
  rw [bitField_word, BitVec.ofNat_toNat, BitVec.setWidth_eq]

/-- The body of an admitted notice, kind by kind, each field behind those before it. -/
theorem decodeBody_body {n : Notice} (h : n.admitted = true) :
    decodeBody n.kindCode n.positionField n.body = some n := by
  have body : n.body = n.bodyFields ++ List.replicate (32 - n.bodyFields.length) false := rfl
  generalize List.replicate (32 - n.bodyFields.length) false = pad at body
  cases n with
  | lost q age => simp [decodeBody, Notice.kindCode, Notice.positionField, body, Notice.bodyFields]
  | taken p tag cause ph =>
    simp [decodeBody, Notice.kindCode, Notice.positionField, body, Notice.bodyFields,
      bitField_value (causeCode_lt cause), bitField_value (lt_trans ph.isLt (by decide : 160 < 2 ^ 8))]
  | clear p tag => simp [decodeBody, Notice.kindCode, Notice.positionField, body, Notice.bodyFields]
  | offer p tag law modes mode =>
    have member : ModeSet.member modes mode = true := h
    simp [decodeBody, Notice.kindCode, Notice.positionField, body, Notice.bodyFields,
      bitField_value (show mode.val < 2 ^ 2 from mode.isLt), member]
  | bid p tag role cost =>
    simp [decodeBody, Notice.kindCode, Notice.positionField, body, Notice.bodyFields,
      bitField_value (bidRoleCode_lt role)]
  | shed p tag cost => simp [decodeBody, Notice.kindCode, Notice.positionField, body, Notice.bodyFields]
  | hold p tag law modes mode ph shadow =>
    have member : ModeSet.member modes mode = true := h
    simp [decodeBody, Notice.kindCode, Notice.positionField, body, Notice.bodyFields,
      bitField_value (show mode.val < 2 ^ 2 from mode.isLt),
      bitField_value (lt_trans ph.isLt (by decide : 160 < 2 ^ 8)), bitField_value (stationOrNoneCode_lt shadow), member]
  | present load headroom fc fresh active =>
    simp [decodeBody, Notice.kindCode, body, Notice.bodyFields,
      bitField_value (lt_trans fc.isLt (by decide : 65 < 2 ^ 7)), List.getElem?_append]
  | query argument target item =>
    simp [decodeBody, Notice.kindCode, Notice.positionField, body, Notice.bodyFields,
      bitField_value (lt_trans target.isLt (by decide : 8 < 2 ^ 4))]
  | report p item value => simp [decodeBody, Notice.kindCode, Notice.positionField, body, Notice.bodyFields]

/-- The fields before the body (R87). -/
theorem encodeNotice_fields (n : Notice) (grade : BitVec 8) (sender : BitVec 4) :
    bitField (encodeNotice n grade sender) 0 4 = n.kindCode ∧
      bitField (encodeNotice n grade sender) 4 8 = grade.toNat ∧
      bitField (encodeNotice n grade sender) 12 4 = sender.toNat ∧
      bitField (encodeNotice n grade sender) 16 8 = n.positionField ∧
      (encodeNotice n grade sender).drop 24 = n.body := by
  simp [encodeNotice, bitField_value (kindCode_lt n), bitField_value (positionField_lt n), List.drop_append,
    List.drop_of_length_le]

theorem decodeNotice_encodeNotice {n : Notice} {sender : BitVec 4} (grade : BitVec 8) (h : n.admitted = true)
    (hs : validSender n.kindCode sender.toNat = true) :
    decodeNotice (encodeNotice n grade sender) = some (sender, n) := by
  obtain ⟨kind, -, from_, position, body⟩ := encodeNotice_fields n grade sender
  simp [decodeNotice, kind, from_, position, body, hs, decodeBody_body h]

/-- The first 16 bits of a window are its arbitration field (R87). -/
theorem ofBits_take_encodeNotice (n : Notice) (grade : BitVec 8) (sender : BitVec 4) :
    ofBits ((encodeNotice n grade sender).take 16) = n.arbitrationField grade sender := by
  have field : (encodeNotice n grade sender).take 16 =
      bitsOf 4 n.kindCode ++ (bitsOf 8 grade.toNat ++ bitsOf 4 sender.toNat) := by
    simp [encodeNotice, List.take_append, List.take_of_length_le]
  have kind := Nat.mod_eq_of_lt (kindCode_lt n)
  have grade_ := Nat.mod_eq_of_lt grade.isLt
  have sender_ := Nat.mod_eq_of_lt sender.isLt
  rw [field, ofBits_append, ofBits_append, ofBits_bitsOf, ofBits_bitsOf, ofBits_bitsOf, kind, grade_, sender_,
    Notice.arbitrationField, List.length_append, bitsOf_length, bitsOf_length]
  omega

/-! ### Bits that are no notice (R96, R97) -/

theorem stationOfCode_none {n : Nat} : stationOfCode n = none ↔ 7 < n := by
  unfold stationOfCode
  split <;> simp <;> omega

theorem phaseOfCode_none {n : Nat} : phaseOfCode n = none ↔ 159 < n := by
  unfold phaseOfCode
  split <;> simp <;> omega

theorem causeOfCode_none {n : Nat} (h : n < 4) : causeOfCode n = none ↔ n = 3 := by
  unfold causeOfCode
  split_ifs <;> simp <;> omega

theorem shadowOfCode_none {n : Nat} (h : n < 16) : shadowOfCode n = none ↔ 8 ≤ n ∧ n ≤ 14 := by
  unfold shadowOfCode
  split_ifs
  · simp; omega
  · rw [Option.map_eq_none_iff, stationOfCode_none]; omega

theorem member_ofNat {modes mode : Nat} (h : mode < 4) :
    ModeSet.member (BitVec.ofNat 4 modes) (Fin.ofNat 4 mode) = modes.testBit mode := by
  have index : (Fin.ofNat 4 mode : Mode).val = mode := Nat.mod_eq_of_lt h
  rw [ModeSet.member, BitVec.getLsbD_ofNat, index, decide_eq_true h, Bool.true_and]

/-- A kind that is none of the ten, or a body with a value that R97 does not admit. -/
theorem decodeBody_none {k pf : Nat} {body : List Bool} : decodeBody k pf body = none ↔
    k = 0 ∨ 10 < k ∨ (k = 1 ∧ 7 < pf) ∨ (k = 2 ∧ (bitField body 12 2 = 3 ∨ 159 < bitField body 14 8)) ∨
      ((k = 4 ∨ k = 7) ∧ (bitField body 13 4).testBit (bitField body 17 2) = false) ∨
      (k = 7 ∧ (159 < bitField body 19 8 ∨ (8 ≤ bitField body 27 4 ∧ bitField body 27 4 ≤ 14))) ∨
      (k = 8 ∧ 64 < bitField body 16 7) ∨ (k = 9 ∧ 7 < bitField body 0 4) := by
  have cause := causeOfCode_none (bitField_lt body 12 2)
  have shadow := shadowOfCode_none (bitField_lt body 27 4)
  have member := member_ofNat (modes := bitField body 13 4) (bitField_lt body 17 2)
  match k with
  | 0 => simp [decodeBody]
  | 1 => simp [decodeBody, stationOfCode_none]
  | 2 =>
    simp only [decodeBody]
    rw [← cause, ← phaseOfCode_none (n := bitField body 14 8)]
    cases causeOfCode (bitField body 12 2) <;> cases phaseOfCode (bitField body 14 8) <;> simp
  | 3 => simp [decodeBody]
  | 4 =>
    simp only [decodeBody, member]
    simp
  | 5 => simp [decodeBody]
  | 6 => simp [decodeBody]
  | 7 =>
    simp only [decodeBody, member]
    rw [← shadow, ← phaseOfCode_none (n := bitField body 19 8)]
    cases phaseOfCode (bitField body 19 8) <;> cases shadowOfCode (bitField body 27 4) <;> simp
  | 8 => simp [decodeBody]; omega
  | 9 => simp [decodeBody, stationOfCode_none]
  | 10 => simp [decodeBody]
  | k + 11 => simp [decodeBody]

theorem decodeBody_kindCode {k pf : Nat} {body : List Bool} {n : Notice} (h : decodeBody k pf body = some n) :
    n.kindCode = k := by
  match k with
  | 0 => simp [decodeBody] at h
  | 1 =>
    obtain ⟨q, -, rfl⟩ := Option.map_eq_some_iff.1 h
    rfl
  | 2 =>
    simp only [decodeBody] at h
    split at h <;> cases h
    rfl
  | 3 => cases h; rfl
  | 4 =>
    simp only [decodeBody] at h
    split at h <;> cases h
    rfl
  | 5 => cases h; rfl
  | 6 => cases h; rfl
  | 7 =>
    simp only [decodeBody] at h
    split at h
    · split at h <;> cases h
      rfl
    · cases h
  | 8 =>
    simp only [decodeBody] at h
    split at h <;> cases h
    rfl
  | 9 =>
    obtain ⟨q, -, rfl⟩ := Option.map_eq_some_iff.1 h
    rfl
  | 10 => cases h; rfl
  | k + 11 => simp [decodeBody] at h

theorem validSender_false {k sender : Nat} : validSender k sender = false ↔
    ((k = 3 ∨ k = 4) ∧ ¬(8 ≤ sender ∧ sender ≤ 13)) ∨ (k = 9 ∧ sender ≠ 14) ∨
      (k ≠ 3 ∧ k ≠ 4 ∧ k ≠ 9 ∧ 7 < sender) := by
  unfold validSender
  split_ifs <;> simp <;> omega

/-- Bits that are read as no notice: of none of the ten kinds, from no sender of their kind, or malformed. -/
theorem decodeNotice_none {bits : List Bool} : decodeNotice bits = none ↔
    validSender (bitField bits 0 4) (bitField bits 12 4) = false ∨
      decodeBody (bitField bits 0 4) (bitField bits 16 8) (bits.drop 24) = none := by
  simp only [decodeNotice]
  split_ifs with valid <;> simp [valid]

/-- Bits that are read as a notice bring their sender and their kind. -/
theorem decodeNotice_some {bits : List Bool} (h : decodeNotice bits ≠ none) : ∃ n : Notice,
    n.kindCode = bitField bits 0 4 ∧ decodeNotice bits = some (BitVec.ofNat 4 (bitField bits 12 4), n) := by
  obtain ⟨valid, body⟩ := not_or.1 (mt decodeNotice_none.2 h)
  obtain ⟨n, hn⟩ := Option.ne_none_iff_exists'.1 body
  refine ⟨n, decodeBody_kindCode hn, ?_⟩
  rw [decodeNotice, if_pos (by simpa using valid), hn]
  rfl

end Sys2Proof.Proofs

/-! Proofs: what a receiver makes of a window (O25). -/

namespace Sys2Proof.Proofs

open Sys2Proof Sys2Proof.Machine Sys2Proof.Laws

/-! ### A misfit: bits that R98 has ignored -/

/-- A notice body with a value that R97 does not admit, by kind. -/
def malformedBits (bits : List Bool) : Prop :=
  (bitField bits 0 4 = 1 ∧ 7 < bitField bits 16 8) ∨
    (bitField bits 0 4 = 2 ∧ (bitField bits 36 2 = 3 ∨ 159 < bitField bits 38 8)) ∨
    ((bitField bits 0 4 = 4 ∨ bitField bits 0 4 = 7) ∧ (bitField bits 37 4).testBit (bitField bits 41 2) = false) ∨
    (bitField bits 0 4 = 7 ∧ (159 < bitField bits 43 8 ∨ (8 ≤ bitField bits 51 4 ∧ bitField bits 51 4 ≤ 14))) ∨
    (bitField bits 0 4 = 8 ∧ 64 < bitField bits 40 7) ∨ (bitField bits 0 4 = 9 ∧ 7 < bitField bits 24 4)

/-- A sender number that the kind does not admit (R96). -/
def wrongSender (kind sender : Nat) : Prop :=
  sender = 15 ∨ ((kind = 3 ∨ kind = 4) ∧ ¬(8 ≤ sender ∧ sender ≤ 13)) ∨ (kind = 9 ∧ sender ≠ 14) ∨
    (kind ≠ 3 ∧ kind ≠ 4 ∧ kind ≠ 9 ∧ 7 < sender)

theorem wrongSender_iff {kind sender : Nat} : wrongSender kind sender ↔ validSender kind sender = false := by
  rw [validSender_false, wrongSender]
  omega

theorem malformedBits_iff {bits : List Bool} : (malformedBits bits ∨ bitField bits 0 4 = 0 ∨ 10 < bitField bits 0 4) ↔
    decodeBody (bitField bits 0 4) (bitField bits 16 8) (bits.drop 24) = none := by
  rw [decodeBody_none, malformedBits]
  simp only [bitField_drop]
  tauto

/-- The bits that R98 has ignored are those that are read as no notice. -/
theorem misfit_iff {bits : List Bool} : (malformedBits bits ∨ bitField bits 0 4 = 0 ∨ 10 < bitField bits 0 4 ∨
    wrongSender (bitField bits 0 4) (bitField bits 12 4)) ↔ decodeNotice bits = none := by
  rw [decodeNotice_none, ← malformedBits_iff, ← wrongSender_iff]
  tauto

/-! ### The window as received -/

section
variable {s : State} {bits check : List Bool}

/-- The window of a station that listens to bits with a check behind them. -/
theorem metWindow_received (h : s.atQuietWindow) (hb : s.notice.outbox = []) (hi : s.mapu.intake.length < 8)
    (h56 : bits.length = 56) (h8 : check.length = 8) {failed : Bool}
    (failed_ : failed = decide (check ≠ bitsOf 8 (crc8 bits).toNat)) :
    s.metWindow (false :: (bits ++ (check ++ List.replicate 7 true))) (List.replicate 72 false) =
      { bits := bits, mismatch := none, carried := false, checkFailed := failed, holdDriven := false
        judgement := if failed then .rejected else .passed
        out := List.replicate 65 true ++ ([!failed, true] ++ List.replicate 5 true) } := by
  have front : ((false :: (bits ++ (check ++ List.replicate 7 true))).drop 1).take 56 = bits := by
    rw [List.drop_succ_cons, List.drop_zero, List.take_left' h56]
  have behind : (bits ++ (check ++ List.replicate 7 true)).drop 56 = check ++ List.replicate 7 true :=
    List.drop_left' h56
  have checked : ((false :: (bits ++ (check ++ List.replicate 7 true))).drop 57).take 8 = check := by
    rw [List.drop_succ_cons, behind, List.take_left' h8]
  have reply : ∀ i, i < 7 → (false :: (bits ++ (check ++ List.replicate 7 true))).getD (65 + i) true = true := by
    intro i hi
    rw [show 65 + i = 64 + i + 1 by omega, List.getD_cons_succ, List.getD_append_right _ _ _ _ (by omega),
      List.getD_append_right _ _ _ _ (by omega), getD_released]
  rw [metWindow_listening h.2.2.2.1 hb (getD_clean 72) (by simp [h56, h8]) (hold := false) (by simp; omega)
    (failed := failed) (by rw [front, checked, failed_]; rfl), front, reply 0 (by omega), reply 1 (by omega)]
  cases failed <;> rfl

end

/-! ### A passed window -/

section
variable {s : State} {bits : List Bool}

/-- The window with a notice that passes, in a station that listens. -/
def passedWindow (bits : List Bool) : Window :=
  { bits := bits, mismatch := none, carried := false, checkFailed := false, holdDriven := false, judgement := .passed
    out := List.replicate 72 true }

theorem metWindow_passed (h : s.atQuietWindow) (hb : s.notice.outbox = []) (hi : s.mapu.intake.length < 8)
    (h56 : bits.length = 56) :
    s.metWindow (windowBits bits ++ List.replicate 7 true) (List.replicate 72 false) = passedWindow bits := by
  have window : windowBits bits ++ List.replicate 7 true =
      false :: (bits ++ (bitsOf 8 (crc8 bits).toNat ++ List.replicate 7 true)) := by
    rw [windowBits, List.cons_append, List.append_assoc]
  rw [window, metWindow_received h hb hi h56 (bitsOf_length ..) (failed := false) (by simp)]
  rfl

theorem foreignOwn_passed (bits : List Bool) (own : Station) :
    (passedWindow bits).foreignOwn (BitVec.ofNat 4 own.val) = decide (bitField bits 12 4 = own.val) := by
  have numbers : BitVec.ofNat 4 (bitField bits 12 4) = BitVec.ofNat 4 own.val ↔ bitField bits 12 4 = own.val := by
    have hs := Nat.mod_eq_of_lt (bitField_lt bits 12 4)
    have ho : own.val % 2 ^ 4 = own.val := Nat.mod_eq_of_lt (lt_trans own.isLt (by decide))
    rw [← BitVec.toNat_inj, BitVec.toNat_ofNat, BitVec.toNat_ofNat, hs, ho]
  have passed : (passedWindow bits).foreignOwn (BitVec.ofNat 4 own.val) =
      decide (BitVec.ofNat 4 (bitField bits 12 4) = BitVec.ofNat 4 own.val) := rfl
  rw [passed, decide_eq_decide.2 numbers]

/-- What joins the intake of a notice that passes with another party's number. -/
theorem heard_passed {own : BitVec 4} (hf : (passedWindow bits).foreignOwn own = false) :
    (passedWindow bits).heard own = (decodeNotice bits).map (fun n =>
      { sender := n.1, grade := BitVec.ofNat 8 (bitField bits 4 8), notice := n.2, own := false }) :=
  if_pos ⟨rfl, hf⟩

/-- A passed window of another party adds to no counter but that of misrouted notices. -/
theorem windowCounts_passed (own : BitVec 4) (r : ReportUnit) : windowCounts own (passedWindow bits) r =
    if (passedWindow bits).heard own = none then r.counted .misrouted else r := by
  have misrouted : (passedWindow bits).misrouted own = decide ((passedWindow bits).heard own = none) := rfl
  simp only [windowCounts, misrouted, decide_eq_true_eq]
  rfl

end

/-- A window that passes in a station that listens, by what it brings and whose number it carries. -/
theorem takeWindow_passed {s : State} {bits : List Bool} (h : s.atQuietWindow) (hb : s.notice.outbox = [])
    (hi : s.mapu.intake.length < 8) (h56 : bits.length = 56)
    (hl : s.duplicateLate (passedWindow bits) = false) :
    s.takeWindow (windowBits bits ++ List.replicate 7 true) (List.replicate 72 false) = { s with
      hwi := { s.hwi with clOut := List.replicate 72 true, windowTaken := true, hclkCount := judgementCount,
                          clockWatch := 0 }
      notice := windowRun s.ownSender (passedWindow bits) s.notice
      report := windowCounts s.ownSender (passedWindow bits) s.report
      mapu := { s.mapu with
        intake := s.mapu.intake ++ [{ stamp := s.hwi.frameCount, heard := (passedWindow bits).heard s.ownSender }]
        turn := false } } := by
  rw [takeWindow_uncarried h (metWindow_passed h hb hi h56) rfl rfl hl, if_neg (by omega)]
  rfl

/-- Settles O25: a check that fails; and of the windows that pass, those of another party, read as a notice or not, and
those with the own number, on both sides of the third event. -/
theorem failedCheckRejects : Obligations.FailedCheckRejects := by
  refine ⟨fun s bits check h hb hi h56 h8 hne => ?_, fun s bits h hb hi h56 => ?_⟩
  · have room : ¬8 ≤ s.mapu.intake.length := by omega
    have met := metWindow_received (failed := true) h hb hi h56 h8 (by simp [hne])
    rw [if_pos rfl] at met
    rw [exec_controlWindow h, takeWindow_uncarried h met rfl rfl rfl, if_neg room]
    rfl
  · intro field kind sender malformed misfit c heard
    have misfit_ : misfit ↔ decodeNotice bits = none := misfit_iff
    have foreign := foreignOwn_passed bits s.own
    have late : s.duplicateLate (passedWindow bits) =
        ((passedWindow bits).foreignOwn s.ownSender && decide (3 ≤ s.notice.collisionRun + 1)) := rfl
    have run : exec c s = _ := exec_controlWindow h _ _
    rw [run]
    have other : sender ≠ s.own.val → (passedWindow bits).foreignOwn s.ownSender = false := fun hs =>
      foreign.trans (decide_eq_false hs)
    have own : sender = s.own.val → (passedWindow bits).foreignOwn s.ownSender = true := fun hs =>
      foreign.trans (decide_eq_true hs)
    have otherRun : sender ≠ s.own.val → windowRun s.ownSender (passedWindow bits) s.notice = s.notice := fun hs => by
      rw [windowRun, other hs]; rfl
    refine ⟨fun hm hs => ?_, fun hm hs => ?_, fun hs hr => ?_, fun hs hr => ?_⟩
    · have ignored : (passedWindow bits).heard s.ownSender = none := by
        rw [heard_passed (other hs), misfit_.1 hm]; rfl
      rw [takeWindow_passed h hb hi h56 (by rw [late, other hs]; rfl), windowCounts_passed, if_pos ignored, ignored,
        otherRun hs]
    · obtain ⟨n, hk, hn⟩ := decodeNotice_some (mt misfit_.2 hm)
      have entered : (passedWindow bits).heard s.ownSender = some
          { sender := BitVec.ofNat 4 sender, grade := BitVec.ofNat 8 (field 4 8), notice := n, own := false } := by
        rw [heard_passed (other hs), hn]; rfl
      refine ⟨n, hk, hn, ?_⟩
      rw [takeWindow_passed h hb hi h56 (by rw [late, other hs]; rfl), windowCounts_passed, entered, otherRun hs]
      rfl
    · have ignored : (passedWindow bits).heard s.ownSender = none := if_neg (by simp [own hs])
      have counted : windowRun s.ownSender (passedWindow bits) s.notice =
          { s.notice with collisionRun := s.notice.collisionRun + 1 } := by rw [windowRun, own hs]; rfl
      rw [takeWindow_passed h hb hi h56 (by rw [late, own hs]; simp; omega), windowCounts_passed, if_pos ignored, ignored,
        counted]
    · obtain ⟨station, cause, flag, -, intake, released⟩ := takeWindow_duplicate_late h (metWindow_passed h hb hi h56)
        rfl rfl (by rw [late, own hs]; simp; omega)
      exact ⟨_, rfl, station, cause, flag, intake, released⟩

end Sys2Proof.Proofs

/-! Proofs: arbitration that is lost, and a collision (O23). -/

namespace Sys2Proof.Proofs

open Sys2Proof Sys2Proof.Machine Sys2Proof.Laws

/-! ### The first bit in which two fields differ -/

theorem ofBits_cons (b : Bool) (bits : List Bool) : ofBits (b :: bits) = b.toNat * 2 ^ bits.length + ofBits bits := by
  have front : ofBits [b] = b.toNat := by simp [ofBits]
  rw [← List.singleton_append, ofBits_append, front]

/-- The lower of two numbers of one width has a 0 at the first bit in which they differ. -/
theorem first_difference {low high : List Bool} (hl : low.length = high.length) (h : ofBits low < ofBits high) :
    ∃ front x y, low = front ++ false :: x ∧ high = front ++ true :: y := by
  induction low generalizing high with
  | nil =>
    obtain rfl : high = [] := List.length_eq_zero_iff.1 hl.symm
    exact absurd h (lt_irrefl _)
  | cons b low ih =>
    obtain - | ⟨c, high⟩ := high
    · cases hl
    have hl' : low.length = high.length := Nat.succ.inj hl
    rw [ofBits_cons, ofBits_cons, hl'] at h
    have low_lt := ofBits_lt low
    have high_lt := ofBits_lt high
    rw [hl'] at low_lt
    by_cases hbc : b = c
    · subst hbc
      obtain ⟨front, x, y, rfl, rfl⟩ := ih hl' (by omega)
      exact ⟨b :: front, x, y, rfl, rfl⟩
    · cases b <;> cases c
      · exact absurd rfl hbc
      · exact ⟨[], low, high, rfl, rfl⟩
      · simp only [Bool.toNat_true, Bool.toNat_false] at h; omega
      · exact absurd rfl hbc

/-! ### Arbitration (R89) -/

section
variable {others noise : List Bool}

/-- Against a party that drives a 0 where the station first drives a 1, the station leaves the lane to it there and
hears its bits. -/
theorem contend_loses {front x y : List Bool} (hn : ∀ i, noise.getD i false = false) (hf : front ≠ [])
    (hl : x.length = y.length) (tail : List Bool) :
    contend (front ++ false :: (x ++ tail)) noise 0 (front ++ true :: y) =
      { heard := front ++ false :: x, out := front ++ true :: List.replicate y.length true
        mismatch := some front.length } := by
  have same : ∀ i (hi : i < front.length),
      laneSample (front ++ false :: (x ++ tail)) noise (0 + i) front[i] = front[i] := fun i hi => by
    rw [laneSample_clean hn, Nat.zero_add, List.getD_append _ _ _ _ hi, List.getD_eq_getElem _ _ hi, Bool.and_self]
  have first : laneSample (front ++ false :: (x ++ tail)) noise (0 + front.length) true = false := by
    rw [laneSample_clean hn, Nat.zero_add, List.getD_append_right _ _ _ _ le_rfl, Nat.sub_self]
    rfl
  have behind : listenFrom (front ++ false :: (x ++ tail)) noise (0 + front.length + 1) y.length = x := by
    have rest : (front ++ false :: (x ++ tail)).drop (0 + front.length + 1) = x ++ tail := by
      rw [List.append_cons, List.drop_left' (by simp)]
    rw [listenFrom_clean hn (by simp; omega), rest, List.take_left' hl]
  have heard : front.mapIdx (fun i b => laneSample (front ++ false :: (x ++ tail)) noise (0 + i) b) = front :=
    List.ext_getElem (by simp) (fun i h1 h2 => by simpa using same i h2)
  rw [contend_append (fun i hi => .inr (same i hi)), contend_mismatch (by simpa using hf) (by rw [first]; decide),
    first, behind, heard, Nat.zero_add]

end

/-- The window of bits whose arbitration field is split at a bit, split there. -/
theorem windowBits_split {bits front behind : List Bool} {b : Bool} (h : bits.take 16 = front ++ b :: behind) :
    windowBits bits = (false :: front) ++ b :: (behind ++ (bits.drop 16 ++ bitsOf 8 (crc8 bits).toNat)) := by
  have whole : bits = front ++ b :: (behind ++ bits.drop 16) := by
    rw [← List.cons_append, ← List.append_assoc, ← h, List.take_append_drop]
  rw [windowBits]
  generalize bitsOf 8 _ = check
  conv_lhs => rw [whole]
  simp [List.append_assoc]

/-- The windows of a lower and a higher arbitration field part within the field, the lower one with a 0 (R87, R89). -/
theorem windowBits_part {low high : List Bool} (hlow : low.length = 56) (hhigh : high.length = 56)
    (h : ofBits (low.take 16) < ofBits (high.take 16)) : ∃ front x y, front ≠ [] ∧ front.length ≤ 16 ∧
      x.length = y.length ∧ windowBits low = front ++ false :: x ∧ windowBits high = front ++ true :: y := by
  have same : (low.take 16).length = (high.take 16).length := by simp [hlow, hhigh]
  obtain ⟨front, x, y, hx, hy⟩ := first_difference same h
  have sixteen : front.length + (x.length + 1) = 16 := by
    simpa [hlow] using (congrArg List.length hx).symm
  have length : x.length = y.length := by simpa [hx, hy] using same
  refine ⟨false :: front, _, _, by simp, by rw [List.length_cons]; omega, ?_, windowBits_split hx, windowBits_split hy⟩
  simp [hlow, hhigh, length]

section
variable {s : State} {e : OutEntry} {rest : List OutEntry}

/-- The window that another party wins by its lower arbitration field, as the station hears it to its end. -/
theorem metWindow_lost (h : s.atQuietWindow) (hb : s.notice.outbox = e :: rest) (hi : s.mapu.intake.length < 8)
    {n : Notice} {grade : BitVec 8} {sender : BitVec 4}
    (hlt : n.arbitrationField grade sender < e.notice.arbitrationField (s.grade e.notice) s.ownSender) :
    ∃ m out, 1 ≤ m ∧ m ≤ 16 ∧
      s.metWindow (windowBits (encodeNotice n grade sender) ++ List.replicate 7 true) (List.replicate 72 false) =
        { bits := encodeNotice n grade sender, mismatch := some m, carried := false, checkFailed := false
          holdDriven := false, judgement := .passed, out := out } := by
  have lowLength := encodeNotice_length n grade sender
  rw [← ofBits_take_encodeNotice, ← ofBits_take_encodeNotice] at hlt
  obtain ⟨front, x, y, hf, hm, length, low, high⟩ := windowBits_part lowLength (encodeNotice_length ..) hlt
  have met : s.meetWindow (windowBits (encodeNotice n grade sender) ++ List.replicate 7 true) (List.replicate 72 false) =
      { heard := windowBits (encodeNotice n grade sender)
        out := front ++ true :: List.replicate y.length true, mismatch := some front.length } := by
    simp only [State.meetWindow, State.headEntry, hb, List.head?_cons]
    rw [high, low, List.append_assoc, List.cons_append]
    exact contend_loses (getD_clean 72) hf length _
  obtain ⟨start, bits, check⟩ := windowBits_parts lowLength
  have reply : ∀ i, i < 7 →
      (windowBits (encodeNotice n grade sender) ++ List.replicate 7 true).getD (65 + i) true = true := by
    intro i hi
    rw [List.getD_append_right _ _ _ _ (by rw [windowBits_length lowLength]; omega), getD_released]
  have room : decide (8 ≤ s.mapu.intake.length) = false := by simp; omega
  refine ⟨front.length, (front ++ true :: List.replicate y.length true) ++ ([true, true] ++ List.replicate 5 true),
    List.length_pos_iff.2 hf, hm, ?_⟩
  simp only [metWindow_of_quiet h.2.2.2.1, State.window, met, start, bits, check, room, laneSample_clean (getD_clean 72),
    reply 0 (by omega), reply 1 (by omega), reduceCtorEq, decide_false, Bool.and_false, Bool.not_false, ne_eq,
    not_true_eq_false, Bool.and_self, judgeReply, Bool.false_eq_true, if_false]

/-- A station that has lost arbitration counts it, keeps its notice as it is, and hears the other's. -/
theorem takeWindow_lost (h : s.atQuietWindow) (hb : s.notice.outbox = e :: rest) (hi : s.mapu.intake.length < 8)
    {n : Notice} {grade : BitVec 8} {sender : BitVec 4} (ha : n.admitted = true)
    (hv : validSender n.kindCode sender.toNat = true) (hs : sender ≠ s.ownSender)
    (hlt : n.arbitrationField grade sender < e.notice.arbitrationField (s.grade e.notice) s.ownSender) :
    ∃ out, s.takeWindow (windowBits (encodeNotice n grade sender) ++ List.replicate 7 true) (List.replicate 72 false) =
      { s with
        hwi := { s.hwi with clOut := out, windowTaken := true, hclkCount := judgementCount, clockWatch := 0 }
        report := s.report.counted .arbitrationsLost
        mapu := { s.mapu with
          intake := s.mapu.intake ++ [{ stamp := s.hwi.frameCount,
                                        heard := some { sender := sender, grade := grade, notice := n, own := false } }]
          turn := false } } := by
  obtain ⟨m, out, hm1, hm16, met⟩ := metWindow_lost h hb hi hlt
  generalize hw : s.metWindow (windowBits (encodeNotice n grade sender) ++ List.replicate 7 true)
    (List.replicate 72 false) = w at met
  obtain ⟨-, grade_, from_, -, -⟩ := encodeNotice_fields n grade sender
  have sender_ : w.sender = sender := by rw [met, Window.sender, from_]; simp
  have foreign : w.foreignOwn s.ownSender = false := by simp [Window.foreignOwn, sender_, hs]
  have lost : w.lostArbitration = true := by rw [met]; simp [Window.lostArbitration, hm1, hm16]
  have collided : w.collided = false := by rw [met]; simp [Window.collided]; omega
  have heard : w.heard s.ownSender = some { sender := sender, grade := grade, notice := n, own := false } := by
    have passed : w.judgement = .passed ∧ w.foreignOwn s.ownSender = false := ⟨by rw [met], foreign⟩
    rw [Window.heard, if_pos passed, met, decodeNotice_encodeNotice grade ha hv]
    simp [grade_]
  have counts : windowCounts s.ownSender w s.report = s.report.counted .arbitrationsLost := by
    have failed : w.checkFailed = false := by rw [met]
    simp [windowCounts, lost, collided, failed, Window.misrouted, heard]
  have run : windowRun s.ownSender w s.notice = s.notice := by rw [windowRun, collided, foreign]; rfl
  refine ⟨w.out, ?_⟩
  rw [takeWindow_uncarried h hw (by rw [met]) (by simp [State.duplicateEarly, collided])
    (by simp [State.duplicateLate, foreign]), counts, run, heard, if_neg (by omega)]

end

/-! ### A collision (R90) -/

theorem counter_counted (r : ReportUnit) (k j : Counter) :
    (r.counted k).counter j = if counterIndex j = counterIndex k then countUp (r.counter k) else r.counter j :=
  lookup_put ..

section
variable {s : State} {e : OutEntry} {rest : List OutEntry} {others noise own : List Bool} {k : Nat}

/-- A notice that the station samples as it drives it, but for the start bit, up to its first mismatch at k. -/
theorem contend_collides (length : own.length = 65) (h0 : k ≠ 0) (hk : k ≤ 64)
    (same : ∀ i, 1 ≤ i → i < k → laneSample others noise i (own.getD i true) = own.getD i true)
    (differs : laneSample others noise k (own.getD k true) ≠ own.getD k true) :
    ∃ heard, contend others noise 0 own =
      { heard := heard, out := own.take (k + 1) ++ List.replicate (64 - k) true, mismatch := some k } := by
  have here : own.getD k true = own[k] := List.getD_eq_getElem _ _ (by omega)
  have front : (own.take k).length = k := by simp; omega
  have goes : ∀ i (hi : i < (own.take k).length),
      0 + i = 0 ∨ laneSample others noise (0 + i) (own.take k)[i] = (own.take k)[i] := fun i hi => by
    have bit : (own.take k)[i] = own.getD i true := by
      rw [List.getElem_take, List.getD_eq_getElem _ _ (by omega)]
    rw [bit, Nat.zero_add]
    exact i.eq_zero_or_pos.imp_right (fun h1 => same i h1 (by omega))
  have parts : own = own.take k ++ own[k] :: own.drop (k + 1) := by
    rw [← List.drop_eq_getElem_cons, List.take_append_drop]
  have behind : (own.drop (k + 1)).length = 64 - k := by rw [List.length_drop, length]; omega
  have driven : own.take (k + 1) = own.take k ++ [own[k]] := (List.take_append_getElem (by omega)).symm
  have met := contend_append goes (own[k] :: own.drop (k + 1))
  rw [← parts, front, Nat.zero_add, contend_mismatch h0 (by rwa [← here]), behind] at met
  exact ⟨_, by rw [met, driven, List.append_assoc, List.singleton_append]⟩

/-- A window with a collision that another party rejects. -/
theorem metWindow_collided (h : s.atQuietWindow) (hb : s.notice.outbox = e :: rest)
    (hown : windowBits (encodeNotice e.notice (s.grade e.notice) s.ownSender) = own) (h17 : 17 ≤ k) (hk : k ≤ 64)
    (same : ∀ i, 1 ≤ i → i < k → laneSample others noise i (own.getD i true) = own.getD i true)
    (differs : laneSample others noise k (own.getD k true) ≠ own.getD k true)
    (hreject : others.getD 65 true = false) (hclean : noise.getD 65 false = false) :
    ∃ w, s.metWindow others noise = w ∧ w.mismatch = some k ∧ w.carried = false ∧ w.judgement ≠ .passed ∧
      w.out.take 65 = own.take (k + 1) ++ List.replicate (64 - k) true := by
  have length : own.length = 65 := by rw [← hown, windowBits_length (encodeNotice_length ..)]
  obtain ⟨heard, sent⟩ := contend_collides length (by omega) hk same differs
  have met : s.meetWindow others noise =
      { heard := heard, out := own.take (k + 1) ++ List.replicate (64 - k) true, mismatch := some k } := by
    simp only [State.meetWindow, State.headEntry, hb, List.head?_cons]
    rw [hown, sent]
  have rejected : ∀ b, laneSample others noise 65 b = false := fun b => by rw [laneSample, hreject, hclean]; simp
  have unpassed : ∀ start hold, judgeReply start false hold ≠ .passed := fun start hold => by
    cases start <;> simp [judgeReply]
  have driven : (own.take (k + 1) ++ List.replicate (64 - k) true).length = 65 := by simp [length]; omega
  refine ⟨_, metWindow_of_quiet h.2.2.2.1 .., ?_, ?_, ?_, ?_⟩
  · simp only [State.window, met]
  · simp [State.window, met]
  · simp only [State.window, met, rejected]
    exact unpassed _ _
  · simp only [State.window, met]
    rw [List.take_left' driven]

end

section
variable {w : Window} {k : Nat}

theorem collided_of_mismatch (hm : w.mismatch = some k) (h17 : 17 ≤ k) :
    w.collided = true ∧ w.lostArbitration = false := by
  simp [Window.collided, Window.lostArbitration, hm, h17]
  omega

/-- A collision in a window that does not pass: counted once, with one more event of the collision run. -/
theorem collided_eventful (hm : w.mismatch = some k) (h17 : 17 ≤ k) (hj : w.judgement ≠ .passed) (own : BitVec 4) :
    (∀ r, (windowCounts own w r).counter .collisions = countUp (r.counter .collisions)) ∧
      (∀ x, windowRun own w x = { x with collisionRun := x.collisionRun + 1 }) ∧ w.heard own = none := by
  obtain ⟨collided, lost⟩ := collided_of_mismatch hm h17
  have foreign : w.foreignOwn own = false := by simp [Window.foreignOwn, hj]
  have misrouted : w.misrouted own = false := by simp [Window.misrouted, hj]
  refine ⟨fun r => ?_, fun x => by rw [windowRun, collided, foreign]; rfl, heard_unpassed hj own⟩
  simp only [windowCounts, collided, lost, misrouted, Bool.false_eq_true, if_false, if_true]
  split_ifs <;> simp [counter_counted, counterIndex]

end

/-- Settles O23: the arbitration that is lost, and a collision on both sides of the third event. -/
theorem lowerArbitrationFieldWins : Obligations.LowerArbitrationFieldWins := by
  refine ⟨fun s e rest n grade sender h hb hi ha hv hs hlt => ?_, fun s e rest others noise k h hb hi => ?_⟩
  · obtain ⟨out, taken⟩ := takeWindow_lost h hb hi ha hv hs hlt
    refine ⟨_, exec_controlWindow h _ _, ?_⟩
    rw [taken]
    exact ⟨rfl, rfl, rfl, rfl, rfl, rfl, rfl, rfl, rfl⟩
  · intro own lane h17 hk same differs hreject hclean
    obtain ⟨w, hw, mismatch, carried, unpassed, out⟩ :=
      metWindow_collided h hb rfl h17 hk same differs hreject hclean
    obtain ⟨collided, -⟩ := collided_of_mismatch mismatch h17
    have early : s.duplicateEarly w = decide (3 ≤ s.notice.collisionRun + 1) := by
      simp [State.duplicateEarly, State.runAfterCollision, collided]
    refine ⟨fun hr => ?_, fun hr => ?_⟩
    · obtain ⟨counts, run, heard⟩ := collided_eventful mismatch h17 unpassed s.ownSender
      refine ⟨_, exec_controlWindow h _ _, ?_⟩
      rw [takeWindow_uncarried h hw carried (by rw [early]; simp; omega)
        (by simp [State.duplicateLate, Window.foreignOwn, unpassed]), run, heard, if_neg (by omega)]
      exact ⟨rfl, counts _, out, rfl, rfl, rfl, rfl, rfl, rfl, rfl⟩
    · obtain ⟨station, cause, flag, outbox, intake, released⟩ :=
        takeWindow_duplicate_early h hw (by rw [early]; simp; omega)
      rw [Window.mismatchCount, mismatch] at released
      exact ⟨_, exec_controlWindow h _ _, station, cause, flag, outbox, intake, released⟩

end Sys2Proof.Proofs

/-! Proofs: the outbox as every step keeps it (O57), and a notice read back from its window (O19). -/

namespace Sys2Proof.Proofs

open Sys2Proof Sys2Proof.Machine Sys2Proof.Laws

/-! ### The outbox (R99) -/

theorem commands_rests :
    CommandKeeps (fun s => Rests true s.notice) (fun s => Rests true s.notice) where
  toStepKeeps := steps_rests true
  coldStart cause s h := by
    unfold State.doColdStart
    split
    · exact sound_iff_rests.1 reset_sound
    · exact h
  missingAcknowledge n a _ := doMissingAcknowledge_rests n a
  pauseEnd s h := by rw [show s.doLoaderPauseEnd.notice = s.notice by simp]; exact h
  sclHeldLow n x _ := doSclHeldLow_rests n x
  readEnd n i _ := doConfigurationReadEnd_rests n i
  reference b _ h := let ⟨k, _⟩ := timing_rests h; k b
  frame b l _ h := let ⟨_, k, _⟩ := timing_rests h; k b l
  bridgedFrame b l _ h := let ⟨_, _, k, _⟩ := timing_rests h; k b l
  markerMiss _ h := let ⟨_, _, _, k, _⟩ := timing_rests h; k
  absent _ h := let ⟨_, _, _, _, k, _⟩ := timing_rests h; k
  stray e _ h := let ⟨_, _, _, _, _, k, _⟩ := timing_rests h; k e
  gap n e o v _ h := let ⟨_, _, _, _, _, _, k, _⟩ := timing_rests h; k n e o v
  window o v _ h := let ⟨_, _, _, _, _, _, _, k⟩ := timing_rests h; k o v
  switchFrame c _ := doSwitchFrame_rests c
  recordSwitchFrame p s h := by rw [show (s.doRecordSwitchFrame p).notice = s.notice by simp]; exact h

theorem doColdStartRelease_notice (straps : Straps) (s : State) : (s.doColdStartRelease straps).notice = s.notice := by
  unfold State.doColdStartRelease
  split <;> rfl

/-- Settles O57: every command keeps the outbox in order and leaves no entry in its window, and the queue and the release
from cold start do not reach the Notice Controller. -/
theorem outboxStaysSound : Obligations.OutboxStaysSound := by
  intro s t h he
  rw [sound_iff_rests] at h ⊢
  refine step_keeps commands_rests (fun _ _ h => h) (fun l straps => ?_) h he
  rw [doColdStartRelease_notice]
  exact h

/-! ### A notice and its bits (R87, R96, R97, R174) -/

/-- Settles O19: the 56 bits begin with the arbitration field, and each field of the notice is read back from its own. -/
theorem noticesRoundTrip : Obligations.NoticesRoundTrip := fun n grade sender admitted valid =>
  ⟨encodeNotice_length n grade sender, ofBits_take_encodeNotice n grade sender,
    decodeNotice_encodeNotice grade admitted valid⟩

end Sys2Proof.Proofs

/-! Proofs: a carried notice that succeeds (O21). -/

namespace Sys2Proof.Proofs

open Sys2Proof Sys2Proof.Machine Sys2Proof.Laws

/-! ### The effect of a success (R94, R149) -/

section
variable {s : State} {w : Window} {e : OutEntry} {rest : List OutEntry}

/-- A carried window is neither a collision nor the own number sent by another party. -/
theorem carried_uneventful (hc : w.carried = true) (hm : w.mismatch = none) (own : BitVec 4) :
    w.lostArbitration = false ∧ w.collided = false ∧ w.foreignOwn own = false := by
  simp [Window.lostArbitration, Window.collided, Window.foreignOwn, hc, hm]

/-- A carried notice that passes and is read as a notice has no other effect than its success. -/
theorem windowEffect_succeeds (hc : w.carried = true) (hm : w.mismatch = none) (hf : w.checkFailed = false)
    (hj : w.judgement = .passed) (hh : w.heard s.ownSender ≠ none) : s.windowEffect w = s.noticeSucceeds := by
  obtain ⟨lost, collided, foreign⟩ := carried_uneventful hc hm s.ownSender
  have early : s.duplicateEarly w = false := by simp [State.duplicateEarly, collided]
  have misrouted : w.misrouted s.ownSender = false := by simp [Window.misrouted, hh]
  have refused : w.refused = false := by simp [Window.refused, hj]
  simp only [State.windowEffect, early, lost, collided, hf, misrouted, foreign, refused, hc, hj, Bool.false_eq_true,
    if_false, onlyIf_false, decide_true, Bool.and_self, onlyIf_true]

/-- The entry in its window is the head alone, so it alone leaves the outbox. -/
theorem dropSent_head (hs : s.notice.sound) (hb : s.notice.outbox = e :: rest) :
    (s.notice.begins e.notice).dropSent = { s.notice.begins e.notice with outbox := rest } := by
  have others : rest.filter (fun x => !decide (x.notice.key = e.notice.key)) = rest :=
    List.filter_eq_self.2 (fun x hx => by simp [key_ne_head hs hb x hx])
  simp [NoticeCtl.dropSent, NoticeCtl.sends, NoticeCtl.begins, hb, others]

/-- The success of the head entry, once it has left its window: nothing waited for it. -/
theorem noticeSucceeds_head (hs : s.notice.sound) (hb : s.notice.outbox = e :: rest) :
    s.beginWindow.noticeSucceeds.leavesWindow = { s with
      notice := { s.notice with outbox := rest, collisionRun := 0 }
      report := s.report.counted .noticesSent
      pool := if e.notice.isFresh then { s.pool with freshPending := false } else s.pool } := by
  have succeeded : s.beginWindow.noticeSucceeds = { s with
      notice := { s.notice.begins e.notice with outbox := rest, collisionRun := 0 }
      report := s.report.counted .noticesSent
      pool := if e.notice.isFresh then { s.pool with freshPending := false } else s.pool } := by
    simp only [State.noticeSucceeds, sentEntry_head hb]
    rw [beginWindow_head hb]
    simp only [State.onNotice, dropSent_head hs hb]
    cases e.notice.isFresh <;> rfl
  rw [succeeded, leavesWindow_unwaited (fun x hx => by cases hx; rfl)]
  simp [State.onNotice, NoticeCtl.begins, ← hs.2]

variable {others noise : List Bool}

/-- A window that the station carries and that passes: its notice has succeeded, and its record joins the intake unless
the station drove hold. -/
theorem takeWindow_succeeds (h : s.atQuietWindow) (hs : s.notice.sound) (hb : s.notice.outbox = e :: rest)
    (hw : s.metWindow others noise = w) (hc : w.carried = true) (hm : w.mismatch = none) (hf : w.checkFailed = false)
    (hj : w.judgement = .passed) (hh : w.heard s.ownSender ≠ none) : s.takeWindow others noise = { s with
      hwi := { s.hwi with clOut := w.out, windowTaken := true, hclkCount := judgementCount, clockWatch := 0 }
      notice := { s.notice with outbox := rest, collisionRun := 0 }
      report := s.report.counted .noticesSent
      pool := if e.notice.isFresh then { s.pool with freshPending := false } else s.pool
      mapu := { s.mapu with
        intake := if 8 ≤ s.mapu.intake.length then s.mapu.intake
          else s.mapu.intake ++ [{ stamp := s.hwi.frameCount, heard := w.heard s.ownSender }]
        turn := false } } := by
  obtain ⟨-, hp, -, hq, -⟩ := h
  obtain ⟨-, collided, foreign⟩ := carried_uneventful hc hm s.ownSender
  have early : s.duplicateEarly w = false := by simp [State.duplicateEarly, collided]
  have late : s.duplicateLate w = false := by simp [State.duplicateLate, foreign]
  have stays : s.abandons w = false := by simp [State.abandons, Window.refused, hj]
  have hold : w.holdDriven = decide (8 ≤ s.mapu.intake.length) := by rw [← hw, metWindow_holdDriven hq]
  have heard : w.heard s.beginWindow.ownSender ≠ none := by rwa [ownSender_beginWindow]
  simp only [State.takeWindow, hw, early, late, inWindow_of_quiet hq, State.windowOut, stays, Bool.or_false,
    Bool.false_eq_true, if_false, State.endWindow]
  rw [windowEffect_succeeds hc hm hf hj heard, noticeSucceeds_head hs hb, enterRecord_eq]
  · rfl
  · exact hp
  · exact hold

/-! ### The window that nobody refuses -/

/-- The own station number fits a sender field (R154). -/
theorem ownSender_toNat (s : State) : s.ownSender.toNat = s.own.val := by
  rw [State.ownSender, BitVec.toNat_ofNat]
  exact Nat.mod_eq_of_lt (lt_trans s.own.isLt (by decide))

/-- The notice that the station carries joins its own intake as its own (R104). -/
theorem heard_carried (hw : w.bits = encodeNotice e.notice (s.grade e.notice) s.ownSender) (hc : w.carried = true)
    (hj : w.judgement = .passed) (ha : e.notice.admitted = true)
    (hv : validSender e.notice.kindCode s.own.val = true) :
    w.heard s.ownSender =
      some { sender := s.ownSender, grade := s.grade e.notice, notice := e.notice, own := true } := by
  have own : w.foreignOwn s.ownSender = false := by simp [Window.foreignOwn, hc]
  have valid : validSender e.notice.kindCode s.ownSender.toNat = true := by rwa [ownSender_toNat]
  obtain ⟨-, grade, -⟩ := encodeNotice_fields e.notice (s.grade e.notice) s.ownSender
  rw [Window.heard, if_pos ⟨hj, own⟩, hw, decodeNotice_encodeNotice _ ha valid, grade, hc]
  simp

end

/-- Settles O21: on a lane that all others release the station carries its notice, and the window passes. -/
theorem carriedNoticeSucceeds : Obligations.CarriedNoticeSucceeds := by
  intro s e rest h hb hs hi ha hv
  have room : ¬8 ≤ s.mapu.intake.length := by omega
  have met := metWindow_carried (others := List.replicate 72 true) (hold := false) h.2.2.2.1 hb (getD_clean 72)
    (fun i _ => getD_released 72 i) (by simp [room])
  generalize hw : s.metWindow (List.replicate 72 true) (List.replicate 72 false) = w at met
  have carried : w.carried = true := by rw [met]
  have passed : w.judgement = .passed := by rw [met, getD_released, getD_released]; rfl
  have heard := heard_carried (s := s) (e := e) (by rw [met]) carried passed ha hv
  rw [exec_controlWindow h, takeWindow_succeeds h hs hb hw carried (by rw [met]) (by rw [met]) passed (by simp [heard]),
    heard, if_neg room, met]
  rfl

end Sys2Proof.Proofs

/-! Proofs: two parties that send in one window (O24). -/

namespace Sys2Proof.Proofs

open Sys2Proof Sys2Proof.Machine Sys2Proof.Laws

/-! ### Two parties on one lane (R87 to R89) -/

/-- Two sendings of one length with one start bit part within the 16 bits behind it, where these differ, the lower one
with a 0. -/
theorem sendings_part {low high : List Bool} (hl : low.length = high.length) (h16 : 17 ≤ low.length)
    (hs : low.getD 0 true = high.getD 0 true)
    (h : ofBits ((low.drop 1).take 16) < ofBits ((high.drop 1).take 16)) :
    ∃ front x y, 1 ≤ front.length ∧ front.length ≤ 16 ∧ x.length = y.length ∧ low = front ++ false :: x ∧
      high = front ++ true :: y := by
  obtain - | ⟨b, low⟩ := low
  · cases h16
  obtain - | ⟨c, high⟩ := high
  · cases hl
  obtain rfl : b = c := hs
  simp only [List.drop_succ_cons, List.drop_zero] at h
  simp only [List.length_cons, Nat.add_right_cancel_iff] at hl h16
  have same : (low.take 16).length = (high.take 16).length := by simp [hl]
  obtain ⟨front, x, y, hx, hy⟩ := first_difference same h
  have sixteen : front.length + (x.length + 1) = 16 := by
    have width := congrArg List.length hx
    rw [List.length_take, List.length_append, List.length_cons] at width
    omega
  have length : x.length = y.length := by simpa [hx, hy] using same
  have whole : ∀ {bits z : List Bool} {a : Bool}, bits.take 16 = front ++ a :: z →
      b :: bits = (b :: front) ++ a :: (z ++ bits.drop 16) := fun {bits _ _} hz => by
    conv_lhs => rw [← List.take_append_drop 16 bits, hz]
    simp
  refine ⟨b :: front, _, _, by simp, by rw [List.length_cons]; omega, ?_, whole hx, whole hy⟩
  simp [hl, length]

/-- A party meets no mismatch where the others release the lane at each of its 1s. -/
theorem contend_wins {others noise bits : List Bool} (hn : ∀ i, noise.getD i false = false)
    (h : ∀ i (hi : i < bits.length), bits[i] = true → others.getD i true = true) :
    contend others noise 0 bits = { heard := bits, out := bits, mismatch := none } := by
  refine contend_match (fun i hi => ?_)
  rw [laneSample_clean hn, Nat.zero_add]
  cases hb : bits[i] with
  | false => rfl
  | true => exact h i hi hb

/-- A party that drives as another up to a 0 of that one, and has released the lane from there on, releases it at each
1 of the other. -/
theorem released_behind (front x : List Bool) (n i : Nat) (hi : i < (front ++ false :: x).length)
    (h : (front ++ false :: x)[i] = true) : (front ++ List.replicate n true).getD i true = true := by
  by_cases hf : i < front.length
  · rw [List.getElem_append_left hf] at h
    rw [List.getD_append _ _ _ _ hf, List.getD_eq_getElem _ _ hf, h]
  · rw [List.getD_append_right _ _ _ _ (by omega), getD_released]

/-- Settles O24: the parties part within the arbitration field, where the higher one releases the lane for good. -/
theorem twoSendersOneWinner : Obligations.TwoSendersOneWinner := by
  intro low high hlow hhigh slow shigh hlt
  obtain ⟨front, x, y, h1, h16, length, rfl, rfl⟩ :=
    sendings_part (hlow.trans hhigh.symm) (by omega) (slow.trans shigh.symm) hlt
  have lost := contend_loses (getD_clean 72) (List.length_pos_iff.1 h1) length (List.replicate 7 true)
  rw [← List.cons_append, ← List.append_assoc] at lost
  have released : (front ++ true :: List.replicate y.length true) ++ List.replicate 7 true =
      front ++ List.replicate (y.length + 1 + 7) true := by
    rw [← List.replicate_succ, List.append_assoc, List.replicate_append_replicate]
  have won := contend_wins (others := front ++ List.replicate (y.length + 1 + 7) true) (getD_clean 72)
    (released_behind front x _)
  intro clean loser winner
  have loser_ : loser = _ := lost
  have winner_ : winner = { heard := front ++ false :: x, out := front ++ false :: x, mismatch := none } := by
    rw [← won, ← released]
    exact congrArg (fun c => contend (c.out ++ List.replicate 7 true) clean 0 (front ++ false :: x)) loser_
  rw [loser_, winner_]
  exact ⟨⟨_, h1, h16, rfl⟩, rfl, rfl, rfl, rfl⟩

end Sys2Proof.Proofs

/-! Proofs: the switch frame of a record (O31), the completion of the map (O9) and the declaration of losses (O44). -/

namespace Sys2Proof.Proofs

open Sys2Proof Sys2Proof.Machine Sys2Proof.Laws

/-! ### The switch frame of a record (O31) -/

/-- Settles O31: at the frame of the switch the record is put back switched, in any other frame nothing is. -/
theorem recordSwitches : Obligations.RecordSwitches := by
  intro s p hheld
  have run : exec (.recordSwitchFrame p) s = .next (s.doRecordSwitchFrame p) := next_live hheld
  rw [run]
  refine ⟨fun hsf => ?_, fun hsf => congrArg _ (if_neg hsf)⟩
  have switches : s.doRecordSwitchFrame p = s.putRec p (s.recAt p).switched := if_pos hsf
  refine ⟨_, rfl, ?_, fun q hq => ?_, ?_⟩
  · rw [switches, recAt_putRec, if_pos rfl]; rfl
  · rw [switches, recAt_putRec, if_neg hq]
  · rw [switches]; rfl

/-! ### The completion of the map (O9) -/

/-- Outside a window every waiting fresh PRESENT is replaced at once (R149). -/
theorem activated_outside {k : NoticeCtl} (h : k.inWindow = none) :
    k.activated = { k with outbox := k.outbox.map (fun e => { e with notice := e.notice.activated }) } := by
  simp [NoticeCtl.activated, sends_none _ h, h]

theorem mapDue_iff (s : State) : s.mapDue = true ↔ s.life.station = .listen ∧ s.mapu.listenCount = 72 ∧
    s.mapu.mapComplete = false ∧ (s.pool.stage = .idle ∨ s.pool.stage = .entry) := by
  simp [State.mapDue, Pool.entryOpen, and_assoc]

/-- The station as it enters ACTIVE with its map complete. -/
def mapCompleted (s : State) : State := (s.onMap (fun m => { m with mapComplete := true })).enterActive

theorem doMapComplete_eq {s : State} (h : s.mapDue = true) : s.doMapComplete =
    if s.pool.stage = .entry then ((mapCompleted s).onPool (fun q => { q with stage := .idle })).poolDecisions
    else mapCompleted s := if_pos h

/-- Settles O9: by how far the Pool Controller's decisions of the block event have come. -/
theorem mapCompletes : Obligations.MapCompletes := by
  intro s hheld hlisten hcount hmap hrest entered
  have run : exec .mapComplete s = .next s.doMapComplete := next_live hheld
  have enters : mapCompleted s = entered := by
    simp only [mapCompleted, State.enterActive, State.onNotice, State.onPool, State.onLife, State.onMap,
      activated_outside hrest]
    rfl
  have due : s.mapDue = true ↔ s.pool.stage = .idle ∨ s.pool.stage = .entry := by
    simp [mapDue_iff, hlisten, hcount, hmap]
  rw [run]
  refine ⟨fun hidle => ?_, fun hentry => ?_, fun hidle hentry => ?_⟩
  · rw [doMapComplete_eq (due.2 (Or.inl hidle)), if_neg (by simp [hidle]), enters]
  · rw [doMapComplete_eq (due.2 (Or.inr hentry)), if_pos hentry, enters]; rfl
  · exact congrArg _ (if_neg (mt due.1 (by tauto)))

/-! ### The declaration of losses (O44) -/

section
variable {σ κ : Type} {c : σ → κ → Bool} {f : σ → κ → σ}

/-- A walk that asks each number as it comes to it may ask all of them at its start, where a step at one number leaves
the answers at the others. -/
theorem foldl_asked (stable : ∀ u k j, j ≠ k → c (f u k) j = c u j) {l : List κ} (hl : l.Nodup) {s u : σ}
    (hu : ∀ k ∈ l, c u k = c s k) :
    l.foldl (fun u k => if c u k then f u k else u) u = (l.filter (c s)).foldl f u := by
  induction l generalizing u with
  | nil => rfl
  | cons k l ih =>
    obtain ⟨hk, hl⟩ := List.nodup_cons.1 hl
    obtain ⟨here, rest⟩ := List.forall_mem_cons.1 hu
    rw [List.foldl_cons, List.filter_cons, here]
    split
    · exact ih hl (fun j hj => (stable u k j (fun h => hk (h ▸ hj))).trans (rest j hj))
    · exact ih hl rest

end

/-- What a placing cannot bring, replace or evict stands in the outbox as it did. -/
theorem any_place {test : Notice → Bool} {n : Notice} (s : State) (hnew : ∀ m : Notice, m.key = n.key → test m = false)
    (hworse : ∀ m : Notice, n.kindCode < m.kindCode → test m = false) :
    (s.place n).notice.outbox.any (fun e => test e.notice) = s.notice.outbox.any (fun e => test e.notice) := by
  have joins : ∀ (age : Nat) (box : List OutEntry),
      (insertEntry { notice := n, age := age, retries := 0 } box).any (fun e => test e.notice) =
        box.any (fun e => test e.notice) := fun age box => by
    rw [(insertEntry_perm ..).any_eq, List.any_cons, hnew n rfl, Bool.false_or]
  unfold State.place
  split
  · rfl
  · split
    · simp only [onNotice_notice, replaceEntry, List.any_map]
      congr 1
      funext e
      by_cases he : e.notice.key = n.key
      · simp [he, hnew n rfl, hnew e.notice he]
      · simp [he]
    · split
      · exact joins ..
      · split
        · exact joins ..
        · rename_i worst hlast
          split
          · rename_i hk
            have split : s.notice.outbox = s.notice.outbox.dropLast ++ [worst] :=
              (List.dropLast_append_getLast? worst hlast).symm
            simp only [departed_blocks, count_blocks]
            refine (joins ..).trans ?_
            conv_rhs => rw [split]
            simp [hworse worst.notice hk.1]
          · simp

theorem lostWaiting_eq (s : State) (q : Station) :
    s.lostWaiting q = s.notice.outbox.any (fun e => (Removal.lostOf q).names e.notice) := by
  refine congrArg _ (funext fun e => ?_)
  cases e.notice <;> rfl

theorem isPresent_iff {s : State} {q : Station} : s.isPresent q = true ↔ (s.rosterAt q).state = .present := by
  simp [State.isPresent]

theorem lossDue_iff_waits {s : State} {q : Station} : s.lossDue q = true ↔
    q ≠ s.own ∧ s.isPresent q = true ∧ s.lossLimit ≤ (s.rosterAt q).age ∧ s.lostWaiting q = false := by
  simp [State.lossDue, and_assoc]

theorem lossDue_iff (s : State) (q : Station) : s.lossDue q = true ↔ q ≠ s.own ∧ (s.rosterAt q).state = .present ∧
    4 * s.life.settings.heartbeatPeriod + 2 ≤ (s.rosterAt q).age ∧
      ∀ e ∈ s.notice.outbox, ∀ age, e.notice ≠ .lost q age := by
  have waits : s.lostWaiting q = false ↔ ∀ e ∈ s.notice.outbox, ∀ age, e.notice ≠ .lost q age := by
    simp [lostWaiting_eq, List.any_eq_false, names_iff]
  rw [lossDue_iff_waits, waits, isPresent_iff, State.lossLimit]

/-- A LOST takes no LOST of another station out of the outbox: none has its key, and none has a higher kind code. -/
theorem lossDue_place {x q : Station} (age : BitVec 8) (s : State) (hq : q ≠ x) :
    (s.place (.lost x age)).lossDue q = s.lossDue q := by
  have waits : (s.place (.lost x age)).lostWaiting q = s.lostWaiting q := by
    rw [lostWaiting_eq, lostWaiting_eq]
    refine any_place s (fun m hm => ?_) (fun m hm => ?_)
    · cases m with
      | lost y =>
        have : y = x := Fin.ext (congrArg Prod.snd hm)
        simp [Removal.names, this, Ne.symm hq]
      | taken | clear | offer | bid | shed | hold | present | query | report => rfl
    · cases m with
      | lost y => exact absurd hm (by simp [Notice.kindCode])
      | taken | clear | offer | bid | shed | hold | present | query | report => rfl
  rw [Bool.eq_iff_iff, lossDue_iff_waits, lossDue_iff_waits, waits]
  simp [State.own, isPresent_iff, State.rosterAt, State.lossLimit]

/-- The loss examination declares every peer that is due at its start, in rising order of number. -/
theorem examineLosses_eq (s : State) : s.examineLosses =
    ((List.finRange 8).filter (fun q => s.lossDue q)).foldl
      (fun u q => u.place (.lost q (BitVec.ofNat 8 (s.rosterAt q).age))) s := by
  rw [← foldl_asked (c := State.lossDue) (fun u q x hx => lossDue_place _ u hx) (List.nodup_finRange 8)
    (fun _ _ => rfl)]
  refine foldl_congr_of (fun u => u.mapu = s.mapu) _ _ (fun u q hu => ?_) (fun u q hu => ?_) _ rfl
  · split
    · simpa using hu
    · exact hu
  · rw [rosterAt_of_roster (congrArg MapUnit.roster hu)]

/-- Settles O44: when a peer is due, and the examination that declares the due peers. -/
theorem lossIsDeclared : Obligations.LossIsDeclared := by
  refine ⟨lossDue_iff, fun s hheld => ?_⟩
  have run : exec .declareLost s = .next s.doDeclareLost := next_live hheld
  rw [run]
  refine ⟨fun hst => ?_, fun hst => congrArg _ (if_neg hst)⟩
  intro due placed
  have declares : s.doDeclareLost = (s.examineLosses.onPool (fun q => { q with stage := .idle })).afterLoss :=
    if_pos hst
  rw [declares, examineLosses_eq]
  rfl

end Sys2Proof.Proofs

/-! Proofs: empty marks, REPORTs and the hearing of a station (O28), and the notices of the roster (O29). -/

namespace Sys2Proof.Proofs

open Sys2Proof Sys2Proof.Machine Sys2Proof.Laws

/-! ### Taking the head record (R111, R112) -/

/-- The head record is taken at the Map Unit's turn. -/
theorem onHead_taken {s : State} {r : Record} {apply : State → State} {pick : Record → Option (State → State)}
    (ht : s.atTurn r) (hp : pick r = some apply) : s.onHead pick = (apply (s.beginRecord r)).endRecord := by
  obtain ⟨-, hpart, hturn, hsweep, hhead, -⟩ := ht
  simp [State.onHead, State.mapActs, hpart, hturn, hsweep, hhead, hp]

/-- A record that starts no sweep leaves the intake. -/
theorem endRecord_taken {s t : State} (hs : t.mapu.sweep = none) (hi : t.mapu.intake = s.mapu.intake) :
    t.endRecord = { t with mapu := { t.mapu with intake := s.mapu.intake.tail } } := by
  simp [State.endRecord, hs, State.onMap, hi]

/-- A record that has started a sweep stays at the head. -/
theorem endRecord_sweeping {s : State} {w : Sweep} (h : s.mapu.sweep = some w) : s.endRecord = s := by
  simp [State.endRecord, h]

/-- What a record finds before its sender is heard. -/
theorem begun_reads {s : State} {r : Record} (ht : s.atTurn r) :
    let b := s.beginRecord r
    b.mapu.mapTime = r.stamp ∧ b.mapu.intake = s.mapu.intake ∧ b.mapu.sweep = none ∧ b.notice.inWindow = none := by
  obtain ⟨-, -, -, hsweep, -, hrest⟩ := ht
  intro b
  have begun := beginRecord_mapu r s
  have rest : b.notice.inWindow.isNone = s.notice.inWindow.isNone := beginRecord_rest r s
  rw [hrest] at rest
  exact ⟨(congrArg MapUnit.mapTime begun :), (congrArg MapUnit.intake begun :),
    (congrArg MapUnit.sweep begun :).trans hsweep, by simpa using rest⟩

/-! ### Hearing a station (R114) -/

/-- A LOST leaves nothing else behind it when it goes unsent. -/
theorem departed_lostOf {q : Station} {n : Notice} (h : (Removal.lostOf q).names n = true) (s : State) :
    s.departed n = s := by
  obtain ⟨age, rfl⟩ := (names_iff (.lostOf q) n).1 h
  rfl

/-- Outside a window the removal of LOST q changes the outbox and nothing else. -/
theorem removeLost_outside {s : State} (q : Station) (h : s.notice.inWindow = none) :
    s.removeLost q = s.onNotice (fun k =>
      { k with outbox := k.outbox.filter (fun e => !((Removal.lostOf q).names e.notice)) }) := by
  rw [State.removeLost, removeNotices_outside _ h]
  refine List.foldlRecOn (motive := fun u => u = _) _ _ rfl (fun u hu e he => ?_)
  rw [departed_lostOf (of_decide_eq_true (by simpa using (List.mem_filter.1 he).2)), hu]

/-- Hearing a station outside a window. -/
theorem hearStation_outside {s : State} (q : Station) (h : s.notice.inWindow = none) :
    s.hearStation q =
      (if q = s.own then s else s.putRoster q { s.rosterAt q with state := .present, age := 0 }).onNotice (fun k =>
        { k with outbox := k.outbox.filter (fun e => !((Removal.lostOf q).names e.notice)) }) := by
  unfold State.hearStation
  exact removeLost_outside q (by split <;> simpa using h)

theorem rosterAt_hearStation (q x : Station) (s : State) : (s.hearStation q).rosterAt x =
    if x = q ∧ q ≠ s.own then { s.rosterAt q with state := .present, age := 0 } else s.rosterAt x := by
  have heard : (s.hearStation q).rosterAt x =
      (if q = s.own then s else s.putRoster q { s.rosterAt q with state := .present, age := 0 }).rosterAt x :=
    rosterAt_of_roster (by simp [State.hearStation]) x
  rw [heard]
  by_cases hq : q = s.own
  · simp [hq]
  · simp [hq, rosterAt_putRoster]

/-- Settles O28: the record leaves the intake, after its sender is heard where it has one; and what the hearing
changes. -/
theorem marksReportsAndHearing : Obligations.MarksReportsAndHearing := by
  refine ⟨fun s r ht => ⟨fun hh => ?_, fun h q p item value hh hq hn => ?_⟩, fun s q hrest => ?_⟩
  · intro b
    have run : exec .applyEmptyMark s = .next s.doApplyEmptyMark := next_live ht.1
    obtain ⟨-, intake, sweep, -⟩ := begun_reads ht
    rw [run, State.doApplyEmptyMark, onHead_taken (apply := id) ht (by rw [hh])]
    exact congrArg _ (endRecord_taken sweep intake)
  · intro b
    have run : exec .applyReport s = .next s.doApplyReport := next_live ht.1
    obtain ⟨-, intake, sweep, -⟩ := heard_reads ht q
    rw [run, State.doApplyReport, onStationNotice_head (apply := id) ht hh hq (by rw [hn])]
    exact congrArg _ (endRecord_taken sweep intake)
  · intro t
    have heard := hearStation_outside q hrest
    have kept : t.mapu = { s.mapu with roster := t.mapu.roster } := hearStation_mapu q s
    refine ⟨fun hq => ?_, fun x hx => ?_, ?_, (congrArg MapUnit.map kept :), (congrArg MapUnit.intake kept :),
      by simp [t], ?_, by simp [t], ?_, by simp [t], by simp [t], by simp [t]⟩
    · rw [rosterAt_hearStation, if_pos ⟨rfl, hq⟩]
    · rw [rosterAt_hearStation, if_neg (by tauto)]
    · rw [show t = _ from heard]
      have outbox : (if q = s.own then s else s.putRoster q { s.rosterAt q with state := .present, age := 0 }).notice =
          s.notice := by split <;> simp
      simp only [onNotice_notice, outbox]
      refine List.filter_congr (fun e _ => ?_)
      cases e.notice <;> simp [Removal.names]
    · rw [show t = _ from heard]; split <;> simp
    · rw [show t = _ from heard]; split <;> simp

/-! ### The start of a sweep (R112) -/

theorem startSweep_unmapped (q : Station) (s : State) :
    unmapped (s.startSweep q).mapu = { unmapped s.mapu with sweep := some { station := q, group := 1 } } :=
  sweepPositions_unmapped ..

/-- The positions 0 to 31 without the station. -/
theorem recAt_startSweep {s : State} (hs : s.canonical) (q : Station) (p : Pos) : (s.startSweep q).recAt p =
    if p.val < 32 then (s.recAt p).without q s.mapu.mapTime s.claimLength else s.recAt p := by
  have group : p.val / 32 = 0 ↔ p.val < 32 := by omega
  have begun : (s.onMap (fun m => { m with sweep := some { station := q, group := 1 } })).canonical :=
    onMap_canonical (fun _ => rfl) (fun _ => rfl) hs
  rw [State.startSweep, recAt_sweepPositions begun]
  simp only [group]
  rfl

/-- A record that starts a sweep. -/
theorem startSweep_reads (q : Station) (s : State) :
    let t := (s.startSweep q).endRecord
    t.mapu.sweep = some { station := q, group := 1 } ∧ t.mapu.intake = s.mapu.intake ∧
      (∀ x, t.rosterAt x = s.rosterAt x) ∧
      (s.canonical → ∀ p, t.recAt p =
        if p.val < 32 then (s.recAt p).without q s.mapu.mapTime s.claimLength else s.recAt p) := by
  have swept := unmapped_eq (n := { s.mapu with sweep := some { station := q, group := 1 } }) (startSweep_unmapped q s)
  have sweep : (s.startSweep q).mapu.sweep = some { station := q, group := 1 } := (congrArg MapUnit.sweep swept :)
  intro t
  rw [show t = _ from endRecord_sweeping sweep]
  exact ⟨sweep, (congrArg MapUnit.intake swept :), rosterAt_of_roster (congrArg MapUnit.roster swept :),
    fun hs p => recAt_startSweep hs q p⟩

/-! ### The notices of the roster (R127, R128) -/

/-- The application of the PRESENT at the head of the intake. -/
theorem exec_applyPresent {s : State} {r : Record} {h : Heard} {q : Station} {load headroom : BitVec 8} {fc : Fin 65}
    {fresh active : Bool} (ht : s.atTurn r) (hh : r.heard = some h) (hq : h.station = some q)
    (hn : h.notice = .present load headroom fc fresh active) : exec .applyPresent s =
      .next ((((s.beginRecord r).hearStation q).applyPresentTo
        { headroom := headroom, freeContexts := fc, active := active } fresh q (s.isPresent q)).endRecord) := by
  have run : exec .applyPresent s = .next s.doApplyPresent := next_live ht.1
  rw [run, State.doApplyPresent, onStationNotice_head ht hh hq (by rw [hn])]

/-- The application of the LOST at the head of the intake. -/
theorem exec_applyLost {s : State} {r : Record} {h : Heard} {q x : Station} {age : BitVec 8} (ht : s.atTurn r)
    (hh : r.heard = some h) (hq : h.station = some q) (hn : h.notice = .lost x age) :
    exec .applyLost s = .next ((((s.beginRecord r).hearStation q).applyLostTo x).endRecord) := by
  have run : exec .applyLost s = .next s.doApplyLost := next_live ht.1
  rw [run, State.doApplyLost, onStationNotice_head ht hh hq (by rw [hn])]

theorem heard_canonical {s : State} (r : Record) (q : Station) (hs : s.canonical) :
    ((s.beginRecord r).hearStation q).canonical := hearStation_canonical q (beginRecord_canonical r hs)

/-- The state with the entry of a station that a LOST names. -/
def markedLost (x : Station) (s : State) : State := (s.putRoster x { s.rosterAt x with state := .lost }).removeLost x

theorem markedLost_mapu (x : Station) (s : State) :
    (markedLost x s).mapu = (s.putRoster x { s.rosterAt x with state := .lost }).mapu := by
  simp [markedLost]

theorem rosterAt_markedLost (x y : Station) (s : State) :
    (markedLost x s).rosterAt y = if y = x then { s.rosterAt x with state := .lost } else s.rosterAt y :=
  (rosterAt_of_roster (congrArg MapUnit.roster (markedLost_mapu x s)) y).trans (rosterAt_putRoster ..)

theorem applyLostTo_other {x : Station} {s : State} (hx : x ≠ s.own) : s.applyLostTo x =
    if (s.rosterAt x).state = .present then (markedLost x s).startSweep x else markedLost x s := if_neg hx

theorem applyLostTo_own {x : Station} {s : State} (hx : x = s.own) :
    s.applyLostTo x = (s.raiseFlag .declaredLost).retreat .declared := if_pos hx

/-- Settles O29: a PRESENT and a LOST, each with its sweep where it starts one. -/
theorem rosterNoticesAreApplied : Obligations.RosterNoticesAreApplied := by
  refine ⟨fun s r h q load headroom fc fresh active ht hh hq hn => ?_, fun s r h q x age ht hh hq hn => ?_⟩
  · intro b swept
    obtain ⟨btime, bintake, bsweep, bhwi, blife, -⟩ := heard_reads ht q
    let v : LastValues := { headroom := headroom, freeContexts := fc, active := active }
    let u := b.putRoster q { state := .present, age := 0, last := some v }
    have own : u.own = s.own := congrArg Life.number blife
    have claim : u.claimLength = s.claimLength := by simp [u, b, State.claimLength]
    have roster : ∀ x, u.rosterAt x = if x = q then { state := .present, age := 0, last := some v } else b.rosterAt x :=
      fun x => rosterAt_putRoster ..
    have applied : b.applyPresentTo v fresh q (s.isPresent q) = if swept then u.startSweep q else u := by
      simp only [swept, ← own]; rfl
    refine ⟨_, exec_applyPresent ht hh hq hn, ?_⟩
    rw [applied]
    by_cases hs : swept
    · obtain ⟨sweep, intake, entries, records⟩ := startSweep_reads q u
      rw [if_pos hs]
      refine ⟨by rw [entries, roster, if_pos rfl], fun x hx => by rw [entries, roster, if_neg hx],
        fun hn => absurd hs hn, fun _ => ⟨intake.trans bintake, sweep⟩, fun _ hc p => ?_, by simp [u, b], by simp [u, b]⟩
      rw [records (putRoster_canonical q _ (heard_canonical r q hc)) p, claim, show u.mapu.mapTime = r.stamp from btime]
      rfl
    · rw [if_neg hs, endRecord_taken (s := s) (t := u) bsweep bintake]
      exact ⟨(roster q).trans (if_pos rfl), fun x hx => (roster x).trans (if_neg hx),
        fun _ => ⟨rfl, bsweep, rfl, rfl, rfl, rfl, rfl⟩, fun hh => absurd hh hs, fun hh => absurd hh hs, bhwi, blife⟩
  · intro b
    obtain ⟨btime, bintake, bsweep, -, blife, -⟩ := heard_reads ht q
    have own : b.own = s.own := congrArg Life.number blife
    refine ⟨_, exec_applyLost ht hh hq hn, fun hx => ?_, fun hx => ?_⟩
    · rw [applyLostTo_other (show x ≠ b.own by rwa [own])]
      let u := markedLost x b
      have mapu : u.mapu = _ := markedLost_mapu x b
      have time : u.mapu.mapTime = r.stamp := (congrArg MapUnit.mapTime mapu :).trans btime
      have intake : u.mapu.intake = s.mapu.intake := (congrArg MapUnit.intake mapu :).trans bintake
      have sweep : u.mapu.sweep = none := (congrArg MapUnit.sweep mapu :).trans bsweep
      have map : u.mapu.map = b.mapu.map := (congrArg MapUnit.map mapu :)
      have claim : u.claimLength = s.claimLength := by simp [u, b, markedLost, State.claimLength]
      have roster : ∀ y, u.rosterAt y = if y = x then { b.rosterAt x with state := .lost } else b.rosterAt y :=
        fun y => rosterAt_markedLost x y b
      by_cases hp : (b.rosterAt x).state = .present
      · obtain ⟨started, stays, entries, records⟩ := startSweep_reads x u
        rw [if_pos hp]
        refine ⟨by rw [entries, roster, if_pos rfl], by simp [b, markedLost], by simp [b, markedLost],
          fun y hy => by rw [entries, roster, if_neg hy], fun _ => ⟨started, stays.trans intake⟩, fun _ hc p => ?_,
          fun hn => absurd hp hn⟩
        have canonical : u.canonical := removeLost_canonical x (putRoster_canonical x _ (heard_canonical r q hc))
        rw [records canonical p, claim, time, recAt_of_map map]
      · rw [if_neg hp, endRecord_taken (s := s) (t := u) sweep intake]
        exact ⟨(roster x).trans (if_pos rfl), by simp [u, b, markedLost], by simp [u, b, markedLost],
          fun y hy => (roster y).trans (if_neg hy), fun h => absurd h hp, fun h => absurd h hp,
          fun _ => ⟨sweep, rfl, map⟩⟩
    · rw [applyLostTo_own (show x = b.own by rw [own, hx])]
      have part : b.participates = true := (participates_of_life blife).trans ht.2.1
      have raised : (b.raiseFlag .declaredLost).participates = true := (participates_of_life (by simp)).trans part
      obtain ⟨flag, -, intake, contexts, -, life, -⟩ := raiseFlag_retreat part .declaredLost .declared
      have retreats := retreat_eq raised .declared
      have map : ((b.raiseFlag .declaredLost).retreat .declared).mapu.map = [] := by rw [retreats]
      have sweep : ((b.raiseFlag .declaredLost).retreat .declared).mapu.sweep = none := by rw [retreats]
      simp only [endRecord_blocks, endRecord_mapu sweep, flag, intake, contexts, life, map, List.tail_nil, and_self]

end Sys2Proof.Proofs

/-! Proofs: the CLEAR (O32) and the OFFER (O33) of a position whose context shares its number with another. -/

namespace Sys2Proof.Proofs

open Sys2Proof Sys2Proof.Machine Sys2Proof.Laws

/-- The notice of a line partner. -/
def partnerHeard (n : Notice) : Heard := { sender := 9, grade := 0, notice := n, own := false }

/-- The two contexts under the number 0, for positions 7 and 5, with a HOLD of position 7 in the outbox and a line
partner's notice at the head of the intake. -/
def sharedNumber (n : Notice) : State :=
  { strayState with
    notice := { strayState.notice with
      outbox := [{ notice := .hold 7 1 .aLaw 1 0 0 none, age := 0, retries := 0 }], nextAge := 1 }
    mapu := { strayState.mapu with intake := [{ stamp := 0, heard := some (partnerHeard n) }] } }

theorem sharedNumber_atTurn (n : Notice) :
    (sharedNumber n).atTurn { stamp := 0, heard := some (partnerHeard n) } :=
  ⟨rfl, rfl, rfl, rfl, rfl, rfl⟩

/-- Of what waits at the turn, the HOLD of position 7 is for no other position. -/
theorem sharedNumber_hold_stands (n : Notice) :
    ((sharedNumber n).beginRecord { stamp := 0, heard := some (partnerHeard n) }).notice.outbox.filter
      (fun e => !(Notice.isFor 5 e.notice)) ≠ [] :=
  List.cons_ne_nil _ _

/-- Refutes O32: a fitting CLEAR of position 5 takes the HOLD of position 7 out of the outbox too, where the contexts of
both have the number 0 (as in no canonical state), since the release by number reads the position that stands first. -/
theorem not_clearIsApplied : ¬ Obligations.ClearIsApplied := by
  intro applied
  obtain ⟨t, run, -, -, -, -, -, fitting, -⟩ :=
    applied (sharedNumber (.clear 5 1)) _ _ 5 1 (sharedNumber_atTurn _) rfl rfl
  have result : exec .applyClear (sharedNumber (.clear 5 1)) = .next (sharedNumber (.clear 5 1)).doApplyClear :=
    next_live rfl
  obtain rfl : (sharedNumber (.clear 5 1)).doApplyClear = t := Host.Outcome.next.inj (result.symm.trans run)
  have lost : (sharedNumber (.clear 5 1)).doApplyClear.notice.outbox = [] := rfl
  obtain ⟨-, -, outbox, -⟩ := fitting ⟨by decide, rfl⟩
  exact sharedNumber_hold_stands (.clear 5 1) (outbox.symm.trans lost)

/-- Refutes O33: an OFFER over the standing position 5 makes every change of a fitting CLEAR, and with it takes the HOLD
of position 7 out of the outbox, where the contexts of both have the number 0 (as in no canonical state). -/
theorem not_offerIsApplied : ¬ Obligations.OfferIsApplied := by
  rintro ⟨applied, -, -⟩
  obtain ⟨standing, -⟩ :=
    applied (sharedNumber (.offer 5 2 .aLaw 1 0)) _ _ 5 2 .aLaw 1 0 (sharedNumber_atTurn _) rfl rfl
  have lost : (((sharedNumber (.offer 5 2 .aLaw 1 0)).beginRecord
      { stamp := 0, heard := some (partnerHeard (.offer 5 2 .aLaw 1 0)) }).clearPosition 5).notice.outbox = [] := rfl
  obtain ⟨-, -, -, -, outbox, -⟩ := standing (by decide)
  exact sharedNumber_hold_stands (.offer 5 2 .aLaw 1 0) (outbox.symm.trans lost)

end Sys2Proof.Proofs

/-! Proofs: what the Pool Controller's notices leave of the counters, and the application of a SHED (O36). -/

namespace Sys2Proof.Proofs

open Sys2Proof Sys2Proof.Machine Sys2Proof.Laws

/-! ### An application that changes one record -/

theorem recAt_putRec_self (p : Pos) (r : PosRecord) (s : State) : (s.putRec p r).recAt p = r := by
  rw [recAt_putRec, if_pos rfl]

/-- Between s and t the Map Unit changes the record of p at most. -/
def ChangesRecord (p : Pos) (s t : State) : Prop :=
  unmapped t.mapu = unmapped s.mapu ∧ ∀ x, x ≠ p → t.recAt x = s.recAt x

theorem changesRecord_of_mapu {p : Pos} {s t : State} (h : t.mapu = s.mapu) : ChangesRecord p s t :=
  ⟨congrArg unmapped h, fun x _ => recAt_of_map (congrArg MapUnit.map h) x⟩

theorem changesRecord_of_putRec {p : Pos} {r : PosRecord} {s t : State} (h : t.mapu = (s.putRec p r).mapu) :
    ChangesRecord p s t ∧ t.recAt p = r := by
  have read : ∀ x, t.recAt x = if x = p then r else s.recAt x := fun x =>
    (recAt_of_map (congrArg MapUnit.map h) x).trans (recAt_putRec ..)
  exact ⟨⟨by rw [h, unmapped_putRec], fun x hx => by rw [read, if_neg hx]⟩, by rw [read, if_pos rfl]⟩

/-- The record of the application leaves the intake. -/
theorem endRecord_changed {p : Pos} {b u : State} (h : ChangesRecord p b u) (hs : b.mapu.sweep = none) :
    let t := u.endRecord
    t.mapu.intake = b.mapu.intake.tail ∧ t.mapu.roster = b.mapu.roster ∧ t.mapu.map = u.mapu.map ∧
      (∀ x, t.recAt x = u.recAt x) ∧ (∀ x, x ≠ p → t.recAt x = b.recAt x) := by
  obtain ⟨kept, others⟩ := h
  have kept := unmapped_eq kept
  have ends := endRecord_mapu ((congrArg MapUnit.sweep kept :).trans hs)
  have map : u.endRecord.mapu.map = u.mapu.map := (congrArg MapUnit.map ends :)
  exact ⟨(congrArg MapUnit.intake ends :).trans (congrArg List.tail (congrArg MapUnit.intake kept :)),
    (congrArg MapUnit.roster ends :).trans (congrArg MapUnit.roster kept :), map, recAt_of_map map,
    fun x hx => (recAt_of_map map x).trans (others x hx)⟩

/-! ### The application of a SHED (R124) -/

/-- The application of the SHED at the head of the intake. -/
theorem exec_applyShed {s : State} {r : Record} {h : Heard} {q : Station} {p : Pos} {tag : CallTag} {cost : BitVec 4}
    (ht : s.atTurn r) (hh : r.heard = some h) (hq : h.station = some q) (hn : h.notice = .shed p tag cost) :
    exec .applyShed s =
      .next ((((s.beginRecord r).hearStation q).applyShedTo p tag q h.own).endRecord) := by
  have run : exec .applyShed s = .next s.doApplyShed := next_live ht.1
  rw [run, State.doApplyShed, onStationNotice_head ht hh hq (by rw [hn])]

theorem shedFits_iff {r : PosRecord} {q : Station} {tag : CallTag} : r.shedFits q tag = true ↔
    r.primary = some q ∧ r.call.map (fun k => k.tag) = some tag ∧ r.state = .held ∧ r.switchFrame = none := by
  simp only [PosRecord.shedFits, Bool.and_eq_true, decide_eq_true_eq]
  tauto

theorem shedFits_held {r : PosRecord} {q : Station} {tag : CallTag} (h : r.shedFits q tag = true) : r.state = .held := by
  obtain ⟨-, -, held, -⟩ := shedFits_iff.1 h
  exact held

theorem shed_shadowed {r : PosRecord} (closing : FrameCount) (h : r.shadow ≠ none) :
    r.shed closing = { r with state := .shedding, closing := none } := by
  simp [PosRecord.shed, Option.isSome_iff_ne_none.2 h]

theorem shed_open {r : PosRecord} (closing : FrameCount) (h : r.shadow = none) :
    r.shed closing = { r with state := .shedding, closing := some closing } := by
  simp [PosRecord.shed, h]

theorem shed_ne {r : PosRecord} (closing : FrameCount) (h : r.state = .held) : r.shed closing ≠ r := by
  intro same
  have := congrArg PosRecord.state same
  simp [PosRecord.shed, h] at this

section
variable {p : Pos} {tag : CallTag} {q : Station} {own : Bool} {s : State}

/-- A fitting SHED changes the record, and the Pool Controller answers. -/
theorem applyShedTo_fits (h : (s.recAt p).shedFits q tag = true) : s.applyShedTo p tag q own =
    (s.putRec p ((s.recAt p).shed (s.mapu.mapTime + s.claimLength))).poolReact p (s.recAt p) := if_pos h

/-- Any other is counted, and an own one ends the shed in progress. -/
theorem applyShedTo_refused (h : ¬(s.recAt p).shedFits q tag = true) : s.applyShedTo p tag q own =
    if own then (s.count .shedsRefused).endShed p else s.count .shedsRefused := if_neg h

theorem applyShedTo_refused_blocks (h : ¬(s.recAt p).shedFits q tag = true) :
    (s.applyShedTo p tag q own).mapu = s.mapu ∧ (s.applyShedTo p tag q own).notice = s.notice ∧
      (s.applyShedTo p tag q own).table = s.table ∧
      (s.applyShedTo p tag q own).report = s.report.counted .shedsRefused := by
  rw [applyShedTo_refused h]
  split <;> simp [State.count]

theorem applyShedTo_mapu (h : (s.recAt p).shedFits q tag = true) : (s.applyShedTo p tag q own).mapu =
    (s.putRec p ((s.recAt p).shed (s.mapu.mapTime + s.claimLength))).mapu := by
  rw [applyShedTo_fits h, poolReact_blocks .. |>.2.2.1]

theorem applyShedTo_changes : ChangesRecord p s (s.applyShedTo p tag q own) := by
  by_cases h : (s.recAt p).shedFits q tag = true
  · exact (changesRecord_of_putRec (applyShedTo_mapu h)).1
  · exact changesRecord_of_mapu (applyShedTo_refused_blocks h).1

end

/-! ### What the Pool Controller answers to a SHED (R143, R144) -/

/-- The notice of a TAKEN depends on the contexts, the records, the marks and the Notice Controller only. -/
theorem placeTaken_notice_congr {s t : State} {p : Pos} (cause : TakenCause)
    (hc : s.table.contexts = t.table.contexts) (hr : s.recAt p = t.recAt p)
    (hm : s.takenMark p = t.takenMark p) (hn : s.notice = t.notice) :
    (s.placeTaken p cause).notice = (t.placeTaken p cause).notice := by
  unfold State.placeTaken
  rw [ctxFor_of_contexts hc p, hr]
  split
  · rw [hm]
    split
    · exact hn
    · exact place_notice_congr (by simpa [State.setTakenMark] using hn) _
  · exact hn

@[simp] theorem takenMark_shedEnds (p x : Pos) (old new : PosRecord) (s : State) :
    (s.shedEnds p old new).takenMark x = s.takenMark x := by
  unfold State.shedEnds
  simp only
  split
  · simp
  · rfl

/-- The reaction of an ACTIVE station without a waiting BID for p. -/
theorem poolReact_active {s : State} {p : Pos} {old : PosRecord} (ha : s.life.station = .active)
    (hw : s.waitingBid p = none) (hne : s.recAt p ≠ old) :
    s.poolReact p old = (s.shedEnds p old (s.recAt p)).answerChange p old (s.recAt p) := by
  have waits : (s.shedEnds p old (s.recAt p)).waitingBid p = none := by
    simpa [State.waitingBid] using hw
  have unfit : (s.shedEnds p old (s.recAt p)).withdrawUnfit p = s.shedEnds p old (s.recAt p) := by
    simp [State.withdrawUnfit, waits]
  have active : (s.shedEnds p old (s.recAt p)).isActive = true := by simp [State.isActive, ha]
  simp only [State.poolReact, if_neg hne, unfit, active, if_true]

section
variable {s : State} {p : Pos} {old new : PosRecord} (ho : old.state = .held) (hn : new.state = .shedding)
  (ht : new.taker = none)
include ho hn ht

/-- The shadow whose context stands by announces the hand-off. -/
theorem answerChange_shed_shadow (hs : new.shadow = some s.own) : s.answerChange p old new =
    if s.standbyFor p then s.placeTaken p .handOff else s := by
  simp [State.answerChange, hn, ho, ht, hs, PosRecord.shadows, windowOpened, PosRecord.unfilled]

/-- A station that the record does not name bids to take it, where a claim window opens. -/
theorem answerChange_shed_open (hs : new.shadow = none) (hc : new.closing ≠ none) (hm : new.names s.own = false) :
    s.answerChange p old new = s.placeBid p .take := by
  simp [State.answerChange, hn, ho, ht, hs, hm, PosRecord.shadows, windowOpened, PosRecord.unfilled,
    Option.isSome_iff_ne_none.2 hc]

end

section
variable {p : Pos} {tag : CallTag} {q : Station} {own : Bool} {s : State} (hf : (s.recAt p).shedFits q tag = true)
  (ha : s.life.station = .active) (hw : s.waitingBid p = none) (ht : (s.recAt p).taker = none)
include hf ha hw

theorem applyShedTo_active :
    let u := s.putRec p ((s.recAt p).shed (s.mapu.mapTime + s.claimLength))
    s.applyShedTo p tag q own = (u.shedEnds p (s.recAt p) (u.recAt p)).answerChange p (s.recAt p) (u.recAt p) := by
  intro u
  have held := shedFits_held hf
  have changed : u.recAt p = (s.recAt p).shed (s.mapu.mapTime + s.claimLength) := recAt_putRec_self ..
  rw [applyShedTo_fits hf]
  exact poolReact_active (by exact ha) (by exact hw) (by rw [changed]; exact shed_ne _ held)

include ht

theorem applyShedTo_notice_shadow {c : CtxNum} {x : Context} (hs : (s.recAt p).shadow = some s.own)
    (hx : s.ctxFor p = some (c, x)) :
    let u := s.putRec p ((s.recAt p).shed (s.mapu.mapTime + s.claimLength))
    (x.state = .standby → (s.applyShedTo p tag q own).notice = (u.placeTaken p .handOff).notice) ∧
      (x.state ≠ .standby → (s.applyShedTo p tag q own).notice = s.notice) := by
  intro u
  have changed : u.recAt p = (s.recAt p).shed (s.mapu.mapTime + s.claimLength) := recAt_putRec_self ..
  let w := u.shedEnds p (s.recAt p) (u.recAt p)
  obtain ⟨-, wtable, -, wnotice, wmapu, wlife, -⟩ := shedEnds_blocks p (s.recAt p) (u.recAt p) u
  have found : w.ctxFor p = some (c, x) := (ctxFor_of_contexts (congrArg CtxTable.contexts wtable) p).trans hx
  have stands : w.standbyFor p = decide (x.state = .standby) := by simp [State.standbyFor, found]
  have wown : w.own = s.own := congrArg Life.number wlife
  have shadow : (u.recAt p).shadow = some w.own := by rw [changed, wown]; exact hs
  rw [show s.applyShedTo p tag q own = _ from applyShedTo_active hf ha hw,
    answerChange_shed_shadow (s := w) (shedFits_held hf) (by rw [changed]; rfl) (by rw [changed]; exact ht)
      shadow, stands]
  refine ⟨fun hst => ?_, fun hst => ?_⟩
  · rw [if_pos (by simpa using hst)]
    exact placeTaken_notice_congr _ (congrArg CtxTable.contexts wtable) (recAt_of_map (congrArg MapUnit.map wmapu) p)
      (by simp [w]) wnotice
  · rw [if_neg (by simpa using hst)]
    exact wnotice

theorem applyShedTo_open (hs : (s.recAt p).shadow = none) (hm : (s.recAt p).names s.own = false) :
    s.applyShedTo p tag q own =
      (s.putRec p ((s.recAt p).shed (s.mapu.mapTime + s.claimLength))).placeBid p .take := by
  let u := s.putRec p ((s.recAt p).shed (s.mapu.mapTime + s.claimLength))
  have held := shedFits_held hf
  have changed : u.recAt p = (s.recAt p).shed (s.mapu.mapTime + s.claimLength) := recAt_putRec_self ..
  have ends : u.shedEnds p (s.recAt p) (u.recAt p) = u := by
    obtain ⟨-, hy, -, -⟩ := names_eq_false.1 hm
    have : (s.recAt p).yielding ≠ some u.own := hy
    simp [State.shedEnds, held, this]
  rw [show s.applyShedTo p tag q own = _ from applyShedTo_active hf ha hw]
  refine (congrArg (fun v : State => v.answerChange p (s.recAt p) (u.recAt p)) ends).trans ?_
  rw [changed]
  exact answerChange_shed_open held rfl ht hs (by simp [shed_open _ hs]) hm

end

/-- Settles O36: a fitting SHED with what the own station answers, and one that is refused. -/
theorem shedIsApplied : Obligations.ShedIsApplied := by
  intro s r h q p tag cost ht hh hq hn b old fits
  obtain ⟨btime, bintake, bsweep, -, blife, -⟩ := heard_reads ht q
  have claim : b.claimLength = s.claimLength := by simp [b, State.claimLength]
  have own : b.own = s.own := congrArg Life.number blife
  obtain ⟨intake, roster, map, reads, others⟩ :=
    endRecord_changed (applyShedTo_changes (p := p) (tag := tag) (q := q) (own := h.own) (s := b)) bsweep
  have shed : fits → (b.applyShedTo p tag q h.own).recAt p = old.shed (r.stamp + s.claimLength) := fun hf => by
    rw [(changesRecord_of_putRec (applyShedTo_mapu (shedFits_iff.2 hf))).2, claim, show b.mapu.mapTime = _ from btime]
  have record : fits → b.putRec p ((b.applyShedTo p tag q h.own).recAt p) =
      b.putRec p (old.shed (b.mapu.mapTime + b.claimLength)) := fun hf => by
    rw [shed hf, claim, show b.mapu.mapTime = _ from btime]
  refine ⟨_, exec_applyShed ht hh hq hn, intake.trans (by rw [bintake]), others, roster, by simp, by simp, by simp [b],
    by simp [b], fun hf hs => ?_, fun hf hs => ?_, fun c x hf ha hw htk hs hx => ?_, fun hf ha hw htk hs hm => ?_,
    fun hf => ?_⟩
  · rw [reads, shed hf, shed_shadowed _ hs]
  · rw [reads, shed hf, shed_open _ hs]
  · rw [reads, record hf, endRecord_blocks .. |>.2.2.2.1]
    exact applyShedTo_notice_shadow (shedFits_iff.2 hf) (by rwa [blife]) hw htk (by rw [own]; exact hs) hx
  · rw [reads, record hf, endRecord_blocks .. |>.2.2.2.1,
      applyShedTo_open (shedFits_iff.2 hf) (by rwa [blife]) hw htk hs (by rw [own]; exact hm)]
  · obtain ⟨mapu, notice, table, report⟩ := applyShedTo_refused_blocks (own := h.own) (mt shedFits_iff.1 hf)
    rw [map]
    simp only [endRecord_blocks]
    exact ⟨congrArg MapUnit.map mapu, report, notice, table⟩

end Sys2Proof.Proofs

/-! Proofs: the counters that the Pool Controller leaves, the application of a HOLD and the census (O37). -/

namespace Sys2Proof.Proofs

open Sys2Proof Sys2Proof.Machine Sys2Proof.Laws

/-! ### The counters that the Pool Controller leaves (R166) -/

section
variable {k : Counter} (hk : counterIndex k ≠ counterIndex .outboxDrops)
include hk

/-- A placing counts drops of the outbox only. -/
theorem counter_place (n : Notice) (s : State) : (s.place n).report.counter k = s.report.counter k := by
  unfold State.place
  (repeat' split) <;> simp [State.count, counter_counted, hk]

theorem counter_placeTaken (p : Pos) (cause : TakenCause) (s : State) :
    (s.placeTaken p cause).report.counter k = s.report.counter k := by
  unfold State.placeTaken
  split
  · split
    · rfl
    · exact (counter_place hk ..).trans (by simp)
  · rfl

theorem counter_placeShedderHold (p : Pos) (s : State) :
    (s.placeShedderHold p).report.counter k = s.report.counter k := by
  unfold State.placeShedderHold
  split
  · exact counter_place hk ..
  · rfl

theorem counter_placeBid (p : Pos) (role : BidRole) (s : State) :
    (s.placeBid p role).report.counter k = s.report.counter k := by
  unfold State.placeBid
  cases (s.recAt p).call with
  | none => rfl
  | some k =>
    simp only
    split
    · cases hr : s.requestReservation p role (bidCost role k.mode) with
      | none => rfl
      | some t =>
        have report : t.report = s.report := (requestReservation_blocks hr).2.2.2.2.2.2.1
        refine (counter_place hk ..).trans ?_
        split <;> simp [report]
    · rfl

theorem counter_answerChange (p : Pos) (old new : PosRecord) (s : State) :
    (s.answerChange p old new).report.counter k = s.report.counter k := by
  unfold State.answerChange
  simp only [apply_ite (fun u : State => u.report.counter k), counter_placeBid hk, counter_placeTaken hk,
    counter_placeShedderHold hk, ite_self]

theorem counter_poolReact (p : Pos) (old : PosRecord) (s : State) :
    (s.poolReact p old).report.counter k = s.report.counter k := by
  unfold State.poolReact
  simp only
  split
  · rfl
  · split
    · rw [counter_answerChange hk]; simp
    · simp

/-- A removal counts an orphan that is dropped beside them. -/
theorem counter_removeStation (ho : counterIndex k ≠ counterIndex .orphansDropped) (q : Station) (p : Pos) (s : State) :
    (s.removeStation q p).report.counter k = s.report.counter k := by
  have counts : (withoutStation q p s).report.counter k = s.report.counter k := by
    unfold withoutStation
    simp only
    split
    · simp [State.count, counter_counted, ho]
    · simp
  rw [removeStation_eq, counter_poolReact hk, releaseUnnamed_blocks .. |>.2.2.2.1]
  split
  · rw [modCtxFor_blocks .. |>.2.2.2.2.2.2.1, counts]
  · exact counts

end

/-! ### The application of a HOLD, by what the record says of its sender (R125, R126) -/

/-- The application of the HOLD at the head of the intake. -/
theorem exec_applyHold {s : State} {r : Record} {h : Heard} {q : Station} {p : Pos} {tag : CallTag} {law : Law}
    {ms : ModeSet} {m : Mode} {phase : BlockIndex} {sh : Option Station} (ht : s.atTurn r) (hh : r.heard = some h)
    (hq : h.station = some q) (hn : h.notice = .hold p tag law ms m phase sh) : exec .applyHold s =
      .next ((((s.beginRecord r).hearStation q).applyHoldTo p tag law ms m phase sh q h.own).endRecord) := by
  have run : exec .applyHold s = .next s.doApplyHold := next_live ht.1
  rw [run, State.doApplyHold, onStationNotice_head ht hh hq (by rw [hn])]

/-- The HOLD of a station that is not the primary contradicts the record, and not only as a yielding one's does. -/
def HoldConflicts (r : PosRecord) (q : Station) : Prop :=
  r.primary ≠ some q ∧ r.state ≠ .free ∧ ¬(r.state = .held ∧ r.yielding = some q)

section
variable {p : Pos} {tag : CallTag} {law : Law} {ms : ModeSet} {m : Mode} {phase : BlockIndex} {sh : Option Station}
  {q : Station} {own : Bool} {s : State}

theorem applyHoldTo_restates (h : (s.recAt p).primary = some q) :
    s.applyHoldTo p tag law ms m phase sh q own = s.holdRestates p tag law ms m phase sh := if_pos h

theorem applyHoldTo_teaches (h : (s.recAt p).primary ≠ some q) (hf : (s.recAt p).state = .free) :
    s.applyHoldTo p tag law ms m phase sh q false = s.holdTeaches p tag law ms m phase sh q := by
  simp [State.applyHoldTo, h, hf]

theorem applyHoldTo_counted (h : (s.recAt p).primary ≠ some q)
    (hc : (s.recAt p).state = .free ∧ own = true ∨ (s.recAt p).state = .held ∧ (s.recAt p).yielding = some q) :
    s.applyHoldTo p tag law ms m phase sh q own = s.count .censusMismatches := by
  rcases hc with ⟨hf, ho⟩ | ⟨hst, hy⟩
  · simp [State.applyHoldTo, h, hf, ho]
  · simp [State.applyHoldTo, h, hst, hy]

theorem applyHoldTo_conflicts (h : HoldConflicts (s.recAt p) q) :
    s.applyHoldTo p tag law ms m phase sh q own = s.holdConflicts p q own := by
  obtain ⟨hp, hf, hy⟩ := h
  rw [State.applyHoldTo]
  exact (if_neg hp).trans ((if_neg hf).trans (if_neg hy))

end

/-! ### The primary's HOLD (R125) -/

theorem adopts_iff {s : State} {r : PosRecord} {x : Station} :
    s.adopts r x = true ↔ (s.isPresent x = true ∧ x ≠ s.own) ∧ r.names x = false := by
  simp [State.adopts]

section
variable {s : State} {r : PosRecord} {sh : Option Station}

/-- The shadow field says nothing that changes the record. -/
theorem holdShadow_keeps (h : r.shadow ≠ none ∨ sh = none ∨ r.state ≠ .held) : (s.holdShadow r sh).2 = r := by
  unfold State.holdShadow
  split
  · rfl
  · rfl
  · rename_i hr
    rw [if_neg (by simp_all)]

theorem holdShadow_adopts {x : Station} (hr : r.shadow = none) (hs : sh = some x) (hst : r.state = .held)
    (ha : s.adopts r x = true) : s.holdShadow r sh = (false, { r with shadow := some x, closing := none }) := by
  simp [State.holdShadow, hr, hs, hst, ha]

theorem holdShadow_refuses {x : Station} (hr : r.shadow = none) (hs : sh = some x) (ha : ¬s.adopts r x = true) :
    (s.holdShadow r sh).2 = r := by
  simp [State.holdShadow, hr, hs, ha]

/-- The shadow field contradicts the record: by another shadow than the record's, or by one that is not adopted. -/
theorem holdShadow_mismatch : (s.holdShadow r sh).1 = true ↔ (∃ x, r.shadow = some x ∧ sh ≠ some x) ∨
    (r.shadow = none ∧ ∃ x, sh = some x ∧ ¬(r.state = .held ∧ s.adopts r x = true)) := by
  unfold State.holdShadow
  cases r.shadow with
  | some x => simp
  | none =>
    cases sh with
    | none => simp
    | some x =>
      simp only
      split
      · rename_i h; simp [h]
      · rename_i h; simpa using h

end

/-- The call that a primary's HOLD restates, with the record's offerer. -/
def restatedCall (r : PosRecord) (tag : CallTag) (law : Law) (ms : ModeSet) (m : Mode) (phase : BlockIndex) : Call :=
  { tag := tag, law := law, modeSet := ms, mode := m, phase := phase, offerer := r.call.bind (fun k => k.offerer) }

section
variable (p : Pos) (tag : CallTag) (law : Law) (ms : ModeSet) (m : Mode) (phase : BlockIndex) (sh : Option Station)
  (q : Station) (s : State)

/-- The judgement of the shadow field, on the record with the call restated. -/
def restated : Bool × PosRecord :=
  s.holdShadow { s.recAt p with call := some (restatedCall (s.recAt p) tag law ms m phase) } sh

theorem holdRestates_mapu : (s.holdRestates p tag law ms m phase sh).mapu =
    (s.putRec p (restated p tag law ms m phase sh s).2).mapu := by
  unfold State.holdRestates
  simp only [poolReact_blocks, apply_ite State.mapu, count_blocks, ite_self]
  rfl

/-- Each contradiction is counted. -/
theorem holdRestates_counter : (s.holdRestates p tag law ms m phase sh).report.counter .censusMismatches =
    let before := s.report.counter .censusMismatches
    let tagged := if (s.recAt p).call.map (fun k => k.tag) ≠ some tag then countUp before else before
    if (restated p tag law ms m phase sh s).1 then countUp tagged else tagged := by
  have counted : ∀ u : State, (u.count .censusMismatches).report.counter .censusMismatches =
      countUp (u.report.counter .censusMismatches) := fun u => by
    rw [State.count, onReport_report, counter_counted, if_pos rfl]
  rw [State.holdRestates, counter_poolReact (by decide)]
  simp only [apply_ite (fun u : State => u.report.counter .censusMismatches), counted]
  rfl

/-- The shadow that a HOLD teaches: the station it names, where that is another and is adopted. -/
def taughtShadow : Option Station := sh.filter (fun x => decide ((s.isPresent x = true ∧ x ≠ s.own) ∧ x ≠ q))

/-- The record that a HOLD teaches. -/
def taughtRec : PosRecord :=
  { PosRecord.free with
    state := .held
    call := some { tag := tag, law := law, modeSet := ms, mode := m, phase := phase, offerer := none }
    primary := some q
    shadow := taughtShadow sh q s }

theorem holdTeaches_mapu : (s.holdTeaches p tag law ms m phase sh q).mapu =
    (s.putRec p (taughtRec tag law ms m phase sh q s)).mapu := by
  unfold State.holdTeaches
  simp only [poolReact_blocks]
  refine congrArg (fun x => (s.putRec p { taughtRec tag law ms m phase sh q s with shadow := x }).mapu) ?_
  cases sh with
  | none => rfl
  | some x => simp [taughtShadow, adopts_iff, PosRecord.names, PosRecord.free, Option.filter, eq_comm (a := q)]

end

/-! ### A conflicting HOLD (R126) -/

theorem ctx_releaseFor {s : State} {p : Pos} {c : CtxNum} {x : Context}
    (h : s.ctx c = none ∨ s.ctxFor p = some (c, x)) : (s.releaseFor p).ctx c = none := by
  unfold State.releaseFor
  rcases h with h | h
  · split
    · rw [ctx_releaseCtx]; split <;> simp [h]
    · exact h
  · simp [h, ctx_releaseCtx]

/-- The removal of a station that is not the primary leaves the context for the position, or releases it. -/
theorem removeStation_ctxFor {s : State} {q : Station} {p : Pos} {c : CtxNum} {x : Context}
    (hp : (s.recAt p).primary ≠ some q) (hx : s.ctxFor p = some (c, x)) :
    (s.removeStation q p).ctx c = none ∨ (s.removeStation q p).ctxFor p = some (c, x) := by
  cases hn : ((s.recAt p).without q s.mapu.mapTime s.claimLength).names s.own with
  | false => exact Or.inl ((removeStation_ctx hx).1 hn)
  | true =>
    obtain ⟨htable, -, hlife, -⟩ := withoutStation_blocks q p s
    have named : ((withoutStation q p s).recAt p).names (withoutStation q p s).own = true := by
      rw [recAt_withoutStation, State.own, hlife]; exact hn
    refine Or.inr ((ctxFor_of_contexts ?_ p).trans hx)
    rw [removeStation_eq, if_neg (fun h => hp h.1), releaseUnnamed_named named, poolReact_contexts, htable]

section
variable {p : Pos} {q : Station} {s : State}

/-- The state once a shadow or a taker that holds against the record is removed. -/
def conflictRemoved (p : Pos) (q : Station) (s : State) : State :=
  if (s.recAt p).shadow = some q ∨ (s.recAt p).taker = some q then
    (s.count .censusMismatches).removeStation q p
  else s.count .censusMismatches

theorem holdConflicts_eq (own : Bool) : s.holdConflicts p q own =
    if own then (conflictRemoved p q s).releaseFor p else conflictRemoved p q s := by
  simp only [State.holdConflicts, conflictRemoved, PosRecord.shadows, PosRecord.takes, decide_eq_true_eq]

theorem holdConflicts_mapu (own : Bool) : (s.holdConflicts p q own).mapu = (conflictRemoved p q s).mapu := by
  rw [holdConflicts_eq]; split <;> simp

theorem conflictRemoved_named (h : (s.recAt p).shadow = some q ∨ (s.recAt p).taker = some q) :
    (conflictRemoved p q s).mapu = (s.putRec p ((s.recAt p).without q s.mapu.mapTime s.claimLength)).mapu := by
  rw [conflictRemoved, if_pos h, removeStation_mapu]; rfl

theorem conflictRemoved_unnamed (hs : (s.recAt p).shadow ≠ some q) (ht : (s.recAt p).taker ≠ some q) :
    conflictRemoved p q s = s.count .censusMismatches := if_neg (by tauto)

theorem holdConflicts_counter (own : Bool) : (s.holdConflicts p q own).report.counter .censusMismatches =
    countUp (s.report.counter .censusMismatches) := by
  have counted : (s.count .censusMismatches).report.counter .censusMismatches =
      countUp (s.report.counter .censusMismatches) := by
    rw [State.count, onReport_report, counter_counted, if_pos rfl]
  have removed : (conflictRemoved p q s).report.counter .censusMismatches =
      countUp (s.report.counter .censusMismatches) := by
    unfold conflictRemoved
    split
    · rw [counter_removeStation (by decide) (by decide), counted]
    · exact counted
  rw [holdConflicts_eq]
  split
  · rw [releaseFor_blocks .. |>.2.2.2.1, removed]
  · exact removed

/-- The own station releases its context. -/
theorem holdConflicts_own {c : CtxNum} {x : Context} (hp : (s.recAt p).primary ≠ some q)
    (hx : s.ctxFor p = some (c, x)) : (s.holdConflicts p q true).ctx c = none := by
  rw [holdConflicts_eq, if_pos rfl]
  refine ctx_releaseFor (x := x) ?_
  unfold conflictRemoved
  split
  · exact removeStation_ctxFor (s := s.count .censusMismatches) hp hx
  · exact Or.inr hx

end

/-- A HOLD changes the record of its position at most. -/
theorem applyHoldTo_changes (p : Pos) (tag : CallTag) (law : Law) (ms : ModeSet) (m : Mode) (phase : BlockIndex)
    (sh : Option Station) (q : Station) (own : Bool) (s : State) :
    ChangesRecord p s (s.applyHoldTo p tag law ms m phase sh q own) := by
  unfold State.applyHoldTo
  simp only
  split
  · exact (changesRecord_of_putRec (holdRestates_mapu ..)).1
  · split
    · split
      · exact changesRecord_of_mapu rfl
      · exact (changesRecord_of_putRec (holdTeaches_mapu ..)).1
    · split
      · exact changesRecord_of_mapu rfl
      · by_cases h : (s.recAt p).shadow = some q ∨ (s.recAt p).taker = some q
        · exact (changesRecord_of_putRec ((holdConflicts_mapu own).trans (conflictRemoved_named h))).1
        · rw [not_or] at h
          refine changesRecord_of_mapu ?_
          rw [holdConflicts_mapu, conflictRemoved_unnamed h.1 h.2]
          rfl

/-! ### The census (R150) -/

/-- How far a position comes after the census cursor, in cyclic order. -/
def afterCursor (s : State) (p : Pos) : Nat := (p.val + 255 - s.pool.cursor.val) % 256

theorem censusPosition_afterCursor (s : State) (p : Pos) : s.censusPosition (afterCursor s p) = p := by
  have hp := p.isLt
  have hc := s.pool.cursor.isLt
  refine Fin.ext ?_
  simp only [State.censusPosition, posOfCode, afterCursor, Fin.val_ofNat]
  omega

theorem afterCursor_censusPosition (s : State) {i : Nat} (hi : i < 256) : afterCursor s (s.censusPosition i) = i := by
  have hc := s.pool.cursor.isLt
  simp only [State.censusPosition, posOfCode, afterCursor, Fin.val_ofNat]
  omega

/-- What is found at i, and at nothing before it, is the first that is found. -/
theorem findSome?_range {β : Type} {f : Nat → Option β} {n i : Nat} {b : β} (hi : i < n) (hf : f i = some b)
    (before : ∀ j < i, f j = none) : (List.range n).findSome? f = some b := by
  obtain ⟨d, rfl⟩ : ∃ d, n = i + (d + 1) := ⟨n - i - 1, by omega⟩
  have none' : (List.range i).findSome? f = none :=
    List.findSome?_eq_none_iff.2 (fun j hj => before j (List.mem_range.1 hj))
  rw [List.range_add, List.findSome?_append, none', Option.none_or, List.range_succ_eq_map]
  simp [hf]

/-- The PRIMARY context for a position, if there is one. -/
def primaryFor (s : State) (p : Pos) : Option Context :=
  match s.ctxFor p with
  | some (_, x) => if x.state = .primary then some x else none
  | none => none

theorem primaryFor_eq_some {s : State} {p : Pos} {x : Context} :
    primaryFor s p = some x ↔ ∃ c, s.ctxFor p = some (c, x) ∧ x.state = .primary := by
  unfold primaryFor
  cases h : s.ctxFor p with
  | none => simp
  | some e =>
    obtain ⟨d, y⟩ := e
    refine ⟨fun hx => ?_, fun ⟨c, hc, hst⟩ => ?_⟩
    · obtain ⟨hst, rfl⟩ : y.state = .primary ∧ y = x := by simpa [ite_eq_iff] using hx
      exact ⟨d, rfl, hst⟩
    · obtain ⟨rfl, rfl⟩ : d = c ∧ y = x := by simpa using hc
      exact if_pos hst

theorem isHold_iff {n : Notice} : isHold n = true ↔ n.kindCode = 7 := by
  cases n <;> simp [isHold, Notice.kindCode]

theorem census_waits {s : State} (h : ∃ e ∈ s.notice.outbox, e.notice.kindCode = 7) : s.census = s := by
  have waiting : s.notice.outbox.any (fun e => isHold e.notice) = true := by
    simpa [List.any_eq_true, isHold_iff] using h
  rw [State.census, if_pos waiting]

/-- The HOLD of a PRIMARY context, to which the cursor moves. -/
def restatedBy (s : State) (x : Context) : State :=
  (s.place (.hold x.position x.callTag x.law x.modeSet x.downMode x.phase (s.recAt x.position).shadow)).onPool
    (fun q => { q with cursor := x.position })

/-- The census looks for the first PRIMARY context after the cursor. -/
theorem census_eq {s : State} (h : ∀ e ∈ s.notice.outbox, e.notice.kindCode ≠ 7) : s.census =
    ((List.range 256).findSome? (fun i => primaryFor s (s.censusPosition i))).elim s (restatedBy s) := by
  have none' : ¬s.notice.outbox.any (fun e => isHold e.notice) = true := by
    simpa [List.any_eq_true, isHold_iff] using h
  have search : ((List.range 256).map s.censusPosition).findSome? (primaryFor s) =
      (List.range 256).findSome? (fun i => primaryFor s (s.censusPosition i)) := List.findSome?_map
  rw [← search, State.census, if_neg none']
  change (match ((List.range 256).map s.censusPosition).findSome? (primaryFor s) with
    | none => s
    | some x => restatedBy s x) = _
  cases ((List.range 256).map s.censusPosition).findSome? (primaryFor s) <;> rfl

theorem census_without_primary {s : State} (h : ∀ e ∈ s.table.contexts, e.2.state ≠ .primary) : s.census = s := by
  by_cases hold : ∃ e ∈ s.notice.outbox, e.notice.kindCode = 7
  · exact census_waits hold
  · have found : (List.range 256).findSome? (fun i => primaryFor s (s.censusPosition i)) = none := by
      refine List.findSome?_eq_none_iff.2 (fun i _ => Option.eq_none_iff_forall_ne_some.2 (fun x hx => ?_))
      obtain ⟨c, hc, hst⟩ := primaryFor_eq_some.1 hx
      exact h _ (mem_of_ctxFor hc).1 hst
    rw [census_eq (by simpa using hold), found]
    rfl

theorem census_restates {s : State} {c : CtxNum} {x : Context} (hn : ∀ e ∈ s.notice.outbox, e.notice.kindCode ≠ 7)
    (hx : s.ctxFor x.position = some (c, x)) (hst : x.state = .primary)
    (first : ∀ e ∈ s.table.contexts, e.2.state = .primary → afterCursor s x.position ≤ afterCursor s e.2.position) :
    s.census = restatedBy s x := by
  have found : (List.range 256).findSome? (fun i => primaryFor s (s.censusPosition i)) = some x := by
    have within : afterCursor s x.position < 256 := Nat.mod_lt _ (by omega)
    refine findSome?_range within ?_ (fun j hj => Option.eq_none_iff_forall_ne_some.2 (fun y hy => ?_))
    · rw [censusPosition_afterCursor]
      exact primaryFor_eq_some.2 ⟨c, hx, hst⟩
    · obtain ⟨d, hd, hy⟩ := primaryFor_eq_some.1 hy
      obtain ⟨hm, hp⟩ := mem_of_ctxFor hd
      have later := first _ hm hy
      rw [hp, afterCursor_censusPosition s (by omega)] at later
      omega
  rw [census_eq hn, found]
  rfl

/-- Settles O37: a HOLD by what the record says of its sender, and the census. -/
theorem holdIsApplied : Obligations.HoldIsApplied := by
  refine ⟨fun s r h q p tag law ms m phase sh ht hh hq hn => ?_, fun s => ?_⟩
  · intro b old told adopted otherTag otherShadow conflicts before
    obtain ⟨btime, bintake, bsweep, -, blife, -⟩ := heard_reads ht q
    have claim : b.claimLength = s.claimLength := by simp [b, State.claimLength]
    have own : b.own = s.own := congrArg Life.number blife
    obtain ⟨intake, roster, map, reads, others⟩ :=
      endRecord_changed (applyHoldTo_changes p tag law ms m phase sh q h.own b) bsweep
    refine ⟨_, exec_applyHold ht hh hq hn, intake.trans (by rw [bintake]), others, roster, by simp, by simp,
      fun hp => ?_, fun hp hf ho => ?_, fun hp hc => ?_, fun hc hs htk ho => ?_, fun hc hst => ?_, fun hc hs htk => ?_,
      fun hc => ?_⟩
    · let r' : PosRecord := { old with call := some told }
      let judged := b.holdShadow r' sh
      have here : (b.applyHoldTo p tag law ms m phase sh q h.own).recAt p = judged.2 := by
        rw [applyHoldTo_restates hp]
        exact (changesRecord_of_putRec (holdRestates_mapu ..)).2
      have adopts : ∀ x, b.adopts r' x = true ↔ adopted x ∧ old.names x = false := fun x => by
        rw [adopts_iff, own]; rfl
      have counter : (b.applyHoldTo p tag law ms m phase sh q h.own).endRecord.report.counter .censusMismatches =
          if judged.1 then countUp (if otherTag then countUp before else before)
          else if otherTag then countUp before else before := by
        rw [endRecord_blocks .. |>.2.2.2.2.2.2.1, applyHoldTo_restates hp]
        exact holdRestates_counter ..
      have mismatch : judged.1 = true ↔ otherShadow := by
        rw [holdShadow_mismatch]
        simp only [adopts]
        rfl
      refine ⟨fun hk => ?_, fun x hs hx hst ha hm => ?_, fun x hs hx ha => ?_, fun h1 h2 => ?_, fun h12 => ?_,
        fun h1 h2 => ?_⟩
      · rw [reads, here]; exact holdShadow_keeps hk
      · rw [reads, here]
        exact congrArg Prod.snd (holdShadow_adopts (r := r') hs hx hst ((adopts x).2 ⟨ha, hm⟩))
      · rw [reads, here]
        exact holdShadow_refuses (r := r') hs hx (mt (adopts x).1 ha)
      · rw [counter, if_neg (mt mismatch.1 h2), if_neg h1]
      · rw [counter]
        rcases h12 with ⟨h1, h2⟩ | ⟨h1, h2⟩
        · rw [if_neg (mt mismatch.1 h2), if_pos h1]
        · rw [if_pos (mismatch.2 h2), if_neg h1]
      · rw [counter, if_pos (mismatch.2 h2), if_pos h1]
    · have here : (b.applyHoldTo p tag law ms m phase sh q h.own).recAt p = taughtRec tag law ms m phase sh q b := by
        rw [ho, applyHoldTo_teaches hp hf]
        exact (changesRecord_of_putRec (holdTeaches_mapu ..)).2
      rw [reads, here]
      refine ⟨fun x hx ha hne => ?_, fun hx => ?_⟩
      · have shadow : taughtShadow sh q b = some x := by
          simp [taughtShadow, hx, Option.filter, own, ha.1, ha.2, hne]
        exact congrArg (fun y => { taughtRec tag law ms m phase sh q b with shadow := y }) shadow
      · have shadow : taughtShadow sh q b = none := by
          refine Option.filter_eq_none_iff.2 (fun x hs => ?_)
          simpa [own, adopted] using hx x hs
        exact congrArg (fun y => { taughtRec tag law ms m phase sh q b with shadow := y }) shadow
    · have counted := applyHoldTo_counted (tag := tag) (law := law) (ms := ms) (m := m) (phase := phase)
        (sh := sh) hp hc
      rw [map, counted]
      simp [State.count]
    · have unnamed : b.applyHoldTo p tag law ms m phase sh q h.own = b.count .censusMismatches := by
        rw [applyHoldTo_conflicts hc, holdConflicts_eq, ho, conflictRemoved_unnamed hs htk]; rfl
      rw [map, unnamed]
      simp [State.count]
    · have named := (holdConflicts_mapu h.own).trans (conflictRemoved_named (s := b) (p := p) (q := q) hst)
      rw [reads, applyHoldTo_conflicts hc, (changesRecord_of_putRec named).2, claim, show b.mapu.mapTime = _ from btime]
    · rw [map, applyHoldTo_conflicts hc, holdConflicts_mapu, conflictRemoved_unnamed hs htk]
      rfl
    · rw [endRecord_blocks .. |>.2.2.2.2.2.2.1, applyHoldTo_conflicts hc]
      refine ⟨holdConflicts_counter h.own, fun ho c x hx => ?_⟩
      rw [ctx_of_contexts (congrArg CtxTable.contexts (endRecord_blocks _).2.1), ho]
      exact holdConflicts_own hc.1 hx
  · intro after
    exact ⟨census_waits, census_without_primary, fun c x hn hfor hm hst first =>
      census_restates hn (hfor _ hm) hst first⟩

end Sys2Proof.Proofs

/-! Proofs: the context that is chosen to be shed, and the shed decision (O43). -/

namespace Sys2Proof.Proofs

open Sys2Proof Sys2Proof.Machine Sys2Proof.Laws

/-! ### The order of the candidates (R141) -/

/-- x is shed rather than y, or stands level with it: a higher cost, or the same cost and no higher position. -/
def shedRather (x y : Context) : Prop := y.cost < x.cost ∨ (y.cost = x.cost ∧ x.position ≤ y.position)

theorem shedRather_refl (x : Context) : shedRather x x := Or.inr ⟨rfl, le_rfl⟩

theorem shedRather_trans {x y z : Context} (hxy : shedRather x y) (hyz : shedRather y z) : shedRather x z := by
  simp only [shedRather, Fin.le_def] at *
  omega

/-- Contexts that stand level have the same cost and the same position. -/
theorem shedRather_antisymm {x y : Context} (hxy : shedRather x y) (hyx : shedRather y x) :
    x.cost = y.cost ∧ x.position = y.position := by
  simp only [shedRather, Fin.le_def, Fin.ext_iff] at *
  omega

theorem shedRather_of_costlier {x y : Context} (h : costlier x y = true) : shedRather x y := by
  simp only [costlier, Bool.or_eq_true, Bool.and_eq_true, decide_eq_true_eq, Fin.lt_def] at h
  simp only [shedRather, Fin.le_def]
  omega

theorem shedRather_of_not_costlier {x y : Context} (h : ¬costlier x y = true) : shedRather y x := by
  simp only [costlier, Bool.or_eq_true, Bool.and_eq_true, decide_eq_true_eq, Fin.lt_def] at h
  simp only [shedRather, Fin.le_def]
  omega

/-! ### The choice (R141) -/

/-- The better of the best candidate so far and the next one. -/
def shedBetter (best : Option Context) (x : Context) : Option Context :=
  match best with
  | none => some x
  | some b => if costlier x b then some x else some b

theorem shedChoice_eq (s : State) :
    s.shedChoice = (s.allContexts.filter s.shedCandidate).foldl shedBetter none := rfl

/-- The best of a candidate and those after it is one of them, and is shed rather than any of them. -/
theorem foldl_shedBetter (l : List Context) (b : Context) :
    ∃ x ∈ b :: l, l.foldl shedBetter (some b) = some x ∧ ∀ y ∈ b :: l, shedRather x y := by
  induction l generalizing b with
  | nil => exact ⟨b, by simp, rfl, by simp [shedRather_refl]⟩
  | cons a l ih =>
    by_cases h : costlier a b = true
    · obtain ⟨x, hx, best, rather⟩ := ih a
      refine ⟨x, List.mem_cons_of_mem b hx, by simp [shedBetter, h, best], fun y hy => ?_⟩
      rcases List.mem_cons.1 hy with rfl | hy
      · exact shedRather_trans (rather a List.mem_cons_self) (shedRather_of_costlier h)
      · exact rather y hy
    · obtain ⟨x, hx, best, rather⟩ := ih b
      refine ⟨x, ?_, by simp [shedBetter, h, best], fun y hy => ?_⟩
      · rcases List.mem_cons.1 hx with rfl | hx <;> simp [*]
      · rcases List.mem_cons.1 hy with rfl | hy
        · exact rather y List.mem_cons_self
        · rcases List.mem_cons.1 hy with rfl | hy
          · exact shedRather_trans (rather b List.mem_cons_self) (shedRather_of_not_costlier h)
          · exact rather y (List.mem_cons_of_mem b hy)

/-- A context that may be shed (R141). -/
def MayBeShed (s : State) (x : Context) : Prop :=
  x.state = .primary ∧ (s.recAt x.position).state = .held ∧ (s.recAt x.position).switchFrame = none

/-- A candidate of the station that is shed rather than any other. -/
def ShedFirst (s : State) (x : Context) : Prop :=
  (∃ c, (c, x) ∈ s.table.contexts) ∧ MayBeShed s x ∧
    ∀ c y, (c, y) ∈ s.table.contexts → MayBeShed s y → shedRather x y

theorem mem_candidates_iff {s : State} {x : Context} :
    x ∈ s.allContexts.filter s.shedCandidate ↔ (∃ c, (c, x) ∈ s.table.contexts) ∧ MayBeShed s x := by
  simp [State.allContexts, shedCandidate_iff, MayBeShed]

/-- There is a choice where there is a candidate, and it is a first one. -/
theorem shedChoice_cases (s : State) :
    (s.shedChoice = none ∧ ∀ c x, (c, x) ∈ s.table.contexts → ¬MayBeShed s x) ∨
      ∃ x, s.shedChoice = some x ∧ ShedFirst s x := by
  rw [shedChoice_eq]
  cases hl : s.allContexts.filter s.shedCandidate with
  | nil =>
    refine Or.inl ⟨rfl, fun c x hm hx => ?_⟩
    have := mem_candidates_iff.2 ⟨⟨c, hm⟩, hx⟩
    simp [hl] at this
  | cons b l =>
    obtain ⟨x, hx, best, rather⟩ := foldl_shedBetter l b
    rw [← hl] at hx rather
    obtain ⟨stands, may⟩ := mem_candidates_iff.1 hx
    exact Or.inr ⟨x, best, stands, may, fun c y hm hy => rather y (mem_candidates_iff.2 ⟨⟨c, hm⟩, hy⟩)⟩

theorem shedChoice_first {s : State} {x : Context} (h : s.shedChoice = some x) : ShedFirst s x := by
  rcases shedChoice_cases s with ⟨hn, -⟩ | ⟨y, hy, first⟩
  · simp [hn] at h
  · obtain rfl : y = x := Option.some.inj (hy.symm.trans h)
    exact first

/-- A first candidate has the cost and the position of the choice. -/
theorem shedChoice_of_first {s : State} {x : Context} (h : ShedFirst s x) :
    ∃ y, s.shedChoice = some y ∧ y.cost = x.cost ∧ y.position = x.position := by
  obtain ⟨⟨c, hm⟩, may, rather⟩ := h
  rcases shedChoice_cases s with ⟨-, empty⟩ | ⟨y, hy, ⟨d, hd⟩, may', rather'⟩
  · exact absurd may (empty c x hm)
  · exact ⟨y, hy, shedRather_antisymm (rather' c x hm may) (rather d y hd may')⟩

/-! ### Room for what is shed (R141) -/

theorem peerHasRoom_iff {s : State} {cost : Nat} : s.peerHasRoom cost = true ↔
    ∃ q v, q ≠ s.own ∧ (s.rosterAt q).state = .present ∧ (s.rosterAt q).last = some v ∧ v.active = true ∧
      1 ≤ v.freeContexts.val ∧ cost ≤ v.headroom.toNat := by
  simp only [State.peerHasRoom, List.any_eq_true, List.mem_finRange, true_and, Bool.and_eq_true, decide_eq_true_eq,
    State.isPresent]
  refine exists_congr (fun q => ?_)
  cases (s.rosterAt q).last <;> simp [and_assoc]

/-- The record has a shadow, or a peer has room for the cost. -/
def HasRoom (s : State) (p : Pos) (cost : Nat) : Prop :=
  (s.recAt p).shadow.isSome = true ∨ s.peerHasRoom cost = true

theorem hasRoom_iff {s : State} {p : Pos} {cost : Nat} : HasRoom s p cost ↔ (s.recAt p).shadow ≠ none ∨
    ∃ q v, q ≠ s.own ∧ (s.rosterAt q).state = .present ∧ (s.rosterAt q).last = some v ∧ v.active = true ∧
      1 ≤ v.freeContexts.val ∧ cost ≤ v.headroom.toNat := by
  rw [HasRoom, peerHasRoom_iff, Option.isSome_iff_ne_none]

/-! ### The decision (R141) -/

section
variable {s : State} {x : Context} (hc : s.shedChoice = some x)
include hc

theorem decideShed_places {k : Call} (hd : s.shedDue = true) (hr : HasRoom s x.position x.cost)
    (hk : (s.recAt x.position).call = some k) : s.decideShed =
      (s.onPool (fun q => { q with shedding := some x.position, shedGrace := 0 })).place
        (.shed x.position k.tag (BitVec.ofNat 4 x.cost)) := by
  simp only [State.decideShed, if_pos hd, hc, hk]
  exact if_pos hr

theorem decideShed_without_room (hr : ¬HasRoom s x.position x.cost) : s.decideShed = s := by
  simp only [State.decideShed, hc]
  cases (s.recAt x.position).call with
  | none => simp
  | some k => exact ite_eq_right_iff.2 (fun _ => if_neg hr)

end

theorem decideShed_not_due {s : State} (hd : ¬s.shedDue = true) : s.decideShed = s := if_neg hd

theorem decideShed_without_choice {s : State} (hc : s.shedChoice = none) : s.decideShed = s := by
  simp [State.decideShed, hc]

/-! ### The command -/

theorem exec_shedDecision {s : State} (hh : s.life.held = false) (hs : s.pool.stage = .shed) :
    exec .shedDecision s = .next (s.decideShed.onPool (fun q => { q with stage := .idle })).afterShed := by
  have run : exec .shedDecision s = .next s.doShedDecision := next_live hh
  rw [run, State.doShedDecision, if_pos hs]

theorem exec_shedDecision_idle {s : State} (hs : s.pool.stage ≠ .shed) : exec .shedDecision s = .next s := by
  have idle : s.doShedDecision = s := if_neg hs
  have live : s.live State.doShedDecision = s := by rw [State.live, idle, ite_self]
  exact congrArg Host.Outcome.next live

/-- Settles O43: the choice has the cost and the position of every first candidate, and these, the room and the call
decide what is placed. -/
theorem shedIsDecided : Obligations.ShedIsDecided := by
  unfold Obligations.ShedIsDecided
  intro candidate chosen due room
  refine ⟨fun s x k hh hs hd hx hr hk => ?_, fun s hh hs hn => ?_, fun s => exec_shedDecision_idle,
    fun s x => shedChoice_first⟩
  · intro decided placed
    obtain ⟨y, hy, cost, pos⟩ := shedChoice_of_first hx
    have places := decideShed_places hy (k := k) ((shedDue_iff s).2 hd) (by rw [cost, pos]; exact hasRoom_iff.2 hr)
      (by rwa [pos])
    rw [cost, pos] at places
    rw [exec_shedDecision hh hs, places]
    rfl
  · have nothing : s.decideShed = s := by
      rcases hn with hn | hn | ⟨x, hx, hr⟩
      · exact decideShed_not_due (mt (shedDue_iff s).1 hn)
      · rcases shedChoice_cases s with ⟨none', -⟩ | ⟨y, -, ⟨c, hm⟩, may, -⟩
        · exact decideShed_without_choice none'
        · exact absurd may (hn c y hm)
      · obtain ⟨y, hy, cost, pos⟩ := shedChoice_of_first hx
        refine decideShed_without_room hy ?_
        rw [cost, pos]
        exact mt hasRoom_iff.1 hr
    rw [exec_shedDecision hh hs, nothing]
    rfl

end Sys2Proof.Proofs

/-! Proofs: the shed figures and the load at a block event (O18). -/

namespace Sys2Proof.Proofs

open Sys2Proof Sys2Proof.Machine Sys2Proof.Laws

/-! ### A REPORT displaces nothing (R96, R101) -/

/-- No kind code is above a REPORT's. -/
theorem kindCode_le_report (n : Notice) : n.kindCode ≤ 10 := by
  cases n <;> simp [Notice.kindCode]

/-- A REPORT takes no other notice out of the outbox, so what else stands in the station is kept. -/
theorem place_report_keeps (p : Pos) (item : BitVec 8) (value : BitVec 24) (s : State) :
    (s.place (.report p item value)).pool = s.pool ∧ (s.place (.report p item value)).table = s.table := by
  have last : ∀ worst : Notice, ¬(Notice.report p item value).kindCode < worst.kindCode :=
    fun worst => not_lt.2 (kindCode_le_report worst)
  unfold State.place
  split
  · exact ⟨rfl, rfl⟩
  split
  · exact ⟨rfl, rfl⟩
  split
  · exact ⟨rfl, rfl⟩
  split
  · exact ⟨rfl, rfl⟩
  · rw [if_neg (fun h => last _ h.1)]
    exact ⟨rfl, rfl⟩

theorem raiseFlag_keeps (f : FaultFlag) (s : State) :
    (s.raiseFlag f).pool = s.pool ∧ (s.raiseFlag f).table = s.table := by
  unfold State.raiseFlag
  split
  · exact ⟨rfl, rfl⟩
  · simp only
    split
    · exact place_report_keeps ..
    · exact ⟨rfl, rfl⟩

/-! ### The contexts at a block event keep the Pool Controller and the load -/

theorem bumpNeeds_pool (c : CtxNum) (s : State) : (s.bumpNeeds c).pool = s.pool := by
  unfold State.bumpNeeds
  cases s.ctx c with
  | none => rfl
  | some x =>
    simp only
    split
    · rw [State.placeReport, (place_report_keeps ..).1, (raiseFlag_keeps ..).1]
      simp
    · simp

theorem uplinkBlock_pool (c : CtxNum) (s : State) : (s.uplinkBlock c).pool = s.pool := by
  unfold State.uplinkBlock
  cases s.ctx c with
  | none => rfl
  | some x =>
    simp only
    split <;> split <;> simp [bumpNeeds_pool, State.countMissing]

theorem contextBlocks_pool (s : State) : s.contextBlocks.pool = s.pool :=
  foldl_keeps (fun u => u.pool) _ (fun u c => uplinkBlock_pool c u) _ _

/-- The load is a function of the Context Table (R7). -/
theorem load_of_table {s t : State} (h : t.table = s.table) : t.load = s.load := by
  unfold State.load
  rw [h]

section
variable {s : State} (hs : s.canonical) (c : CtxNum)
include hs

/-- A counter of a context does not enter its cost. -/
theorem countMissing_load : (s.countMissing c).load = s.load := by
  rw [State.countMissing, load_of_table (countDriven_blocks ..).2.1, State.modCtx]
  cases h : s.ctx c with
  | none => rfl
  | some x => exact load_putCtx hs h rfl

theorem bumpNeeds_load : (s.bumpNeeds c).load = s.load := by
  cases h : s.ctx c with
  | none => simp [State.bumpNeeds, h]
  | some x =>
    simp only [State.bumpNeeds, h]
    split
    · rw [State.placeReport, load_of_table (place_report_keeps ..).2, load_of_table (raiseFlag_keeps ..).2]
      exact load_putCtx hs h rfl
    · exact load_putCtx hs h rfl

theorem uplinkBlock_load : (s.uplinkBlock c).load = s.load := by
  unfold State.uplinkBlock
  cases s.ctx c with
  | none => rfl
  | some x =>
    simp only
    have hunt : (if x.rxState = .hunt then s.countMissing c else s).canonical ∧
        (if x.rxState = .hunt then s.countMissing c else s).load = s.load := by
      split
      · exact ⟨countMissing_canonical c hs, countMissing_load hs c⟩
      · exact ⟨hs, rfl⟩
    obtain ⟨canonical, load⟩ := hunt
    split
    · exact load
    · exact (bumpNeeds_load canonical c).trans load

end

theorem warmUpStep_cost (x : Context) : x.warmUpStep.cost = x.cost := by
  unfold Context.warmUpStep
  split <;> rfl

/-- In a canonical state a block event's part in the contexts keeps the load. -/
theorem contextBlocks_load {s : State} (hs : s.canonical) : s.contextBlocks.load = s.load := by
  let warmed : State := s.onTable (fun t => { t with contexts := Table.mapValues Context.warmUpStep t.contexts })
  have warmed_canonical : warmed.canonical := canonical_contexts hs (rising_mapValues hs.1 _)
  have warmed_load : warmed.load = s.load := by
    simp [warmed, State.load, Table.mapValues, Function.comp_def, warmUpStep_cost]
  have walk := foldl_inv (fun u : State => u.canonical ∧ u.load = s.load) (fun u c => u.uplinkBlock c)
    (fun u c hu => ⟨uplinkBlock_canonical c hu.1, (uplinkBlock_load hu.1 c).trans hu.2⟩)
    warmed.ctxNums warmed ⟨warmed_canonical, warmed_load⟩
  exact walk.2

/-! ### The decisions that follow the shed update keep the shed figures (R140) -/

/-- The shed grace count and the hold-off. -/
def shedFigures (s : State) : Nat × Nat := (s.pool.shedGrace, s.pool.holdOff)

theorem shedFigures_of_pool {s t : State} (h : t.pool = s.pool) : shedFigures t = shedFigures s := by
  rw [shedFigures, h]; rfl

@[simp] theorem departed_shedFigures (n : Notice) (s : State) : shedFigures (s.departed n) = shedFigures s := by
  cases n with
  | bid =>
    simp only [State.departed]
    split <;> rfl
  | shed =>
    simp only [State.departed]
    split <;> rfl
  | taken | lost | clear | offer | hold | present | query | report => rfl

@[simp] theorem place_shedFigures (n : Notice) (s : State) : shedFigures (s.place n) = shedFigures s := by
  unfold State.place
  split
  · rfl
  split
  · rfl
  split
  · rfl
  split
  · rfl
  split
  · exact departed_shedFigures ..
  · exact departed_shedFigures ..

@[simp] theorem placeTaken_shedFigures (p : Pos) (cause : TakenCause) (s : State) :
    shedFigures (s.placeTaken p cause) = shedFigures s := by
  unfold State.placeTaken
  split
  · split
    · rfl
    · exact place_shedFigures ..
  · rfl

@[simp] theorem placeTakensDue_shedFigures (s : State) : shedFigures s.placeTakensDue = shedFigures s := by
  refine foldl_keeps shedFigures _ (fun u p => ?_) _ _
  split <;> simp

@[simp] theorem placeBid_shedFigures (p : Pos) (role : BidRole) (s : State) :
    shedFigures (s.placeBid p role) = shedFigures s := by
  unfold State.placeBid
  split
  · rfl
  split
  · split
    · rfl
    · rename_i t granted
      obtain ⟨-, -, -, -, pool, -⟩ := requestReservation_blocks granted
      simp only [place_shedFigures]
      split <;> simp [shedFigures, pool]
  · rfl

@[simp] theorem shadowFill_shedFigures (s : State) : shedFigures s.shadowFill = shedFigures s := by
  unfold State.shadowFill
  split
  · split <;> simp
  · rfl

@[simp] theorem census_shedFigures (s : State) : shedFigures s.census = shedFigures s := by
  unfold State.census
  split
  · rfl
  split
  · rfl
  · exact place_shedFigures ..

@[simp] theorem afterLoss_shedFigures (s : State) : shedFigures s.afterLoss = shedFigures s := by
  simp [shedFigures, afterLoss_eq]

/-- In ACTIVE the decisions leave the figures of the shed update, and the shed decision waits where they call for it. -/
theorem poolDecisions_shed {s : State} (ha : s.life.station = .active) :
    shedFigures s.poolDecisions = shedFigures s.shedUpdate ∧
      (s.shedUpdate.shedDue = true → s.poolDecisions.pool.stage = .shed) := by
  rw [poolDecisions_active ha]
  refine ⟨?_, fun hd => by rw [if_pos hd]; rfl⟩
  have census : shedFigures s.shedUpdate.placeTakensDue.shadowFill.census = shedFigures s.shedUpdate := by simp
  split
  · rfl
  split
  · exact census
  · exact (afterLoss_shedFigures _).trans census

/-! ### The figures at a block event (R140) -/

/-- The contexts as a block event leaves them for the decisions. -/
def blockServed (s : State) : State := (s.onEngines (fun g => { g with lateCount := 0 })).contextBlocks

/-- What R140 and R141 say of the state t that a block event of s leaves, with the given load. -/
def ShedCounted (load : Nat) (s t : State) : Prop :=
  t.pool.shedGrace = (if s.budget < load then min (s.pool.shedGrace + 1) s.life.settings.shedGrace else 0) ∧
    t.pool.holdOff = s.pool.holdOff - 1 ∧
    (t.pool.shedGrace = s.life.settings.shedGrace → t.pool.holdOff = 0 → s.pool.shedding = none →
      t.pool.stage = .shed)

/-- In ACTIVE the figures go by the load that the block event's part in the contexts leaves. -/
theorem blockEvent_shedCounted {s : State} (order : BlockOrder) (ha : s.life.station = .active) :
    ShedCounted (blockServed s).load s (s.blockEvent order) := by
  obtain ⟨-, hpool, -, htable, hlife⟩ := blockAged_blocks order (blockServed s)
  have pool : (blockServed s).pool = s.pool := contextBlocks_pool _
  have life : (blockAged order (blockServed s)).life = s.life := hlife.trans (by simp [blockServed])
  have budget : (blockAged order (blockServed s)).budget = s.budget := by rw [State.budget, life]; rfl
  rw [pool] at hpool
  obtain ⟨figures, waits⟩ := poolDecisions_shed (s := blockAged order (blockServed s)) (by rw [life, ha])
  have event : s.blockEvent order = (blockAged order (blockServed s)).poolDecisions := blockEvent_active order ha
  rw [← event] at figures waits
  have updated : shedFigures (blockAged order (blockServed s)).shedUpdate =
      (if s.budget < (blockServed s).load then min (s.pool.shedGrace + 1) s.life.settings.shedGrace else 0,
        s.pool.holdOff - 1) := by
    simp only [shedFigures, State.shedUpdate, onPool_pool, load_of_table htable, budget, life, hpool]
  have shedding : (blockAged order (blockServed s)).shedUpdate.pool.shedding = s.pool.shedding := by
    simp [State.shedUpdate, hpool]
  obtain ⟨grace, holdOff⟩ := Prod.mk.inj figures
  obtain ⟨graceUpdated, holdOffUpdated⟩ := Prod.mk.inj updated
  refine ⟨grace.trans graceUpdated, holdOff.trans holdOffUpdated, fun hg hh hs => waits ?_⟩
  refine (shedDue_iff _).2 ⟨?_, ?_, ?_⟩
  · rw [← grace, hg]
    simp [life]
  · rw [← holdOff, hh]
  · rw [shedding, hs]

/-- In LISTEN the decisions leave the figures. -/
theorem blockEvent_listen_shedFigures {s : State} (order : BlockOrder) (hl : s.life.station = .listen) :
    shedFigures (s.blockEvent order) = shedFigures s := by
  obtain ⟨-, hpool, -, -, hlife⟩ := blockAged_blocks order (blockCounted s)
  have counted : (blockCounted s).pool = s.pool := by simp [blockCounted, contextBlocks_pool]
  have aged : shedFigures (blockAged order (blockCounted s)) = shedFigures s := by
    rw [shedFigures, hpool, counted]; rfl
  have decides : (blockAged order (blockCounted s)).poolDecisions = (blockAged order (blockCounted s)).afterLoss := by
    simp [State.poolDecisions, State.isActive, hlife, blockCounted_station, hl]
  rw [blockEvent_eq, poolBlock_eq, decides]
  split
  · split
    · exact aged
    · exact (afterLoss_shedFigures _).trans aged
  · exact shedFigures_of_pool counted

/-- c is the command of the block event that is due, marked or bridged. -/
def takesBlockEvent (order : BlockOrder) (c : Instr) (s : State) : Prop :=
  (c = .blockEvent order ∧ s.hwi.blockDue = some .marked) ∨
    (c = .bridgedBlockEvent order ∧ s.hwi.blockDue = some .bridged)

/-- A block event, marked or bridged, is taken in the state in which it begins. -/
theorem exec_blockBegun {order : BlockOrder} {c : Instr} {s : State} (hh : s.life.held = false)
    (hc : takesBlockEvent order c s) : ∃ k, exec c s = .next ((blockBegun k s).blockEvent order) := by
  rcases hc with ⟨rfl, hb⟩ | ⟨rfl, hb⟩
  · exact ⟨.marked, exec_blockEvent order hh hb⟩
  · exact ⟨.bridged, exec_bridgedBlockEvent order hh hb⟩

theorem blockBegun_canonical {s : State} (k : BlockMark) (hs : s.canonical) : (blockBegun k s).canonical := by
  unfold blockBegun
  simp only
  split
  · exact count_canonical _ (onHwi_canonical hs)
  · exact onHwi_canonical hs

/-- In ACTIVE every block event of a canonical state counts as R140 says: there the contexts' part keeps the load. -/
theorem shedCounted_of_canonical {order : BlockOrder} {c : Instr} {s : State} (hs : s.canonical)
    (hh : s.life.held = false) (ha : s.life.station = .active) (hc : takesBlockEvent order c s) :
    ∃ t, exec c s = .next t ∧ ShedCounted s.load s t := by
  obtain ⟨k, run⟩ := exec_blockBegun hh hc
  obtain ⟨-, btable, -, -, -, bpool, blife⟩ := blockBegun_blocks k s
  have begun : ((blockBegun k s).onEngines (fun g => { g with lateCount := 0 })).canonical :=
    onEngines_canonical (fun _ => rfl) (blockBegun_canonical k hs)
  have load : (blockServed (blockBegun k s)).load = s.load := (contextBlocks_load begun).trans (load_of_table btable)
  have counted := blockEvent_shedCounted (s := blockBegun k s) order (by rw [blife, ha])
  rw [load] at counted
  refine ⟨_, run, ?_⟩
  rwa [ShedCounted, State.budget, blife, bpool] at counted

/-- In LISTEN a block event leaves the figures, and where LISTEN is as permitted the load is 0. -/
theorem shedFigures_of_listen {order : BlockOrder} {c : Instr} {s : State} (hp : s.permitted)
    (hh : s.life.held = false) (hl : s.life.station = .listen) (hc : takesBlockEvent order c s) :
    s.load = 0 ∧ ∃ t, exec c s = .next t ∧ shedFigures t = shedFigures s := by
  obtain ⟨-, outside, -⟩ := hp
  obtain ⟨contexts, reservations, -⟩ := outside (by simp [State.isActive, hl])
  refine ⟨by simp [State.load, contexts, reservations], ?_⟩
  obtain ⟨k, run⟩ := exec_blockBegun hh hc
  obtain ⟨-, -, -, -, -, bpool, blife⟩ := blockBegun_blocks k s
  have begun : (blockBegun k s).life.station = .listen := by rw [blife, hl]
  exact ⟨_, run, (blockEvent_listen_shedFigures order begun).trans (shedFigures_of_pool bpool)⟩

/-! ### A Context Table out of order -/

/-- A PRIMARY context that has met no marker yet: a block event counts its missing parcel and changes it so. -/
def huntingCtx (p : Pos) : Context := Context.fresh .primary none p strayCall 0

/-- An ACTIVE station at a block event, whose two contexts take the whole budget; the higher number stands first. -/
def outOfOrder : State :=
  { State.reset with
    hwi := { State.reset.hwi with blockDue := some .marked }
    table := { State.reset.table with contexts := [(1, huntingCtx 7), (0, huntingCtx 5)] }
    life := { State.reset.life with
      held := false, station := .active, settings := { Config.defaults with budget := 6 } } }

/-- The load is within the budget. -/
theorem outOfOrder_load : outOfOrder.load = outOfOrder.budget := rfl

/-- The change of the context with the lower number is put in front, and the old entry stays behind: the load grows. -/
theorem outOfOrder_served : (blockServed (blockBegun .marked outOfOrder)).load = 9 := rfl

theorem outOfOrder_counted :
    ((blockBegun .marked outOfOrder).blockEvent { agesFirst := true, entryFirst := true }).pool.shedGrace = 1 := by
  have counted := blockEvent_shedCounted (s := blockBegun .marked outOfOrder)
    { agesFirst := true, entryFirst := true } rfl
  rw [outOfOrder_served] at counted
  exact counted.1

/-- Refutes O18: a station within its budget counts a block of grace, where its contexts do not stand in the order of
their numbers (as in no canonical state): the block event's change of a context then leaves the old entry beside the new
one, and the load that the decisions find is above the budget. In the canonical states the ACTIVE part holds
(`shedCounted_of_canonical`), and the LISTEN part holds in every state (`shedFigures_of_listen`). -/
theorem not_shedGraceAndHoldOff : ¬ Obligations.ShedGraceAndHoldOff := by
  intro counts
  obtain ⟨active, -⟩ := counts { agesFirst := true, entryFirst := true } _ outOfOrder rfl (Or.inl ⟨rfl, rfl⟩)
  obtain ⟨t, run, grace, -⟩ := active rfl
  have result := exec_blockEvent (s := outOfOrder) { agesFirst := true, entryFirst := true } rfl rfl
  obtain rfl := Host.Outcome.next.inj (result.symm.trans run)
  rw [outOfOrder_counted, if_neg (not_lt.2 outOfOrder_load.le)] at grace
  exact absurd grace (by decide)

end Sys2Proof.Proofs

/-! Proofs: what every command is (O2), and cold start, the station held in it, and its release (O3, O5). -/

namespace Sys2Proof.Proofs

open Sys2Proof Sys2Proof.Machine Sys2Proof.Laws

/-! ### What a command is -/

/-- Every command but a cold start and its release is work that a station held in cold start does not do (R153). -/
theorem exec_eq_live (c : Instr) : (∃ x, c = .coldStart x) ∨ (∃ x, c = .coldStartRelease x) ∨
    ∃ f : State → State, ∀ s, exec c s = .next (s.live f) := by
  cases c
  case coldStart x => exact .inl ⟨x, rfl⟩
  case coldStartRelease x => exact .inr (.inl ⟨x, rfl⟩)
  all_goals exact .inr (.inr ⟨_, fun _ => rfl⟩)

theorem exec_coldStart (cause : ColdStartCause) (s : State) :
    exec (.coldStart cause) s = .next (s.doColdStart cause) := rfl

theorem exec_coldStartRelease (straps : Straps) (s : State) :
    exec (.coldStartRelease straps) s = .next (s.doColdStartRelease straps) := rfl

theorem exec_completes (c : Instr) (s : State) : ∃ t, exec c s = .next t := by
  obtain ⟨cause, rfl⟩ | ⟨straps, rfl⟩ | ⟨f, work⟩ := exec_eq_live c
  · exact ⟨_, exec_coldStart cause s⟩
  · exact ⟨_, exec_coldStartRelease straps s⟩
  · exact ⟨_, work s⟩

/-! ### The queue -/

theorem doColdStart_pending (cause : ColdStartCause) (s : State) : (s.doColdStart cause).pending = s.pending := by
  unfold State.doColdStart
  split <;> rfl

theorem doColdStartRelease_pending (straps : Straps) (s : State) :
    (s.doColdStartRelease straps).pending = s.pending := by
  unfold State.doColdStartRelease
  split <;> rfl

/-- The work of every command leaves the queue as it is. -/
theorem commands_pending (l : List Instr) : CommandKeeps (fun s => s.pending = l) (fun s => s.pending = l) where
  toStepKeeps := steps_pending l
  coldStart cause s h := (doColdStart_pending cause s).trans h
  missingAcknowledge n a s h := by simpa using h
  pauseEnd s h := by simpa using h
  sclHeldLow n x s h := by simpa using h
  readEnd n i s h := by simpa using h
  reference b s h := let ⟨k, _⟩ := timing_pending s; (k b).trans h
  frame b l s h := let ⟨_, k, _⟩ := timing_pending s; (k b l).trans h
  bridgedFrame b l s h := let ⟨_, _, k, _⟩ := timing_pending s; (k b l).trans h
  markerMiss s h := let ⟨_, _, _, k, _⟩ := timing_pending s; k.trans h
  absent s h := let ⟨_, _, _, _, k, _⟩ := timing_pending s; k.trans h
  stray e s h := let ⟨_, _, _, _, _, k, _⟩ := timing_pending s; (k e).trans h
  gap n e o v s h := let ⟨_, _, _, _, _, _, k, _⟩ := timing_pending s; (k n e o v).trans h
  window o v s h := let ⟨_, _, _, _, _, _, _, k⟩ := timing_pending s; (k o v).trans h
  switchFrame c s h := by simpa using h
  recordSwitchFrame p s h := by simpa using h

/-- Settles O2: every command ends in a next state, and what its work keeps, the queue among it, that state has kept. -/
theorem everyCommandCompletes : Obligations.EveryCommandCompletes := fun c s =>
  let ⟨t, run⟩ := exec_completes c s
  ⟨t, run, exec_keeps (commands_pending s.pending) (fun straps => doColdStartRelease_pending straps s) rfl run⟩

/-! ### Cold start (R153, R154) -/

theorem live_held (f : State → State) {s : State} (h : s.life.held = true) : s.live f = s := if_pos h

theorem doColdStart_starts {cause : ColdStartCause} (h : ColdStartCause.starts cause = true) (s : State) :
    s.doColdStart cause = { State.reset with pending := s.pending } := if_pos h

theorem doColdStart_short {cause : ColdStartCause} (h : ColdStartCause.starts cause = false) (s : State) :
    s.doColdStart cause = s :=
  if_neg (by simp [h])

/-- Settles O3: a held station does no command's work, and a cold start is a matter of its cause. -/
theorem coldStartAndHolding : Obligations.ColdStartAndHolding := by
  refine ⟨fun c s held noStart noRelease => ?_, fun s => ⟨?_, fun n => ⟨fun long => ?_, fun short => ?_⟩⟩⟩
  · obtain ⟨x, rfl⟩ | ⟨x, rfl⟩ | ⟨f, work⟩ := exec_eq_live c
    · exact absurd rfl (noStart x)
    · exact absurd rfl (noRelease x)
    · rw [work, live_held f held]
  · rw [exec_coldStart, doColdStart_starts rfl]
  · rw [exec_coldStart, doColdStart_starts (cause := .resetLow n) (decide_eq_true long)]
  · rw [exec_coldStart, doColdStart_short (cause := .resetLow n) (decide_eq_false (not_le.2 short))]

theorem doColdStartRelease_held {s : State} (h : s.life.held = true) (straps : Straps) :
    s.doColdStartRelease straps = { s with life := { s.life with
      held := false, station := .start, number := Straps.number straps, loader := .reading, attempt := 1 } } := if_pos h

theorem doColdStartRelease_released {s : State} (h : s.life.held = false) (straps : Straps) :
    s.doColdStartRelease straps = s := if_neg (by simp [h])

/-- Three straps spell a number below 8, so the station number is that number. -/
theorem number_val (x : Straps) : (Straps.number x).val = 4 * x.stn2.toNat + 2 * x.stn1.toNat + x.stn0.toNat := by
  have h2 := x.stn2.toNat_le
  have h1 := x.stn1.toNat_le
  have h0 := x.stn0.toNat_le
  exact Nat.mod_eq_of_lt (by omega)

/-- Settles O5: the release of a held station, the one that finds none held, and the number of the straps. -/
theorem releaseTakesStraps : Obligations.ReleaseTakesStraps := fun x s =>
  ⟨fun held => by rw [exec_coldStartRelease, doColdStartRelease_held held],
    fun released => by rw [exec_coldStartRelease, doColdStartRelease_released released], number_val x⟩

end Sys2Proof.Proofs

/-! Proofs: the judgement of a configuration image (O7). -/

namespace Sys2Proof.Proofs

open Sys2Proof Sys2Proof.Machine Sys2Proof.Laws

/-! ### The bytes of an image -/

/-- A complete image drives each of its bytes. -/
theorem imageByte_of_length {image : List Byte} {n : Nat} (h : n < image.length) :
    imageByte image n = image.getD n 0 := by
  simp [imageByte, h]

/-- The bytes that stage 1 adds up are those of a complete image. -/
theorem imageBytes_eq {image : List Byte} (h : image.length = 11) :
    (List.range 11).map (fun n => (imageByte image n).toNat) = image.map (fun b => b.toNat) := by
  refine List.ext_getElem (by simp [h]) (fun n hn _ => ?_)
  have : n < image.length := by simpa [h] using hn
  simp [imageByte, this]

/-! ### The two stages (R158) -/

theorem imagePasses_iff {image : List Byte} (h : image.length = 11) : imagePasses image = true ↔
    (image.getD 0 0).toNat = 0x6C ∧ (image.map (fun b => b.toNat)).sum % 256 = 0 := by
  have tag : imageByte image 0 = 0x6C#8 ↔ (image.getD 0 0).toNat = 0x6C := by
    rw [imageByte_of_length (by omega), ← BitVec.toNat_inj]
    rfl
  simp [imagePasses, imageBytes_eq h, tag]

theorem judgeImage_fails {image : List Byte} (h : ¬imagePasses image = true) :
    judgeImage image = (Config.defaults, .bad) := if_neg h

theorem judgeImage_passes {image : List Byte} (h : imagePasses image = true) :
    judgeImage image = ((judgeItems image).1, if (judgeItems image).2 then .image else .partialImage) := if_pos h

/-- An item and whether it was taken as read. -/
theorem takenItem_eq {image : List Byte} {n : Nat} (h : n < image.length) (low high dflt : Nat) :
    takenItem image n low high dflt =
      (if low ≤ (image.getD n 0).toNat ∧ (image.getD n 0).toNat ≤ high then (image.getD n 0).toNat else dflt,
        decide (low ≤ (image.getD n 0).toNat ∧ (image.getD n 0).toNat ≤ high)) := by
  rw [takenItem, imageByte_of_length h]
  split
  · next fits => rw [decide_eq_true fits]
  · next fails => rw [decide_eq_false fails]

/-- Settles O7: an image that fails stage 1, and of one that passes it the items one by one. -/
theorem imageJudgement : Obligations.ImageJudgement := by
  intro image length v item good all
  have passes : imagePasses image = true ↔ good := imagePasses_iff length
  have taken : ∀ n, n < 11 → ∀ low high dflt, takenItem image n low high dflt =
      (item n low high dflt, decide (low ≤ v n ∧ v n ≤ high)) :=
    fun n hn low high dflt => takenItem_eq (length ▸ hn) low high dflt
  have judged : judgeItems image =
      ({ budget := item 1 64 255 240, heartbeatPeriod := item 2 1 16 4, claimLength := item 3 8 128 32,
         warmUp := item 4 1 8 2, shadowing := decide (item 5 0 1 1 = 1), shedHoldOff := item 6 4 64 8,
         quietPeriod := item 7 8 255 16, streamLostLimit := item 8 10 250 50, shedGrace := item 9 1 16 4 },
        decide all) := by
    simp only [judgeItems, taken, Nat.reduceLT]
    exact Prod.ext rfl (by simp [all, Bool.and_assoc])
  refine ⟨fun bad => judgeImage_fails (mt passes.1 bad), fun fits => ?_⟩
  rw [judgeImage_passes (passes.2 fits), judged]
  exact ⟨rfl, fun every => if_pos (decide_eq_true every), fun missed => if_neg (fun taken => missed (of_decide_eq_true taken))⟩

end Sys2Proof.Proofs

/-! Proofs: the two-wire port, level by level, and the configuration read (O6). -/

namespace Sys2Proof.Proofs

open Sys2Proof Sys2Proof.Machine Sys2Proof.Laws

/-! ### The levels of a byte (R156) -/

theorem byteBits_eq (b : Byte) : bitsOf 8 b.toNat = (List.range 8).map (fun i => b.getLsbD (7 - i)) := rfl

theorem levels_sendByte (b : Byte) (ack : Bool) : PortAct.levels (.sendByte b ack) =
    (List.range 8).flatMap (fun i => [(false, b.getLsbD (7 - i)), (true, b.getLsbD (7 - i))]) ++
      [(false, true), (true, true)] := rfl

theorem levels_receiveByte (b : Byte) (ack : Bool) : PortAct.levels (.receiveByte b ack) =
    (List.range 8).flatMap (fun _ => [(false, true), (true, true)]) ++ [(false, !ack), (true, !ack)] := rfl

/-- The level set for the clock after the first bits of a byte sent: the next bit, and after the eighth the release. -/
theorem nextSda_sendByte (bits : Nat) (b : Byte) (ack : Bool) :
    (PortAct.sendByte b ack).nextSda bits = if bits < 8 then b.getLsbD (7 - bits) else true := by
  rw [PortAct.nextSda, byteBits_eq]
  split
  · next h => simp [h]
  · next h => simp [not_lt.1 h]

/-- The level set for the clock after the first bits of a byte received: the release, and after the eighth the
acknowledge. -/
theorem nextSda_receiveByte (bits : Nat) (b : Byte) (ack : Bool) :
    (PortAct.receiveByte b ack).nextSda bits = if bits < 8 then true else !ack := by
  rw [PortAct.nextSda]
  split <;> next h => simp [h]

/-! ### A STOP on the port (R156)

SDA rises while SCL is high. What begins with SCL low, and what comes after SDA released, adds no STOP of its own. -/

theorem sendsStop_cons (x y : Bool × Bool) (l : List (Bool × Bool)) :
    sendsStop (x :: y :: l) = (decide ((x, y) = ((true, false), (true, true))) || sendsStop (y :: l)) := rfl

/-- The levels begin with SCL low, if there are any. -/
def BeginsLow (l : List (Bool × Bool)) : Prop := ∀ x ∈ l.head?, x.1 = false

theorem sendsStop_append (l : List (Bool × Bool)) {r : List (Bool × Bool)} (h : BeginsLow r) :
    sendsStop (l ++ r) = (sendsStop l || sendsStop r) := by
  induction l with
  | nil => rfl
  | cons x l ih =>
    cases l with
    | nil =>
      cases r with
      | nil => rfl
      | cons y r =>
        have low : y.1 = false := h y rfl
        have fall : (x, y) ≠ ((true, false), (true, true)) := fun e => by cases e; cases low
        rw [List.singleton_append, sendsStop_cons, decide_eq_false fall]
        rfl
    | cons y l =>
      rw [List.cons_append, List.cons_append, sendsStop_cons, ← List.cons_append, ih, sendsStop_cons, Bool.or_assoc]

theorem sendsStop_released {l : List (Bool × Bool)} (h : ∀ x ∈ l, x.2 = true) (r : List (Bool × Bool)) :
    sendsStop (l ++ r) = sendsStop r := by
  induction l with
  | nil => rfl
  | cons x l ih =>
    have rest := ih (fun y hy => h y (List.mem_cons_of_mem _ hy))
    have high : x.2 = true := h x List.mem_cons_self
    cases hl : l ++ r with
    | nil => rw [List.cons_append, ← rest, hl]; rfl
    | cons y t =>
      have level : (x, y) ≠ ((true, false), (true, true)) := fun e => by cases e; cases high
      rw [List.cons_append, hl, sendsStop_cons, decide_eq_false level, Bool.false_or, ← hl, rest]

theorem beginsLow_append {l r : List (Bool × Bool)} (hl : BeginsLow l) (hr : BeginsLow r) : BeginsLow (l ++ r) := by
  cases l with
  | nil => exact hr
  | cons x l => exact hl

theorem beginsLow_bits (bits : List Bool) : BeginsLow (bits.flatMap bitLevels) := by
  cases bits <;> simp [BeginsLow, bitLevels]

theorem sendsStop_bits (bits : List Bool) : sendsStop (bits.flatMap bitLevels) = false := by
  induction bits with
  | nil => rfl
  | cons b bits ih =>
    rw [List.flatMap_cons, sendsStop_append _ (beginsLow_bits bits), ih]
    cases b <;> rfl

/-- The clocks of a byte sent and of a byte received are bits on the port, the acknowledge the ninth. -/
theorem levels_bytes (b : Byte) (ack : Bool) :
    PortAct.levels (.sendByte b ack) = (bitsOf 8 b.toNat ++ [true]).flatMap bitLevels ∧
      PortAct.levels (.receiveByte b ack) = (List.replicate 8 true ++ [!ack]).flatMap bitLevels := by
  simp [PortAct.levels]

/-- Every act but a START begins while SCL is low. -/
theorem beginsLow_levels {a : PortAct} (h : a ≠ .startCondition) : BeginsLow a.levels := by
  cases a with
  | startCondition => exact absurd rfl h
  | sendByte b ack => exact (levels_bytes b ack).1 ▸ beginsLow_bits _
  | receiveByte b ack => exact (levels_bytes b ack).2 ▸ beginsLow_bits _
  | sendBits bits => exact beginsLow_bits _
  | receiveBits bits => exact beginsLow_bits _
  | recoveryClock | repeatedStart | stopCondition | heldClock | releaseLines =>
    simp [BeginsLow, PortAct.levels, bitLevels]

theorem sendsStop_levels (a : PortAct) : sendsStop a.levels = decide (a = .stopCondition) := by
  cases a with
  | sendByte b ack => exact (levels_bytes b ack).1 ▸ sendsStop_bits _
  | receiveByte b ack => exact (levels_bytes b ack).2 ▸ sendsStop_bits _
  | sendBits bits => exact sendsStop_bits _
  | receiveBits bits => exact sendsStop_bits _
  | heldClock sda => cases sda <;> rfl
  | startCondition | recoveryClock | repeatedStart | stopCondition | releaseLines => rfl

/-- Without a START among them, acts send a STOP where one of them is a STOP. -/
theorem sendsStop_acts {acts : List PortAct} (h : .startCondition ∉ acts) :
    sendsStop (acts.flatMap PortAct.levels) = decide (.stopCondition ∈ acts) ∧
      BeginsLow (acts.flatMap PortAct.levels) := by
  induction acts with
  | nil => exact ⟨rfl, fun _ hx => nomatch hx⟩
  | cons a acts ih =>
    obtain ⟨ha, hacts⟩ := not_or.1 (mt List.mem_cons.2 h)
    obtain ⟨stops, low⟩ := ih hacts
    rw [List.flatMap_cons, sendsStop_append _ low, sendsStop_levels, stops]
    exact ⟨by simp [eq_comm], beginsLow_append (beginsLow_levels (Ne.symm ha)) low⟩

/-- The recovery clocks leave SDA released. -/
theorem sendsStop_recovered (n : Nat) (acts : List PortAct) :
    sendsStop ((List.replicate n PortAct.recoveryClock ++ acts).flatMap PortAct.levels) =
      sendsStop (acts.flatMap PortAct.levels) := by
  rw [List.flatMap_append]
  refine sendsStop_released (fun x hx => ?_) _
  obtain ⟨a, ha, hx⟩ := List.mem_flatMap.1 hx
  obtain rfl := List.eq_of_mem_replicate ha
  simp only [PortAct.levels, bitLevels, List.mem_cons, List.not_mem_nil, or_false] at hx
  obtain rfl | rfl := hx <;> rfl

/-- The START is a fall of SDA. -/
theorem sendsStop_started {acts : List PortAct} (h : .startCondition ∉ acts) :
    sendsStop ((.startCondition :: acts).flatMap PortAct.levels) = decide (.stopCondition ∈ acts) := by
  obtain ⟨stops, low⟩ := sendsStop_acts h
  rw [List.flatMap_cons, sendsStop_append _ low, sendsStop_levels, stops]
  rfl

theorem sendsStop_ended (acts : List PortAct) :
    sendsStop ((acts ++ [PortAct.stopCondition]).flatMap PortAct.levels) = true := by
  rw [List.flatMap_append, List.flatMap_singleton, sendsStop_append _ (beginsLow_levels (by decide)), sendsStop_levels,
    decide_eq_true rfl, Bool.or_true]

/-! ### An attempt (R156, R157) -/

/-- What a complete attempt puts on the port between its START and its STOP. -/
def readActs (image : List Byte) : List PortAct :=
  [.sendByte 0xA0#8 true, .sendByte 0x00#8 true, .repeatedStart, .sendByte 0xA1#8 true] ++
    (List.range 11).map (fun n => .receiveByte (imageByte image n) (decide (n < 10)))

theorem completeActs_eq (clocks : Nat) (image : List Byte) : completeActs clocks image =
    List.replicate (min clocks 9) .recoveryClock ++ .startCondition :: readActs image ++ [.stopCondition] := by
  simp [completeActs, recoveryActs, readActs]

theorem readActs_conditions (image : List Byte) :
    .startCondition ∉ readActs image ∧ .stopCondition ∉ readActs image ∧ (readActs image).length = 15 := by
  simp [readActs]

/-- A read cut off before its STOP has come so far through the recovery clocks, the START and the bytes. -/
theorem take_completeActs {n clocks : Nat} {image : List Byte} (h : n ≤ min clocks 9 + 16) :
    (completeActs clocks image).take n =
      (List.replicate (min clocks 9) PortAct.recoveryClock ++ PortAct.startCondition :: readActs image).take n := by
  obtain ⟨-, -, length⟩ := readActs_conditions image
  rw [completeActs_eq, List.take_append_of_le_length]
  simpa [length] using h

/-- What the port shows of the act in progress is no condition. -/
theorem cutOff_conditions (bits : Nat) (a : PortAct) :
    .startCondition ∉ a.cutOff bits ∧ .stopCondition ∉ a.cutOff bits := by
  cases a with
  | sendByte b ack | receiveByte b ack =>
    simp only [PortAct.cutOff]
    split <;> simp
  | recoveryClock | startCondition | sendBits | repeatedStart | receiveBits | stopCondition | heldClock
  | releaseLines => simp [PortAct.cutOff]

/-- The act in progress when the clock was held. -/
def cutAct (x : ReadCut) : PortAct := ((completeActs x.clocks x.image).drop x.acts).headD .stopCondition

/-- What an attempt has put on the port before the clock that is held. -/
def actsBefore (x : ReadCut) : List PortAct :=
  (completeActs x.clocks x.image).take x.acts ++ (cutAct x).cutOff x.bits

theorem cutActs_eq (x : ReadCut) :
    cutActs x = actsBefore x ++ [.heldClock ((cutAct x).nextSda x.bits), .releaseLines] :=
  (List.append_assoc ..).symm

theorem cutAct_of_get {x : ReadCut} {a : PortAct} (h : (completeActs x.clocks x.image)[x.acts]? = some a) :
    cutAct x = a := by
  rw [cutAct, List.headD_eq_head?_getD, List.head?_drop, h, Option.getD_some]

/-- A whole number of acts. -/
theorem actsBefore_whole {x : ReadCut} (h : x.bits = 0) :
    actsBefore x = (completeActs x.clocks x.image).take x.acts := by
  have nothing : (cutAct x).cutOff 0 = [] := by cases cutAct x <;> rfl
  rw [actsBefore, h, nothing, List.append_nil]

/-- A read that is cut off within its attempt shows no STOP, not in what it did and not as it lets go of the lines
(R157). -/
theorem cut_without_stop {x : ReadCut} (h : x.within = true) (sda : Bool) : .stopCondition ∉ actsBefore x ∧
    sendsStop ((actsBefore x ++ [PortAct.heldClock sda, PortAct.releaseLines]).flatMap PortAct.levels) = false := by
  have far : x.acts ≤ min x.clocks 9 + 16 := by
    simp only [ReadCut.within, Bool.and_eq_true, decide_eq_true_eq] at h
    obtain ⟨⟨-, far⟩, -⟩ := h
    exact far
  obtain ⟨noStart, noStop, -⟩ := readActs_conditions x.image
  obtain ⟨cutStart, cutStop⟩ := cutOff_conditions x.bits (cutAct x)
  rw [actsBefore, take_completeActs far, List.take_append, List.take_replicate, List.length_replicate]
  generalize x.acts - min x.clocks 9 = n
  constructor
  · cases n with
    | zero => simp [cutStop]
    | succ n => simp [cutStop, mt List.mem_of_mem_take noStop]
  · rw [List.append_assoc, List.append_assoc, sendsStop_recovered]
    cases n with
    | zero =>
      rw [List.take_zero, List.nil_append, (sendsStop_acts (by simp [cutStart])).1]
      simp [cutStop]
    | succ n =>
      rw [List.take_succ_cons, List.cons_append,
        sendsStop_started (by simp [cutStart, mt List.mem_of_mem_take noStart])]
      simp [cutStop, mt List.mem_of_mem_take noStop]

/-- An attempt that was not cut off ends with a STOP (R156, R157). -/
theorem attempts_end_with_stop (clocks : Nat) (point : AckPoint) (image : List Byte) :
    sendsStop ((failedActs clocks point).flatMap PortAct.levels) = true ∧
      sendsStop ((completeActs clocks image).flatMap PortAct.levels) = true :=
  ⟨sendsStop_ended _, completeActs_eq clocks image ▸ sendsStop_ended _⟩

/-! ### The read (R157, R158) -/

/-- Setting a flag that is set changes nothing. -/
theorem withFlag_set {r : ReportUnit} {f : FaultFlag} (h : r.isSet f = true) : r.withFlag f = r := by
  have flags : r.flags ||| BitVec.twoPow 8 (flagOrder f) = r.flags := by
    refine BitVec.eq_of_getLsbD_eq (fun i hi => ?_)
    rw [BitVec.getLsbD_or, BitVec.getLsbD_twoPow]
    by_cases hf : flagOrder f = i
    · subst hf; simp [show r.flags.getLsbD (flagOrder f) = true from h]
    · simp [hf]
  rw [ReportUnit.withFlag, flags]

/-- A station that is neither in LISTEN nor in ACTIVE raises a flag without a REPORT (R173). -/
theorem raiseFlag_quiet {s : State} (hp : s.participates = false) (f : FaultFlag) :
    s.raiseFlag f = { s with report := s.report.withFlag f } := by
  cases h : s.report.isSet f with
  | true => rw [raiseFlag_set h, withFlag_set h]
  | false => exact raiseFlag_untold h hp

theorem readAbandoned_eq {s : State} (hp : s.participates = false) (acts : List PortAct) :
    s.readAbandoned acts = { s with
      life := { s.life with settings := Config.defaults, loader := .done, result := .absent,
                            port := s.life.port ++ acts }
      report := s.report.withFlag .configDefaulted } :=
  raiseFlag_quiet (s := s.onLife (fun l => l.readEnded Config.defaults .absent acts)) hp _

section
variable {s : State} (held : s.life.held = false)
include held

theorem exec_missingAcknowledge (clocks : Nat) (point : AckPoint) :
    exec (.missingAcknowledge clocks point) s = .next (s.doMissingAcknowledge clocks point) := next_live held

theorem exec_loaderPauseEnd (hl : s.life.loader = .pause) : exec .loaderPauseEnd s =
    .next { s with life := { s.life with loader := .reading, attempt := 2 } } :=
  (next_live held).trans (congrArg _ (if_pos hl))

theorem exec_sclHeldLow (hold : ClockHold) :
    exec (.sclHeldLow hold) s = .next (s.doSclHeldLow hold.micros hold.cut) := next_live held

theorem exec_configurationReadEnd (clocks : Nat) (image : List Byte) :
    exec (.configurationReadEnd clocks image) s = .next (s.doConfigurationReadEnd clocks image) := next_live held

end

theorem doMissingAcknowledge_first {s : State} (hl : s.life.loader = .reading) (ha : s.life.attempt = 1) (clocks : Nat)
    (point : AckPoint) : s.doMissingAcknowledge clocks point = { s with
      life := { s.life with loader := .pause, port := s.life.port ++ failedActs clocks point } } := by
  rw [State.doMissingAcknowledge, if_pos hl, if_pos (by omega)]
  rfl

theorem doMissingAcknowledge_second {s : State} (hl : s.life.loader = .reading) (ha : s.life.attempt = 2) (clocks : Nat)
    (point : AckPoint) : s.doMissingAcknowledge clocks point = s.readAbandoned (failedActs clocks point) := by
  rw [State.doMissingAcknowledge, if_pos hl, if_neg (by omega)]

theorem doSclHeldLow_long {s : State} (hl : s.life.loader = .reading) {micros : Nat} (h : 10000 < micros)
    (cut : ReadCut) : s.doSclHeldLow micros cut = s.readAbandoned (cutActs cut) := if_pos ⟨hl, h⟩

theorem doSclHeldLow_short {micros : Nat} (h : micros ≤ 10000) (cut : ReadCut) (s : State) :
    s.doSclHeldLow micros cut = s := if_neg (fun held => not_lt.2 h held.2)

theorem doConfigurationReadEnd_reading {s : State} (hp : s.participates = false) (hl : s.life.loader = .reading)
    (clocks : Nat) (image : List Byte) : s.doConfigurationReadEnd clocks image = { s with
      life := { s.life with settings := (judgeImage image).1, loader := .done, result := (judgeImage image).2,
                            port := s.life.port ++ completeActs clocks image }
      report := if (judgeImage image).2 = .image then s.report else s.report.withFlag .configBad } := by
  rw [State.doConfigurationReadEnd, if_pos hl]
  dsimp only
  split
  · rfl
  · exact raiseFlag_quiet (s := s.onLife (fun l => l.readEnded _ _ _)) hp _

/-- Settles O6: the failures of an attempt, the end of a complete one, and the levels on the port. -/
theorem configurationReads : Obligations.ConfigurationReads := by
  refine ⟨fun clocks point micros cut s held quiet => ⟨fun reading first => ?_, exec_loaderPauseEnd held,
      fun reading second => ?_, fun reading long => ?_, fun short => ?_⟩,
    fun clocks image s held quiet reading => ?_, fun b ack => ⟨levels_sendByte b ack, levels_receiveByte b ack⟩,
    fun _ => ⟨rfl, rfl⟩, attempts_end_with_stop⟩
  · rw [exec_missingAcknowledge held, doMissingAcknowledge_first reading first]
  · rw [exec_missingAcknowledge held, doMissingAcknowledge_second reading second, readAbandoned_eq quiet]
  · refine ⟨actsBefore cut, (cutAct cut).nextSda cut.bits, ?_, fun within => cut_without_stop within _,
      actsBefore_whole, fun b ack sent => ?_, fun b ack received => ?_⟩
    · rw [exec_sclHeldLow held, doSclHeldLow_long reading long, readAbandoned_eq quiet, cutActs_eq]
    · rw [cutAct_of_get sent, nextSda_sendByte]
    · rw [cutAct_of_get received, nextSda_receiveByte]
  · rw [exec_sclHeldLow held, doSclHeldLow_short short]
  · rw [exec_configurationReadEnd held, doConfigurationReadEnd_reading quiet reading]

end Sys2Proof.Proofs

/-! Proofs: the entry to LISTEN (O8). -/

namespace Sys2Proof.Proofs

open Sys2Proof Sys2Proof.Machine Sys2Proof.Laws

/-! ### A new notice in an outbox with room (R99) -/

/-- Outside a window a notice of a new key joins an outbox that has room. -/
theorem place_new {s : State} {n : Notice} (hw : s.notice.inWindow = none)
    (hk : ∀ e ∈ s.notice.outbox, e.notice.key ≠ n.key) (hl : s.notice.outbox.length < 16) :
    s.place n = s.joinOutbox n := by
  rw [place_outside n hw, holdsKey_eq_false hk, if_neg Bool.false_ne_true, if_pos hl]

/-! ### The entry (R160) -/

/-- The station in LISTEN before its first notices: the outbox and the intake empty, itself on the roster. -/
def listenBegun (s : State) : State :=
  { s with
    life := { s.life with station := .listen }
    notice := NoticeCtl.empty
    mapu := { (s.putRoster s.own { state := .present, age := 0, last := none }).mapu with
      intake := [], listenCount := 0 }
    pool := { s.pool with freshPending := true, heartbeat := 0 } }

/-- The first PRESENT of a station, fresh (R149). -/
def firstPresent (s : State) : OutEntry :=
  { notice := .present (capped255 s.load) (capped255 s.headroom) s.freeContexts true false, age := 0, retries := 0 }

/-- The REPORT of the flags that follows the first PRESENT (R160). -/
def flagsReport (s : State) : OutEntry := { notice := .report 0 0x02#8 s.report.flagsValue, age := 1, retries := 0 }

/-- The first PRESENT is placed in an empty outbox. -/
theorem place_firstPresent (s : State) : (listenBegun s).place ((listenBegun s).presentNotice true) =
    { listenBegun s with notice := { NoticeCtl.empty with outbox := [firstPresent s], nextAge := 1 } } :=
  (place_new rfl (by simp [listenBegun, NoticeCtl.empty]) (by simp [listenBegun, NoticeCtl.empty])).trans rfl

theorem enterListen_eq (s : State) : s.enterListen = { listenBegun s with notice := { NoticeCtl.empty with
    outbox := if s.report.flags = 0 then [firstPresent s] else [firstPresent s, flagsReport s]
    nextAge := if s.report.flags = 0 then 1 else 2 } } := by
  have first := place_firstPresent s
  have entered : s.enterListen = (let t := (listenBegun s).place ((listenBegun s).presentNotice true)
    if t.report.flags = 0 then t else t.placeReport 0 0x02#8 t.report.flagsValue) := rfl
  rw [entered, first]
  by_cases clear : s.report.flags = 0
  · simp [listenBegun, clear]
  · have other : ∀ e ∈ [firstPresent s], e.notice.key ≠ (flagsReport s).notice.key := by
      simp [firstPresent, flagsReport, Notice.key, Notice.kindCode]
    simp only [listenBegun, clear, if_false]
    exact (place_new rfl other (by simp)).trans rfl

/-- The own roster entry becomes PRESENT, and every other stays (R160). -/
theorem rosterAt_listenBegun (s : State) (q : Station) :
    (listenBegun s).rosterAt q = if q = s.own then { state := .present, age := 0, last := none } else s.rosterAt q :=
  rosterAt_putRoster s.own q { state := .present, age := 0, last := none } s

theorem exec_enterListen {s : State} (hh : s.life.held = false) (hd : s.listenDue = true) :
    exec .enterListen s = .next s.enterListen :=
  (next_live hh).trans (congrArg _ (if_pos hd))

/-- The judgement of the quiet count (R164). -/
theorem exec_quietPeriodEnd {s : State} (hh : s.life.held = false) (hs : s.life.station = .retreat)
    (hj : s.life.quietJudge = true) :
    exec .quietPeriodEnd s = .next (let t : State := { s with life := { s.life with quietJudge := false } }
      if s.life.settings.quietPeriod ≤ s.life.quietCount ∧ s.hwi.timing = .good then t.enterListen else t) :=
  (next_live hh).trans (congrArg _ (if_pos ⟨hs, hj⟩))


/-- Settles O8: the entry from START, and the judgement of the quiet count on both sides of the quiet period. -/
theorem entryToListen : Obligations.EntryToListen := by
  intro s held good present flags entered
  have enters : ∀ l : Life, l.settings = s.life.settings → l.number = s.life.number →
      entered l ({ s with life := l } : State).enterListen := by
    intro l settings number
    have first : firstPresent { s with life := l } = present := by
      simp only [present, firstPresent, State.headroom, State.budget, settings]
      rfl
    have own : ({ s with life := l } : State).own = s.own := number
    have roster := fun q => rosterAt_listenBegun { s with life := l } q
    rw [enterListen_eq, first]
    refine ⟨rfl, rfl, rfl, rfl, rfl, rfl, rfl, rfl, rfl, rfl, rfl, rfl, rfl, rfl, ?_, fun q other => ?_, rfl⟩
    · exact (roster s.own).trans (if_pos own.symm)
    · exact (roster q).trans (if_neg (own ▸ other))
  refine ⟨fun start done taken => ?_, fun retreat judge ends => ?_, fun retreat judge goesOn => ?_⟩
  · have due : s.listenDue = true := by simp [State.listenDue, start, good, done, taken]
    exact ⟨_, exec_enterListen held due, enters s.life rfl rfl⟩
  · refine ⟨_, exec_quietPeriodEnd held retreat judge, ?_⟩
    rw [if_pos ⟨ends, good⟩]
    exact enters _ rfl rfl
  · rw [exec_quietPeriodEnd held retreat judge, if_neg (fun h => not_le.2 goesOn h.1)]

end Sys2Proof.Proofs

/-! Proofs: the command that a step takes (O1). -/

namespace Sys2Proof.Proofs

open Sys2Proof Sys2Proof.Machine Sys2Proof.Laws

/-- A step from a queue with a front, in the form that a hypothesis about the queue rewrites with. -/
theorem step_of_pending_cons {c : Instr} {rest : List Instr} {s : State} (front : s.pending = c :: rest) :
    step s = exec c { s with pending := rest } := by
  rw [step, front]

/-- No event, no effect: the idling of log 19. -/
theorem step_of_pending_nil {s : State} (empty : s.pending = []) : step s = .next s := by
  rw [step, empty]

/-- Settles O1: the two cases of the queue; the state with a queue put in differs from the state in nothing but the
queue, so the command runs on the state with the rest. -/
theorem stepTakesTheFront : Obligations.StepTakesTheFront := by
  refine ⟨fun c rest s => ?front, fun s empty => ?idle⟩
  case front => exact step_of_pending_cons (s := { s with pending := c :: rest }) rfl
  case idle => exact step_of_pending_nil empty

end Sys2Proof.Proofs
